-- ==== Sys2Proof/Word.lean ====
section
/-! DEFINITION. The word and byte types of the block (00_scope.md R7: every quantity is an unsigned integer; register width 32, R6). -/

namespace Sys2Proof

/-- A register value or a command word (`REG_W` = 32, R6). -/
abbrev Word := BitVec 32

/-- One byte of data memory (R100). -/
abbrev Byte := BitVec 8

/-- A natural number as a register value: its low 32 bits. -/
abbrev word (n : Nat) : Word := BitVec.ofNat 32 n

/-- The unsigned field of `n` bits from bit `lo` of a word (R7), as a number. -/
def Word.field (v : Word) (lo n : Nat) : Nat := v.toNat / 2 ^ lo % 2 ^ n

end Sys2Proof
end

