-- ==== Sys2Proof/Syntax.lean ====
section
/-! DEFINITION. The 22 commands of 30_encoding.md R143, one constructor for each row of the opcode table. -/

namespace Sys2Proof

/-- A command. The field of format N is the bit count, the field of format W the width code (R141). -/
inductive Instr
  /-- 0x00 NOP (40_control.md R184). -/
  | nop
  /-- 0x01 BR_RESET (41_bitio.md R200). -/
  | brReset
  /-- 0x02 BR_READ n (R203). -/
  | brRead (n : BitVec 6)
  /-- 0x03 BR_ALIGN (R204). -/
  | brAlign
  /-- 0x04 BR_READ_INT (R205). -/
  | brReadInt (w : BitVec 2)
  /-- 0x08 BW_RESET (R210). -/
  | bwReset
  /-- 0x09 BW_WRITE n (R212). -/
  | bwWrite (n : BitVec 6)
  /-- 0x0A BW_FLUSH (R213). -/
  | bwFlush
  /-- 0x0B BW_WRITE_INT (R214). -/
  | bwWriteInt (w : BitVec 2)
  /-- 0x10 MF_FIND (42_match_finder.md R258). -/
  | mfFind
  /-- 0x11 LZ_PARSE (43_parser.md R299). -/
  | lzParse
  /-- 0x20 HF_COUNT (44_huffman.md R332). -/
  | hfCount
  /-- 0x21 HF_BUILD (R343). -/
  | hfBuild
  /-- 0x22 HF_LOAD (R344). -/
  | hfLoad
  /-- 0x23 HF_ENCODE (R351). -/
  | hfEncode
  /-- 0x24 HF_ENCODE_BUF (R353). -/
  | hfEncodeBuf
  /-- 0x25 HF_DECODE (R354). -/
  | hfDecode
  /-- 0x26 HF_DECODE_BUF (R355). -/
  | hfDecodeBuf
  /-- 0x30 EX_RESET (45_expander.md R391). -/
  | exReset
  /-- 0x31 EX_LIT (R392). -/
  | exLit
  /-- 0x32 EX_MATCH (R393). -/
  | exMatch
  /-- 0x33 EX_STREAM (R394). -/
  | exStream
  deriving DecidableEq, Repr

end Sys2Proof
end

