-- ==== Sys2Proof/WellFormed.lean ====
section
/-! DEFINITION. Which command terms the encoding admits (30_encoding.md R141, R144). -/

namespace Sys2Proof

/-- Format N admits bit counts 0 to 32; format W admits width codes 0 to 2 (R141). -/
def Instr.wf : Instr → Bool
  | .brRead n => n.toNat ≤ 32
  | .bwWrite n => n.toNat ≤ 32
  | .brReadInt w => w.toNat ≠ 3
  | .bwWriteInt w => w.toNat ≠ 3
  | .nop | .brReset | .brAlign | .bwReset | .bwFlush | .mfFind | .lzParse
  | .hfCount | .hfBuild | .hfLoad | .hfEncode | .hfEncodeBuf | .hfDecode | .hfDecodeBuf
  | .exReset | .exLit | .exMatch | .exStream => true

end Sys2Proof
end

