-- ==== Sys2Proof/Decode.lean ====
section
/-! DEFINITION. The decoder of command words (30_encoding.md R145), total on every 32-bit word and refusing by name, and the encoder from the formats of R141. -/

namespace Sys2Proof

/-- Why a command word is illegal (R144). -/
inductive Illegal
  /-- Its opcode is not in the map of R143. -/
  | reservedOpcode (opc : BitVec 8)
  /-- A bit its format requires to be 0 is 1. -/
  | nonzeroBits
  /-- Format N with a bit count above 32. -/
  | countAbove32 (n : BitVec 6)
  /-- Format W with width code 3. -/
  | widthCode3
  deriving DecidableEq, Repr

/-- Format Z: bits [31:8] must be 0 (R141). -/
def decodeZ (c : Word) (i : Instr) : Except Illegal Instr :=
  if c.extractLsb' 8 24 = 0 then .ok i else .error .nonzeroBits

/-- Format N: bits [31:14] must be 0, N is bits [13:8] and at most 32 (R141). -/
def decodeN (c : Word) (mk : BitVec 6 → Instr) : Except Illegal Instr :=
  if c.extractLsb' 14 18 = 0 then
    if (c.extractLsb' 8 6).toNat ≤ 32 then .ok (mk (c.extractLsb' 8 6))
    else .error (.countAbove32 (c.extractLsb' 8 6))
  else .error .nonzeroBits

/-- Format W: bits [31:10] must be 0, W is bits [9:8] and not 3 (R141). -/
def decodeW (c : Word) (mk : BitVec 2 → Instr) : Except Illegal Instr :=
  if c.extractLsb' 10 22 = 0 then
    if (c.extractLsb' 8 2).toNat ≠ 3 then .ok (mk (c.extractLsb' 8 2))
    else .error .widthCode3
  else .error .nonzeroBits

/-- Decoding a command word, a function of the word alone (R145, opcode map R143). -/
def decode (c : Word) : Except Illegal Instr :=
  match c.extractLsb' 0 8 with
  | 0x00#8 => decodeZ c .nop
  | 0x01#8 => decodeZ c .brReset
  | 0x02#8 => decodeN c .brRead
  | 0x03#8 => decodeZ c .brAlign
  | 0x04#8 => decodeW c .brReadInt
  | 0x08#8 => decodeZ c .bwReset
  | 0x09#8 => decodeN c .bwWrite
  | 0x0A#8 => decodeZ c .bwFlush
  | 0x0B#8 => decodeW c .bwWriteInt
  | 0x10#8 => decodeZ c .mfFind
  | 0x11#8 => decodeZ c .lzParse
  | 0x20#8 => decodeZ c .hfCount
  | 0x21#8 => decodeZ c .hfBuild
  | 0x22#8 => decodeZ c .hfLoad
  | 0x23#8 => decodeZ c .hfEncode
  | 0x24#8 => decodeZ c .hfEncodeBuf
  | 0x25#8 => decodeZ c .hfDecode
  | 0x26#8 => decodeZ c .hfDecodeBuf
  | 0x30#8 => decodeZ c .exReset
  | 0x31#8 => decodeZ c .exLit
  | 0x32#8 => decodeZ c .exMatch
  | 0x33#8 => decodeZ c .exStream
  | opc => .error (.reservedOpcode opc)

/-- A format Z word: the opcode, all other bits 0 (R141). -/
def encodeZ (opc : BitVec 8) : Word := 0#24 ++ opc

/-- A format N word: N at [13:8] (R141). -/
def encodeN (opc : BitVec 8) (n : BitVec 6) : Word := 0#18 ++ n ++ opc

/-- A format W word: W at [9:8] (R141). -/
def encodeW (opc : BitVec 8) (w : BitVec 2) : Word := 0#22 ++ w ++ opc

/-- The command word of a command (R141, R143). -/
def encode : Instr → Word
  | .nop => encodeZ 0x00
  | .brReset => encodeZ 0x01
  | .brRead n => encodeN 0x02 n
  | .brAlign => encodeZ 0x03
  | .brReadInt w => encodeW 0x04 w
  | .bwReset => encodeZ 0x08
  | .bwWrite n => encodeN 0x09 n
  | .bwFlush => encodeZ 0x0A
  | .bwWriteInt w => encodeW 0x0B w
  | .mfFind => encodeZ 0x10
  | .lzParse => encodeZ 0x11
  | .hfCount => encodeZ 0x20
  | .hfBuild => encodeZ 0x21
  | .hfLoad => encodeZ 0x22
  | .hfEncode => encodeZ 0x23
  | .hfEncodeBuf => encodeZ 0x24
  | .hfDecode => encodeZ 0x25
  | .hfDecodeBuf => encodeZ 0x26
  | .exReset => encodeZ 0x30
  | .exLit => encodeZ 0x31
  | .exMatch => encodeZ 0x32
  | .exStream => encodeZ 0x33

/-- The command word the host writes to CMD for the low `nbits` bits of `w` numbered as the opcode table numbers them, every higher bit 0. -/
def commandWord (nbits w : Nat) : Word := word (w % 2 ^ nbits)

/-- What the decoder reads from the instruction whose bits are `w` (a command is always one 32-bit word, R140). -/
def decodeTableWord (nbits w : Nat) : Option Instr :=
  match decode (commandWord nbits w) with
  | .ok i => some i
  | .error _ => none

end Sys2Proof
end

