-- ==== Sys2Proof/Config.lean ====
section
/-! DEFINITION. What an implementation fixes (the open parameters of 00_scope.md R6) and the free values (60_exceptions.md R424, 93_implementation_defined.md). A constant declared `opaque` has no body here: nothing can be proved of its value. -/

namespace Sys2Proof

/-- A token is a literal or a match (00_scope.md R10; the KIND field of 30_encoding.md R150). -/
inductive TokenKind
  | literal
  | backRef
  deriving DecidableEq, Repr

/-- The KIND word: 0 for a literal, 1 for a match (R150). -/
def TokenKind.toWord : TokenKind → Word
  | .literal => 0
  | .backRef => 1

/-- A token descriptor (R150), which is also a price request (43_parser.md R290): `value` is VALUE for a literal and DISPLACEMENT for a match. -/
structure Token where
  kind : TokenKind
  position : Word
  value : Word
  length : Word
  deriving DecidableEq, Repr

namespace Config

/-- The OPEN price function PRICE (R6, R290): pure, total, one u32 for a request. -/
opaque price : Token → Word

/-- The OPEN choice LIMIT_CHOICE(f, CAP) (R6, 44_huffman.md R338): the length vector, over the symbols with f[s] > 0 in ascending order, that the implementation proposes for the whole frequency table f and this cap. Any minimiser can be proposed; a proposal that is none is never used (`limitLengths`). -/
opaque limitProposal : List Nat → Nat → List Nat

/-- A byte of data memory that a rule leaves at any value: the value the `count`-th such event leaves at address `addr`. -/
opaque anyByte : Nat → Nat → Byte

/-- A register that a rule leaves at any value: the value the `count`-th such event leaves in the register at offset `off`. -/
opaque anyWord : Nat → Nat → Word

/-- A bit that the rules give no value: the value at the `count`-th such event. -/
opaque anyBit : Nat → Bool

/-- Whether an overlap of HF_BUILD's two written windows is reported at the tree window's base register (true) or at the book window's (false): 20_memory.md R104 names "the written window's base register", and both are written. -/
opaque overlapNamesTree : Bool

end Config

/-- The implementation's PRICE. `port` is the open function of R290. `perKind` is the calculator of 95_test_vectors.md that has one constant price for each token kind, one of the functions PRICE may be. -/
inductive Pricing
  | port
  | perKind (literalPrice matchPrice : Word)
  deriving DecidableEq, Repr

/-- The price of a request (R290). -/
def Pricing.price : Pricing → Token → Word
  | .port, t => Config.price t
  | .perKind l m, t => match t.kind with
    | .literal => l
    | .backRef => m

/-- The implementation's LIMIT_CHOICE. `choice` is the open choice of R338. `fixed` always proposes one given vector (used where it is a minimiser), one of the choices LIMIT_CHOICE may be. -/
inductive Limiter
  | choice
  | fixed (lengths : List Nat)
  deriving DecidableEq, Repr

/-- The length vector proposed for a frequency table under a cap. -/
def Limiter.proposal : Limiter → List Nat → Nat → List Nat
  | .choice, freqs, cap => Config.limitProposal freqs cap
  | .fixed ls, _, _ => ls

/-- The open parameters of R6, fixed for a machine. -/
structure Params where
  /-- MEM_SIZE, the size of data memory in bytes, 1 to 2^32 (92_eei_decisions.md D5). -/
  memSize : Nat
  /-- PRICE. -/
  price : Pricing
  /-- LIMIT_CHOICE. -/
  limiter : Limiter
  deriving DecidableEq, Repr

/-- MEM_SIZE is in the range R6 gives it. -/
abbrev Params.Legal (p : Params) : Prop := 1 ≤ p.memSize ∧ p.memSize ≤ 2 ^ 32

end Sys2Proof
end

