-- ==== Sys2Proof/Machine/State.lean ====
section
/-! DEFINITION. The whole state of the block as plain data (10_state.md), the pending host accesses (the machine's input), the reasons a step can stop, and the state after reset (70_reset_and_hazards.md R462). -/

namespace Sys2Proof.Machine

/-- BIT_ORDER of BR_CFG and BW_CFG (R38): 0 = MSB_first, 1 = LSB_first. -/
inductive BitOrder
  | msbFirst
  | lsbFirst
  deriving DecidableEq, Repr

/-- BYTE_ORDER of BR_CFG and BW_CFG (R38): 0 = LE, 1 = BE. -/
inductive ByteOrder
  | le
  | be
  deriving DecidableEq, Repr

/-- UNIT of BR_CFG and BW_CFG (R38): the unit width U, 8 or 16 bits (R9). -/
inductive UnitWidth
  | bits8
  | bits16
  deriving DecidableEq, Repr

/-- DIRECTION of MF_OPT and EX_CFG (R42, R61). -/
inductive Direction
  | forward
  | backward
  deriving DecidableEq, Repr

/-- UNIT of MF_OPT and EX_CFG (R42, R61): the unit size u, 1 or 2 bytes (R9). -/
inductive UnitSize
  | one
  | two
  deriving DecidableEq, Repr

/-- WIDTH of HF_CFG (R80): 8-bit or 4-bit symbols. -/
inductive SymWidth
  | bits8
  | bits4
  deriving DecidableEq, Repr

/-- NIBBLE_ORDER of HF_CFG (R80). -/
inductive NibbleOrder
  | lowFirst
  | highFirst
  deriving DecidableEq, Repr

/-- CTRL (R32); SOFT_RESET holds nothing. -/
structure Ctrl where
  irqEnDone : Bool
  irqEnErr : Bool
  deriving DecidableEq, Repr

/-- STATUS (R33). -/
structure Status where
  busy : Bool
  done : Bool
  err : Bool
  drop : Bool
  errCode : BitVec 4
  deriving DecidableEq, Repr

/-- BR_CFG and BW_CFG (R38, R40). -/
structure BitCfg where
  bitOrder : BitOrder
  byteOrder : ByteOrder
  unit : UnitWidth
  deriving DecidableEq, Repr

/-- The bit reader: BR_CFG, BR_BASE, BR_LEN, BR_POS, BR_BITS, BR_BUF (R38, R39). -/
structure Reader where
  cfg : BitCfg
  base : Word
  len : Word
  pos : Word
  bits : BitVec 5
  buf : BitVec 16
  deriving DecidableEq, Repr

/-- The bit writer: BW_CFG, BW_BASE, BW_CAP, BW_POS, BW_BITS, BW_BUF (R40, R41). -/
structure Writer where
  cfg : BitCfg
  base : Word
  cap : Word
  pos : Word
  bits : BitVec 5
  buf : BitVec 16
  deriving DecidableEq, Repr

/-- MF_OPT (R42). -/
structure MfOpt where
  direction : Direction
  unit : UnitSize
  skip : BitVec 8
  decodeOnly : Bool
  deriving DecidableEq, Repr

/-- One limitation slot: LIMk_MIN_LEN, LIMk_MAX_LEN, LIMk_MIN_DISP, LIMk_MAX_DISP (R60). -/
structure LimSlot where
  minLen : Word
  maxLen : Word
  minDisp : Word
  maxDisp : Word
  deriving DecidableEq, Repr

/-- The match finder and parser registers (R42, R43, R60). -/
structure Finder where
  opt : MfOpt
  prebufBase : Word
  prebufSize : Word
  inBase : Word
  inLen : Word
  tokBase : Word
  tokCap : Word
  tokCount : Word
  costLo : Word
  costHi : Word
  limEn : BitVec 4
  candBase : Word
  candCap : Word
  lim0 : LimSlot
  lim1 : LimSlot
  lim2 : LimSlot
  lim3 : LimSlot
  deriving DecidableEq, Repr

/-- The expander registers (R61, R62). -/
structure Expander where
  direction : Direction
  unit : UnitSize
  outBase : Word
  outCap : Word
  pos : Word
  prebufBase : Word
  prebufSize : Word
  tokBase : Word
  tokCount : Word
  deriving DecidableEq, Repr

/-- HF_CFG (R80). -/
structure HfCfg where
  width : SymWidth
  nibbleOrder : NibbleOrder
  canon : Bool
  limitEn : Bool
  cap : BitVec 6
  deriving DecidableEq, Repr

/-- HF_STATE (R82). -/
structure HfState where
  valid : Bool
  limited : Bool
  maxLen : BitVec 7
  deriving DecidableEq, Repr

/-- A node of TREE (R83; the descriptor of 30_encoding.md R152). -/
structure Node where
  leaf : Bool
  synth : Bool
  sym : Byte
  freq : Word
  left : Word
  right : Word
  deriving DecidableEq, Repr

/-- A code of BOOK (R83): the code right-aligned in 64 bits, and its length. -/
structure Code where
  code : BitVec 64
  len : Nat
  deriving DecidableEq, Repr

/-- The Huffman registers and the internal TREE and BOOK (R80 to R83). `book` lists the symbols that have a code; every other symbol has LEN 0. -/
structure Huffman where
  cfg : HfCfg
  srcBase : Word
  srcLen : Word
  freqBase : Word
  treeBase : Word
  bookBase : Word
  root : Word
  nodes : Word
  state : HfState
  dstBase : Word
  dstCap : Word
  dstPos : Word
  tree : List Node
  book : List (Nat × Code)
  deriving DecidableEq, Repr

/-- The error kinds, codes 1 to 7 (60_exceptions.md R420). -/
inductive ErrKind
  | outOfRangeWrite
  | invalidRange
  | truncatedInput
  | malformedToken
  | huffmanCapExceeded
  | unsupportedOperation
  | illegalCommand
  deriving DecidableEq, Repr

/-- Data memory (20_memory.md R100): the bytes that differ from what an unlisted address reads as, addresses strictly rising (`Memory.wf`). -/
abbrev Memory := List Host.Cell

/-- One access of the host or the reset input (R30, R113, R460). `width` is the access width in bytes; the register port admits 4. -/
inductive HostOp
  | regWrite (off width : Nat) (value : Word)
  | regRead (off width : Nat)
  | memWrite (addr : Nat) (value : Byte)
  | memRead (addr : Nat)
  | resetInput
  deriving DecidableEq, Repr

/-- The machine. -/
structure State where
  /-- The open parameters of R6, fixed for the machine. -/
  params : Params
  /-- Data memory. -/
  mem : Memory
  ctrl : Ctrl
  status : Status
  /-- ERR_POS (R34). -/
  errPos : Word
  /-- ARG0 (R36). -/
  arg0 : Word
  /-- ARG1 (R36). -/
  arg1 : Word
  /-- RESULT (R36). -/
  result : Word
  /-- RESULT_HI (R36). -/
  resultHi : Word
  br : Reader
  bw : Writer
  mf : Finder
  ex : Expander
  hf : Huffman
  /-- The model's own: how many times a rule has left something at any value. -/
  anyCount : Nat
  /-- The model's own input: the host accesses still to come, oldest first. -/
  host : List HostOp
  /-- The model's own output: what the host's last read access returned. -/
  hostData : Word
  deriving DecidableEq, Repr

/-- Why a step stops with a fault. -/
inductive Fault
  /-- Raised by `State.admitsPort` through the step: a register access that is not an aligned 32-bit access inside the register space. "The model gives any other access no step" (R30). Safe: the model stops. -/
  | registerAccessNotAdmitted
  /-- Raised by the step: a host access to a data address that is not below MEM_SIZE; data memory has the addresses 0 to MEM_SIZE - 1 (R100). Safe: the model stops. -/
  | noSuchDataAddress
  deriving DecidableEq, Repr

/-- Why a step is refused. -/
inductive Refusal
  /-- Raised by an arm of `exec` for a command that has no meaning yet. Safe: the model stops. -/
  | notModelled (mnemonic : String)
  deriving DecidableEq, Repr

/-- MSB-first, LE, 8-bit units: the reset value of BR_CFG and BW_CFG. -/
def BitCfg.reset : BitCfg := { bitOrder := .msbFirst, byteOrder := .le, unit := .bits8 }

/-- The reset value of the bit reader (R462). -/
def Reader.reset : Reader := { cfg := .reset, base := 0, len := 0, pos := 0, bits := 0, buf := 0 }

/-- The reset value of the bit writer (R462). -/
def Writer.reset : Writer := { cfg := .reset, base := 0, cap := 0, pos := 0, bits := 0, buf := 0 }

/-- The reset value of a limitation slot (R462). -/
def LimSlot.reset : LimSlot := { minLen := 0, maxLen := 0, minDisp := 0, maxDisp := 0 }

/-- The reset values of the match finder and parser (R462). -/
def Finder.reset : Finder :=
  { opt := { direction := .forward, unit := .one, skip := 0, decodeOnly := false }
    prebufBase := 0, prebufSize := 0, inBase := 0, inLen := 0, tokBase := 0, tokCap := 0
    tokCount := 0, costLo := 0, costHi := 0, limEn := 0, candBase := 0, candCap := 0
    lim0 := .reset, lim1 := .reset, lim2 := .reset, lim3 := .reset }

/-- The reset values of the expander (R462). -/
def Expander.reset : Expander :=
  { direction := .forward, unit := .one, outBase := 0, outCap := 0, pos := 0
    prebufBase := 0, prebufSize := 0, tokBase := 0, tokCount := 0 }

/-- The reset values of the Huffman engine: no tree held (R462). -/
def Huffman.reset : Huffman :=
  { cfg := { width := .bits8, nibbleOrder := .lowFirst, canon := false, limitEn := false, cap := 0 }
    srcBase := 0, srcLen := 0, freqBase := 0, treeBase := 0, bookBase := 0, root := 0, nodes := 0
    state := { valid := false, limited := false, maxLen := 0 }
    dstBase := 0, dstCap := 0, dstPos := 0, tree := [], book := [] }

/-- The reset value of STATUS (R462). -/
def Status.reset : Status := { busy := false, done := false, err := false, drop := false, errCode := 0 }

/-- The machine right after reset (R462). Memory lists nothing; MEM_SIZE is 2^32, PRICE the open port and LIMIT_CHOICE the open choice (log entries 3 to 6); no host access is pending. -/
def State.reset : State :=
  { params := { memSize := 2 ^ 32, price := .port, limiter := .choice }
    mem := []
    ctrl := { irqEnDone := false, irqEnErr := false }
    status := .reset
    errPos := 0, arg0 := 0, arg1 := 0, result := 0, resultHi := 0
    br := .reset, bw := .reset, mf := .reset, ex := .reset, hf := .reset
    anyCount := 0, host := [], hostData := 0 }

end Sys2Proof.Machine
end

