-- ==== Sys2Proof/Machine/Operands.lean ====
section
/-! DEFINITION. Operand forms: units, byte and bit order, windows, literal units, symbol sequences (30_encoding.md R142; 20_memory.md R103, R107, R108; 44_huffman.md R331). -/

namespace Sys2Proof.Machine

/-- The unit width U in bits (R9). -/
def UnitWidth.bits : UnitWidth → Nat
  | .bits8 => 8
  | .bits16 => 16

/-- nb = U / 8. -/
def UnitWidth.bytes : UnitWidth → Nat
  | .bits8 => 1
  | .bits16 => 2

/-- The unit size u in bytes (R9). -/
def UnitSize.bytes : UnitSize → Nat
  | .one => 1
  | .two => 2

/-- The symbol width W (R80). -/
def SymWidth.bits : SymWidth → Nat
  | .bits8 => 8
  | .bits4 => 4

/-- The alphabet size A = 2^W (R330). -/
def SymWidth.alphabet (w : SymWidth) : Nat := 2 ^ w.bits

/-- NMAX = 2·A - 1, the largest node count of a tree (44_huffman.md). -/
def SymWidth.maxNodes (w : SymWidth) : Nat := 2 * w.alphabet - 1

/-- The byte count of a width code (R142); code 3 is illegal and names none. -/
def widthBytes (w : BitVec 2) : Nat :=
  match w.toNat with
  | 0 => 1
  | 1 => 2
  | _ => 4

/-- The number a byte sequence stands for, first byte at the lowest address (R107). -/
def bytesValue : ByteOrder → List Byte → Nat
  | .le, bs => bs.foldr (fun b v => b.toNat + 256 * v) 0
  | .be, bs => bs.foldl (fun v b => 256 * v + b.toNat) 0

/-- The `n` bytes of the low 8·n bits of a number, first byte at the lowest address (R107). -/
def valueBytes (o : ByteOrder) (n v : Nat) : List Byte :=
  match o with
  | .le => (List.range n).map fun i => BitVec.ofNat 8 (v / 256 ^ i)
  | .be => (List.range n).map fun i => BitVec.ofNat 8 (v / 256 ^ (n - 1 - i))

/-- The number that bits read in stream order form (R203): MSB-first makes the first bit the most significant, LSB-first makes it bit 0. -/
def bitsValue : BitOrder → List Bool → Nat
  | .msbFirst, bs => bs.foldl (fun v b => 2 * v + b.toNat) 0
  | .lsbFirst, bs => bs.foldr (fun b v => b.toNat + 2 * v) 0

/-- The low `n` bits of a number in stream order (R212). -/
def valueBits (o : BitOrder) (n v : Nat) : List Bool :=
  match o with
  | .msbFirst => (List.range n).map fun i => v.testBit (n - 1 - i)
  | .lsbFirst => (List.range n).map fun i => v.testBit i

/-- The bits of a codeword, most significant code bit first (44_huffman.md R350). -/
def Code.bits (c : Code) : List Bool :=
  (List.range c.len).map fun i => c.code.getLsbD (c.len - 1 - i)

/-- A window: its base address, its length in bytes and the offset of its base register (20_memory.md R103). -/
structure Window where
  base : Nat
  len : Nat
  reg : Nat
  deriving DecidableEq, Repr

/-- A window is valid when it ends inside data memory, without wrap-around; a window of length 0 is valid, wherever its base (R103, log entry 25). -/
def Window.valid (memSize : Nat) (w : Window) : Bool := w.len == 0 || w.base + w.len ≤ memSize

/-- Two windows overlap (R104). -/
def Window.overlaps (a b : Window) : Bool :=
  0 < a.len && 0 < b.len && decide (a.base < b.base + b.len) && decide (b.base < a.base + a.len)

/-- The reader's source window (R39). -/
def Reader.window (r : Reader) : Window := ⟨r.base.toNat, r.len.toNat, 0x044⟩

/-- The writer's output window (R41). -/
def Writer.window (w : Writer) : Window := ⟨w.base.toNat, w.cap.toNat, 0x064⟩

/-- The pre-buffer window of the finder (R43). -/
def Finder.preWindow (f : Finder) : Window := ⟨f.prebufBase.toNat, f.prebufSize.toNat, 0x084⟩

/-- The input window of the finder (R43). -/
def Finder.inWindow (f : Finder) : Window := ⟨f.inBase.toNat, f.inLen.toNat, 0x08C⟩

/-- The token window of the parser, capacity in 16-byte descriptors (R43). -/
def Finder.tokWindow (f : Finder) : Window := ⟨f.tokBase.toNat, 16 * f.tokCap.toNat, 0x094⟩

/-- The candidate window of MF_FIND, capacity in 16-byte descriptors (R43). -/
def Finder.candWindow (f : Finder) : Window := ⟨f.candBase.toNat, 16 * f.candCap.toNat, 0x0AC⟩

/-- The expander's output window (R62). -/
def Expander.outWindow (e : Expander) : Window := ⟨e.outBase.toNat, e.outCap.toNat, 0x104⟩

/-- The expander's pre-buffer window (R62). -/
def Expander.preWindow (e : Expander) : Window := ⟨e.prebufBase.toNat, e.prebufSize.toNat, 0x110⟩

/-- The token descriptors EX_STREAM reads (R62). -/
def Expander.tokWindow (e : Expander) : Window := ⟨e.tokBase.toNat, 16 * e.tokCount.toNat, 0x118⟩

/-- The symbol source (R81). -/
def Huffman.srcWindow (h : Huffman) : Window := ⟨h.srcBase.toNat, h.srcLen.toNat, 0x144⟩

/-- The frequency table, 2^W words (R81, R154). -/
def Huffman.freqWindow (h : Huffman) : Window := ⟨h.freqBase.toNat, 4 * h.cfg.width.alphabet, 0x14C⟩

/-- The node arena HF_BUILD writes, 16·NMAX bytes (R343). -/
def Huffman.treeWindow (h : Huffman) : Window := ⟨h.treeBase.toNat, 16 * h.cfg.width.maxNodes, 0x150⟩

/-- The node arena HF_LOAD reads, 16·c bytes (R344). -/
def Huffman.loadWindow (h : Huffman) (c : Nat) : Window := ⟨h.treeBase.toNat, 16 * c, 0x150⟩

/-- The codebook, 16·A bytes (R343). -/
def Huffman.bookWindow (h : Huffman) : Window := ⟨h.bookBase.toNat, 16 * h.cfg.width.alphabet, 0x154⟩

/-- The HF_DECODE_BUF output (R81). -/
def Huffman.dstWindow (h : Huffman) : Window := ⟨h.dstBase.toNat, h.dstCap.toNat, 0x164⟩

/-- The bytes of a literal unit in stream order, [7:0] first (R108, 30_encoding.md R142). -/
def literalBytes (u : UnitSize) (v : Word) : List Byte :=
  match u with
  | .one => [v.extractLsb' 0 8]
  | .two => [v.extractLsb' 0 8, v.extractLsb' 8 8]

/-- The two symbols of a byte under W = 4, in NIBBLE_ORDER (R331). -/
def nibbles (o : NibbleOrder) (b : Byte) : List Nat :=
  match o with
  | .lowFirst => [b.toNat % 16, b.toNat / 16]
  | .highFirst => [b.toNat / 16, b.toNat % 16]

/-- The symbol sequence of a byte string (R331). -/
def symbolsOf (c : HfCfg) (bs : List Byte) : List Nat :=
  match c.width with
  | .bits8 => bs.map BitVec.toNat
  | .bits4 => bs.flatMap (nibbles c.nibbleOrder)

/-- Limitation slot k (R60). -/
def Finder.slot (f : Finder) : Fin 4 → LimSlot
  | 0 => f.lim0
  | 1 => f.lim1
  | 2 => f.lim2
  | 3 => f.lim3

/-- The enabled limitation slots with their numbers, ascending (R60, R43). -/
def Finder.enabledSlots (f : Finder) : List (Nat × LimSlot) :=
  ([0, 1, 2, 3] : List (Fin 4)).filterMap fun k =>
    if f.limEn.getLsbD k.val then some (k.val, f.slot k) else none

end Sys2Proof.Machine
end

