-- ==== Sys2Proof/Machine/Flags.lean ====
section
/-! DEFINITION. The STATUS and CTRL words, every flag computation of STATUS, and the interrupt line (10_state.md R32, R33; 40_control.md R180 to R186; 60_exceptions.md R420, R424, R430). -/

namespace Sys2Proof.Machine

/-- The error code in STATUS.ERR_CODE (R420). -/
def ErrKind.code : ErrKind → BitVec 4
  | .outOfRangeWrite => 1
  | .invalidRange => 2
  | .truncatedInput => 3
  | .malformedToken => 4
  | .huffmanCapExceeded => 5
  | .unsupportedOperation => 6
  | .illegalCommand => 7

/-- A flag as a bit of a register word. -/
def bit (b : Bool) (i : Nat) : Nat := b.toNat * 2 ^ i

/-- STATUS as the host reads it (R33). -/
def Status.toWord (t : Status) : Word :=
  word (bit t.busy 0 + bit t.done 1 + bit t.err 2 + bit t.drop 3 + t.errCode.toNat * 2 ^ 8)

/-- CTRL as the host reads it; SOFT_RESET reads 0 (R32). -/
def Ctrl.toWord (c : Ctrl) : Word := word (bit c.irqEnDone 0 + bit c.irqEnErr 1)

/-- CTRL after a write with bit 31 = 0 (R186). -/
def Ctrl.ofWord (v : Word) : Ctrl := { irqEnDone := v.getLsbD 0, irqEnErr := v.getLsbD 1 }

/-- A CMD write is accepted when BUSY = 0 and ERR = 0 (R180). -/
def Status.accepts (t : Status) : Bool := !t.busy && !t.err

/-- The first two steps of an accepted command: DONE <- 0, BUSY <- 1 (R180). -/
def Status.accept (t : Status) : Status := { t with done := false, busy := true }

/-- The last two steps of a command: BUSY <- 0, DONE <- 1 (R180, R182). -/
def Status.complete (t : Status) : Status := { t with busy := false, done := true }

/-- STATUS after an error: ERR, ERR_CODE, and the end of the command (R424). -/
def Status.raise (t : Status) (e : ErrKind) : Status :=
  { t with err := true, errCode := e.code, busy := false, done := true }

/-- A dropped register write: DROP <- 1 (R181, R183). -/
def Status.dropped (t : Status) : Status := { t with drop := true }

/-- A host write of v to STATUS, bit by bit; BUSY and ERR_CODE ignore direct writes (R185). -/
def Status.writeOneToClear (t : Status) (v : Word) : Status :=
  { busy := t.busy
    done := t.done && !v.getLsbD 1
    err := t.err && !v.getLsbD 2
    drop := t.drop && !v.getLsbD 3
    errCode := if v.getLsbD 2 then 0 else t.errCode }

/-- The interrupt output, a function of the registers at every moment (R430). -/
def State.irq (s : State) : Bool :=
  (s.status.done && s.ctrl.irqEnDone) || (s.status.err && s.ctrl.irqEnErr)

end Sys2Proof.Machine
end

