-- ==== Sys2Proof/Machine/Ops.lean ====
section
/-! DEFINITION. The named operations over memory and registers: byte and multi-byte accesses (20_memory.md R101, R107), start checks (R103, R104), completion and error (40_control.md R180; 60_exceptions.md R424), values left at any value, and reset (70_reset_and_hazards.md R460). -/

namespace Sys2Proof.Machine

/-! ## Data memory -/

/-- What an address that is not listed reads as (log entry 4). -/
def Memory.unlisted : Byte := 0

/-- Reading one byte (R8, R109: a read has no side effect). -/
def Memory.get : Memory → Nat → Byte
  | [], _ => Memory.unlisted
  | (k, b) :: m, a => if k = a then b else Memory.get m a

/-- Writing one byte, keeping the canonical form. -/
def Memory.set : Memory → Nat → Byte → Memory
  | [], a, b => if b = Memory.unlisted then [] else [(a, b)]
  | (k, c) :: m, a, b =>
    if a < k then
      if b = Memory.unlisted then (k, c) :: m else (a, b) :: (k, c) :: m
    else if a = k then
      if b = Memory.unlisted then m else (a, b) :: m
    else (k, c) :: Memory.set m a b

/-- Every listed address lies at or above `lo`, addresses strictly rise, and no listed byte equals what an unlisted address reads as. -/
def Memory.wfFrom (lo : Nat) : Memory → Bool
  | [] => true
  | (k, b) :: m => decide (lo ≤ k) && decide (b ≠ Memory.unlisted) && Memory.wfFrom (k + 1) m

/-- The canonical form of data memory. -/
def Memory.wf (m : Memory) : Bool := Memory.wfFrom 0 m

/-- The `n` bytes at a, a+1, ... (R101). -/
def Memory.getBytes (m : Memory) : Nat → Nat → List Byte
  | _, 0 => []
  | a, n + 1 => m.get a :: m.getBytes (a + 1) n

/-- Writing bytes at a, a+1, ..., in that order (R101). -/
def Memory.setBytes (m : Memory) : Nat → List Byte → Memory
  | _, [] => m
  | a, b :: bs => Memory.setBytes (m.set a b) (a + 1) bs

/-- A little-endian u32 of a structure in memory (R8, R107(b)). -/
def Memory.getWord (m : Memory) (a : Nat) : Word := word (bytesValue .le (m.getBytes a 4))

/-- Storing a little-endian u32 (R8, R107(b)). -/
def Memory.setWord (m : Memory) (a : Nat) (v : Word) : Memory := m.setBytes a (valueBytes .le 4 v.toNat)

/-- Storing little-endian u32 words one after another (the descriptors of 30_encoding.md R150 to R152). -/
def Memory.setWords (m : Memory) : Nat → List Word → Memory
  | _, [] => m
  | a, v :: vs => Memory.setWords (m.setWord a v) (a + 4) vs

/-- Every byte of [a, a+n) becomes any value: the values of event `count` (R424). -/
def Memory.havoc (m : Memory) (count a : Nat) : Nat → Memory
  | 0 => m
  | n + 1 => Memory.set (Memory.havoc m count a n) (a + n) (Config.anyByte count (a + n))

/-! ## Start checks -/

/-- An error to raise: its kind and ERR_POS. -/
abbrev Err := ErrKind × Word

/-- The error of a check, if its condition holds. -/
def failIf (bad : Bool) (e : ErrKind) (pos : Word) : Option Err := if bad then some (e, pos) else none

/-- The first error of a list of checks, in their order (60_exceptions.md R422). -/
def firstErr : List (Option Err) → Option Err
  | [] => none
  | some e :: _ => some e
  | none :: cs => firstErr cs

/-- The window check of R103: INVALID_RANGE at the base register of an invalid window. -/
def windowErr (memSize : Nat) (w : Window) : Option Err :=
  failIf (!w.valid memSize) .invalidRange (word w.reg)

/-- The overlap check of R104: INVALID_RANGE at the written window's base register. -/
def overlapErr (written other : Window) : Option Err :=
  failIf (written.overlaps other) .invalidRange (word written.reg)

/-! ## Ending a command -/

/-- Standard completion (R182). -/
def State.complete (s : State) : State := { s with status := s.status.complete }

/-- `raise E(pos)`, the block's one form of an exception (R424): ERR, ERR_CODE, ERR_POS, and the end of the command. There is no program counter to save (R426). -/
def State.raise (s : State) (e : Err) : State :=
  { s with status := s.status.raise e.1, errPos := e.2 }

/-- The host's return from an error, and its other acknowledgements: the W1C write of STATUS (R185, R426). Clearing ERR clears ERR_CODE and ERR_POS. -/
def State.writeStatus (s : State) (v : Word) : State :=
  { s with status := s.status.writeOneToClear v, errPos := if v.getLsbD 2 then 0 else s.errPos }

/-- The command has been accepted and runs (R180). -/
def State.accept (s : State) : State := { s with status := s.status.accept }

/-- A register write is dropped (R181, R183). -/
def State.drop (s : State) : State := { s with status := s.status.dropped }

/-- The outcome of a command whose start checks are `checks`: the first error, with no other effect (R423), or else the command's body. -/
def State.checked (s : State) (checks : List (Option Err)) (body : Host.Outcome State Fault Refusal) :
    Host.Outcome State Fault Refusal :=
  match firstErr checks with
  | some e => .next (s.raise e)
  | none => body

/-! ## Values left at any value (R424) -/

/-- The state s with the free-value counter of f: what a command that fails in state f leaves before anything becomes any value, so that no free value drawn while it ran is drawn again. -/
def State.countFrom (s f : State) : State := { s with anyCount := f.anyCount }

/-- RESULT becomes any value. -/
def State.anyResult (s : State) : State := { s with result := Config.anyWord s.anyCount 0x020 }

/-- BR_POS, BR_BITS and BR_BUF become any value. -/
def State.anyReader (s : State) : State :=
  { s with br := { s.br with
      pos := Config.anyWord s.anyCount 0x04C
      bits := (Config.anyWord s.anyCount 0x050).setWidth 5
      buf := (Config.anyWord s.anyCount 0x054).setWidth 16 } }

/-- BW_POS, BW_BITS and BW_BUF become any value. -/
def State.anyWriter (s : State) : State :=
  { s with bw := { s.bw with
      pos := Config.anyWord s.anyCount 0x06C
      bits := (Config.anyWord s.anyCount 0x070).setWidth 5
      buf := (Config.anyWord s.anyCount 0x074).setWidth 16 } }

/-- MF_TOK_COUNT, MF_COST_LO and MF_COST_HI become any value. -/
def State.anyParse (s : State) : State :=
  { s with mf := { s.mf with
      tokCount := Config.anyWord s.anyCount 0x09C
      costLo := Config.anyWord s.anyCount 0x0A0
      costHi := Config.anyWord s.anyCount 0x0A4 } }

/-- EX_POS becomes any value. -/
def State.anyExPos (s : State) : State :=
  { s with ex := { s.ex with pos := Config.anyWord s.anyCount 0x10C } }

/-- HF_DST_POS becomes any value. -/
def State.anyDstPos (s : State) : State :=
  { s with hf := { s.hf with dstPos := Config.anyWord s.anyCount 0x16C } }

/-- Every byte of [a, a+n) becomes any value. -/
def State.anyBytes (s : State) (a n : Nat) : State := { s with mem := s.mem.havoc s.anyCount a n }

/-- Every byte of a window becomes any value. -/
def State.anyWindow (s : State) (w : Window) : State := s.anyBytes w.base w.len

/-- The event that left values free is over: the next one has values of its own. -/
def State.nextAny (s : State) : State := { s with anyCount := s.anyCount + 1 }

/-! ## Stream resets and the reset of the block -/

/-- The effect of BR_RESET (41_bitio.md R200), which writes to BR_CFG, BR_BASE and BR_LEN share (R38, R39). -/
def Reader.restart (r : Reader) : Reader := { r with pos := 0, bits := 0, buf := 0 }

/-- The effect of BW_RESET (R210), which writes to BW_CFG, BW_BASE and BW_CAP share (R40, R41). -/
def Writer.restart (w : Writer) : Writer := { w with pos := 0, bits := 0, buf := 0 }

/-- The reset input and the soft reset (R460, R461): every piece of the block's state to its value of R462. Data memory keeps its contents; the parameters, the free-value counter and the host's side are not state of the block. -/
def State.resetBlock (s : State) : State :=
  { State.reset with
    params := s.params, mem := s.mem, anyCount := s.anyCount, host := s.host, hostData := s.hostData }

end Sys2Proof.Machine
end

