-- ==== Sys2Proof/Machine/BitIO.lean ====
section
/-! DEFINITION. The bit reader and the bit writer (41_bitio.md). -/

namespace Sys2Proof.Machine

/-! ## Reader primitives -/

/-- fetch_unit (R201); the error is TRUNCATED_INPUT, and the state it names is the one in which the unit was missing. -/
def fetchUnit (s : State) : Except State State :=
  let nb := s.br.cfg.unit.bytes
  if s.br.pos.toNat + nb > s.br.len.toNat then .error s
  else
    let unit := bytesValue s.br.cfg.byteOrder (s.mem.getBytes (s.br.base.toNat + s.br.pos.toNat) nb)
    .ok { s with br := { s.br with
      buf := BitVec.ofNat 16 unit
      pos := word (s.br.pos.toNat + nb)
      bits := BitVec.ofNat 5 s.br.cfg.unit.bits } }

/-- The next bit of the current unit: the high bit first under MSB-first, the low bit first under LSB-first (R202). -/
def Reader.nextBit (r : Reader) : Bool :=
  match r.cfg.bitOrder with
  | .msbFirst => r.buf.getLsbD (r.bits.toNat - 1)
  | .lsbFirst => r.buf.getLsbD (r.cfg.unit.bits - r.bits.toNat)

/-- Taking one bit of the current unit (R202). If an earlier error has left BR_BITS above the unit width, LSB-first names no bit of BR_BUF, and the bit read is any value (log entry 12); MSB-first names BR_BUF[BR_BITS - 1] as ever, 0 above bit 15 (R39). -/
def takeBit (s : State) : Bool × State :=
  let left : Reader := { s.br with bits := s.br.bits - 1 }
  if s.br.cfg.bitOrder = .lsbFirst ∧ s.br.cfg.unit.bits < s.br.bits.toNat then
    (Config.anyBit s.anyCount, ({ s with br := left } : State).nextAny)
  else (s.br.nextBit, { s with br := left })

/-- read_bit (R202). -/
def readBit (s : State) : Except State (Bool × State) :=
  if s.br.bits = 0 then
    match fetchUnit s with
    | .error f => .error f
    | .ok s1 => .ok (takeBit s1)
  else .ok (takeBit s)

/-- The next `n` bits in stream order (the loop of R203). -/
def readBits (s : State) : Nat → Except State (List Bool × State)
  | 0 => .ok ([], s)
  | n + 1 =>
    match readBit s with
    | .error f => .error f
    | .ok (b, s1) =>
      match readBits s1 n with
      | .error f => .error f
      | .ok (bs, s2) => .ok (b :: bs, s2)

/-! ## Reader commands -/

/-- BR_RESET (R200). -/
def execBrReset (s : State) : Host.Outcome State Fault Refusal :=
  .next ({ s with br := s.br.restart } : State).complete

/-- BR_READ n (R203). After TRUNCATED_INPUT, RESULT and the reader's state are any value. -/
def execBrRead (n : BitVec 6) (s : State) : Host.Outcome State Fault Refusal :=
  s.checked
    [failIf (32 < n.toNat) .illegalCommand (encode (.brRead n)),
     windowErr s.params.memSize s.br.window]
    (match readBits s n.toNat with
      | .error f => .next ((s.countFrom f).anyResult.anyReader.nextAny.raise (.truncatedInput, f.br.pos))
      | .ok (bs, s1) => .next ({ s1 with result := word (bitsValue s.br.cfg.bitOrder bs) } : State).complete)

/-- BR_ALIGN (R204). -/
def execBrAlign (s : State) : Host.Outcome State Fault Refusal :=
  .next ({ s with br := { s.br with bits := 0 } } : State).complete

/-- BR_READ_INT (R205). TRUNCATED_INPUT consumes nothing; RESULT is then any value (R424, log entry 9). -/
def execBrReadInt (w : BitVec 2) (s : State) : Host.Outcome State Fault Refusal :=
  let b := widthBytes w
  s.checked
    [failIf (w.toNat = 3) .illegalCommand (encode (.brReadInt w)),
     failIf (s.br.bits ≠ 0) .illegalCommand (encode (.brReadInt w)),
     windowErr s.params.memSize s.br.window]
    (if s.br.pos.toNat + b > s.br.len.toNat then
      .next (s.anyResult.nextAny.raise (.truncatedInput, s.br.pos))
    else
      .next ({ s with
        result := word (bytesValue s.br.cfg.byteOrder (s.mem.getBytes (s.br.base.toNat + s.br.pos.toNat) b))
        br := { s.br with pos := word (s.br.pos.toNat + b) } } : State).complete)

/-! ## Writer primitives -/

/-- emit_unit (R211); the error is OUT_OF_RANGE_WRITE, and the state it names is the one in which the unit did not fit, before either byte is written. -/
def emitUnit (s : State) : Except State State :=
  let nb := s.bw.cfg.unit.bytes
  if s.bw.pos.toNat + nb > s.bw.cap.toNat then .error s
  else
    .ok { s with
      mem := s.mem.setBytes (s.bw.base.toNat + s.bw.pos.toNat) (valueBytes s.bw.cfg.byteOrder nb s.bw.buf.toNat)
      bw := { s.bw with pos := word (s.bw.pos.toNat + nb), buf := 0, bits := 0 } }

/-- The bit of the pending unit that the k-th placed bit fills (R211). -/
def BitCfg.place (c : BitCfg) (k : Nat) : Nat :=
  match c.bitOrder with
  | .msbFirst => c.unit.bits - 1 - k
  | .lsbFirst => k

/-- A 16-bit value with bit `i` set to `b`; unchanged for a bit above 15, which BW_BUF does not hold (R41). -/
def setBit (v : BitVec 16) (i : Nat) (b : Bool) : BitVec 16 :=
  if b then v ||| BitVec.ofNat 16 (2 ^ i) else v &&& ~~~(BitVec.ofNat 16 (2 ^ i))

/-- The first three steps of put_bit (R211): BW_BUF takes the bit and BW_BITS counts it. If an earlier error has left BW_BITS at or above the unit width, LSB-first still names BW_BUF[BW_BITS]; MSB-first names no bit, and BW_BUF is any value; and a BW_BITS of 31, whose successor its five bits do not hold, becomes any value (log entry 12). -/
def State.placeBit (s : State) (b : Bool) : State :=
  let k := s.bw.bits.toNat
  let placed : Writer := { s.bw with
    buf := setBit s.bw.buf (s.bw.cfg.place k) b, bits := BitVec.ofNat 5 (k + 1) }
  if k < s.bw.cfg.unit.bits then { s with bw := placed }
  else
    ({ s with bw := { placed with
        buf := match s.bw.cfg.bitOrder with
          | .msbFirst => (Config.anyWord s.anyCount 0x074).setWidth 16
          | .lsbFirst => placed.buf
        bits := if k = 31 then (Config.anyWord s.anyCount 0x070).setWidth 5 else placed.bits } } : State).nextAny

/-- put_bit (R211). -/
def putBit (s : State) (b : Bool) : Except State State :=
  let t := s.placeBit b
  if t.bw.bits.toNat = t.bw.cfg.unit.bits then emitUnit t else .ok t

/-- put_bit for each bit in order. -/
def putBits (s : State) : List Bool → Except State State
  | [] => .ok s
  | b :: bs =>
    match putBit s b with
    | .error f => .error f
    | .ok s1 => putBits s1 bs

/-- The bytes of the writer's window from `start` to where a unit did not fit become any value, as do BW_POS, BW_BITS and BW_BUF. The bytes of the unit that did not fit are not written (R211, R424). -/
def State.anyWritten (s : State) (start : Nat) (f : State) : State :=
  (s.anyBytes (s.bw.base.toNat + start) (min f.bw.pos.toNat s.bw.cap.toNat - start)).anyWriter

/-- The writer's error when no rule narrows it (R424): the whole window and the registers become any value. For 16-bit units, the bytes from the unit that did not fit on are not written (R211). -/
def State.anyWindowWritten (s : State) (f : State) : State :=
  match s.bw.cfg.unit with
  | .bits8 => (s.anyWindow s.bw.window).anyWriter
  | .bits16 => s.anyWritten 0 f

/-! ## Writer commands -/

/-- BW_RESET (R210). -/
def execBwReset (s : State) : Host.Outcome State Fault Refusal :=
  .next ({ s with bw := s.bw.restart } : State).complete

/-- BW_WRITE n (R212). After OUT_OF_RANGE_WRITE the writer's state and the window bytes from the old BW_POS on are any value. -/
def execBwWrite (n : BitVec 6) (s : State) : Host.Outcome State Fault Refusal :=
  s.checked
    [failIf (32 < n.toNat) .illegalCommand (encode (.bwWrite n)),
     windowErr s.params.memSize s.bw.window]
    (match putBits s (valueBits s.bw.cfg.bitOrder n.toNat s.arg0.toNat) with
      | .error f => .next (((s.countFrom f).anyWritten s.bw.pos.toNat f).nextAny.raise (.outOfRangeWrite, f.bw.pos))
      | .ok s1 => .next s1.complete)

/-- BW_FLUSH (R213). A 16-bit unit that does not fit is raised before any write (R424). -/
def execBwFlush (s : State) : Host.Outcome State Fault Refusal :=
  s.checked [windowErr s.params.memSize s.bw.window]
    (if s.bw.bits = 0 then .next s.complete
    else
      match emitUnit s with
      | .error f =>
        let s1 := match s.bw.cfg.unit with
          | .bits8 => s.anyWindowWritten f
          | .bits16 => s.anyWriter
        .next (s1.nextAny.raise (.outOfRangeWrite, f.bw.pos))
      | .ok s1 => .next s1.complete)

/-- BW_WRITE_INT (R214). OUT_OF_RANGE_WRITE writes nothing. -/
def execBwWriteInt (w : BitVec 2) (s : State) : Host.Outcome State Fault Refusal :=
  let b := widthBytes w
  s.checked
    [failIf (w.toNat = 3) .illegalCommand (encode (.bwWriteInt w)),
     failIf (s.bw.bits ≠ 0) .illegalCommand (encode (.bwWriteInt w)),
     windowErr s.params.memSize s.bw.window]
    (if s.bw.pos.toNat + b > s.bw.cap.toNat then .next (s.raise (.outOfRangeWrite, s.bw.pos))
    else
      .next ({ s with
        mem := s.mem.setBytes (s.bw.base.toNat + s.bw.pos.toNat) (valueBytes s.bw.cfg.byteOrder b s.arg0.toNat)
        bw := { s.bw with pos := word (s.bw.pos.toNat + b) } } : State).complete)

end Sys2Proof.Machine
end

