-- ==== Sys2Proof/Machine/Control.lean ====
section
/-! DEFINITION. Command control: NOP (40_control.md R184), and what a CMD write does before a command's rule runs (R180, R181). -/

namespace Sys2Proof.Machine

/-- NOP (R184): skip, then standard completion. -/
def execNop (s : State) : Host.Outcome State Fault Refusal := .next s.complete

/-- A word the decoder refuses raises ILLEGAL_COMMAND with ERR_POS = the word and has no other effect (R180, 30_encoding.md R144). -/
def State.illegalWord (s : State) (c : Word) : State := s.raise (.illegalCommand, c)

end Sys2Proof.Machine
end

