-- ==== Sys2Proof/Machine/Expander.lean ====
section
/-! DEFINITION. The token-stream expander (45_expander.md). -/

namespace Sys2Proof.Machine

/-- The start checks EX_LIT, EX_MATCH and EX_STREAM share, in order; `toks` is EX_STREAM's descriptor window (R397). -/
def State.expanderChecks (s : State) (toks : List Window) : List (Option Err) :=
  let u := s.ex.unit.bytes
  let eb := s.ex.prebufSize.toNat
  let m := s.params.memSize
  [failIf (s.ex.direction = .backward ∧ (u ≠ 1 ∨ eb ≠ 0)) .invalidRange 0x100,
   failIf (eb % u ≠ 0) .invalidRange 0x114,
   failIf (s.ex.outCap.toNat < s.ex.pos.toNat) .invalidRange 0x108,
   windowErr m s.ex.outWindow,
   windowErr m s.ex.preWindow] ++
  toks.map (windowErr m) ++
  [overlapErr s.ex.outWindow s.ex.preWindow] ++
  toks.map (overlapErr s.ex.outWindow)

/-- EX_RESET (R391). -/
def execExReset (s : State) : Host.Outcome State Fault Refusal :=
  .next ({ s with ex := { s.ex with pos := 0 } } : State).complete

/-- The address the (w+1)-th output byte goes to (R390). -/
def Expander.outAddr (e : Expander) (w : Nat) : Nat :=
  match e.direction with
  | .forward => e.outBase.toNat + w
  | .backward => e.outBase.toNat + (e.outCap.toNat - 1 - w)

/-- The address the source byte at displacement d of the (w+1)-th output byte is read from: output or pre-buffer forward, d bytes above backward (R390, R393). -/
def Expander.srcAddr (e : Expander) (w d : Nat) : Nat :=
  match e.direction with
  | .forward =>
    if d ≤ w then e.outBase.toNat + (w - d)
    else e.prebufBase.toNat + (e.prebufSize.toNat + w - d)
  | .backward => e.outBase.toNat + (e.outCap.toNat - 1 - w) + d

/-- Appending bytes from output position w on (R392). -/
def appendBytes (e : Expander) (m : Memory) : Nat → List Byte → Memory
  | _, [] => m
  | w, b :: bs => appendBytes e (m.set (e.outAddr w) b) (w + 1) bs

/-- Appending one literal unit: the effect of EX_LIT after its checks (R392). -/
def State.appendLiteral (s : State) (v : Word) : State :=
  { s with
    mem := appendBytes s.ex s.mem s.ex.pos.toNat (literalBytes s.ex.unit v)
    ex := { s.ex with pos := word (s.ex.pos.toNat + s.ex.unit.bytes) } }

/-- Copying n bytes at displacement d from output position w on, one at a time; each byte is read after every earlier one is written (R393). -/
def copyBytes (e : Expander) (d : Nat) : Nat → Nat → Memory → Memory
  | 0, _, m => m
  | n + 1, w, m => copyBytes e d n (w + 1) (m.set (e.outAddr w) (m.get (e.srcAddr w d)))

/-- Appending a back-reference: the effect of EX_MATCH after its checks (R393). -/
def State.appendMatch (s : State) (d len : Nat) : State :=
  { s with
    mem := copyBytes s.ex d len s.ex.pos.toNat s.mem
    ex := { s.ex with pos := word (s.ex.pos.toNat + len) } }

/-- The field and source checks of a match token (R398). -/
def Expander.badMatch (e : Expander) (d len : Nat) : Bool :=
  let u := e.unit.bytes
  d == 0 || len == 0 || d % u != 0 || len % u != 0 ||
    (match e.direction with
      | .forward => decide (e.pos.toNat + e.prebufSize.toNat < d)
      | .backward => decide (e.pos.toNat < d))

/-- The capacity check of a token of `len` bytes (R398). -/
def Expander.lacksRoom (e : Expander) (len : Nat) : Bool := e.outCap.toNat < e.pos.toNat + len

/-- EX_LIT (R392). OUT_OF_RANGE_WRITE writes nothing. -/
def execExLit (s : State) : Host.Outcome State Fault Refusal :=
  s.checked (s.expanderChecks [])
    (if s.ex.lacksRoom s.ex.unit.bytes then .next (s.raise (.outOfRangeWrite, 0))
    else .next (s.appendLiteral s.arg0).complete)

/-- EX_MATCH (R393). Each error writes nothing. -/
def execExMatch (s : State) : Host.Outcome State Fault Refusal :=
  let d := s.arg0.toNat
  let len := s.arg1.toNat
  s.checked (s.expanderChecks [])
    (if s.ex.badMatch d len then .next (s.raise (.malformedToken, 0))
    else if s.ex.lacksRoom len then .next (s.raise (.outOfRangeWrite, 0))
    else .next (s.appendMatch d len).complete)

/-- The position a token of `len` bytes must carry (R394). -/
def Expander.expectedPos (e : Expander) (len : Nat) : Nat :=
  match e.direction with
  | .forward => e.pos.toNat
  | .backward => e.outCap.toNat - e.pos.toNat - len

/-- One token of EX_STREAM from its descriptor's words: field and source checks, then capacity, then position, then its effect (R394, R422). -/
def State.expandToken (s : State) (k pos x len : Word) : Except ErrKind State :=
  let u := s.ex.unit.bytes
  if 1 < k.toNat then .error .malformedToken
  else if k = 0 then
    if len.toNat ≠ u ∨ 2 ^ (8 * u) ≤ x.toNat then .error .malformedToken
    else if s.ex.lacksRoom u then .error .outOfRangeWrite
    else if pos.toNat ≠ s.ex.expectedPos u then .error .malformedToken
    else .ok (s.appendLiteral x)
  else
    if s.ex.badMatch x.toNat len.toNat then .error .malformedToken
    else if s.ex.lacksRoom len.toNat then .error .outOfRangeWrite
    else if pos.toNat ≠ s.ex.expectedPos len.toNat then .error .malformedToken
    else .ok (s.appendMatch x.toNat len.toNat)

/-- The descriptors i, i+1, ... of EX_STREAM in order (R394). -/
def expandStream : Nat → Nat → State → Except Err State
  | 0, _, s => .ok s
  | n + 1, i, s =>
    let a := s.ex.tokBase.toNat + 16 * i
    match s.expandToken (s.mem.getWord a) (s.mem.getWord (a + 4)) (s.mem.getWord (a + 8)) (s.mem.getWord (a + 12)) with
    | .error e => .error (e, word i)
    | .ok s1 => expandStream n (i + 1) s1

/-- EX_STREAM (R394). After an error the output window and EX_POS are any value. -/
def execExStream (s : State) : Host.Outcome State Fault Refusal :=
  s.checked (s.expanderChecks [s.ex.tokWindow])
    (match expandStream s.ex.tokCount.toNat 0 s with
      | .error e => .next ((s.anyWindow s.ex.outWindow).anyExPos.nextAny.raise e)
      | .ok s1 => .next s1.complete)

end Sys2Proof.Machine
end

