-- ==== Sys2Proof/Machine/HuffmanTree.lean ====
section
/-! DEFINITION. Huffman trees and codes: leaves, merging, path codes, length limiting, canonical codes, the arena layouts and the codebook (44_huffman.md R330 to R342). -/

namespace Sys2Proof.Machine

/-- The child index of a leaf (30_encoding.md R152). -/
def noChild : Word := 0xFFFFFFFF

/-- A leaf node (R341). -/
def leafNode (synth : Bool) (sym freq : Nat) : Node :=
  { leaf := true, synth := synth, sym := BitVec.ofNat 8 sym, freq := word freq, left := noChild, right := noChild }

/-- An internal node (R341). -/
def innerNode (freq left right : Nat) : Node :=
  { leaf := false, synth := false, sym := 0, freq := word freq, left := word left, right := word right }

/-- The leaves: one for each symbol of nonzero frequency, in ascending symbol order (R333). `sym` is the symbol of the first frequency. -/
def realLeaves : Nat → List Nat → List Node
  | _, [] => []
  | sym, f :: fs => if f = 0 then realLeaves (sym + 1) fs else leafNode false sym f :: realLeaves (sym + 1) fs

/-- The leaves of the natural tree, with the synthesized sibling of a lone symbol (R335). -/
def naturalLeaves (freqs : List Nat) : List Node :=
  match realLeaves 0 freqs with
  | [l] => [l, leafNode true (if l.sym = 0 then 1 else 0) 0]
  | ls => ls

/-- A heap entry: (FREQ, arena index), the key of R334. -/
abbrev HeapEntry := Nat × Nat

/-- The order of the heap: lower frequency first, then the node formed earliest (R334). -/
def HeapEntry.before (a b : HeapEntry) : Bool := a.1 < b.1 || (a.1 == b.1 && decide (a.2 < b.2))

/-- Putting a node in the heap, kept in ascending order. -/
def heapInsert (x : HeapEntry) : List HeapEntry → List HeapEntry
  | [] => [x]
  | y :: ys => if HeapEntry.before x y then x :: y :: ys else y :: heapInsert x ys

/-- Merging: while the heap holds two or more nodes, the two smallest become the children of a new node at the next arena index; the first taken is LEFT (R334). `fuel` bounds the merges by the heap's size. -/
def mergeNodes : Nat → List HeapEntry → List Node → List Node
  | fuel + 1, x :: y :: rest, arena =>
    mergeNodes fuel (heapInsert (x.1 + y.1, arena.length) rest) (arena ++ [innerNode (x.1 + y.1) x.2 y.2])
  | _, _, arena => arena

/-- The heap of the leaves: each with its frequency and its arena index. -/
def initialHeap (leaves : List Node) : List HeapEntry :=
  (leaves.zipIdx).foldl (fun h l => heapInsert (l.1.freq.toNat, l.2) h) []

/-- The natural arena of a frequency table; its root is its last node, and it is empty when no symbol occurs (R333 to R336). -/
def naturalArena (freqs : List Nat) : List Node :=
  let leaves := naturalLeaves freqs
  mergeNodes leaves.length (initialHeap leaves) leaves

/-- A leaf with its path: arena index, code as a number, code length (R337, R340). -/
structure Leaf where
  idx : Nat
  code : Nat
  len : Nat
  deriving DecidableEq, Repr

/-- The leaves below node `i` in preorder, the node having the path (code, len): LEFT appends bit 0, RIGHT bit 1 (R340). `fuel` bounds the depth. -/
def leafPaths (arena : List Node) : Nat → Nat → Nat → Nat → List Leaf
  | 0, _, _, _ => []
  | fuel + 1, i, code, len =>
    match arena[i]? with
    | none => []
    | some n =>
      if n.leaf then [⟨i, code, len⟩]
      else
        leafPaths arena fuel n.left.toNat (2 * code) (len + 1) ++
          leafPaths arena fuel n.right.toNat (2 * code + 1) (len + 1)

/-- The largest leaf depth; 0 for an empty tree. -/
def maxDepth (ls : List Leaf) : Nat := ls.foldl (fun m l => max m l.len) 0

/-- A leaf with everything an arena and a codebook need: its node, its code and its length. -/
structure CodedLeaf where
  node : Node
  code : Nat
  len : Nat
  deriving DecidableEq, Repr

/-- The leaves of an arena with their path codes (R340), in arena order. -/
def pathCoded (arena : List Node) (root : Nat) : List CodedLeaf :=
  let paths := leafPaths arena (arena.length + 1) root 0 0
  arena.zipIdx.filterMap fun n => (paths.find? fun l => l.idx == n.2).map fun l => ⟨n.1, l.code, l.len⟩

/-! ## Length limiting (R338) -/

/-- Σ f·ℓ of a length vector. -/
def weightedLength : List Nat → List Nat → Nat
  | f :: fs, l :: ls => f * l + weightedLength fs ls
  | _, _ => 0

/-- Σ 2^(cap - ℓ): the Kraft sum in units of 2^-cap. -/
def kraftUnits (cap : Nat) : List Nat → Nat
  | [] => 0
  | l :: ls => 2 ^ (cap - l) + kraftUnits cap ls

/-- A length vector is within the cap and complete: every length is from 1 to the cap and Σ 2^-ℓ = 1 (R338). -/
def lengthsFit (cap : Nat) (freqs lens : List Nat) : Bool :=
  lens.length == freqs.length && lens.all (fun l => 1 ≤ l && decide (l ≤ cap)) && kraftUnits cap lens == 2 ^ cap

/-- A partial choice of lengths: its Kraft sum, its weighted length, and the lengths. -/
structure Partial where
  units : Nat
  cost : Nat
  lens : List Nat
  deriving DecidableEq, Repr

/-- Adding a partial choice to a table that holds the cheapest one for each Kraft sum. -/
def keepCheapest (x : Partial) : List Partial → List Partial
  | [] => [x]
  | y :: ys =>
    if x.units = y.units then (if x.cost < y.cost then x :: ys else y :: ys)
    else if x.units < y.units then x :: y :: ys
    else y :: keepCheapest x ys

/-- For each Kraft sum up to 1, the cheapest lengths of these frequencies with that sum. -/
def limitTable (cap : Nat) : List Nat → List Partial
  | [] => [⟨0, 0, []⟩]
  | f :: fs =>
    match limitTable cap fs with
    | table =>
      (table.flatMap fun x =>
        ((List.range cap).map fun i => (⟨x.units + 2 ^ (cap - (i + 1)), x.cost + f * (i + 1), (i + 1) :: x.lens⟩ : Partial)).filter
          fun y => y.units ≤ 2 ^ cap).foldl (fun acc y => keepCheapest y acc) []

/-- The cheapest complete choice. -/
def cheapestComplete (cap : Nat) (freqs : List Nat) : Option Partial :=
  (limitTable cap freqs).find? fun x => x.units == 2 ^ cap

/-- LIMIT_CHOICE over the frequencies of the symbols with f[s] > 0: the implementation's proposal if it is a minimiser, and a minimiser in any case (R338). -/
def limitLengths (proposal : List Nat) (cap : Nat) (freqs : List Nat) : List Nat :=
  match cheapestComplete cap freqs with
  | none => []
  | some best =>
    if lengthsFit cap freqs proposal && weightedLength freqs proposal == best.cost then proposal else best.lens

/-! ## Canonical codes (R339) and the breadth-first arena (R341) -/

/-- The order of canonical assignment: length, then symbol (R339). -/
def CodedLeaf.before (a b : CodedLeaf) : Bool :=
  a.len < b.len || (a.len == b.len && decide (a.node.sym.toNat < b.node.sym.toNat))

/-- Insertion into a list in canonical order. -/
def insertCanonical (x : CodedLeaf) : List CodedLeaf → List CodedLeaf
  | [] => [x]
  | y :: ys => if x.before y then x :: y :: ys else y :: insertCanonical x ys

/-- The leaves in canonical order. -/
def sortCanonical (ls : List CodedLeaf) : List CodedLeaf := ls.foldr insertCanonical []

/-- The codes after the first: (previous code + 1) shifted left by the length difference (R339). -/
def assignAfter : Nat → Nat → List CodedLeaf → List CodedLeaf
  | _, _, [] => []
  | code, len, l :: ls =>
    let c := (code + 1) * 2 ^ (l.len - len)
    { l with code := c } :: assignAfter c l.len ls

/-- Canonical codes for leaves with their lengths: the first leaf gets code 0 (R339). -/
def assignCanonical (ls : List CodedLeaf) : List CodedLeaf :=
  match sortCanonical ls with
  | [] => []
  | l :: rest => { l with code := 0 } :: assignAfter 0 l.len rest

/-- The frequency below the prefix (code, len): the sum over the leaves whose codes begin with it. -/
def prefixFreq (ls : List CodedLeaf) (code len : Nat) : Nat :=
  (ls.filter fun l => len ≤ l.len && l.code / 2 ^ (l.len - len) == code).foldl (fun f l => f + l.node.freq.toNat) 0

/-- The arena of canonical codes: prefixes are taken from a queue in index order; a prefix that is a leaf's code is that leaf, any other is an internal node whose children's prefixes are appended, bit 0 first (R341). `next` is the index of the next appended prefix. -/
def breadthFirst (ls : List CodedLeaf) : Nat → List (Nat × Nat) → Nat → List Node
  | fuel + 1, (code, len) :: queue, next =>
    match ls.find? fun l => l.len == len && l.code == code with
    | some l => l.node :: breadthFirst ls fuel queue next
    | none =>
      innerNode (prefixFreq ls code len) next (next + 1) ::
        breadthFirst ls fuel (queue ++ [(2 * code, len + 1), (2 * code + 1, len + 1)]) (next + 2)
  | _, _, _ => []

/-- The arena of canonical codes, root at index 0 (R341). A tree of n leaves has 2n - 1 nodes. -/
def canonicalArena (ls : List CodedLeaf) : List Node := breadthFirst ls (2 * ls.length - 1) [(0, 0)] 1

/-- The codebook of coded leaves: the symbols 0..A-1 that a real leaf has, ascending; the synthesized leaf names no code (R342). -/
def codebook (alphabet : Nat) (ls : List CodedLeaf) : List (Nat × Code) :=
  (List.range alphabet).filterMap fun s =>
    (ls.find? fun l => !l.node.synth && l.node.sym.toNat == s).map fun l => (s, ⟨BitVec.ofNat 64 l.code, l.len⟩)

/-- BOOK[s]: a symbol without a code has CODE 0 and LEN 0 (R83). -/
def bookEntry (book : List (Nat × Code)) (s : Nat) : Code :=
  match book.find? fun e => e.1 == s with
  | some e => e.2
  | none => ⟨0, 0⟩

/-- A built tree: the arena, the root, the codebook, whether lengths were limited, the largest leaf depth. -/
structure Built where
  tree : List Node
  root : Nat
  book : List (Nat × Code)
  limited : Bool
  maxLen : Nat
  deriving DecidableEq, Repr

/-- The tree of path codes on the natural arena (R340, R341); empty when no symbol occurs (R336). -/
def buildNatural (alphabet : Nat) (arena : List Node) : Built :=
  let ls := pathCoded arena (arena.length - 1)
  { tree := arena, root := arena.length - 1, book := codebook alphabet ls, limited := false
    maxLen := ls.foldl (fun m l => max m l.len) 0 }

/-- The tree of canonical codes of leaves with their lengths (R339, R341). -/
def buildCanonical (alphabet : Nat) (limited : Bool) (ls : List CodedLeaf) : Built :=
  let coded := assignCanonical ls
  { tree := canonicalArena coded, root := 0, book := codebook alphabet coded, limited := limited
    maxLen := coded.foldl (fun m l => max m l.len) 0 }

/-- Leaves with the lengths of a vector in the same order. -/
def withLengths : List CodedLeaf → List Nat → List CodedLeaf
  | l :: ls, n :: ns => { l with len := n } :: withLengths ls ns
  | _, _ => []

/-- Building from a frequency table (R333 to R342): the built tree, or the natural depth D where HUFFMAN_CAP_EXCEEDED is raised (R338). -/
def buildTree (cfg : HfCfg) (limiter : Limiter) (freqs : List Nat) : Except Nat Built :=
  let arena := naturalArena freqs
  let ls := pathCoded arena (arena.length - 1)
  let depth := ls.foldl (fun m l => max m l.len) 0
  let cap := cfg.cap.toNat
  let live := freqs.filter (· ≠ 0)
  if arena = [] then .ok { tree := [], root := 0, book := [], limited := false, maxLen := 0 }
  else if cap = 0 ∨ depth ≤ cap then
    if cfg.canon then .ok (buildCanonical cfg.width.alphabet false ls)
    else .ok (buildNatural cfg.width.alphabet arena)
  else if !cfg.limitEn then .error depth
  else if 2 ^ cap < live.length then .error depth
  else .ok (buildCanonical cfg.width.alphabet true
    (withLengths ls (limitLengths (limiter.proposal freqs cap) cap live)))

/-! ## Descriptors (30_encoding.md R152, R153) -/

/-- Word 0 of a node descriptor: SYMBOL, LEAF, SYNTH (R152). -/
def Node.word0 (n : Node) : Word := word (n.sym.toNat + bit n.leaf 8 + bit n.synth 9)

/-- The four words of a node descriptor (R152). -/
def Node.words (n : Node) : List Word := [n.word0, n.freq, n.left, n.right]

/-- The 16 bytes of a codebook entry: CODE, LEN, zeros (R153). -/
def Code.bytes (c : Code) : List Byte :=
  valueBytes .le 8 c.code.toNat ++ [BitVec.ofNat 8 c.len] ++ List.replicate 7 0

/-- Storing the codebook entries of the symbols s, s+1, ... in order (R342). -/
def Memory.setBook (m : Memory) (base : Nat) (book : List (Nat × Code)) : Nat → Nat → Memory
  | _, 0 => m
  | s, n + 1 => Memory.setBook (m.setBytes (base + 16 * s) (bookEntry book s).bytes) base book (s + 1) n

end Sys2Proof.Machine
end

