-- ==== Sys2Proof/Machine/Huffman.lean ====
section
/-! DEFINITION. The Huffman commands (44_huffman.md R332, R343, R344, R350 to R355). -/

namespace Sys2Proof.Machine

/-! ## Counting and building -/

/-- How often symbol s occurs in a symbol sequence (R332). -/
def countSym (syms : List Nat) (s : Nat) : Nat := syms.foldl (fun n x => if x = s then n + 1 else n) 0

/-- The frequency words of a symbol sequence (R332, R154). -/
def frequencies (alphabet : Nat) (syms : List Nat) : List Nat := (List.range alphabet).map (countSym syms)

/-- The symbols of the source window (R331, R332). -/
def State.sourceSymbols (s : State) : List Nat :=
  symbolsOf s.hf.cfg (s.mem.getBytes s.hf.srcBase.toNat s.hf.srcLen.toNat)

/-- The number of symbols a source of n bytes has (R331). -/
def HfCfg.symbolCount (c : HfCfg) (n : Nat) : Nat :=
  match c.width with
  | .bits8 => n
  | .bits4 => 2 * n

/-- HF_COUNT (R332). -/
def execHfCount (s : State) : Host.Outcome State Fault Refusal :=
  s.checked
    [windowErr s.params.memSize s.hf.srcWindow,
     windowErr s.params.memSize s.hf.freqWindow,
     overlapErr s.hf.freqWindow s.hf.srcWindow,
     failIf (2 ^ 32 ≤ s.hf.cfg.symbolCount s.hf.srcLen.toNat) .invalidRange 0x148]
    (.next ({ s with
      mem := s.mem.setWords s.hf.freqBase.toNat
        ((frequencies s.hf.cfg.width.alphabet s.sourceSymbols).map word) } : State).complete)

/-- The frequency words HF_BUILD reads (R343). -/
def State.frequencyWords (s : State) : List Nat :=
  (List.range s.hf.cfg.width.alphabet).map fun i => (s.mem.getWord (s.hf.freqBase.toNat + 4 * i)).toNat

/-- The base register an overlap of HF_BUILD's tree and book windows is reported at: both are written windows, and R104 does not say which (log entry 13). -/
def treeBookOverlapReg : Word := if Config.overlapNamesTree then 0x150 else 0x154

/-- HF_BUILD (R343). Every error is raised before any write. -/
def execHfBuild (s : State) : Host.Outcome State Fault Refusal :=
  let m := s.params.memSize
  let freqs := s.frequencyWords
  s.checked
    [windowErr m s.hf.freqWindow, windowErr m s.hf.treeWindow, windowErr m s.hf.bookWindow,
     overlapErr s.hf.treeWindow s.hf.freqWindow,
     failIf (s.hf.treeWindow.overlaps s.hf.bookWindow) .invalidRange treeBookOverlapReg,
     overlapErr s.hf.bookWindow s.hf.freqWindow,
     failIf (2 ^ 32 ≤ freqs.sum) .invalidRange 0x14C]
    (match buildTree s.hf.cfg s.params.limiter freqs with
      | .error depth => .next (s.raise (.huffmanCapExceeded, word depth))
      | .ok b =>
        .next ({ s with
          mem := (s.mem.setWords s.hf.treeBase.toNat (b.tree.flatMap Node.words)).setBook
            s.hf.bookBase.toNat b.book 0 s.hf.cfg.width.alphabet
          hf := { s.hf with
            tree := b.tree, book := b.book
            nodes := word b.tree.length, root := word b.root
            state := { valid := true, limited := b.limited, maxLen := BitVec.ofNat 7 b.maxLen } } } : State).complete)

/-! ## Loading a tree (R344) -/

/-- A node of the arena in memory with word 0 as stored. -/
structure RawNode where
  word0 : Word
  freq : Word
  left : Word
  right : Word
  deriving DecidableEq, Repr

/-- Node i of the arena at `base` (30_encoding.md R152). -/
def Memory.rawNode (m : Memory) (base i : Nat) : RawNode :=
  { word0 := m.getWord (base + 16 * i)
    freq := m.getWord (base + 16 * i + 4)
    left := m.getWord (base + 16 * i + 8)
    right := m.getWord (base + 16 * i + 12) }

/-- The node a descriptor stands for (R152). -/
def RawNode.node (n : RawNode) : Node :=
  { leaf := n.word0.getLsbD 8, synth := n.word0.getLsbD 9, sym := n.word0.extractLsb' 0 8
    freq := n.freq, left := n.left, right := n.right }

/-- What the preorder visit of HF_LOAD has seen: node indexes, and symbols of leaves that are not synthesized (R344). -/
structure Seen where
  nodes : List Nat
  syms : List Nat
  deriving DecidableEq, Repr

/-- The checks of a leaf at depth t (R344). -/
def RawNode.badLeaf (n : RawNode) (alphabet t : Nat) (syms : List Nat) : Bool :=
  let sym := n.word0.field 0 8
  t == 0 || 64 < t || n.left != noChild || n.right != noChild || alphabet ≤ sym ||
    (!n.word0.getLsbD 9 && syms.contains sym)

/-- The checks of an internal node (R344). -/
def RawNode.badInner (n : RawNode) (c : Nat) : Bool :=
  n.word0.getLsbD 9 || n.word0.field 0 8 != 0 || c ≤ n.left.toNat || c ≤ n.right.toNat

/-- visit(i, t) of R344 in preorder; the error is the index of the first bad node. A visit deeper than the node count has met a node twice; `fuel` is above it. -/
def visit (arena : List RawNode) (alphabet : Nat) : Nat → Nat → Nat → Seen → Except Nat Seen
  | 0, i, _, _ => .error i
  | fuel + 1, i, t, seen =>
    if seen.nodes.contains i then .error i
    else
      match arena[i]? with
      | none => .error i
      | some n =>
        let seen1 : Seen := { seen with nodes := i :: seen.nodes }
        if n.word0.field 10 22 ≠ 0 then .error i
        else if n.word0.getLsbD 8 then
          if n.badLeaf alphabet t seen.syms then .error i
          else .ok (if n.word0.getLsbD 9 then seen1 else { seen1 with syms := n.word0.field 0 8 :: seen.syms })
        else if n.badInner arena.length then .error i
        else
          match visit arena alphabet fuel n.left.toNat (t + 1) seen1 with
          | .error e => .error e
          | .ok seen2 => visit arena alphabet fuel n.right.toNat (t + 1) seen2

/-- The arena of c nodes HF_LOAD reads. -/
def State.loadArena (s : State) (c : Nat) : List RawNode :=
  (List.range c).map (s.mem.rawNode s.hf.treeBase.toNat)

/-- HF_LOAD (R344). Every error is raised before TREE or any register changes. -/
def execHfLoad (s : State) : Host.Outcome State Fault Refusal :=
  let r := s.arg0.toNat
  let c := s.arg1.toNat
  let a := s.hf.cfg.width.alphabet
  s.checked
    [failIf (c = 0 ∨ s.hf.cfg.width.maxNodes < c) .invalidRange 0x01C,
     failIf (c ≤ r) .invalidRange 0x018,
     windowErr s.params.memSize (s.hf.loadWindow c)]
    (let arena := s.loadArena c
    match visit arena a (c + 1) r 0 ⟨[], []⟩ with
    | .error i => .next (s.raise (.malformedToken, word i))
    | .ok _ =>
      let tree := arena.map RawNode.node
      let ls := pathCoded tree r
      .next ({ s with
        hf := { s.hf with
          tree := tree, book := codebook a ls, root := s.arg0, nodes := s.arg1
          state := { valid := true, limited := false
                     maxLen := BitVec.ofNat 7 (ls.foldl (fun m l => max m l.len) 0) } } } : State).complete)

/-! ## Encoding -/

/-- ILLEGAL_COMMAND while no tree is held (R351, R353, R354, R355). -/
def State.noTreeErr (s : State) (i : Instr) : Option Err :=
  failIf (!s.hf.state.valid) .illegalCommand (encode i)

/-- emit_code(s): each bit of the codeword through put_bit, the edge from the root first (R350). -/
def emitCode (s : State) (sym : Nat) : Except State State := putBits s (bookEntry s.hf.book sym).bits

/-- HF_ENCODE (R351). After an error of its execution the writer's window and registers are any value (R424, log entry 11). -/
def execHfEncode (s : State) : Host.Outcome State Fault Refusal :=
  s.checked [s.noTreeErr .hfEncode, windowErr s.params.memSize s.bw.window]
    (let sym := s.arg0.toNat
    if s.hf.cfg.width.alphabet ≤ sym ∨ (bookEntry s.hf.book sym).len = 0 then
      .next ((s.anyWindow s.bw.window).anyWriter.nextAny.raise (.malformedToken, 0))
    else
      match emitCode s sym with
      | .error f => .next (((s.countFrom f).anyWindowWritten f).nextAny.raise (.outOfRangeWrite, f.bw.pos))
      | .ok s1 => .next s1.complete)

/-- ERR_POS of a symbol index (R353). An index of 2^32 or more, which a source of 4-bit symbols can have, does not fit ERR_POS and no rule reduces it (00_scope.md R7): ERR_POS is then any value (DESIGN CHOICE, log entry 26). -/
def State.symbolPos (s : State) (j : Nat) : Word := if j < 2 ^ 32 then word j else Config.anyWord s.anyCount 0x010

/-- The symbols of a sequence in order, `j` the index of the first (R353); the error carries the state at the failure. An index that does not fit ERR_POS: `State.symbolPos`. -/
def encodeSymbols (s : State) (j : Nat) : List Nat → Except (Err × State) State
  | [] => .ok s
  | sym :: syms =>
    if (bookEntry s.hf.book sym).len = 0 then .error ((.malformedToken, s.symbolPos j), s)
    else
      match emitCode s sym with
      | .error f => .error ((.outOfRangeWrite, f.bw.pos), f)
      | .ok s1 => encodeSymbols s1 (j + 1) syms

/-- HF_ENCODE_BUF (R353). After a later error the written bytes and the writer's registers are any value. -/
def execHfEncodeBuf (s : State) : Host.Outcome State Fault Refusal :=
  s.checked
    [s.noTreeErr .hfEncodeBuf,
     windowErr s.params.memSize s.hf.srcWindow, windowErr s.params.memSize s.bw.window,
     overlapErr s.bw.window s.hf.srcWindow]
    (match encodeSymbols s 0 s.sourceSymbols with
      | .error (e, f) => .next (((s.countFrom f).anyWritten s.bw.pos.toNat f).nextAny.raise e)
      | .ok s1 => .next s1.complete)

/-! ## Decoding -/

/-- The bits the reader can still deliver, an upper bound on the length of a walk. -/
def Reader.bitsLeft (r : Reader) : Nat := 8 * (r.len.toNat - r.pos.toNat) + r.bits.toNat

/-- The walk of R352 from node i; an error carries the state at the failure. Each edge reads one bit, so `fuel` above the bits left is never used up. A child index with no node cannot be held (HF_BUILD and HF_LOAD check it); it would be MALFORMED_TOKEN (log entry 18). -/
def walkTree (k : Word) : Nat → Nat → State → Except (Err × State) (Node × State)
  | 0, _, s => .error ((.malformedToken, k), s)
  | fuel + 1, i, s =>
    match s.hf.tree[i]? with
    | none => .error ((.malformedToken, k), s)
    | some n =>
      if n.leaf then .ok (n, s)
      else
        match readBit s with
        | .error f => .error ((.truncatedInput, f.br.pos), f)
        | .ok (b, s1) => walkTree k fuel (if b then n.right.toNat else n.left.toNat) s1

/-- decode_symbol() with symbol index k (R352). -/
def decodeSymbol (k : Word) (s : State) : Except (Err × State) (Byte × State) :=
  if s.hf.nodes = 0 then .error ((.malformedToken, k), s)
  else
    match walkTree k (s.br.bitsLeft + 1) s.hf.root.toNat s with
    | .error e => .error e
    | .ok (n, s1) => if n.synth then .error ((.malformedToken, k), s1) else .ok (n.sym, s1)

/-- HF_DECODE (R354). After TRUNCATED_INPUT or MALFORMED_TOKEN, RESULT and the reader's state are any value. -/
def execHfDecode (s : State) : Host.Outcome State Fault Refusal :=
  s.checked [s.noTreeErr .hfDecode, windowErr s.params.memSize s.br.window]
    (match decodeSymbol 0 s with
      | .error (e, f) => .next ((s.countFrom f).anyResult.anyReader.nextAny.raise e)
      | .ok (sym, s1) => .next ({ s1 with result := sym.setWidth 32 } : State).complete)

/-- The output byte of symbol k: a whole byte under W = 8; under W = 4 the nibble of NIBBLE_ORDER, the first of a byte clearing the second (R355). -/
def packSymbol (c : HfCfg) (k : Nat) (old sym : Byte) : Byte :=
  match c.width with
  | .bits8 => sym
  | .bits4 =>
    if k % 2 = 0 then
      match c.nibbleOrder with
      | .lowFirst => sym
      | .highFirst => sym <<< 4
    else
      match c.nibbleOrder with
      | .lowFirst => old ||| (sym <<< 4)
      | .highFirst => old ||| sym

/-- The byte index of symbol k (R355). -/
def HfCfg.byteIndex (c : HfCfg) (k : Nat) : Nat :=
  match c.width with
  | .bits8 => k
  | .bits4 => k / 2

/-- Decoding `count` symbols into the output window, `k` the index of the next (R355); an error carries the state at the failure. -/
def decodeSymbols : Nat → Nat → State → Except (Err × State) State
  | 0, _, s => .ok s
  | count + 1, k, s =>
    let j := s.hf.cfg.byteIndex k
    if s.hf.dstCap.toNat ≤ j then .error ((.outOfRangeWrite, word k), s)
    else
      match decodeSymbol (word k) s with
      | .error e => .error e
      | .ok (sym, s1) =>
        let a := s1.hf.dstBase.toNat + j
        decodeSymbols count (k + 1)
          { s1 with
            mem := s1.mem.set a (packSymbol s1.hf.cfg k (s1.mem.get a) sym)
            hf := { s1.hf with dstPos := word (j + 1) } }

/-- HF_DECODE_BUF (R355). After a later error the dst window, HF_DST_POS and the reader's state are any value. -/
def execHfDecodeBuf (s : State) : Host.Outcome State Fault Refusal :=
  s.checked
    [s.noTreeErr .hfDecodeBuf,
     windowErr s.params.memSize s.br.window, windowErr s.params.memSize s.hf.dstWindow,
     overlapErr s.hf.dstWindow s.br.window]
    (match decodeSymbols s.arg0.toNat 0 { s with hf := { s.hf with dstPos := 0 } } with
      | .error (e, f) => .next (((s.countFrom f).anyWindow s.hf.dstWindow).anyReader.anyDstPos.nextAny.raise e)
      | .ok s1 => .next s1.complete)

end Sys2Proof.Machine
end

