-- ==== Sys2Proof/Machine/MatchFinder.lean ====
section
/-! DEFINITION. The match finder (42_match_finder.md). -/

namespace Sys2Proof.Machine

/-- What the finder and the parser work on: the unit size u in bytes, the pre-buffer P, the scan string T and the enabled limitation slots (R251, R255). -/
structure Scan where
  u : Nat
  pre : List Byte
  text : List Byte
  slots : List (Nat × LimSlot)
  deriving DecidableEq, Repr

/-- A candidate: SLOT, DISPLACEMENT, LO, HI (30_encoding.md R151). -/
structure Candidate where
  slot : Nat
  disp : Nat
  lo : Nat
  hi : Nat
  deriving DecidableEq, Repr

/-- minL(k): 0xFFFFFFFF and 0 behave as 1 (R252). -/
def LimSlot.loLen (l : LimSlot) : Nat := if l.minLen = 0xFFFFFFFF then 1 else max l.minLen.toNat 1

/-- maxL(k) (R252). -/
def LimSlot.hiLen (l : LimSlot) : Nat := l.maxLen.toNat

/-- minD(k): 0xFFFFFFFF and 0 behave as 1 (R252). -/
def LimSlot.loDisp (l : LimSlot) : Nat := if l.minDisp = 0xFFFFFFFF then 1 else max l.minDisp.toNat 1

/-- maxD(k) (R252). -/
def LimSlot.hiDisp (l : LimSlot) : Nat := l.maxDisp.toNat

/-- The displacement half of admits(k, d, L) (R252). -/
def LimSlot.admitsDisp (l : LimSlot) (d : Nat) : Bool := decide (l.loDisp ≤ d) && decide (d ≤ l.hiDisp)

/-- admits(k, d, L) of an enabled slot (R252). -/
def LimSlot.admits (l : LimSlot) (d len : Nat) : Bool :=
  decide (l.loLen ≤ len) && decide (len ≤ l.hiLen) && l.admitsDisp d

/-- The virtual string S = P ++ T; scan position p stands at index B + p (R251). -/
def Scan.virtual (sc : Scan) : List Byte := sc.pre ++ sc.text

/-- The length of the common start of two byte strings. -/
def commonPrefix : List Byte → List Byte → Nat
  | a :: as, b :: bs => if a = b then commonPrefix as bs + 1 else 0
  | _, _ => 0

/-- The largest r with r at most N - p and S[B+p+i] = S[B+p-d+i] for all i < r (R258). -/
def Scan.run (sc : Scan) (p d : Nat) : Nat :=
  commonPrefix (sc.virtual.drop (sc.pre.length + p)) (sc.virtual.drop (sc.pre.length + p - d))

/-- The displacements tried at p: u, 2u, ... up to p + B (R258). -/
def Scan.disps (sc : Scan) (p : Nat) : List Nat :=
  (List.range ((p + sc.pre.length) / sc.u)).map fun j => sc.u * (j + 1)

/-- The candidate of a slot at displacement d whose run is r, if it admits a length (R258). -/
def Scan.candidate (sc : Scan) (d r : Nat) (k : Nat × LimSlot) : Option Candidate :=
  if k.2.admitsDisp d then
    let lo := sc.u * ((k.2.loLen + sc.u - 1) / sc.u)
    let hi := sc.u * (min k.2.hiLen r / sc.u)
    if lo ≤ hi then some ⟨k.1, d, lo, hi⟩ else none
  else none

/-- The candidates at scan position p, displacement ascending, then slot ascending (R258). -/
def Scan.candidates (sc : Scan) (p : Nat) : List Candidate :=
  (sc.disps p).flatMap fun d => sc.slots.filterMap (sc.candidate d (sc.run p d))

/-- The four words of a candidate descriptor (30_encoding.md R151). -/
def Candidate.words (c : Candidate) : List Word := [word c.slot, word c.disp, word c.lo, word c.hi]

/-- The scan string of an input: the input forward, the reversed input backward (R255). -/
def scanText : Direction → List Byte → List Byte
  | .forward, bs => bs
  | .backward, bs => bs.reverse

/-- The scan the registers configure: the bytes of the pre-buffer and input windows (R251, R255). -/
def State.scan (s : State) : Scan :=
  { u := s.mf.opt.unit.bytes
    pre := s.mem.getBytes s.mf.prebufBase.toNat s.mf.prebufSize.toNat
    text := scanText s.mf.opt.direction (s.mem.getBytes s.mf.inBase.toNat s.mf.inLen.toNat)
    slots := s.mf.enabledSlots }

/-- The checks MF_FIND and LZ_PARSE share, in order, `out` being the window they write (R258, R299; R256 for backward mode). -/
def State.finderChecks (s : State) (out : Window) : List (Option Err) :=
  let u := s.mf.opt.unit.bytes
  let b := s.mf.prebufSize.toNat
  let m := s.params.memSize
  [failIf s.mf.opt.decodeOnly .unsupportedOperation 0,
   failIf (s.mf.opt.direction = .backward ∧ (u ≠ 1 ∨ b ≠ 0)) .invalidRange 0x080,
   failIf (b % u ≠ 0) .invalidRange 0x088,
   failIf (s.mf.inLen.toNat % u ≠ 0) .invalidRange 0x090,
   windowErr m s.mf.preWindow,
   windowErr m s.mf.inWindow,
   windowErr m out,
   overlapErr out s.mf.preWindow,
   overlapErr out s.mf.inWindow]

/-- MF_FIND (R258). After OUT_OF_RANGE_WRITE the candidate window and RESULT are any value (R424). -/
def execMfFind (s : State) : Host.Outcome State Fault Refusal :=
  let p := s.arg0.toNat
  s.checked
    (s.finderChecks s.mf.candWindow ++
      [failIf (s.mf.inLen.toNat ≤ p ∨ p % s.mf.opt.unit.bytes ≠ 0) .invalidRange 0x018])
    (let cands := s.scan.candidates p
    if s.mf.candCap.toNat < cands.length then
      .next ((s.anyWindow s.mf.candWindow).anyResult.nextAny.raise (.outOfRangeWrite, s.mf.candCap))
    else
      .next ({ s with
        mem := s.mem.setWords s.mf.candBase.toNat (cands.flatMap Candidate.words)
        result := word cands.length } : State).complete)

end Sys2Proof.Machine
end

