-- ==== Sys2Proof/Machine/Parser.lean ====
section
/-! DEFINITION. The optimal parser (43_parser.md): the least total price over the graph of nodes (p, s), with the tie-break of R296, found by relaxing positions in ascending order (R302). -/

namespace Sys2Proof.Machine

/-- What a parse depends on: the scan, the direction (for positions), the skip K and the price port (R301, law 3). -/
structure ParseInput where
  scan : Scan
  direction : Direction
  skip : Nat
  pricing : Pricing
  deriving DecidableEq, Repr

/-- The edge chosen into a node and the node's cost (R295, R296): the edge's length and displacement (0 for a literal) and the skip state of its source. -/
structure Best where
  cost : Nat
  len : Nat
  disp : Nat
  src : Nat
  deriving DecidableEq, Repr

/-- A position of the graph: for each skip state 0..K the best way in (none where unreachable), and the run of equal bytes at each displacement. -/
structure Column where
  best : List (Option Best)
  runs : List (Nat × Nat)
  deriving DecidableEq, Repr

/-- The literal unit's value: first byte in [7:0], second in [15:8] (R290, R297). -/
def unitValue (bs : List Byte) : Word := word (bytesValue .le bs)

/-- The literal token of the unit at scan position p (R297). -/
def ParseInput.literalToken (x : ParseInput) (p : Nat) : Token :=
  { kind := .literal
    position := word (match x.direction with
      | .forward => p
      | .backward => x.scan.text.length - 1 - p)
    value := unitValue ((x.scan.text.drop p).take x.scan.u)
    length := word x.scan.u }

/-- The match token (d, L) at scan position p (R297). -/
def ParseInput.matchToken (x : ParseInput) (p d len : Nat) : Token :=
  { kind := .backRef
    position := word (match x.direction with
      | .forward => p
      | .backward => x.scan.text.length - p - len)
    value := word d
    length := word len }

/-- The price of a token (R290). -/
def ParseInput.price (x : ParseInput) (t : Token) : Nat := (x.pricing.price t).toNat

/-- Whether edge `a` is preferred to edge `b` into the same node: less cost, then longer, then smaller displacement, then smaller source skip state (R296). -/
def Best.better (a b : Best) : Bool :=
  a.cost < b.cost ||
    (a.cost == b.cost && (b.len < a.len ||
      (a.len == b.len && (a.disp < b.disp ||
        (a.disp == b.disp && decide (a.src < b.src))))))

/-- The preferred one of a list of incoming edges (R296). -/
def pickBest : List Best → Option Best
  | [] => none
  | b :: bs =>
    match pickBest bs with
    | none => some b
    | some c => if c.better b then some c else some b

/-- The cost of node (p, s), where the node is reachable. -/
def Column.cost (c : Column) (s : Nat) : Option Nat := ((c.best[s]?).join).map Best.cost

/-- The literal edges into skip state t from the column one unit before (R294): (p, s) leads to max(s - 1, 0). -/
def ParseInput.literalEdges (x : ParseInput) (p : Nat) (prev : Column) (t : Nat) : List Best :=
  ((List.range (x.skip + 1)).filter fun s => s - 1 = t).filterMap fun s =>
    (prev.cost s).map fun c =>
      { cost := c + x.price (x.literalToken p), len := x.scan.u, disp := 0, src := s }

/-- The match edges of length `len` from skip state 0 of the column of position p (R294): one for each legal displacement. -/
def ParseInput.matchEdges (x : ParseInput) (p len : Nat) (from_ : Column) : List Best :=
  match from_.cost 0 with
  | none => []
  | some c =>
    from_.runs.filterMap fun dr =>
      if len ≤ dr.2 ∧ x.scan.slots.any (fun k => k.2.admits dr.1 len) then
        some { cost := c + x.price (x.matchToken p dr.1 len), len := len, disp := dr.1, src := 0 }
      else none

/-- All match edges into position q: from the columns before it, nearest first; `len` is the length from the head column. -/
def ParseInput.allMatchEdges (x : ParseInput) (q : Nat) : Nat → List Column → List Best
  | _, [] => []
  | len, c :: cs => x.matchEdges (q - len) len c ++ x.allMatchEdges q (len + x.scan.u) cs

/-- The runs at scan position p (R258). -/
def Scan.runs (sc : Scan) (p : Nat) : List (Nat × Nat) := (sc.disps p).map fun d => (d, sc.run p d)

/-- The column of the start position: only (0, 0) is a node there with a way in (R292). -/
def ParseInput.startColumn (x : ParseInput) : Column :=
  { best := (List.range (x.skip + 1)).map fun s =>
      if s = 0 then some { cost := 0, len := 0, disp := 0, src := 0 } else none
    runs := x.scan.runs 0 }

/-- The column of position q from the columns before it, nearest first (R295, R296). Match edges enter skip state K only. -/
def ParseInput.nextColumn (x : ParseInput) (q : Nat) (before : List Column) : Column :=
  { best := (List.range (x.skip + 1)).map fun t =>
      pickBest
        ((match before with
          | [] => []
          | c :: _ => x.literalEdges (q - x.scan.u) c t) ++
         (if t = x.skip then x.allMatchEdges q x.scan.u before else []))
    runs := x.scan.runs q }

/-- The columns of the first n + 1 positions 0, u, ..., n·u, the last one first. -/
def ParseInput.columns (x : ParseInput) : Nat → List Column
  | 0 => [x.startColumn]
  | n + 1 =>
    match x.columns n with
    | before => x.nextColumn ((n + 1) * x.scan.u) before :: before

/-- The goal's skip state: among the end nodes, least cost, then the smallest state (R295). -/
def Column.goal (c : Column) (k : Nat) : Option (Nat × Nat) :=
  (List.range (k + 1)).foldl (fun acc s =>
    match acc, c.cost s with
    | none, some n => some (s, n)
    | some a, some n => if n < a.2 then some (s, n) else some a
    | a, none => a) none

/-- The token of the edge into position q (R297). -/
def ParseInput.edgeToken (x : ParseInput) (q : Nat) (b : Best) : Token :=
  if b.disp = 0 then x.literalToken (q - b.len) else x.matchToken (q - b.len) b.disp b.len

/-- Following the chosen edges back from position q in skip state s, collecting the tokens in scan order (R297). `cols` starts at q's column; `fuel` bounds the number of edges. -/
def ParseInput.walkBack (x : ParseInput) : Nat → List Column → Nat → Nat → List Token → List Token
  | 0, _, _, _, acc => acc
  | fuel + 1, cols, q, s, acc =>
    if q = 0 then acc
    else
      match (cols.head?.bind fun c => (c.best[s]?).join) with
      | none => acc
      | some b =>
        x.walkBack fuel (cols.drop (b.len / x.scan.u)) (q - b.len) b.src (x.edgeToken q b :: acc)

/-- The optimum C and the token list (R292 to R298). -/
def ParseInput.parse (x : ParseInput) : Nat × List Token :=
  let n := x.scan.text.length / x.scan.u
  match x.columns n with
  | cols =>
    match cols.head?.bind fun c => c.goal x.skip with
    | none => (0, [])
    | some (s, cost) => (cost, x.walkBack n cols (n * x.scan.u) s [])

/-- The four words of a token descriptor (30_encoding.md R150). -/
def Token.words (t : Token) : List Word := [t.kind.toWord, t.position, t.value, t.length]

/-- What LZ_PARSE parses in a state (R299). -/
def State.parseInput (s : State) : ParseInput :=
  { scan := s.scan, direction := s.mf.opt.direction, skip := s.mf.opt.skip.toNat, pricing := s.params.price }

/-- LZ_PARSE (R299). After OUT_OF_RANGE_WRITE the token window, MF_TOK_COUNT and MF_COST are any value. -/
def execLzParse (s : State) : Host.Outcome State Fault Refusal :=
  s.checked (s.finderChecks s.mf.tokWindow)
    (match s.parseInput.parse with
      | (cost, toks) =>
        if s.mf.tokCap.toNat < toks.length then
          .next ((s.anyWindow s.mf.tokWindow).anyParse.nextAny.raise (.outOfRangeWrite, s.mf.tokCap))
        else
          .next ({ s with
            mem := s.mem.setWords s.mf.tokBase.toNat (toks.flatMap Token.words)
            mf := { s.mf with
              tokCount := word toks.length
              costLo := word cost
              costHi := word (cost / 2 ^ 32) } } : State).complete)

end Sys2Proof.Machine
end

