-- ==== Sys2Proof/Machine/Dispatch.lean ====
section
/-! DEFINITION. The meaning of each command (30_encoding.md R143): one arm per constructor. -/

namespace Sys2Proof.Machine

def exec (i : Instr) (s : State) : Host.Outcome State Fault Refusal :=
  match i with
  | .nop => Sys2Proof.Machine.execNop s
  | .brReset => Sys2Proof.Machine.execBrReset s
  | .brRead n => Sys2Proof.Machine.execBrRead n s
  | .brAlign => Sys2Proof.Machine.execBrAlign s
  | .brReadInt w => Sys2Proof.Machine.execBrReadInt w s
  | .bwReset => Sys2Proof.Machine.execBwReset s
  | .bwWrite n => Sys2Proof.Machine.execBwWrite n s
  | .bwFlush => Sys2Proof.Machine.execBwFlush s
  | .bwWriteInt w => Sys2Proof.Machine.execBwWriteInt w s
  | .mfFind => Sys2Proof.Machine.execMfFind s
  | .lzParse => Sys2Proof.Machine.execLzParse s
  | .hfCount => Sys2Proof.Machine.execHfCount s
  | .hfBuild => Sys2Proof.Machine.execHfBuild s
  | .hfLoad => Sys2Proof.Machine.execHfLoad s
  | .hfEncode => Sys2Proof.Machine.execHfEncode s
  | .hfEncodeBuf => Sys2Proof.Machine.execHfEncodeBuf s
  | .hfDecode => Sys2Proof.Machine.execHfDecode s
  | .hfDecodeBuf => Sys2Proof.Machine.execHfDecodeBuf s
  | .exReset => Sys2Proof.Machine.execExReset s
  | .exLit => Sys2Proof.Machine.execExLit s
  | .exMatch => Sys2Proof.Machine.execExMatch s
  | .exStream => Sys2Proof.Machine.execExStream s

end Sys2Proof.Machine
end

