-- ==== Sys2Proof/Machine/HostPort.lean ====
section
/-! DEFINITION. The register space as the host sees it (10_state.md; 40_control.md R183, R185 to R187), and the host's accesses to data memory (20_memory.md R100, R113). A write to CMD is the step's business. -/

namespace Sys2Proof.Machine

/-- The register port admits aligned 32-bit accesses inside the 1024-byte register space (R30). -/
def admitsPort (off width : Nat) : Bool := width == 4 && off % 4 == 0 && decide (off < 1024)

/-! ## Configuration words -/

/-- BR_CFG and BW_CFG as the host reads them (R38). -/
def BitCfg.toWord (c : BitCfg) : Word :=
  word (bit (c.bitOrder == .lsbFirst) 0 + bit (c.byteOrder == .be) 1 + bit (c.unit == .bits16) 2)

/-- BR_CFG and BW_CFG after a write (R38). -/
def BitCfg.ofWord (v : Word) : BitCfg :=
  { bitOrder := if v.getLsbD 0 then .lsbFirst else .msbFirst
    byteOrder := if v.getLsbD 1 then .be else .le
    unit := if v.getLsbD 2 then .bits16 else .bits8 }

/-- MF_OPT as the host reads it (R42). -/
def MfOpt.toWord (o : MfOpt) : Word :=
  word (bit (o.direction == .backward) 0 + bit (o.unit == .two) 1 + o.skip.toNat * 2 ^ 8 + bit o.decodeOnly 16)

/-- MF_OPT after a write (R42). -/
def MfOpt.ofWord (v : Word) : MfOpt :=
  { direction := if v.getLsbD 0 then .backward else .forward
    unit := if v.getLsbD 1 then .two else .one
    skip := v.extractLsb' 8 8
    decodeOnly := v.getLsbD 16 }

/-- EX_CFG as the host reads it (R61). -/
def Expander.cfgWord (e : Expander) : Word := word (bit (e.direction == .backward) 0 + bit (e.unit == .two) 1)

/-- EX_CFG after a write; EX_POS is kept (R61). -/
def Expander.setCfg (e : Expander) (v : Word) : Expander :=
  { e with
    direction := if v.getLsbD 0 then .backward else .forward
    unit := if v.getLsbD 1 then .two else .one }

/-- HF_CFG as the host reads it (R80). -/
def HfCfg.toWord (c : HfCfg) : Word :=
  word (bit (c.width == .bits4) 0 + bit (c.nibbleOrder == .highFirst) 1 + bit c.canon 2 + bit c.limitEn 3 +
    c.cap.toNat * 2 ^ 8)

/-- HF_CFG after a write (R80). -/
def HfCfg.ofWord (v : Word) : HfCfg :=
  { width := if v.getLsbD 0 then .bits4 else .bits8
    nibbleOrder := if v.getLsbD 1 then .highFirst else .lowFirst
    canon := v.getLsbD 2
    limitEn := v.getLsbD 3
    cap := v.extractLsb' 8 6 }

/-- HF_STATE as the host reads it (R82). -/
def HfState.toWord (t : HfState) : Word := word (bit t.valid 0 + bit t.limited 1 + t.maxLen.toNat * 2 ^ 8)

/-! ## Reading -/

/-- The four words of a limitation slot, in register order (R60). -/
def LimSlot.reg (l : LimSlot) : Nat → Word
  | 0 => l.minLen
  | 1 => l.maxLen
  | 2 => l.minDisp
  | _ => l.maxDisp

/-- Storing word j of a limitation slot (R60). -/
def LimSlot.setReg (l : LimSlot) (j : Nat) (v : Word) : LimSlot :=
  match j with
  | 0 => { l with minLen := v }
  | 1 => { l with maxLen := v }
  | 2 => { l with minDisp := v }
  | _ => { l with maxDisp := v }

/-- The value of the register at an aligned offset (10_state.md). CMD reads 0; an offset no row names reads 0 (R30). -/
def State.readReg (s : State) (off : Nat) : Word :=
  match off with
  | 0x000 => 0x4B324C5A
  | 0x004 => 0x00070001
  | 0x008 => s.ctrl.toWord
  | 0x00C => s.status.toWord
  | 0x010 => s.errPos
  | 0x018 => s.arg0
  | 0x01C => s.arg1
  | 0x020 => s.result
  | 0x024 => s.resultHi
  | 0x040 => s.br.cfg.toWord
  | 0x044 => s.br.base
  | 0x048 => s.br.len
  | 0x04C => s.br.pos
  | 0x050 => s.br.bits.setWidth 32
  | 0x054 => s.br.buf.setWidth 32
  | 0x060 => s.bw.cfg.toWord
  | 0x064 => s.bw.base
  | 0x068 => s.bw.cap
  | 0x06C => s.bw.pos
  | 0x070 => s.bw.bits.setWidth 32
  | 0x074 => s.bw.buf.setWidth 32
  | 0x080 => s.mf.opt.toWord
  | 0x084 => s.mf.prebufBase
  | 0x088 => s.mf.prebufSize
  | 0x08C => s.mf.inBase
  | 0x090 => s.mf.inLen
  | 0x094 => s.mf.tokBase
  | 0x098 => s.mf.tokCap
  | 0x09C => s.mf.tokCount
  | 0x0A0 => s.mf.costLo
  | 0x0A4 => s.mf.costHi
  | 0x0A8 => s.mf.limEn.setWidth 32
  | 0x0AC => s.mf.candBase
  | 0x0B0 => s.mf.candCap
  | 0x0C0 => s.mf.lim0.reg 0
  | 0x0C4 => s.mf.lim0.reg 1
  | 0x0C8 => s.mf.lim0.reg 2
  | 0x0CC => s.mf.lim0.reg 3
  | 0x0D0 => s.mf.lim1.reg 0
  | 0x0D4 => s.mf.lim1.reg 1
  | 0x0D8 => s.mf.lim1.reg 2
  | 0x0DC => s.mf.lim1.reg 3
  | 0x0E0 => s.mf.lim2.reg 0
  | 0x0E4 => s.mf.lim2.reg 1
  | 0x0E8 => s.mf.lim2.reg 2
  | 0x0EC => s.mf.lim2.reg 3
  | 0x0F0 => s.mf.lim3.reg 0
  | 0x0F4 => s.mf.lim3.reg 1
  | 0x0F8 => s.mf.lim3.reg 2
  | 0x0FC => s.mf.lim3.reg 3
  | 0x100 => s.ex.cfgWord
  | 0x104 => s.ex.outBase
  | 0x108 => s.ex.outCap
  | 0x10C => s.ex.pos
  | 0x110 => s.ex.prebufBase
  | 0x114 => s.ex.prebufSize
  | 0x118 => s.ex.tokBase
  | 0x11C => s.ex.tokCount
  | 0x140 => s.hf.cfg.toWord
  | 0x144 => s.hf.srcBase
  | 0x148 => s.hf.srcLen
  | 0x14C => s.hf.freqBase
  | 0x150 => s.hf.treeBase
  | 0x154 => s.hf.bookBase
  | 0x158 => s.hf.root
  | 0x15C => s.hf.nodes
  | 0x160 => s.hf.state.toWord
  | 0x164 => s.hf.dstBase
  | 0x168 => s.hf.dstCap
  | 0x16C => s.hf.dstPos
  | _ => 0

/-! ## Writing -/

/-- A write to BR_CFG, BR_BASE or BR_LEN also restarts the reader (R38, R39). -/
def Reader.writeReg (r : Reader) (off : Nat) (v : Word) : Reader :=
  match off with
  | 0x040 => { r with cfg := .ofWord v }.restart
  | 0x044 => { r with base := v }.restart
  | 0x048 => { r with len := v }.restart
  | _ => r

/-- A write to BW_CFG, BW_BASE or BW_CAP also restarts the writer (R40, R41). -/
def Writer.writeReg (w : Writer) (off : Nat) (v : Word) : Writer :=
  match off with
  | 0x060 => { w with cfg := .ofWord v }.restart
  | 0x064 => { w with base := v }.restart
  | 0x068 => { w with cap := v }.restart
  | _ => w

/-- Writes to the finder's registers; MF_TOK_COUNT and MF_COST are read-only (R42, R43, R60). -/
def Finder.writeReg (f : Finder) (off : Nat) (v : Word) : Finder :=
  match off with
  | 0x080 => { f with opt := .ofWord v }
  | 0x084 => { f with prebufBase := v }
  | 0x088 => { f with prebufSize := v }
  | 0x08C => { f with inBase := v }
  | 0x090 => { f with inLen := v }
  | 0x094 => { f with tokBase := v }
  | 0x098 => { f with tokCap := v }
  | 0x0A8 => { f with limEn := v.setWidth 4 }
  | 0x0AC => { f with candBase := v }
  | 0x0B0 => { f with candCap := v }
  | 0x0C0 => { f with lim0 := f.lim0.setReg 0 v }
  | 0x0C4 => { f with lim0 := f.lim0.setReg 1 v }
  | 0x0C8 => { f with lim0 := f.lim0.setReg 2 v }
  | 0x0CC => { f with lim0 := f.lim0.setReg 3 v }
  | 0x0D0 => { f with lim1 := f.lim1.setReg 0 v }
  | 0x0D4 => { f with lim1 := f.lim1.setReg 1 v }
  | 0x0D8 => { f with lim1 := f.lim1.setReg 2 v }
  | 0x0DC => { f with lim1 := f.lim1.setReg 3 v }
  | 0x0E0 => { f with lim2 := f.lim2.setReg 0 v }
  | 0x0E4 => { f with lim2 := f.lim2.setReg 1 v }
  | 0x0E8 => { f with lim2 := f.lim2.setReg 2 v }
  | 0x0EC => { f with lim2 := f.lim2.setReg 3 v }
  | 0x0F0 => { f with lim3 := f.lim3.setReg 0 v }
  | 0x0F4 => { f with lim3 := f.lim3.setReg 1 v }
  | 0x0F8 => { f with lim3 := f.lim3.setReg 2 v }
  | 0x0FC => { f with lim3 := f.lim3.setReg 3 v }
  | _ => f

/-- Writes to the expander's registers; EX_POS is read-only and kept (R61, R62). -/
def Expander.writeReg (e : Expander) (off : Nat) (v : Word) : Expander :=
  match off with
  | 0x100 => e.setCfg v
  | 0x104 => { e with outBase := v }
  | 0x108 => { e with outCap := v }
  | 0x110 => { e with prebufBase := v }
  | 0x114 => { e with prebufSize := v }
  | 0x118 => { e with tokBase := v }
  | 0x11C => { e with tokCount := v }
  | _ => e

/-- Writes to the Huffman registers; a write to HF_CFG clears HF_STATE.VALID (R80); HF_ROOT, HF_NODES, HF_STATE and HF_DST_POS are read-only (R81, R82). -/
def Huffman.writeReg (h : Huffman) (off : Nat) (v : Word) : Huffman :=
  match off with
  | 0x140 => { h with cfg := .ofWord v, state := { h.state with valid := false } }
  | 0x144 => { h with srcBase := v }
  | 0x148 => { h with srcLen := v }
  | 0x14C => { h with freqBase := v }
  | 0x150 => { h with treeBase := v }
  | 0x154 => { h with bookBase := v }
  | 0x164 => { h with dstBase := v }
  | 0x168 => { h with dstCap := v }
  | _ => h

/-- A host write to CTRL: a soft reset when bit 31 is 1, its other bits ignored, else the two interrupt enables (R186, R461). -/
def State.writeCtrl (s : State) (v : Word) : State :=
  if v.getLsbD 31 then s.resetBlock else { s with ctrl := .ofWord v }

/-- A host write to a register other than CTRL, STATUS and CMD, the block being idle; read-only registers and offsets no row names ignore it (R30). -/
def State.writeIdle (s : State) (off : Nat) (v : Word) : State :=
  { s with
    arg0 := if off = 0x018 then v else s.arg0
    arg1 := if off = 0x01C then v else s.arg1
    br := s.br.writeReg off v
    bw := s.bw.writeReg off v
    mf := s.mf.writeReg off v
    ex := s.ex.writeReg off v
    hf := s.hf.writeReg off v }

/-- A host write to a register other than CMD. While BUSY = 1 only CTRL and STATUS admit writes; any other is dropped (R183, R185, R186). -/
def State.writeReg (s : State) (off : Nat) (v : Word) : State :=
  if off = 0x008 then s.writeCtrl v
  else if off = 0x00C then s.writeStatus v
  else if s.status.busy then s.drop
  else s.writeIdle off v

/-- A host read: the register's value; while BUSY = 1, any value for a register other than ID, VERSION, CTRL and STATUS (R187). -/
def State.hostRead (s : State) (off : Nat) : State :=
  if s.status.busy ∧ 0x010 ≤ off then ({ s with hostData := Config.anyWord s.anyCount off } : State).nextAny
  else { s with hostData := s.readReg off }

/-! ## The queue of host accesses -/

/-- Taking the oldest access off the queue. -/
def State.popHost (s : State) : State := { s with host := s.host.tail }

/-- The offset of CMD (R35). -/
def cmdOffset : Nat := 0x014

/-- A host access to a data address: it exists when it is below MEM_SIZE (R100). -/
def State.hasAddr (s : State) (a : Nat) : Bool := a < s.params.memSize

end Sys2Proof.Machine
end

