-- ==== Sys2Proof/Machine/Step.lean ====
section
/-! DEFINITION. One step: the block performs the oldest pending host access; a write to CMD that is accepted runs one whole command (40_control.md R180). -/

namespace Sys2Proof.Machine

/-- A host write of c to CMD: accepted when BUSY = 0 and ERR = 0, and then decoded and run; otherwise dropped (R180, R181). -/
def State.issue (s : State) (c : Word) : Host.Outcome State Fault Refusal :=
  if s.status.accepts then
    match decode c with
    | .ok i => exec i s.accept
    | .error _ => .next (s.accept.illegalWord c)
  else .next s.drop

/-- One host access, or the reset input (R30, R100, R113, R460). -/
def State.perform (s : State) : HostOp → Host.Outcome State Fault Refusal
  | .regWrite off width v =>
    if admitsPort off width then
      if off = cmdOffset then s.issue v else .next (s.writeReg off v)
    else .fault .registerAccessNotAdmitted
  | .regRead off width =>
    if admitsPort off width then .next (s.hostRead off) else .fault .registerAccessNotAdmitted
  | .memWrite a b => if s.hasAddr a then .next { s with mem := s.mem.set a b } else .fault .noSuchDataAddress
  | .memRead a =>
    if s.hasAddr a then .next { s with hostData := (s.mem.get a).setWidth 32 } else .fault .noSuchDataAddress
  | .resetInput => .next s.resetBlock

/-- One step of the machine. With no access pending the block is idle, every register held (60_exceptions.md R445). -/
def step (s : State) : Host.Outcome State Fault Refusal :=
  match s.host with
  | [] => .next s
  | op :: _ => s.popHost.perform op

/-- The state in which the very next step runs the command whose bits are `w`: the host's write of the word to CMD is the oldest pending access, and BUSY and ERR are 0, so that it is accepted (clearing ERR clears ERR_CODE and ERR_POS, R185). -/
def State.withFetchWord (s : State) (nbits w : Nat) : State :=
  { s with
    host := .regWrite cmdOffset 4 (commandWord nbits w) :: s.host
    status := { s.status with busy := false, err := false, errCode := if s.status.err then 0 else s.status.errCode }
    errPos := if s.status.err then 0 else s.errPos }

end Sys2Proof.Machine
end

