-- ==== Sys2Proof/Safety.lean ====
section
/-! DEFINITION. The terms claims use: the invariant of the block, when a command's start checks pass, bit streams, legal matches and valid token streams, walks of a code tree, and the expander's history. None of them is used by the step. -/

namespace Sys2Proof.Machine

/-! ## The invariant -/

/-- Every listed address exists (20_memory.md R100). -/
def Memory.below (n : Nat) (m : Memory) : Bool := m.all fun c => c.1 < n

/-- What holds between steps: the parameters are legal (R6); data memory is canonical and inside MEM_SIZE (R100, R103); no command is running (R180); ERR_CODE and ERR_POS are 0 exactly as R33 and R34 say while ERR = 0, and ERR_CODE is 1 to 7 while ERR = 1 (R420); RESULT_HI reads 0 (R36). -/
structure State.Inv (s : State) : Prop where
  params : s.params.Legal
  memWf : s.mem.wf = true
  memBelow : s.mem.below s.params.memSize = true
  idle : s.status.busy = false
  noErr : s.status.err = false → s.status.errCode = 0 ∧ s.errPos = 0
  errCode : s.status.err = true → 1 ≤ s.status.errCode.toNat ∧ s.status.errCode.toNat ≤ 7
  resultHi : s.resultHi = 0

/-! ## When start checks pass -/

/-- A window is valid: it ends inside data memory, or has length 0 (R103). -/
abbrev Window.Inside (memSize : Nat) (w : Window) : Prop := w.len = 0 ∨ w.base + w.len ≤ memSize

/-- The reader's window is valid (R103). -/
abbrev State.ReaderReady (s : State) : Prop := s.br.window.Inside s.params.memSize

/-- The writer's window is valid (R103). -/
abbrev State.WriterReady (s : State) : Prop := s.bw.window.Inside s.params.memSize

/-- BR_BITS counts bits of one unit: false only after an error left it at any value. -/
abbrev Reader.Sound (r : Reader) : Prop := r.bits.toNat ≤ r.cfg.unit.bits

/-- BW_BITS counts bits of an unfinished unit: false only after an error left it at any value. -/
abbrev Writer.Sound (w : Writer) : Prop := w.bits.toNat < w.cfg.unit.bits

/-- The output position after `n` more bits: each unit they complete advances it by nb (R211). -/
def Writer.posAfter (w : Writer) (n : Nat) : Nat :=
  w.pos.toNat + w.cfg.unit.bytes * ((w.bits.toNat + n) / w.cfg.unit.bits)

/-- `n` more bits fit the writer's window: they complete no unit, or every unit they complete fits (R211). -/
abbrev Writer.Fits (w : Writer) (n : Nat) : Prop :=
  w.bits.toNat + n < w.cfg.unit.bits ∨ w.posAfter n ≤ w.cap.toNat

/-- Two windows share no byte (R104). -/
abbrev Window.Apart (a b : Window) : Prop :=
  a.len = 0 ∨ b.len = 0 ∨ b.base + b.len ≤ a.base ∨ a.base + a.len ≤ b.base

/-- The checks of MF_FIND and LZ_PARSE before their windows pass (R258, R299, R256). -/
abbrev State.FinderOptionsOk (s : State) : Prop :=
  s.mf.opt.decodeOnly = false ∧
  (s.mf.opt.direction = .backward → s.mf.opt.unit = .one ∧ s.mf.prebufSize = 0) ∧
  s.mf.prebufSize.toNat % s.mf.opt.unit.bytes = 0 ∧
  s.mf.inLen.toNat % s.mf.opt.unit.bytes = 0

/-- The checks of the expander commands before their windows pass (R397). -/
abbrev State.ExOptionsOk (s : State) : Prop :=
  (s.ex.direction = .backward → s.ex.unit = .one ∧ s.ex.prebufSize = 0) ∧
  s.ex.prebufSize.toNat % s.ex.unit.bytes = 0 ∧
  s.ex.pos.toNat ≤ s.ex.outCap.toNat

/-- The start checks of MF_FIND and LZ_PARSE pass, `out` being the window they write (R258, R299). -/
abbrev State.FinderReady (s : State) (out : Window) : Prop :=
  s.FinderOptionsOk ∧
  s.mf.preWindow.Inside s.params.memSize ∧
  s.mf.inWindow.Inside s.params.memSize ∧
  out.Inside s.params.memSize ∧
  out.Apart s.mf.preWindow ∧ out.Apart s.mf.inWindow

/-- The start checks of EX_LIT and EX_MATCH pass (R397). -/
abbrev State.ExReady (s : State) : Prop :=
  s.ExOptionsOk ∧
  s.ex.outWindow.Inside s.params.memSize ∧
  s.ex.preWindow.Inside s.params.memSize ∧
  s.ex.outWindow.Apart s.ex.preWindow

/-- The start checks of EX_STREAM pass (R397). -/
abbrev State.ExStreamReady (s : State) : Prop :=
  s.ExReady ∧ s.ex.tokWindow.Inside s.params.memSize ∧ s.ex.outWindow.Apart s.ex.tokWindow

/-- The windows a command writes (R212 to R214, R258, R299, R332, R343, R351, R353, R355, R392 to R394). -/
def writeWindows (s : State) : Instr → List Window
  | .bwWrite _ | .bwFlush | .bwWriteInt _ | .hfEncode | .hfEncodeBuf => [s.bw.window]
  | .mfFind => [s.mf.candWindow]
  | .lzParse => [s.mf.tokWindow]
  | .hfCount => [s.hf.freqWindow]
  | .hfBuild => [s.hf.treeWindow, s.hf.bookWindow]
  | .hfDecodeBuf => [s.hf.dstWindow]
  | .exLit | .exMatch | .exStream => [s.ex.outWindow]
  | .nop | .brReset | .brRead _ | .brAlign | .brReadInt _ | .bwReset | .hfLoad | .hfDecode | .exReset => []

/-- The windows a command checks, in the order of its rule (R203 to R214, R258, R299, R332, R343, R344, R351 to R355, R397). -/
def usedWindows (s : State) : Instr → List Window
  | .brRead _ | .brReadInt _ | .hfDecode => [s.br.window]
  | .bwWrite _ | .bwFlush | .bwWriteInt _ | .hfEncode => [s.bw.window]
  | .mfFind => [s.mf.preWindow, s.mf.inWindow, s.mf.candWindow]
  | .lzParse => [s.mf.preWindow, s.mf.inWindow, s.mf.tokWindow]
  | .hfCount => [s.hf.srcWindow, s.hf.freqWindow]
  | .hfBuild => [s.hf.freqWindow, s.hf.treeWindow, s.hf.bookWindow]
  | .hfLoad => [s.hf.loadWindow s.arg1.toNat]
  | .hfEncodeBuf => [s.hf.srcWindow, s.bw.window]
  | .hfDecodeBuf => [s.br.window, s.hf.dstWindow]
  | .exLit | .exMatch => [s.ex.outWindow, s.ex.preWindow]
  | .exStream => [s.ex.outWindow, s.ex.preWindow, s.ex.tokWindow]
  | .nop | .brReset | .brAlign | .bwReset | .exReset => []

/-- Every check a command makes before its windows passes (R422). -/
def PriorChecks (s : State) : Instr → Prop
  | .brRead n | .bwWrite n => n.toNat ≤ 32
  | .brReadInt w => w.toNat ≠ 3 ∧ s.br.bits = 0
  | .bwWriteInt w => w.toNat ≠ 3 ∧ s.bw.bits = 0
  | .mfFind | .lzParse => s.FinderOptionsOk
  | .hfLoad => 1 ≤ s.arg1.toNat ∧ s.arg1.toNat ≤ s.hf.cfg.width.maxNodes ∧ s.arg0.toNat < s.arg1.toNat
  | .hfEncode | .hfEncodeBuf | .hfDecode | .hfDecodeBuf => s.hf.state.valid = true
  | .exLit | .exMatch | .exStream => s.ExOptionsOk
  | .nop | .brReset | .brAlign | .bwReset | .bwFlush | .hfCount | .hfBuild | .exReset => True

/-- An address lies in a window. -/
abbrev Window.Holds (w : Window) (a : Nat) : Prop := w.base ≤ a ∧ a < w.base + w.len

/-! ## Bit streams (41_bitio.md) -/

/-- The units of a byte string, in the configured byte order; an incomplete last unit is none (R201). -/
def unitsOf (c : BitCfg) : List Byte → List Nat
  | [] => []
  | [b] => match c.unit with
    | .bits8 => [b.toNat]
    | .bits16 => []
  | b0 :: b1 :: bs => match c.unit with
    | .bits8 => b0.toNat :: unitsOf c (b1 :: bs)
    | .bits16 => bytesValue c.byteOrder [b0, b1] :: unitsOf c bs

/-- The bits of a byte string in stream order (R202). -/
def streamBits (c : BitCfg) (bs : List Byte) : List Bool :=
  (unitsOf c bs).flatMap (valueBits c.bitOrder c.unit.bits)

/-- The bits of the current unit not yet consumed, in stream order (R39, R202). -/
def Reader.heldBits (r : Reader) : List Bool :=
  (valueBits r.cfg.bitOrder r.cfg.unit.bits r.buf.toNat).drop (r.cfg.unit.bits - r.bits.toNat)

/-- Every bit the reader can still deliver, in stream order. -/
def State.unreadBits (s : State) : List Bool :=
  s.br.heldBits ++
    streamBits s.br.cfg (s.mem.getBytes (s.br.base.toNat + s.br.pos.toNat) (s.br.len.toNat - s.br.pos.toNat))

/-- The bits placed in the pending unit, in stream order (R41, R211). -/
def Writer.pendingBits (w : Writer) : List Bool :=
  (valueBits w.cfg.bitOrder w.cfg.unit.bits w.buf.toNat).take w.bits.toNat

/-- The bits written from output position `start` on: those of the stored units, then the pending ones. -/
def State.writtenBits (s : State) (start : Nat) : List Bool :=
  streamBits s.bw.cfg (s.mem.getBytes (s.bw.base.toNat + start) (s.bw.pos.toNat - start)) ++ s.bw.pendingBits

/-- BW_WRITE of each (n, v) in order: ARG0 <- v, then the command (R215); the state after the last, if each answers a next state without an error. -/
def writeSequence (s : State) : List (BitVec 6 × Word) → Option State
  | [] => some s
  | (n, v) :: rest =>
    match exec (.bwWrite n) { s with arg0 := v } with
    | .next t => if t.status.err then none else writeSequence t rest
    | _ => none

/-- BR_READ of each n in order: the results (R215), if each answers a next state without an error. -/
def readSequence (s : State) : List (BitVec 6) → Option (List Word)
  | [] => some []
  | n :: rest =>
    match exec (.brRead n) s with
    | .next t => if t.status.err then none else (readSequence t rest).map (t.result :: ·)
    | _ => none

/-- The reader pointed at `len` bytes at `base` with a configuration, as host writes to BR_CFG, BR_BASE and BR_LEN leave it (R38, R39). -/
def State.pointReader (s : State) (c : BitCfg) (base len : Word) : State :=
  { s with br := { cfg := c, base := base, len := len, pos := 0, bits := 0, buf := 0 } }

/-! ## Matches and token streams (42_match_finder.md R253; 43_parser.md R293, R300) -/

/-- A legal match (d, len) at scan position p (R253). -/
def Scan.Legal (sc : Scan) (p d len : Nat) : Prop :=
  1 ≤ d ∧ 1 ≤ len ∧ d % sc.u = 0 ∧ len % sc.u = 0 ∧
  p + len ≤ sc.text.length ∧
  d ≤ p + sc.pre.length ∧
  (∀ i < len, sc.virtual[sc.pre.length + p + i]? = sc.virtual[sc.pre.length + p - d + i]?) ∧
  ∃ k ∈ sc.slots, k.2.loLen ≤ len ∧ len ≤ k.2.hiLen ∧ k.2.loDisp ≤ d ∧ d ≤ k.2.hiDisp

/-- One choice of a parse: a literal unit, or a match (d, len). -/
inductive Choice
  | lit
  | copy (d len : Nat)
  deriving DecidableEq, Repr

/-- A choice sequence covers the rest of the scan string from position p in skip state k: every match is legal and starts in skip state 0, and after it K units start no match (R293, R300). -/
def ParseInput.Covers (x : ParseInput) : Nat → Nat → List Choice → Prop
  | p, _, [] => p = x.scan.text.length
  | p, k, .lit :: cs => p + x.scan.u ≤ x.scan.text.length ∧ x.Covers (p + x.scan.u) (k - 1) cs
  | p, k, .copy d len :: cs => k = 0 ∧ x.scan.Legal p d len ∧ x.Covers (p + len) x.skip cs

/-- The tokens of a choice sequence from scan position p (R297). -/
def ParseInput.tokensOf (x : ParseInput) : Nat → List Choice → List Token
  | _, [] => []
  | p, .lit :: cs => x.literalToken p :: x.tokensOf (p + x.scan.u) cs
  | p, .copy d len :: cs => x.matchToken p d len :: x.tokensOf (p + len) cs

/-- The total price of a token list (R291). -/
def ParseInput.totalPrice (x : ParseInput) (ts : List Token) : Nat := (ts.map x.price).sum

/-- The edge chosen into node (q, t), q a multiple of u, none where the node is unreachable (R296); its `cost` is cost(q, t) of R295. -/
def ParseInput.chosen (x : ParseInput) (q t : Nat) : Option Best :=
  (x.columns (q / x.scan.u)).head?.bind fun c => (c.best[t]?).join

/-- cost(q, t) of R295, none where the node is unreachable. -/
def ParseInput.costAt (x : ParseInput) (q t : Nat) : Option Nat := (x.chosen q t).map Best.cost

/-- e is an edge into node (q, t) from a reachable node, its `cost` that of the path through it: a literal edge from (q - u, e.src), which leads to max(e.src - 1, 0), or a match edge from (q - e.len, 0), which leads to K (R294, R296). -/
def ParseInput.EdgeInto (x : ParseInput) (q t : Nat) (e : Best) : Prop :=
  (e.len = x.scan.u ∧ e.disp = 0 ∧ x.scan.u ≤ q ∧ e.src ≤ x.skip ∧ t = e.src - 1 ∧
    ∃ c, x.costAt (q - x.scan.u) e.src = some c ∧ e.cost = c + x.price (x.literalToken (q - x.scan.u))) ∨
  (t = x.skip ∧ e.src = 0 ∧ e.len ≤ q ∧ x.scan.Legal (q - e.len) e.disp e.len ∧
    ∃ c, x.costAt (q - e.len) 0 = some c ∧ e.cost = c + x.price (x.matchToken (q - e.len) e.disp e.len))

/-- Edge b is no worse a way in than edge e: less cost, or at equal cost no greater a key of R296 (longer first, then smaller displacement, then smaller source skip state). -/
abbrev Best.AtLeast (b e : Best) : Prop :=
  b.cost < e.cost ∨ (b.cost = e.cost ∧
    (e.len < b.len ∨ (e.len = b.len ∧
      (b.disp < e.disp ∨ (b.disp = e.disp ∧ b.src ≤ e.src)))))

/-- The edges met when the chosen edges are followed back from node (q, s) to (0, 0), last edge first (R297). -/
def ParseInput.ChosenBack (x : ParseInput) : Nat → Nat → List Best → Prop
  | q, s, [] => q = 0 ∧ s = 0
  | q, s, b :: bs => 0 < q ∧ x.chosen q s = some b ∧ x.ChosenBack (q - b.len) b.src bs

/-- The tokens of edges given last first from position q, in the same order (R297). -/
def ParseInput.backTokens (x : ParseInput) : Nat → List Best → List Token
  | _, [] => []
  | q, b :: bs =>
    (if b.disp = 0 then x.literalToken (q - b.len) else x.matchToken (q - b.len) b.disp b.len) ::
      x.backTokens (q - b.len) bs

/-- A scan a start check lets through: u is 1 or 2 and divides both lengths (R258). -/
abbrev Scan.Aligned (sc : Scan) : Prop :=
  (sc.u = 1 ∨ sc.u = 2) ∧ sc.text.length % sc.u = 0 ∧ sc.pre.length % sc.u = 0

/-! ## Code trees (44_huffman.md R352) -/

/-- Following bits from node i to a leaf: the leaf and the bits left over (R352). -/
def walkBits (tree : List Node) : Nat → List Bool → Option (Node × List Bool)
  | i, bs =>
    match tree[i]?, bs with
    | none, _ => none
    | some n, [] => if n.leaf then some (n, []) else none
    | some n, b :: rest =>
      if n.leaf then some (n, b :: rest)
      else walkBits tree (if b then n.right.toNat else n.left.toNat) rest
  termination_by structural _ bs => bs

/-- Following bits from the root `count` times, each to a leaf that is not synthesized: the symbols and the bits left over (R355). -/
def walkMany (tree : List Node) (root : Nat) : Nat → List Bool → Option (List Byte × List Bool)
  | 0, bs => some ([], bs)
  | count + 1, bs =>
    match walkBits tree root bs with
    | none => none
    | some (n, rest) =>
      if n.synth then none
      else (walkMany tree root count rest).map fun r => (n.sym :: r.1, r.2)

/-- Packing symbols into bytes: one each for W = 8, two for W = 4 in NIBBLE_ORDER, an odd count leaving the last second nibble 0 (R331, R355). -/
def packSymbols (c : HfCfg) : List Byte → List Byte
  | [] => []
  | [x] => [packSymbol c 0 0 x]
  | x :: y :: rest => match c.width with
    | .bits8 => x :: packSymbols c (y :: rest)
    | .bits4 => packSymbol c 1 (packSymbol c 0 0 x) y :: packSymbols c rest

/-- A code tree as a value: each node with its arena index (R344). -/
inductive CodeTree
  | leaf (idx : Nat) (synth : Bool) (sym : Nat)
  | node (idx : Nat) (left right : CodeTree)
  deriving DecidableEq, Repr

/-- The arena index of the top node. -/
def CodeTree.idx : CodeTree → Nat
  | .leaf i _ _ => i
  | .node i _ _ => i

/-- The arena indexes in preorder. -/
def CodeTree.indexes : CodeTree → List Nat
  | .leaf i _ _ => [i]
  | .node i l r => i :: (l.indexes ++ r.indexes)

/-- The codes of the leaves that are not synthesized: symbol and path, LEFT = 0, RIGHT = 1, the edge from the root first (R340). -/
def CodeTree.codes : CodeTree → List (Nat × List Bool)
  | .leaf _ synth sym => if synth then [] else [(sym, [])]
  | .node _ l r => l.codes.map (fun c => (c.1, false :: c.2)) ++ r.codes.map (fun c => (c.1, true :: c.2))

/-- The largest leaf depth. -/
def CodeTree.depth : CodeTree → Nat
  | .leaf _ _ _ => 0
  | .node _ l r => max l.depth r.depth + 1

/-- The tree stands in an arena in the layout HF_LOAD reads, its symbols inside the alphabet (R152, R344). -/
def CodeTree.StoredIn (arena : List RawNode) (alphabet : Nat) : CodeTree → Prop
  | .leaf i synth sym => ∃ n, arena[i]? = some n ∧
      n.word0.toNat = sym + 2 ^ 8 + (if synth then 2 ^ 9 else 0) ∧ sym < alphabet ∧
      n.left = noChild ∧ n.right = noChild
  | .node i l r => ∃ n, arena[i]? = some n ∧ n.word0 = 0 ∧
      n.left.toNat = l.idx ∧ n.right.toNat = r.idx ∧
      l.StoredIn arena alphabet ∧ r.StoredIn arena alphabet

/-- A codebook is a prefix code: no entry's code bits begin another's (R356, law 1). -/
abbrev PrefixFree (book : List (Nat × Code)) : Prop :=
  ∀ a ∈ book, ∀ b ∈ book, a.1 ≠ b.1 → ¬ a.2.bits <+: b.2.bits

/-! ## The expander's history (45_expander.md R390) -/

/-- The bytes a back-reference can reach, oldest first: the pre-buffer and the output written so far; backward, the output in the order it was written (R390). -/
def Expander.history (e : Expander) (m : Memory) : List Byte :=
  match e.direction with
  | .forward =>
    m.getBytes e.prebufBase.toNat e.prebufSize.toNat ++ m.getBytes e.outBase.toNat e.pos.toNat
  | .backward => (m.getBytes (e.outBase.toNat + (e.outCap.toNat - e.pos.toNat)) e.pos.toNat).reverse

/-- Appending n bytes, each copied from d bytes before the end (R393). -/
def copyHistory (d : Nat) : Nat → List Byte → List Byte
  | 0, h => h
  | n + 1, h => copyHistory d n (h ++ [h.getD (h.length - d) 0])

/-- The four words of a token descriptor as EX_STREAM reads them: KIND, POSITION, VALUE or DISPLACEMENT, LENGTH (R150). -/
structure TokenWords where
  kind : Word
  position : Word
  value : Word
  length : Word
  deriving DecidableEq, Repr

/-- The token descriptors of the expander's token window (R394). -/
def State.tokenList (s : State) : List TokenWords :=
  (List.range s.ex.tokCount.toNat).map fun i =>
    let a := s.ex.tokBase.toNat + 16 * i
    ⟨s.mem.getWord a, s.mem.getWord (a + 4), s.mem.getWord (a + 8), s.mem.getWord (a + 12)⟩

/-- The length a token claims of the output: the unit for a literal, LENGTH for a match (R398). -/
def TokenWords.size (t : TokenWords) (e : Expander) : Nat := if t.kind = 0 then e.unit.bytes else t.length.toNat

/-- A token's fields and source are well formed at the expander's present position (R394, R398): KIND is 0 or 1; a literal has LENGTH u and no value bit above the unit; a match has d and L at least 1, multiples of u, and its first source byte exists. -/
abbrev Expander.FieldsOk (e : Expander) (t : TokenWords) : Prop :=
  (t.kind = 0 ∧ t.length.toNat = e.unit.bytes ∧ t.value.toNat < 2 ^ (8 * e.unit.bytes)) ∨
  (t.kind = 1 ∧ 1 ≤ t.value.toNat ∧ 1 ≤ t.length.toNat ∧
    t.value.toNat % e.unit.bytes = 0 ∧ t.length.toNat % e.unit.bytes = 0 ∧
    t.value.toNat ≤ e.pos.toNat + (if e.direction = .forward then e.prebufSize.toNat else 0))

/-- A token fits the output (R398). -/
abbrev Expander.HasRoom (e : Expander) (t : TokenWords) : Prop := e.pos.toNat + t.size e ≤ e.outCap.toNat

/-- A token's POSITION is the running position: w forward, cap - w - length backward (R394). -/
abbrev Expander.InPlace (e : Expander) (t : TokenWords) : Prop :=
  t.position.toNat = (if e.direction = .forward then e.pos.toNat else e.outCap.toNat - e.pos.toNat - t.size e)

/-- A token the expander accepts at its present position (R394). -/
abbrev Expander.Accepts (e : Expander) (t : TokenWords) : Prop := e.FieldsOk t ∧ e.HasRoom t ∧ e.InPlace t

/-- What a token appends to the history (R392, R393). -/
def TokenWords.extend (t : TokenWords) (u : UnitSize) (h : List Byte) : List Byte :=
  if t.kind = 0 then h ++ literalBytes u t.value else copyHistory t.value.toNat t.length.toNat h

/-- The expander after a token: EX_POS advances by the token's length (R392, R393). -/
def Expander.advance (e : Expander) (t : TokenWords) : Expander :=
  { e with pos := word (e.pos.toNat + t.length.toNat) }

/-- Every token of a list is accepted where the ones before it leave the expander (R394). -/
def Expander.AcceptsAll (e : Expander) : List TokenWords → Prop
  | [] => True
  | t :: ts => e.Accepts t ∧ (e.advance t).AcceptsAll ts

/-- The expander set up for the round trip of R395: the parser's direction, unit, pre-buffer and tokens, EX_OUT_CAP the input length, a fresh output. -/
def State.setUpExpander (s : State) (outBase : Word) : State :=
  { s with ex :=
      { direction := s.mf.opt.direction, unit := s.mf.opt.unit
        outBase := outBase, outCap := s.mf.inLen, pos := 0
        prebufBase := s.mf.prebufBase, prebufSize := s.mf.prebufSize
        tokBase := s.mf.tokBase, tokCount := s.mf.tokCount } }


/-! ## The register port (10_state.md) -/

/-- The read-write registers other than CTRL and STATUS, each with the mask of its assigned bits (R36, R38 to R43, R60 to R62, R80, R81). -/
def readWriteMask (off : Nat) : Option Word :=
  if off ∈ [0x040, 0x060] then some 0x7
  else if off = 0x080 then some 0x1FF03
  else if off = 0x0A8 then some 0xF
  else if off = 0x100 then some 0x3
  else if off = 0x140 then some 0x3F0F
  else if off ∈ [0x018, 0x01C, 0x044, 0x048, 0x064, 0x068,
      0x084, 0x088, 0x08C, 0x090, 0x094, 0x098, 0x0AC, 0x0B0,
      0x0C0, 0x0C4, 0x0C8, 0x0CC, 0x0D0, 0x0D4, 0x0D8, 0x0DC,
      0x0E0, 0x0E4, 0x0E8, 0x0EC, 0x0F0, 0x0F4, 0x0F8, 0x0FC,
      0x104, 0x108, 0x110, 0x114, 0x118, 0x11C,
      0x144, 0x148, 0x14C, 0x150, 0x154, 0x164, 0x168] then some 0xFFFFFFFF
  else none

/-- The read-only registers that hold state (R34, R36, R39, R41, R43, R62, R81, R82) and the constants (R31). -/
def readOnlyOffsets : List Nat :=
  [0x000, 0x004, 0x010, 0x020, 0x024, 0x04C, 0x050, 0x054, 0x06C, 0x070, 0x074,
   0x09C, 0x0A0, 0x0A4, 0x10C, 0x158, 0x15C, 0x160, 0x16C]

/-- What a host reads from the constants, CTRL, STATUS and the read-only registers, field by field from bit 31 down (R31 to R34, R36, R39, R41, R43, R62, R81, R82). -/
def statusValue (s : State) (off : Nat) : Option Word :=
  match off with
  | 0x000 => some 0x4B324C5A
  | 0x004 => some 0x00070001
  | 0x008 => some (0#30 ++ BitVec.ofBool s.ctrl.irqEnErr ++ BitVec.ofBool s.ctrl.irqEnDone)
  | 0x00C => some (0#20 ++ s.status.errCode ++ 0#4 ++ BitVec.ofBool s.status.drop ++ BitVec.ofBool s.status.err ++
      BitVec.ofBool s.status.done ++ BitVec.ofBool s.status.busy)
  | 0x010 => some s.errPos
  | 0x020 => some s.result
  | 0x024 => some s.resultHi
  | 0x04C => some s.br.pos
  | 0x050 => some (0#27 ++ s.br.bits)
  | 0x054 => some (0#16 ++ s.br.buf)
  | 0x06C => some s.bw.pos
  | 0x070 => some (0#27 ++ s.bw.bits)
  | 0x074 => some (0#16 ++ s.bw.buf)
  | 0x09C => some s.mf.tokCount
  | 0x0A0 => some s.mf.costLo
  | 0x0A4 => some s.mf.costHi
  | 0x10C => some s.ex.pos
  | 0x158 => some s.hf.root
  | 0x15C => some s.hf.nodes
  | 0x160 => some (0#17 ++ s.hf.state.maxLen ++ 0#6 ++ BitVec.ofBool s.hf.state.limited ++ BitVec.ofBool s.hf.state.valid)
  | 0x16C => some s.hf.dstPos
  | _ => none

/-- A limitation slot with one of its four words replaced. -/
abbrev LimSlot.with (l : LimSlot) (j : Nat) (v : Word) : LimSlot :=
  { minLen := if j = 0 then v else l.minLen, maxLen := if j = 1 then v else l.maxLen
    minDisp := if j = 2 then v else l.minDisp, maxDisp := if j = 3 then v else l.maxDisp }

/-- The state after a host write to a read-write register whose write has no effect beside storing: that register alone differs (R36, R42, R43, R60, R62, R81). -/
def plainWrite (s : State) (off : Nat) (v : Word) : Option State :=
  match off with
  | 0x018 => some { s with arg0 := v }
  | 0x01C => some { s with arg1 := v }
  | 0x080 => some { s with mf := { s.mf with opt :=
      { direction := if v.getLsbD 0 then .backward else .forward
        unit := if v.getLsbD 1 then .two else .one
        skip := v.extractLsb' 8 8, decodeOnly := v.getLsbD 16 } } }
  | 0x084 => some { s with mf := { s.mf with prebufBase := v } }
  | 0x088 => some { s with mf := { s.mf with prebufSize := v } }
  | 0x08C => some { s with mf := { s.mf with inBase := v } }
  | 0x090 => some { s with mf := { s.mf with inLen := v } }
  | 0x094 => some { s with mf := { s.mf with tokBase := v } }
  | 0x098 => some { s with mf := { s.mf with tokCap := v } }
  | 0x0A8 => some { s with mf := { s.mf with limEn := v.extractLsb' 0 4 } }
  | 0x0AC => some { s with mf := { s.mf with candBase := v } }
  | 0x0B0 => some { s with mf := { s.mf with candCap := v } }
  | 0x104 => some { s with ex := { s.ex with outBase := v } }
  | 0x108 => some { s with ex := { s.ex with outCap := v } }
  | 0x110 => some { s with ex := { s.ex with prebufBase := v } }
  | 0x114 => some { s with ex := { s.ex with prebufSize := v } }
  | 0x118 => some { s with ex := { s.ex with tokBase := v } }
  | 0x11C => some { s with ex := { s.ex with tokCount := v } }
  | 0x144 => some { s with hf := { s.hf with srcBase := v } }
  | 0x148 => some { s with hf := { s.hf with srcLen := v } }
  | 0x14C => some { s with hf := { s.hf with freqBase := v } }
  | 0x150 => some { s with hf := { s.hf with treeBase := v } }
  | 0x154 => some { s with hf := { s.hf with bookBase := v } }
  | 0x164 => some { s with hf := { s.hf with dstBase := v } }
  | 0x168 => some { s with hf := { s.hf with dstCap := v } }
  | _ =>
    if off % 4 = 0 ∧ 0x0C0 ≤ off ∧ off < 0x0D0 then
      some { s with mf := { s.mf with lim0 := s.mf.lim0.with ((off - 0x0C0) / 4) v } }
    else if off % 4 = 0 ∧ 0x0D0 ≤ off ∧ off < 0x0E0 then
      some { s with mf := { s.mf with lim1 := s.mf.lim1.with ((off - 0x0D0) / 4) v } }
    else if off % 4 = 0 ∧ 0x0E0 ≤ off ∧ off < 0x0F0 then
      some { s with mf := { s.mf with lim2 := s.mf.lim2.with ((off - 0x0E0) / 4) v } }
    else if off % 4 = 0 ∧ 0x0F0 ≤ off ∧ off < 0x100 then
      some { s with mf := { s.mf with lim3 := s.mf.lim3.with ((off - 0x0F0) / 4) v } }
    else none

/-! ## Pending units and held trees -/

/-- The bits of the pending unit not yet placed are 0 (R41, R211): false only after an error left BW_BUF at any value. -/
abbrev Writer.Clean (w : Writer) : Prop :=
  w.buf.toNat < 2 ^ w.cfg.unit.bits ∧
  ∀ b ∈ (valueBits w.cfg.bitOrder w.cfg.unit.bits w.buf.toNat).drop w.bits.toNat, b = false

/-- The natural tree's largest leaf depth D (44_huffman.md R338); 0 for an empty tree. -/
def naturalDepth (freqs : List Nat) : Nat :=
  maxDepth (leafPaths (naturalArena freqs) ((naturalArena freqs).length + 1) ((naturalArena freqs).length - 1) 0 0)

/-- The held tree reads its own codebook back: every code has at least one bit, and following its bits from the root ends, with none left over, at a leaf of its symbol that is not synthesized (R340, R350, R352). -/
def Huffman.ReadsBack (h : Huffman) : Prop :=
  ∀ e ∈ h.book, 1 ≤ e.2.len ∧ ∀ rest, ∃ n, walkBits h.tree h.root.toNat (e.2.bits ++ rest) = some (n, rest) ∧
    n.synth = false ∧ n.sym.toNat = e.1

/-! ## Built trees (44_huffman.md R333 to R343) -/

/-- The leaf of symbol `sym` with frequency f (R341). -/
def leafOf (sym f : Nat) : Node :=
  { leaf := true, synth := false, sym := BitVec.ofNat 8 sym, freq := word f, left := 0xFFFFFFFF, right := 0xFFFFFFFF }

/-- The leaves of a frequency table: one for each symbol of nonzero frequency, ascending, and after a lone one its synthesized sibling (R333, R335). -/
def leavesOf (freqs : List Nat) : List Node :=
  let real := (freqs.zipIdx.filter fun x => x.1 ≠ 0).map fun x => leafOf x.2 x.1
  if real.length = 1 then
    real ++ [{ leaf := true, synth := true, sym := if freqs.headD 0 = 0 then 0 else 1, freq := 0, left := 0xFFFFFFFF, right := 0xFFFFFFFF }]
  else real

/-- FREQ of the node at an arena index. -/
def freqAt (arena : List Node) (i : Nat) : Nat := (arena[i]?.map fun n => n.freq.toNat).getD 0

/-- Node i waits in the heap when node k is formed: it stands before k and no internal node before k has taken it (R334). -/
def Waits (arena : List Node) (k i : Nat) : Prop :=
  i < k ∧ ∀ n ∈ arena.take k, n.leaf = false → n.left.toNat ≠ i ∧ n.right.toNat ≠ i

/-- The heap takes node i before node j: the key is (FREQ, arena index) (R334). -/
abbrev HeapBefore (arena : List Node) (i j : Nat) : Prop :=
  freqAt arena i < freqAt arena j ∨ (freqAt arena i = freqAt arena j ∧ i < j)

/-- The natural arena of a frequency table: the leaves, then the internal nodes in order of formation, each with the two smallest waiting nodes as its children, the smallest on the LEFT (R333 to R336, R341). -/
structure NaturalArena (freqs : List Nat) (arena : List Node) : Prop where
  leaves : arena.take (leavesOf freqs).length = leavesOf freqs
  size : arena.length = 2 * (leavesOf freqs).length - 1
  merge : ∀ k, (leavesOf freqs).length ≤ k → k < arena.length →
    ∃ x y, Waits arena k x ∧ Waits arena k y ∧ HeapBefore arena x y ∧
      (∀ i, Waits arena k i → i ≠ x → i ≠ y → HeapBefore arena y i) ∧
      arena[k]? = some { leaf := false, synth := false, sym := 0
                         freq := word (freqAt arena x + freqAt arena y), left := word x, right := word y }

/-- Canonical codes: leaves by (length, SYMBOL) ascending, the first with code 0, each later one (previous code + 1) shifted left by the length difference (R339). -/
structure CanonicalCodes (ls : List CodedLeaf) : Prop where
  order : ls.Pairwise fun a b => a.len < b.len ∨ (a.len = b.len ∧ a.node.sym.toNat < b.node.sym.toNat)
  first : ∀ l, ls.head? = some l → l.code = 0
  next : ∀ i a b, ls[i]? = some a → ls[i + 1]? = some b → b.code = (a.code + 1) * 2 ^ (b.len - a.len)

/-- An arena in breadth-first order: node 0 is the root, and the internal nodes, in index order, have the next two indexes as children (R341). -/
structure BreadthFirstArena (arena : List Node) : Prop where
  size : arena.length = 2 * (arena.filter fun n => !n.leaf).length + 1
  inner : ∀ j n, (arena.filter fun n => !n.leaf)[j]? = some n →
    n = (⟨false, false, 0, word (freqAt arena (2 * j + 1) + freqAt arena (2 * j + 2)),
      word (2 * j + 1), word (2 * j + 2)⟩ : Node)

/-- The tree and codebook held after building from a frequency table (R333 to R343). -/
structure Huffman.BuiltFrom (h : Huffman) (freqs : List Nat) : Prop where
  /-- A symbol that occurs has the code that leads to its leaf. -/
  codes : ∀ sym f, freqs[sym]? = some f → f ≠ 0 →
    walkBits h.tree h.root.toNat (bookEntry h.book sym).bits = some (leafOf sym f, []) ∧
    (bookEntry h.book sym).code.toNat < 2 ^ (bookEntry h.book sym).len
  /-- Any other symbol has none (R342). -/
  noCode : ∀ sym, freqs.getD sym 0 = 0 → bookEntry h.book sym = ⟨0, 0⟩
  /-- Path codes stand on the natural arena, its root last (R340, R341). -/
  natural : h.cfg.canon = false → h.state.limited = false →
    NaturalArena freqs h.tree ∧ h.root.toNat = h.tree.length - 1
  /-- Canonical codes stand on the breadth-first arena of all the leaves, its root first (R339, R341). -/
  canonical : h.cfg.canon = true ∨ h.state.limited = true → h.tree ≠ [] →
    h.root = 0 ∧ BreadthFirstArena h.tree ∧
    ∃ ls, (ls.map CodedLeaf.node).Perm (leavesOf freqs) ∧ CanonicalCodes ls ∧
      ∀ l ∈ ls, walkBits h.tree 0 (valueBits .msbFirst l.len l.code) = some (l.node, [])
  /-- Without limiting, a code is as long as its leaf is deep in the natural tree (R337, R343). -/
  lengths : h.state.limited = false → ∃ arena, NaturalArena freqs arena ∧
    ∀ sym f, freqs[sym]? = some f → f ≠ 0 →
      ∃ path : List Bool, path.length = (bookEntry h.book sym).len ∧
        walkBits arena (arena.length - 1) path = some (leafOf sym f, [])
  /-- Lengths are limited exactly when there is a cap below the natural depth (R338). -/
  limited : h.state.limited = true ↔ h.cfg.cap ≠ 0 ∧ h.cfg.cap.toNat < naturalDepth freqs
  /-- MAX_LEN is the largest code length (R343). -/
  maxLen : (∀ sym, (bookEntry h.book sym).len ≤ h.state.maxLen.toNat) ∧
    (h.tree ≠ [] → ∃ sym, (bookEntry h.book sym).len = h.state.maxLen.toNat)

/-- Σ f[s]·len(s) of a codebook (R356, law 3). -/
def codedLength (freqs : List Nat) (book : List (Nat × Code)) : Nat :=
  (freqs.zipIdx.map fun x => x.1 * (bookEntry book x.2).len).sum

/-- Lengths for the symbols that occur, from 1 to `top`, are those of a prefix code: Σ 2^-length is at most 1 (R338, R356). -/
structure CodeLengths (freqs lens : List Nat) (top : Nat) : Prop where
  count : lens.length = freqs.length
  bound : ∀ x ∈ freqs.zip lens, x.1 ≠ 0 → 1 ≤ x.2 ∧ x.2 ≤ top
  kraft : (((freqs.zip lens).filter fun x => x.1 ≠ 0).map fun x => 2 ^ (top - x.2)).sum ≤ 2 ^ top


/-! ## Shapes of conclusions -/

/-- Two memories agree outside the n bytes at `lo`. -/
abbrev Memory.SameOutside (m m' : Memory) (lo n : Nat) : Prop := ∀ a, a < lo ∨ lo + n ≤ a → m'.get a = m.get a

/-- The little-endian words at `base` are these (R107(b)). -/
abbrev Memory.HoldsWords (m : Memory) (base : Nat) (ws : List Word) : Prop :=
  ∀ i v, ws[i]? = some v → m.getWord (base + 4 * i) = v

/-- The state after an error of kind e at position p that changes nothing else (R423, R424). -/
def State.failed (s : State) (e : ErrKind) (p : Word) : State :=
  { s with status := { s.status with busy := false, done := true, err := true, errCode := e.code }, errPos := p }

/-- STATUS after a command that ends without an error (R182). -/
def Status.ended (t : Status) : Status := { t with busy := false, done := true }

/-- A command word is illegal in one of the four cases of 30_encoding.md R144. -/
def IllegalWord (c : Word) : Prop :=
  let opc := c.field 0 8
  (5 ≤ opc ∧ opc ≤ 7) ∨ (0x0C ≤ opc ∧ opc ≤ 0x0F) ∨ (0x12 ≤ opc ∧ opc ≤ 0x1F) ∨ (0x27 ≤ opc ∧ opc ≤ 0x2F) ∨ 0x34 ≤ opc ∨
  (opc ∈ [0x00, 0x01, 0x03, 0x08, 0x0A, 0x10, 0x11, 0x20, 0x21, 0x22, 0x23, 0x24, 0x25, 0x26, 0x30, 0x31, 0x32, 0x33] ∧
    c.field 8 24 ≠ 0) ∨
  (opc ∈ [0x02, 0x09] ∧ (c.field 14 18 ≠ 0 ∨ 32 < c.field 8 6)) ∨
  (opc ∈ [0x04, 0x0B] ∧ (c.field 10 22 ≠ 0 ∨ c.field 8 2 = 3))

/-- The error kinds a command raises (60_exceptions.md R421). -/
def mayRaise : Instr → List ErrKind
  | .nop | .brReset | .brAlign | .bwReset | .exReset => []
  | .brRead _ => [.invalidRange, .truncatedInput]
  | .brReadInt _ => [.illegalCommand, .invalidRange, .truncatedInput]
  | .bwWrite _ | .bwFlush => [.invalidRange, .outOfRangeWrite]
  | .bwWriteInt _ => [.illegalCommand, .invalidRange, .outOfRangeWrite]
  | .mfFind | .lzParse => [.unsupportedOperation, .invalidRange, .outOfRangeWrite]
  | .hfCount => [.invalidRange]
  | .hfBuild => [.invalidRange, .huffmanCapExceeded]
  | .hfLoad => [.invalidRange, .malformedToken]
  | .hfEncode | .hfEncodeBuf => [.illegalCommand, .invalidRange, .malformedToken, .outOfRangeWrite]
  | .hfDecode => [.illegalCommand, .invalidRange, .truncatedInput, .malformedToken]
  | .hfDecodeBuf => [.illegalCommand, .invalidRange, .outOfRangeWrite, .truncatedInput, .malformedToken]
  | .exLit => [.invalidRange, .outOfRangeWrite]
  | .exMatch | .exStream => [.invalidRange, .malformedToken, .outOfRangeWrite]

/-- Every register holds its value of 70_reset_and_hazards.md R462, no tree is held and `irq` is 0. -/
def State.Cleared (t : State) : Prop :=
  (∀ k < 256, t.readReg (4 * k) = if k = 0 then 0x4B324C5A else if k = 1 then 0x00070001 else 0) ∧
  t.hf.tree = [] ∧ (∀ sym, (bookEntry t.hf.book sym).len = 0) ∧ t.irq = false

/-- The lowest output address the next `len` output bytes occupy (R390). -/
def Expander.lowAddr (e : Expander) (len : Nat) : Nat :=
  match e.direction with
  | .forward => e.outBase.toNat + e.pos.toNat
  | .backward => e.outBase.toNat + (e.outCap.toNat - e.pos.toNat - len)

/-- A match (d, len) passes the token checks of R398 other than the capacity. -/
abbrev Expander.MatchOk (e : Expander) (d len : Nat) : Prop :=
  1 ≤ d ∧ 1 ≤ len ∧ d % e.unit.bytes = 0 ∧ len % e.unit.bytes = 0 ∧
  d ≤ e.pos.toNat + (if e.direction = .forward then e.prebufSize.toNat else 0)

/-- The output position at which `n` more bits first complete a unit that does not fit (R211): after every whole unit the rest of the window holds. -/
def Writer.fullPos (w : Writer) : Nat :=
  w.pos.toNat + w.cfg.unit.bytes * ((w.cap.toNat - w.pos.toNat) / w.cfg.unit.bytes)

/-- The position at which the reader lacks a unit (R201): after every whole unit the rest of the window holds. -/
def Reader.endPos (r : Reader) : Nat :=
  r.pos.toNat + r.cfg.unit.bytes * ((r.len.toNat - r.pos.toNat) / r.cfg.unit.bytes)

end Sys2Proof.Machine
end

