-- ==== Sys2Proof/Certificates/Slice0/Obligations.lean ====
section
/-! DEFINITION. The statements about the block, from the numbered rules of the spec. -/

open Sys2Proof Sys2Proof.Machine

/-! ## Command words (30_encoding.md) -/

/-- R141, R143, R145: a word decodes to a command exactly when the command is well formed and the word is its encoding. -/
def Obligations.DecodeInvertsEncode : Prop :=
  ∀ (c : Word) (i : Instr), decode c = .ok i ↔ i.wf = true ∧ encode i = c

/-- R144: the decoder refuses exactly the words of the four cases, and an accepted write of one raises ILLEGAL_COMMAND with ERR_POS = the word and changes nothing else. -/
def Obligations.IllegalWordsRaise : Prop :=
  ∀ c : Word,
    ((∃ e, decode c = .error e) ↔ IllegalWord c) ∧
    ∀ (s : State) (rest : List HostOp),
      s.host = .regWrite 0x014 4 c :: rest → s.status.busy = false → s.status.err = false → IllegalWord c →
      step s = .next { s with
        host := rest, errPos := c
        status := { s.status with busy := false, done := true, err := true, errCode := 7 } }

/-- Words of 30_encoding.md R161 and 95_test_vectors.md B1, written out bit by bit, decode to the commands they stand for or are illegal. -/
def Obligations.WrittenOutWordsDecode : Prop :=
  decode 0b00000000000000000000000000000000#32 = .ok .nop ∧
  decode 0b00000000000000000000010100000010#32 = .ok (.brRead 5) ∧
  decode 0b00000000000000000000001000000100#32 = .ok (.brReadInt 2) ∧
  decode 0b00000000000000000000001100001001#32 = .ok (.bwWrite 3) ∧
  decode 0b00000000000000000000000100001011#32 = .ok (.bwWriteInt 1) ∧
  decode 0b00000000000000000000000000010001#32 = .ok .lzParse ∧
  decode 0b00000000000000000000000000100001#32 = .ok .hfBuild ∧
  decode 0b00000000000000000000000000110011#32 = .ok .exStream ∧
  decode 0b00000000000000000000000100000000#32 = .error .nonzeroBits ∧
  decode 0b00000000000000000010000100000010#32 = .error (.countAbove32 33) ∧
  decode 0b00000000000000000000001100000100#32 = .error .widthCode3 ∧
  decode 0b00000000000000000000000000000101#32 = .error (.reservedOpcode 5)

/-! ## Issue, completion and the register port (10_state.md, 40_control.md) -/

/-- R180: an accepted write of a legal word runs its command, with DONE = 0 and BUSY = 1, in one step. -/
def Obligations.AcceptedCommandRuns : Prop :=
  ∀ (s : State) (rest : List HostOp) (c : Word) (i : Instr),
    s.host = .regWrite 0x014 4 c :: rest → s.status.busy = false → s.status.err = false → decode c = .ok i →
    step s = exec i { s with host := rest, status := { s.status with done := false, busy := true } }

/-- R182: every command ends. Without an error, STATUS changes only as R180 says; with one, it also has ERR = 1 and the code of an error kind. -/
def Obligations.EveryCommandEnds : Prop :=
  ∀ (i : Instr) (s : State), s.status.err = false → s.status.errCode = 0 →
    ∃ t, exec i s = .next t ∧
      ((t.status = { s.status with busy := false, done := true } ∧ t.errPos = s.errPos) ∨
       ∃ e : ErrKind, t.status = { s.status with busy := false, done := true, err := true, errCode := e.code })

/-- R421: which error kinds a command raises. -/
def Obligations.ErrorKindsOfEachCommand : Prop :=
  ∀ (i : Instr) (s t : State), i.wf = true → s.status.err = false → exec i s = .next t → t.status.err = true →
    ∃ e ∈ mayRaise i, t.status.errCode = e.code

/-- R181: a CMD write while BUSY or ERR is 1 sets DROP and changes nothing else; so does a write to a register other than CTRL and STATUS while BUSY is 1 (R183; that offsets no row names count as registers there is the model's reading, log entry 17). -/
def Obligations.DroppedWrites : Prop :=
  ∀ (s : State) (rest : List HostOp) (off : Nat) (v : Word),
    s.host = .regWrite off 4 v :: rest → off % 4 = 0 → off < 1024 →
    ((off = 0x014 ∧ (s.status.busy = true ∨ s.status.err = true)) ∨
     (off ≠ 0x008 ∧ off ≠ 0x00C ∧ s.status.busy = true)) →
    step s = .next { s with host := rest, status := { s.status with drop := true } }

/-- R185: a write to STATUS, bit by bit, whatever BUSY is. -/
def Obligations.StatusWriteOneToClear : Prop :=
  ∀ (s : State) (rest : List HostOp) (v : Word), s.host = .regWrite 0x00C 4 v :: rest →
    step s = .next { s with
      host := rest
      status :=
        { busy := s.status.busy
          done := if v.getLsbD 1 then false else s.status.done
          err := if v.getLsbD 2 then false else s.status.err
          drop := if v.getLsbD 3 then false else s.status.drop
          errCode := if v.getLsbD 2 then 0 else s.status.errCode }
      errPos := if v.getLsbD 2 then 0 else s.errPos }

/-- R186: a write to CTRL is a soft reset when bit 31 is 1, and otherwise sets the two interrupt enables, whatever BUSY is. -/
def Obligations.CtrlWrite : Prop :=
  ∀ (s : State) (rest : List HostOp) (v : Word), s.host = .regWrite 0x008 4 v :: rest →
    (v.getLsbD 31 = true →
      step s = .next { State.reset with
        params := s.params, mem := s.mem, anyCount := s.anyCount, host := rest, hostData := s.hostData }) ∧
    (v.getLsbD 31 = false →
      step s = .next { s with host := rest, ctrl := { irqEnDone := v.getLsbD 0, irqEnErr := v.getLsbD 1 } })

/-- R460, R461, R462: the reset state, and the state after the reset input or a soft reset, has every register at its reset value, no tree, `irq` 0; data memory keeps its contents. That no byte becomes any value even where BUSY = 1 is the model's choice: no command runs between its steps (log entry 1). -/
def Obligations.ResetValues : Prop :=
  State.reset.Cleared ∧
  ∀ (s : State) (rest : List HostOp) (v : Word),
    (s.host = .resetInput :: rest ∨ (s.host = .regWrite 0x008 4 v :: rest ∧ v.getLsbD 31 = true)) →
    ∃ t, step s = .next t ∧ t.Cleared ∧ t.mem = s.mem

/-- R430, R431: the interrupt line after a command, after an acknowledgement, after a masking write, and after a dropped command. -/
def Obligations.InterruptLine : Prop :=
  (∀ (i : Instr) (s t : State), s.status.err = false → exec i s = .next t →
    t.irq = (s.ctrl.irqEnDone || (t.status.err && s.ctrl.irqEnErr))) ∧
  ∀ (s t : State) (rest : List HostOp) (v : Word), step s = .next t →
    (s.host = .regWrite 0x00C 4 v :: rest →
      t.irq = ((s.status.done && !v.getLsbD 1 && s.ctrl.irqEnDone) || (s.status.err && !v.getLsbD 2 && s.ctrl.irqEnErr))) ∧
    (s.host = .regWrite 0x008 4 v :: rest → v.getLsbD 31 = false →
      t.irq = ((s.status.done && v.getLsbD 0) || (s.status.err && v.getLsbD 1))) ∧
    (s.host = .regWrite 0x014 4 v :: rest → s.status.err = true → t.irq = s.irq)

/-- R30: a register access has no step exactly when it is not an aligned 32-bit access inside the register space. That a host access to a data address R100 does not give has none either is the model's reading (log entry 15). -/
def Obligations.AccessesNotAdmittedStop : Prop :=
  (∀ (s : State) (rest : List HostOp) (off width : Nat) (v : Word),
    (s.host = .regWrite off width v :: rest ∨ s.host = .regRead off width :: rest) →
    (step s = .fault .registerAccessNotAdmitted ↔ width ≠ 4 ∨ off % 4 ≠ 0 ∨ 1024 ≤ off) ∧
    (width = 4 → off % 4 = 0 → off < 1024 → ∃ t, step s = .next t)) ∧
  (∀ (s : State) (rest : List HostOp) (a : Nat) (b : Byte),
    (s.host = .memWrite a b :: rest ∨ s.host = .memRead a :: rest) →
    (step s = .fault .noSuchDataAddress ↔ s.params.memSize ≤ a) ∧
    (a < s.params.memSize → ∃ t, step s = .next t))

/-- R30, R36: a read-write register reads back what was written, its unassigned bits 0; a write to one without a side effect of its own changes that register alone (R36, R476); a read-only register and an offset no row names ignore writes; an offset no row names, and CMD, read 0. R31 to R34, R39, R41, R43, R62, R81, R82: what the constants, CTRL, STATUS and the read-only registers read as, the first four of them also while BUSY = 1 (R187). -/
def Obligations.RegistersReadBack : Prop :=
  (∀ (s : State) (rest : List HostOp) (off : Nat) (v : Word), off % 4 = 0 → off < 1024 → s.status.busy = false →
    (∀ mask, readWriteMask off = some mask → s.host = .regWrite off 4 v :: .regRead off 4 :: rest →
      ∃ t u, step s = .next t ∧ step t = .next u ∧ u.hostData = v &&& mask) ∧
    (∀ mask, readWriteMask off = some mask → off ∉ [0x040, 0x044, 0x048, 0x060, 0x064, 0x068, 0x100, 0x140] →
      s.host = .regWrite off 4 v :: rest →
      ∃ t, plainWrite { s with host := rest } off v = some t ∧ step s = .next t) ∧
    (readWriteMask off = none → off ∉ [0x008, 0x00C, 0x014] → s.host = .regWrite off 4 v :: rest →
      step s = .next { s with host := rest }) ∧
    (readWriteMask off = none → off ∉ 0x008 :: 0x00C :: readOnlyOffsets → s.host = .regRead off 4 :: rest →
      step s = .next { s with host := rest, hostData := 0 })) ∧
  ∀ (s : State) (rest : List HostOp) (off : Nat), s.status.busy = false ∨ off < 0x010 →
    off ∈ 0x008 :: 0x00C :: readOnlyOffsets → s.host = .regRead off 4 :: rest →
    ∃ v, statusValue s off = some v ∧ step s = .next { s with host := rest, hostData := v }

/-- R38 to R41, R61, R80: what a write to a unit's configuration registers does to the unit: the bit reader and the bit writer restart, the expander keeps EX_POS, the Huffman engine drops its tree's validity. -/
def Obligations.ConfigWritesRestartUnits : Prop :=
  ∀ (s : State) (rest : List HostOp) (off : Nat) (v : Word), s.host = .regWrite off 4 v :: rest → s.status.busy = false →
    let cfg : BitCfg :=
      { bitOrder := if v.getLsbD 0 then .lsbFirst else .msbFirst
        byteOrder := if v.getLsbD 1 then .be else .le
        unit := if v.getLsbD 2 then .bits16 else .bits8 }
    (off = 0x040 → step s = .next { s with host := rest, br := { s.br with cfg := cfg, pos := 0, bits := 0, buf := 0 } }) ∧
    (off = 0x044 → step s = .next { s with host := rest, br := { s.br with base := v, pos := 0, bits := 0, buf := 0 } }) ∧
    (off = 0x048 → step s = .next { s with host := rest, br := { s.br with len := v, pos := 0, bits := 0, buf := 0 } }) ∧
    (off = 0x060 → step s = .next { s with host := rest, bw := { s.bw with cfg := cfg, pos := 0, bits := 0, buf := 0 } }) ∧
    (off = 0x064 → step s = .next { s with host := rest, bw := { s.bw with base := v, pos := 0, bits := 0, buf := 0 } }) ∧
    (off = 0x068 → step s = .next { s with host := rest, bw := { s.bw with cap := v, pos := 0, bits := 0, buf := 0 } }) ∧
    (off = 0x100 → step s = .next { s with
      host := rest
      ex := { s.ex with
        direction := if v.getLsbD 0 then .backward else .forward
        unit := if v.getLsbD 1 then .two else .one } }) ∧
    (off = 0x140 → step s = .next { s with
      host := rest
      hf := { s.hf with
        cfg :=
          { width := if v.getLsbD 0 then .bits4 else .bits8
            nibbleOrder := if v.getLsbD 1 then .highFirst else .lowFirst
            canon := v.getLsbD 2, limitEn := v.getLsbD 3, cap := v.extractLsb' 8 6 }
        state := { s.hf.state with valid := false } } })

/-- R100, R109: a data byte reads back what the host last wrote to it; every other byte, and every register, is unchanged. -/
def Obligations.DataBytesReadBack : Prop :=
  ∀ (s : State) (rest : List HostOp) (a a' : Nat) (b : Byte), s.mem.wf = true →
    a < s.params.memSize → a' < s.params.memSize → s.host = .memWrite a b :: .memRead a' :: rest →
    ∃ t u, step s = .next t ∧ step t = .next u ∧ s.mem.SameOutside t.mem a 1 ∧
      u = { s with mem := t.mem, host := rest, hostData := (if a' = a then b else s.mem.get a').setWidth 32 }

/-! ## What every command leaves alone (R36, R104, R423, R424) -/

/-- R36, R424: no command, with or without an error, changes a configuration or operand register or another unit's state; RESULT, TREE, BOOK and each unit's read-only state change only by the commands that name them. -/
def Obligations.CommandFrame : Prop :=
  ∀ (i : Instr) (s t : State), exec i s = .next t →
    (t.params = s.params ∧ t.ctrl = s.ctrl ∧ t.status.drop = s.status.drop ∧ t.arg0 = s.arg0 ∧ t.arg1 = s.arg1 ∧
      t.resultHi = s.resultHi ∧ t.host = s.host ∧ t.hostData = s.hostData) ∧
    (t.br = { s.br with pos := t.br.pos, bits := t.br.bits, buf := t.br.buf } ∧
      t.bw = { s.bw with pos := t.bw.pos, bits := t.bw.bits, buf := t.bw.buf } ∧
      t.mf = { s.mf with tokCount := t.mf.tokCount, costLo := t.mf.costLo, costHi := t.mf.costHi } ∧
      t.ex = { s.ex with pos := t.ex.pos } ∧
      t.hf = { s.hf with
        root := t.hf.root, nodes := t.hf.nodes, state := t.hf.state, dstPos := t.hf.dstPos
        tree := t.hf.tree, book := t.hf.book }) ∧
    ((∀ n, i ≠ .brRead n) → (∀ w, i ≠ .brReadInt w) → i ≠ .mfFind → i ≠ .hfDecode → t.result = s.result) ∧
    ((∀ n, i ≠ .brRead n) → (∀ w, i ≠ .brReadInt w) → i ≠ .brReset → i ≠ .brAlign → i ≠ .hfDecode → i ≠ .hfDecodeBuf →
      t.br = s.br) ∧
    ((∀ n, i ≠ .bwWrite n) → (∀ w, i ≠ .bwWriteInt w) → i ≠ .bwReset → i ≠ .bwFlush → i ≠ .hfEncode → i ≠ .hfEncodeBuf →
      t.bw = s.bw) ∧
    (i ≠ .lzParse → t.mf = s.mf) ∧
    (i ≠ .exReset → i ≠ .exLit → i ≠ .exMatch → i ≠ .exStream → t.ex = s.ex) ∧
    (i ≠ .hfBuild → i ≠ .hfLoad → t.hf = { s.hf with dstPos := t.hf.dstPos }) ∧
    (i ≠ .hfDecodeBuf → t.hf.dstPos = s.hf.dstPos)

/-- R105, R424: a command, with or without an error, changes no byte outside the windows it writes. -/
def Obligations.WriteWindowsFrame : Prop :=
  ∀ (i : Instr) (s t : State), exec i s = .next t →
    ∀ a, (∀ w ∈ writeWindows s i, ¬ w.Holds a) → t.mem.get a = s.mem.get a

/-- R423: an error of the decoder, of a state check, UNSUPPORTED_OPERATION or a start check changes only STATUS and ERR_POS; so does every error of HF_COUNT, HF_BUILD and HF_LOAD (R424). -/
def Obligations.EarlyErrorsChangeNothing : Prop :=
  ∀ (s t : State) (rest : List HostOp) (c : Word),
    s.host = .regWrite 0x014 4 c :: rest → s.status.busy = false → s.status.err = false → step s = .next t →
    t.status.err = true →
    (t.status.errCode ∈ [ErrKind.invalidRange.code, ErrKind.unsupportedOperation.code, ErrKind.illegalCommand.code] ∨
      decode c = .ok .hfCount ∨ decode c = .ok .hfBuild ∨ decode c = .ok .hfLoad) →
    t = { s with host := rest, status := t.status, errPos := t.errPos }

/-- Every step keeps the invariant of the block. -/
def Obligations.StepKeepsInv : Prop :=
  ∀ s t : State, s.Inv → step s = .next t → t.Inv

/-- The reset state meets the invariant of the block. -/
def Obligations.ResetMeetsInv : Prop := State.reset.Inv

/-! ## Start checks (20_memory.md R103, R104; 60_exceptions.md R422) -/

/-- R103, R422: the first invalid window of a command raises INVALID_RANGE at its base register, and nothing else changes. That it is the first in the command's list, ahead of any overlap of the windows before it, is the model's reading (log entry 14), and so is that a window of length 0 is valid at any base (log entry 25). -/
def Obligations.InvalidWindowsRaise : Prop :=
  ∀ (i : Instr) (s : State) (before after : List Window) (w : Window),
    PriorChecks s i → usedWindows s i = before ++ w :: after →
    (∀ v ∈ before, v.Inside s.params.memSize) → ¬ w.Inside s.params.memSize →
    exec i s = .next (s.failed .invalidRange (word w.reg))

/-- R104: an overlap of a written window with another window of the command raises INVALID_RANGE at a written window's base register, and nothing else changes. -/
def Obligations.OverlapsRaise : Prop :=
  ∀ (i : Instr) (s : State), PriorChecks s i → (∀ v ∈ usedWindows s i, v.Inside s.params.memSize) →
    (∃ w ∈ writeWindows s i, ∃ o ∈ usedWindows s i, o.reg ≠ w.reg ∧ ¬ w.Apart o) →
    ∃ w ∈ writeWindows s i, (∃ o ∈ usedWindows s i, o.reg ≠ w.reg ∧ ¬ w.Apart o) ∧
      exec i s = .next (s.failed .invalidRange (word w.reg))

/-- R258, R299: with DECODE_ONLY = 1 the finder and the parser raise UNSUPPORTED_OPERATION. R351 to R355: with no tree held the encoders and decoders raise ILLEGAL_COMMAND at their own word. -/
def Obligations.ForbiddenStates : Prop :=
  ∀ s : State,
    (s.mf.opt.decodeOnly = true →
      exec .mfFind s = .next (s.failed .unsupportedOperation 0) ∧
      exec .lzParse s = .next (s.failed .unsupportedOperation 0)) ∧
    (s.hf.state.valid = false →
      exec .hfEncode s = .next (s.failed .illegalCommand 0x23) ∧
      exec .hfEncodeBuf s = .next (s.failed .illegalCommand 0x24) ∧
      exec .hfDecode s = .next (s.failed .illegalCommand 0x25) ∧
      exec .hfDecodeBuf s = .next (s.failed .illegalCommand 0x26))

/-! ## Bit and byte I/O (41_bitio.md) -/

/-- R184: the only word of NOP is 0, and NOP only completes. -/
def Obligations.NopOnlyCompletes : Prop :=
  (∀ c : Word, decode c = .ok .nop ↔ c = 0) ∧
  ∀ s : State, exec .nop s = .next { s with status := { s.status with busy := false, done := true } }

/-- R200, R204, R210, R391: the stream resets and BR_ALIGN. -/
def Obligations.StreamResets : Prop :=
  ∀ s : State,
    exec .brReset s = .next { s with br := { s.br with pos := 0, bits := 0, buf := 0 }, status := s.status.ended } ∧
    exec .brAlign s = .next { s with br := { s.br with bits := 0 }, status := s.status.ended } ∧
    exec .bwReset s = .next { s with bw := { s.bw with pos := 0, bits := 0, buf := 0 }, status := s.status.ended } ∧
    exec .exReset s = .next { s with ex := { s.ex with pos := 0 }, status := s.status.ended }

/-- R201 to R203: BR_READ n delivers the next n bits of the stream in the configured bit order, fetching as many units as it needs; the bits after them are the next to be read. -/
def Obligations.BrReadDeliversBits : Prop :=
  ∀ (s : State) (n : BitVec 6), n.toNat ≤ 32 → s.ReaderReady → s.br.Sound → n.toNat ≤ s.unreadBits.length →
    let width := s.br.cfg.unit.bits
    let nb := s.br.cfg.unit.bytes
    let fetched := (n.toNat - s.br.bits.toNat + width - 1) / width
    let r : Reader := { s.br with
      pos := word (s.br.pos.toNat + nb * fetched)
      bits := BitVec.ofNat 5 (s.br.bits.toNat + width * fetched - n.toNat)
      buf := if fetched = 0 then s.br.buf else BitVec.ofNat 16 (bytesValue s.br.cfg.byteOrder
        (s.mem.getBytes (s.br.base.toNat + (s.br.pos.toNat + nb * (fetched - 1))) nb)) }
    exec (.brRead n) s = .next { s with
      result := word (bitsValue s.br.cfg.bitOrder (s.unreadBits.take n.toNat)), br := r, status := s.status.ended } ∧
    ({ s with br := r } : State).unreadBits = s.unreadBits.drop n.toNat

/-- R203: BR_READ past the end raises TRUNCATED_INPUT at the position of the missing unit; only RESULT and the reader's stream state change. -/
def Obligations.BrReadPastEnd : Prop :=
  ∀ (s : State) (n : BitVec 6), n.toNat ≤ 32 → s.ReaderReady → s.br.Sound → s.unreadBits.length < n.toNat →
    ∃ v p b f, exec (.brRead n) s = .next (({ s with
      result := v, br := { s.br with pos := p, bits := b, buf := f }, anyCount := s.anyCount + 1 } : State).failed
        .truncatedInput (word s.br.endPos))

/-- R205: BR_READ_INT reads an integer in BYTE_ORDER; with bits buffered it raises ILLEGAL_COMMAND at its own word; past the end it raises TRUNCATED_INPUT and consumes nothing (that RESULT is then any value is the model's reading, log entry 9). -/
def Obligations.BrReadIntReads : Prop :=
  ∀ (s : State) (w : BitVec 2), w.toNat ≠ 3 →
    let b := widthBytes w
    (s.br.bits ≠ 0 → exec (.brReadInt w) s = .next (s.failed .illegalCommand (encode (.brReadInt w)))) ∧
    (s.br.bits = 0 → s.ReaderReady → s.br.pos.toNat + b ≤ s.br.len.toNat →
      exec (.brReadInt w) s = .next { s with
        result := word (bytesValue s.br.cfg.byteOrder (s.mem.getBytes (s.br.base.toNat + s.br.pos.toNat) b))
        br := { s.br with pos := word (s.br.pos.toNat + b) }
        status := s.status.ended }) ∧
    (s.br.bits = 0 → s.ReaderReady → s.br.len.toNat < s.br.pos.toNat + b →
      ∃ v, exec (.brReadInt w) s = .next
        (({ s with result := v, anyCount := s.anyCount + 1 } : State).failed .truncatedInput s.br.pos))

/-- R211, R212: BW_WRITE n appends the low n bits of ARG0 to the stream in the configured bit order, storing each unit as it fills, and touches no other byte; unplaced bits of the pending unit stay 0. -/
def Obligations.BwWriteAppendsBits : Prop :=
  ∀ (s : State) (n : BitVec 6), n.toNat ≤ 32 → s.WriterReady → s.bw.Sound → s.bw.Fits n.toNat → s.mem.wf = true →
    ∃ (m : Memory) (f : BitVec 16),
      let w : Writer := { s.bw with
        pos := word (s.bw.posAfter n.toNat)
        bits := BitVec.ofNat 5 ((s.bw.bits.toNat + n.toNat) % s.bw.cfg.unit.bits)
        buf := f }
      exec (.bwWrite n) s = .next { s with mem := m, bw := w, status := s.status.ended } ∧
      s.mem.SameOutside m (s.bw.base.toNat + s.bw.pos.toNat) (s.bw.posAfter n.toNat - s.bw.pos.toNat) ∧
      ({ s with mem := m, bw := w } : State).writtenBits s.bw.pos.toNat =
        s.bw.pendingBits ++ valueBits s.bw.cfg.bitOrder n.toNat s.arg0.toNat ∧
      (s.bw.Clean → w.Clean)

/-- R211, R212: BW_WRITE that completes a unit the window has no room for raises OUT_OF_RANGE_WRITE at that unit's position; only the writer's stream state and the window bytes from the old BW_POS to there change. R212 leaves the window bytes from the old BW_POS on at any value; that with 16-bit units the last byte, too few for a unit, is kept is the model's reading (log entry 8). -/
def Obligations.BwWriteFull : Prop :=
  ∀ (s : State) (n : BitVec 6), n.toNat ≤ 32 → s.WriterReady → s.bw.Sound → ¬ s.bw.Fits n.toNat →
    ∃ m p b f, exec (.bwWrite n) s = .next (({ s with
        mem := m, bw := { s.bw with pos := p, bits := b, buf := f }, anyCount := s.anyCount + 1 } : State).failed
          .outOfRangeWrite (word s.bw.fullPos)) ∧
      s.mem.SameOutside m (s.bw.base.toNat + s.bw.pos.toNat) (s.bw.fullPos - s.bw.pos.toNat)

/-- R211, R213: BW_FLUSH stores the pending unit, unplaced bits as they are, in BYTE_ORDER; with nothing pending it only completes; a unit that does not fit raises OUT_OF_RANGE_WRITE at BW_POS, a 16-bit one with memory unchanged. -/
def Obligations.BwFlushStoresUnit : Prop :=
  ∀ s : State, s.WriterReady →
    let nb := s.bw.cfg.unit.bytes
    (s.bw.bits = 0 → exec .bwFlush s = .next { s with status := s.status.ended }) ∧
    (s.bw.bits ≠ 0 → s.bw.pos.toNat + nb ≤ s.bw.cap.toNat → s.mem.wf = true →
      ∃ m, exec .bwFlush s = .next { s with
          mem := m, bw := { s.bw with pos := word (s.bw.pos.toNat + nb), bits := 0, buf := 0 }, status := s.status.ended } ∧
        s.mem.SameOutside m (s.bw.base.toNat + s.bw.pos.toNat) nb ∧
        m.getBytes (s.bw.base.toNat + s.bw.pos.toNat) nb = valueBytes s.bw.cfg.byteOrder nb s.bw.buf.toNat) ∧
    (s.bw.bits ≠ 0 → s.bw.cap.toNat < s.bw.pos.toNat + nb →
      ∃ m p b f, exec .bwFlush s = .next (({ s with
          mem := m, bw := { s.bw with pos := p, bits := b, buf := f }, anyCount := s.anyCount + 1 } : State).failed
            .outOfRangeWrite s.bw.pos) ∧
        s.mem.SameOutside m s.bw.base.toNat s.bw.cap.toNat ∧ (s.bw.cfg.unit = .bits16 → m = s.mem))

/-- R214: BW_WRITE_INT stores the low bytes of ARG0 in BYTE_ORDER; with bits pending it raises ILLEGAL_COMMAND at its own word; without room it raises OUT_OF_RANGE_WRITE and writes nothing (that this covers BW_POS too is the model's reading, log entry 10). -/
def Obligations.BwWriteIntStores : Prop :=
  ∀ (s : State) (w : BitVec 2), w.toNat ≠ 3 →
    let b := widthBytes w
    (s.bw.bits ≠ 0 → exec (.bwWriteInt w) s = .next (s.failed .illegalCommand (encode (.bwWriteInt w)))) ∧
    (s.bw.bits = 0 → s.WriterReady → s.bw.pos.toNat + b ≤ s.bw.cap.toNat → s.mem.wf = true →
      ∃ m, exec (.bwWriteInt w) s = .next { s with
          mem := m, bw := { s.bw with pos := word (s.bw.pos.toNat + b) }, status := s.status.ended } ∧
        s.mem.SameOutside m (s.bw.base.toNat + s.bw.pos.toNat) b ∧
        m.getBytes (s.bw.base.toNat + s.bw.pos.toNat) b = valueBytes s.bw.cfg.byteOrder b s.arg0.toNat) ∧
    (s.bw.bits = 0 → s.WriterReady → s.bw.cap.toNat < s.bw.pos.toNat + b →
      exec (.bwWriteInt w) s = .next (s.failed .outOfRangeWrite s.bw.pos))

/-- R215: what a sequence of BW_WRITE and BW_FLUSH writes, the same sequence of BR_READ reads back, for every configuration. -/
def Obligations.BitRoundTrip : Prop :=
  ∀ (s t u : State) (ws : List (BitVec 6 × Word)),
    s.mem.wf = true → s.status.err = false → s.WriterReady →
    s.bw.pos = 0 → s.bw.bits = 0 → s.bw.buf = 0 → (∀ w ∈ ws, w.1.toNat ≤ 32) →
    writeSequence s ws = some t → exec .bwFlush t = .next u → u.status.err = false →
    readSequence (u.pointReader s.bw.cfg s.bw.base u.bw.pos) (ws.map Prod.fst) =
      some (ws.map fun w => word (w.2.toNat % 2 ^ w.1.toNat))

/-- R216: the output length after writes of T bits in total and BW_FLUSH, and the zero padding. -/
def Obligations.OutputLength : Prop :=
  ∀ (s t u : State) (ws : List (BitVec 6 × Word)),
    s.mem.wf = true → s.status.err = false → s.WriterReady →
    s.bw.pos = 0 → s.bw.bits = 0 → s.bw.buf = 0 → (∀ w ∈ ws, w.1.toNat ≤ 32) →
    writeSequence s ws = some t → exec .bwFlush t = .next u → u.status.err = false →
    let total := (ws.map fun w => w.1.toNat).sum
    let width := s.bw.cfg.unit.bits
    u.bw.pos.toNat = s.bw.cfg.unit.bytes * ((total + width - 1) / width) ∧
    streamBits s.bw.cfg (u.mem.getBytes s.bw.base.toNat u.bw.pos.toNat) =
      (ws.flatMap fun w => valueBits s.bw.cfg.bitOrder w.1.toNat w.2.toNat) ++
        List.replicate (width * ((total + width - 1) / width) - total) false

/-! ## Match finder (42_match_finder.md) -/

/-- R258: MF_FIND writes the candidate descriptors at position ARG0 and their count; a full window raises OUT_OF_RANGE_WRITE at the capacity, a position outside the input or off a unit INVALID_RANGE. -/
def Obligations.MfFindListsCandidates : Prop :=
  ∀ s : State, s.FinderReady s.mf.candWindow →
    let p := s.arg0.toNat
    let cands := s.scan.candidates p
    (p < s.mf.inLen.toNat → p % s.mf.opt.unit.bytes = 0 → cands.length ≤ s.mf.candCap.toNat →
      ∃ m, exec .mfFind s = .next { s with mem := m, result := word cands.length, status := s.status.ended } ∧
        s.mem.SameOutside m s.mf.candBase.toNat (16 * cands.length) ∧
        (s.mem.wf = true → m.HoldsWords s.mf.candBase.toNat
          (cands.flatMap fun c => [word c.slot, word c.disp, word c.lo, word c.hi]))) ∧
    (p < s.mf.inLen.toNat → p % s.mf.opt.unit.bytes = 0 → s.mf.candCap.toNat < cands.length →
      ∃ m v, exec .mfFind s = .next
          (({ s with mem := m, result := v, anyCount := s.anyCount + 1 } : State).failed .outOfRangeWrite s.mf.candCap) ∧
        s.mem.SameOutside m s.mf.candBase.toNat (16 * s.mf.candCap.toNat)) ∧
    (s.mf.inLen.toNat ≤ p ∨ p % s.mf.opt.unit.bytes ≠ 0 → exec .mfFind s = .next (s.failed .invalidRange 0x018))

/-- R257, R258: the pairs the descriptors stand for are exactly the legal matches of R253, every length of them; descriptors come in ascending displacement, then ascending slot. -/
def Obligations.CandidatesAreLegalMatches : Prop :=
  ∀ (sc : Scan) (p : Nat), sc.Aligned → p < sc.text.length → p % sc.u = 0 →
    (∀ d len, sc.Legal p d len ↔ ∃ c ∈ sc.candidates p, c.disp = d ∧ c.lo ≤ len ∧ len ≤ c.hi ∧ len % sc.u = 0) ∧
    (sc.slots.Pairwise (fun a b => a.1 < b.1) →
      (sc.candidates p).Pairwise fun a b => a.disp < b.disp ∨ (a.disp = b.disp ∧ a.slot < b.slot))

/-! ## Parser (43_parser.md) -/

/-- R299: LZ_PARSE writes the token descriptors of the parse, their count and the total price; a token list longer than the window raises OUT_OF_RANGE_WRITE at MF_TOK_CAP. -/
def Obligations.LzParseWritesTokens : Prop :=
  ∀ s : State, s.FinderReady s.mf.tokWindow →
    let cost := s.parseInput.parse.1
    let toks := s.parseInput.parse.2
    (toks.length ≤ s.mf.tokCap.toNat →
      ∃ m, exec .lzParse s = .next { s with
          mem := m
          mf := { s.mf with tokCount := word toks.length, costLo := word cost, costHi := word (cost / 2 ^ 32) }
          status := s.status.ended } ∧
        s.mem.SameOutside m s.mf.tokBase.toNat (16 * toks.length) ∧
        (s.mem.wf = true → m.HoldsWords s.mf.tokBase.toNat
          (toks.flatMap fun t => [t.kind.toWord, t.position, t.value, t.length]))) ∧
    (s.mf.tokCap.toNat < toks.length →
      ∃ m n lo hi, exec .lzParse s = .next (({ s with
          mem := m, mf := { s.mf with tokCount := n, costLo := lo, costHi := hi }, anyCount := s.anyCount + 1 } : State).failed
            .outOfRangeWrite s.mf.tokCap) ∧
        s.mem.SameOutside m s.mf.tokBase.toNat (16 * s.mf.tokCap.toNat))

/-- R300, R301 law 1: the parse is a valid token stream: laid end to end over the whole input, every match legal, none started in a skip state, and its cost is the total price of its tokens. -/
def Obligations.ParseIsValid : Prop :=
  ∀ x : ParseInput, x.scan.Aligned →
    ∃ cs, x.Covers 0 0 cs ∧ x.parse.2 = x.tokensOf 0 cs ∧ x.parse.1 = x.totalPrice x.parse.2

/-- R301 law 2: no valid token stream of the same input costs less than the parse. -/
def Obligations.ParseIsOptimal : Prop :=
  ∀ (x : ParseInput) (cs : List Choice), x.scan.Aligned → x.Covers 0 0 cs →
    x.parse.1 ≤ x.totalPrice (x.tokensOf 0 cs)

/-- R294 to R297: the edge chosen into a node is one of the edges into it, and no other has less cost, or at equal cost a greater length, a smaller displacement at equal length, or a smaller source skip state at equal displacement; a node without one is unreachable. The parse's cost is that of the goal, the end node of least cost and then smallest skip state, and its tokens are those of the chosen edges followed back from the goal to (0, 0), reversed. -/
def Obligations.PredecessorChoice : Prop :=
  (∀ (x : ParseInput) (q t : Nat) (c : Column) (before : List Column) (b : Best), t ≤ x.skip →
    (x.nextColumn q (c :: before)).best[t]? = some (some b) →
    let edges := x.literalEdges (q - x.scan.u) c t ++ (if t = x.skip then x.allMatchEdges q x.scan.u (c :: before) else [])
    b ∈ edges ∧ ∀ e ∈ edges, b.AtLeast e) ∧
  ∀ x : ParseInput, x.scan.Aligned →
    let n := x.scan.text.length
    (∀ t ≤ x.skip, x.costAt 0 t = if t = 0 then some 0 else none) ∧
    (∀ q t, 0 < q → q ≤ n → q % x.scan.u = 0 → t ≤ x.skip →
      (x.chosen q t = none → ∀ e, ¬ x.EdgeInto q t e) ∧
      ∀ b, x.chosen q t = some b → x.EdgeInto q t b ∧ ∀ e, x.EdgeInto q t e → b.AtLeast e) ∧
    ∃ s edges, s ≤ x.skip ∧ x.costAt n s = some x.parse.1 ∧
      (∀ t ≤ x.skip, ∀ c, x.costAt n t = some c → x.parse.1 ≤ c ∧ (t < s → x.parse.1 < c)) ∧
      x.ChosenBack n s edges ∧ x.parse.2 = (x.backTokens n edges).reverse

/-- R395: EX_RESET and EX_STREAM on what LZ_PARSE wrote, the expander set up alike, restore the input. -/
def Obligations.ExpanderRoundTrip : Prop :=
  ∀ (s t : State) (outBase : Word),
    s.mem.wf = true → s.status.err = false → exec .lzParse s = .next t → t.status.err = false →
    let e := t.setUpExpander outBase
    e.ex.outWindow.Inside s.params.memSize → e.ex.outWindow.Apart e.ex.preWindow → e.ex.outWindow.Apart e.ex.tokWindow →
    ∃ u v, exec .exReset e = .next u ∧ exec .exStream u = .next v ∧ v.status.err = false ∧ v.ex.pos = s.mf.inLen ∧
      v.mem.getBytes outBase.toNat s.mf.inLen.toNat = s.mem.getBytes s.mf.inBase.toNat s.mf.inLen.toNat

/-! ## Huffman engine (44_huffman.md) -/

/-- R332: HF_COUNT writes how often each symbol of the alphabet occurs in the source; a source of 2^32 symbols or more raises INVALID_RANGE at HF_SRC_LEN. -/
def Obligations.HfCountCounts : Prop :=
  ∀ s : State, s.hf.srcWindow.Inside s.params.memSize → s.hf.freqWindow.Inside s.params.memSize →
    s.hf.freqWindow.Apart s.hf.srcWindow →
    let a := s.hf.cfg.width.alphabet
    (s.hf.cfg.symbolCount s.hf.srcLen.toNat < 2 ^ 32 →
      ∃ m, exec .hfCount s = .next { s with mem := m, status := s.status.ended } ∧
        s.mem.SameOutside m s.hf.freqBase.toNat (4 * a) ∧
        (s.mem.wf = true → ∀ sym < a, m.getWord (s.hf.freqBase.toNat + 4 * sym) = word (s.sourceSymbols.count sym))) ∧
    (2 ^ 32 ≤ s.hf.cfg.symbolCount s.hf.srcLen.toNat → exec .hfCount s = .next (s.failed .invalidRange 0x148))

/-- R331: packing the symbol sequence of a byte string gives the byte string back, for every symbol width and nibble order. -/
def Obligations.PackingInvertsSymbols : Prop :=
  ∀ (c : HfCfg) (bs : List Byte), packSymbols c ((symbolsOf c bs).map (BitVec.ofNat 8)) = bs

/-- R343: HF_BUILD writes the arena and the codebook of the built tree, and holds them, when the cap is met or can be. -/
def Obligations.HfBuildBuilds : Prop :=
  ∀ s : State, s.hf.freqWindow.Inside s.params.memSize → s.hf.treeWindow.Inside s.params.memSize →
    s.hf.bookWindow.Inside s.params.memSize → s.hf.treeWindow.Apart s.hf.freqWindow →
    s.hf.treeWindow.Apart s.hf.bookWindow → s.hf.bookWindow.Apart s.hf.freqWindow →
    s.frequencyWords.sum < 2 ^ 32 →
    (s.hf.cfg.cap = 0 ∨ naturalDepth s.frequencyWords ≤ s.hf.cfg.cap.toNat ∨
      (s.hf.cfg.limitEn = true ∧ (s.frequencyWords.filter (· ≠ 0)).length ≤ 2 ^ s.hf.cfg.cap.toNat)) →
    ∃ b m, buildTree s.hf.cfg s.params.limiter s.frequencyWords = .ok b ∧
      exec .hfBuild s = .next { s with
        mem := m
        hf := { s.hf with
          tree := b.tree, book := b.book, nodes := word b.tree.length, root := word b.root
          state := { valid := true, limited := b.limited, maxLen := BitVec.ofNat 7 b.maxLen } }
        status := s.status.ended } ∧
      (∀ a, (a < s.hf.treeBase.toNat ∨ s.hf.treeBase.toNat + 16 * b.tree.length ≤ a) → ¬ s.hf.bookWindow.Holds a →
        m.get a = s.mem.get a) ∧
      (s.mem.wf = true →
        m.HoldsWords s.hf.treeBase.toNat (b.tree.flatMap Node.words) ∧
        ∀ sym < s.hf.cfg.width.alphabet,
          m.getBytes (s.hf.bookBase.toNat + 16 * sym) 16 = (bookEntry b.book sym).bytes)

/-- R338, R343: frequencies that sum to 2^32 or more raise INVALID_RANGE at HF_FREQ_BASE; a natural depth above the cap that cannot be limited raises HUFFMAN_CAP_EXCEEDED with that depth. Nothing else changes. -/
def Obligations.HfBuildStops : Prop :=
  ∀ s : State, s.hf.freqWindow.Inside s.params.memSize → s.hf.treeWindow.Inside s.params.memSize →
    s.hf.bookWindow.Inside s.params.memSize → s.hf.treeWindow.Apart s.hf.freqWindow →
    s.hf.treeWindow.Apart s.hf.bookWindow → s.hf.bookWindow.Apart s.hf.freqWindow →
    (2 ^ 32 ≤ s.frequencyWords.sum → exec .hfBuild s = .next (s.failed .invalidRange 0x14C)) ∧
    (s.frequencyWords.sum < 2 ^ 32 → s.hf.cfg.cap ≠ 0 → s.hf.cfg.cap.toNat < naturalDepth s.frequencyWords →
      (s.hf.cfg.limitEn = false ∨ 2 ^ s.hf.cfg.cap.toNat < (s.frequencyWords.filter (· ≠ 0)).length) →
      exec .hfBuild s = .next (s.failed .huffmanCapExceeded (word (naturalDepth s.frequencyWords))))

/-- R335: the tree of a lone symbol r has a synthesized sibling at index 1 on the left of root 2; r gets the code "1", and the synthesized leaf names no code. With canonical codes (R339, R341) the root comes first and the two leaves follow by symbol: r gets "0" if r = 0, else "1". -/
def Obligations.SingleSymbolTree : Prop :=
  ∀ (c : HfCfg) (l : Limiter) (r f : Nat), r < c.width.alphabet → f ≠ 0 → f < 2 ^ 32 →
    let freqs := List.replicate r 0 ++ f :: List.replicate (c.width.alphabet - 1 - r) 0
    let leaf : Node := { leaf := true, synth := false, sym := BitVec.ofNat 8 r, freq := word f, left := 0xFFFFFFFF, right := 0xFFFFFFFF }
    let sibling : Node := { leaf := true, synth := true, sym := if r = 0 then 1 else 0, freq := 0, left := 0xFFFFFFFF, right := 0xFFFFFFFF }
    let root : Node := { leaf := false, synth := false, sym := 0, freq := word f, left := 1, right := 0 }
    (c.canon = false → buildTree c l freqs =
      .ok { tree := [leaf, sibling, root], root := 2, book := [(r, ⟨1, 1⟩)], limited := false, maxLen := 1 }) ∧
    (c.canon = true → buildTree c l freqs =
      .ok { tree := { root with left := 1, right := 2 } :: (if r = 0 then [leaf, sibling] else [sibling, leaf])
            root := 0, book := [(r, ⟨if r = 0 then 0 else 1, 1⟩)], limited := false, maxLen := 1 })

/-- R336: all frequencies 0 build the empty tree, and with it held every HF_ENCODE, and every decode of at least one symbol, raises MALFORMED_TOKEN at symbol index 0. -/
def Obligations.EmptyTree : Prop :=
  (∀ (c : HfCfg) (l : Limiter) (freqs : List Nat), (∀ f ∈ freqs, f = 0) →
    buildTree c l freqs = .ok { tree := [], root := 0, book := [], limited := false, maxLen := 0 }) ∧
  ∀ s : State, s.hf.state.valid = true → s.hf.nodes = 0 → s.hf.book = [] →
    (s.WriterReady → ∃ t, exec .hfEncode s = .next t ∧ t.status.err = true ∧ t.status.errCode = 4 ∧ t.errPos = 0) ∧
    (s.ReaderReady → ∃ t, exec .hfDecode s = .next t ∧ t.status.err = true ∧ t.status.errCode = 4 ∧ t.errPos = 0) ∧
    (s.ReaderReady → s.hf.dstWindow.Inside s.params.memSize → s.hf.dstWindow.Apart s.br.window →
      s.arg0 ≠ 0 → s.hf.dstCap ≠ 0 →
      ∃ t, exec .hfDecodeBuf s = .next t ∧ t.status.err = true ∧ t.status.errCode = 4 ∧ t.errPos = 0)

/-- R338: the limited lengths are a complete code within the cap, and no code lengths within the cap have a smaller weighted length. -/
def Obligations.LimitedLengthsMinimal : Prop :=
  ∀ (proposal freqs : List Nat) (cap : Nat), 2 ≤ freqs.length → freqs.length ≤ 2 ^ cap →
    let ls := limitLengths proposal cap freqs
    (ls.length = freqs.length ∧ (∀ l ∈ ls, 1 ≤ l ∧ l ≤ cap) ∧ (ls.map fun l => 2 ^ (cap - l)).sum = 2 ^ cap) ∧
    ∀ ns : List Nat, ns.length = freqs.length → (∀ l ∈ ns, 1 ≤ l ∧ l ≤ cap) → (ns.map fun l => 2 ^ (cap - l)).sum ≤ 2 ^ cap →
      ((freqs.zip ls).map fun x => x.1 * x.2).sum ≤ ((freqs.zip ns).map fun x => x.1 * x.2).sum

/-- R344: HF_LOAD takes every code tree that stands in the arena, its symbols distinct and its depth from 1 to 64, and its codebook holds the path codes of the leaves that are not synthesized. -/
def Obligations.HfLoadTakesCodeTree : Prop :=
  ∀ (s : State) (tree : CodeTree),
    1 ≤ s.arg1.toNat → s.arg1.toNat ≤ s.hf.cfg.width.maxNodes → s.arg0.toNat < s.arg1.toNat →
    (s.hf.loadWindow s.arg1.toNat).Inside s.params.memSize →
    tree.idx = s.arg0.toNat → tree.StoredIn (s.loadArena s.arg1.toNat) s.hf.cfg.width.alphabet →
    tree.indexes.Nodup → (tree.codes.map Prod.fst).Nodup → 1 ≤ tree.depth → tree.depth ≤ 64 →
    ∃ book, exec .hfLoad s = .next { s with
        hf := { s.hf with
          tree := (s.loadArena s.arg1.toNat).map RawNode.node, book := book, root := s.arg0, nodes := s.arg1
          state := { valid := true, limited := false, maxLen := BitVec.ofNat 7 tree.depth } }
        status := s.status.ended } ∧
      (∀ c ∈ tree.codes, (bookEntry book c.1).bits = c.2 ∧ (bookEntry book c.1).len = c.2.length) ∧
      ∀ sym, sym ∉ tree.codes.map Prod.fst → (bookEntry book sym).len = 0

/-- R344: what HF_LOAD takes is a code tree; a bad node count, a bad root index and a root that is a leaf are refused with their own ERR_POS and no other effect. -/
def Obligations.HfLoadTakesOnlyCodeTrees : Prop :=
  ∀ s : State,
    let c := s.arg1.toNat
    let r := s.arg0.toNat
    (∀ t, s.status.err = false → exec .hfLoad s = .next t → t.status.err = false →
      1 ≤ c ∧ c ≤ s.hf.cfg.width.maxNodes ∧ r < c ∧
      ∃ tree : CodeTree, tree.idx = r ∧ tree.StoredIn (s.loadArena c) s.hf.cfg.width.alphabet ∧
        tree.indexes.Nodup ∧ (tree.codes.map Prod.fst).Nodup ∧ 1 ≤ tree.depth ∧ tree.depth ≤ 64) ∧
    (c = 0 ∨ s.hf.cfg.width.maxNodes < c → exec .hfLoad s = .next (s.failed .invalidRange 0x01C)) ∧
    (1 ≤ c → c ≤ s.hf.cfg.width.maxNodes → c ≤ r → exec .hfLoad s = .next (s.failed .invalidRange 0x018)) ∧
    (1 ≤ c → c ≤ s.hf.cfg.width.maxNodes → r < c → (s.hf.loadWindow c).Inside s.params.memSize →
      (s.mem.getWord (s.hf.treeBase.toNat + 16 * r)).getLsbD 8 = true →
      exec .hfLoad s = .next (s.failed .malformedToken s.arg0))

/-- R356 law 1: after HF_BUILD or HF_LOAD the held codebook is prefix free and the held tree reads each of its codes back; after HF_BUILD every symbol that occurs has a code, and tree, codebook and HF_STATE are those R333 to R343 build from the frequency table: the merge order of R334, the canonical codes of R339, the arena and HF_ROOT of R341. -/
def Obligations.HeldTreesReadBack : Prop :=
  ∀ (i : Instr) (s t : State), i = .hfBuild ∨ i = .hfLoad → s.status.err = false →
    exec i s = .next t → t.status.err = false →
    t.hf.state.valid = true ∧ t.hf.nodes.toNat = t.hf.tree.length ∧ PrefixFree t.hf.book ∧ t.hf.ReadsBack ∧
    (i = .hfBuild → (∀ sym f, s.frequencyWords[sym]? = some f → f ≠ 0 → 1 ≤ (bookEntry t.hf.book sym).len) ∧
      t.hf.BuiltFrom s.frequencyWords)

/-- R350, R351: HF_ENCODE appends the codeword of symbol ARG0 to the stream; a symbol outside the alphabet or without a code raises MALFORMED_TOKEN(0), a codeword that does not fit OUT_OF_RANGE_WRITE. -/
def Obligations.HfEncodeWritesCode : Prop :=
  ∀ s : State, s.hf.state.valid = true → s.WriterReady →
    let c := bookEntry s.hf.book s.arg0.toNat
    (s.arg0.toNat < s.hf.cfg.width.alphabet → c.len ≠ 0 → s.bw.Sound → s.bw.Fits c.len → s.mem.wf = true →
      ∃ (m : Memory) (f : BitVec 16),
        let w : Writer := { s.bw with
          pos := word (s.bw.posAfter c.len)
          bits := BitVec.ofNat 5 ((s.bw.bits.toNat + c.len) % s.bw.cfg.unit.bits)
          buf := f }
        exec .hfEncode s = .next { s with mem := m, bw := w, status := s.status.ended } ∧
        s.mem.SameOutside m (s.bw.base.toNat + s.bw.pos.toNat) (s.bw.posAfter c.len - s.bw.pos.toNat) ∧
        ({ s with mem := m, bw := w } : State).writtenBits s.bw.pos.toNat = s.bw.pendingBits ++ c.bits) ∧
    (s.hf.cfg.width.alphabet ≤ s.arg0.toNat ∨ c.len = 0 →
      ∃ m p b f, exec .hfEncode s = .next (({ s with
          mem := m, bw := { s.bw with pos := p, bits := b, buf := f }, anyCount := s.anyCount + 1 } : State).failed
            .malformedToken 0) ∧
        s.mem.SameOutside m s.bw.base.toNat s.bw.cap.toNat) ∧
    (s.arg0.toNat < s.hf.cfg.width.alphabet → c.len ≠ 0 → s.bw.Sound → ¬ s.bw.Fits c.len →
      ∃ m p b f, exec .hfEncode s = .next (({ s with
          mem := m, bw := { s.bw with pos := p, bits := b, buf := f }, anyCount := s.anyCount + 1 } : State).failed
            .outOfRangeWrite (word s.bw.fullPos)) ∧
        s.mem.SameOutside m s.bw.base.toNat s.bw.cap.toNat)

/-- R353, R356 law 4: HF_ENCODE_BUF appends the codewords of the source's symbols in order; the first symbol without a code raises MALFORMED_TOKEN at its index; a codeword that completes a unit the window has no room for raises OUT_OF_RANGE_WRITE at that unit's position. That an index of 2^32 or more leaves ERR_POS at any value, and that the bytes past the last whole unit are kept, are the model's choices (log entries 26 and 8). -/
def Obligations.HfEncodeBufWritesCodes : Prop :=
  ∀ s : State, s.hf.state.valid = true → s.hf.srcWindow.Inside s.params.memSize → s.WriterReady →
    s.bw.window.Apart s.hf.srcWindow → s.bw.Sound →
    let bits := s.sourceSymbols.flatMap fun x => (bookEntry s.hf.book x).bits
    ((∀ x ∈ s.sourceSymbols, (bookEntry s.hf.book x).len ≠ 0) → s.bw.Fits bits.length → s.mem.wf = true →
      ∃ (m : Memory) (f : BitVec 16),
        let w : Writer := { s.bw with
          pos := word (s.bw.posAfter bits.length)
          bits := BitVec.ofNat 5 ((s.bw.bits.toNat + bits.length) % s.bw.cfg.unit.bits)
          buf := f }
        exec .hfEncodeBuf s = .next { s with mem := m, bw := w, status := s.status.ended } ∧
        s.mem.SameOutside m (s.bw.base.toNat + s.bw.pos.toNat) (s.bw.posAfter bits.length - s.bw.pos.toNat) ∧
        ({ s with mem := m, bw := w } : State).writtenBits s.bw.pos.toNat = s.bw.pendingBits ++ bits ∧
        bits.length = (s.sourceSymbols.map fun x => (bookEntry s.hf.book x).len).sum) ∧
    (∀ before x after, s.sourceSymbols = before ++ x :: after →
      (∀ y ∈ before, (bookEntry s.hf.book y).len ≠ 0) → (bookEntry s.hf.book x).len = 0 →
      s.bw.Fits (before.flatMap fun y => (bookEntry s.hf.book y).bits).length →
      ∃ m p b f j, exec .hfEncodeBuf s = .next (({ s with
          mem := m, bw := { s.bw with pos := p, bits := b, buf := f }, anyCount := s.anyCount + 1 } : State).failed
            .malformedToken j) ∧
        (before.length < 2 ^ 32 → j.toNat = before.length) ∧
        s.mem.SameOutside m s.bw.base.toNat s.bw.cap.toNat) ∧
    (∀ before x after, s.sourceSymbols = before ++ x :: after →
      (∀ y ∈ before ++ [x], (bookEntry s.hf.book y).len ≠ 0) →
      s.bw.Fits (before.flatMap fun y => (bookEntry s.hf.book y).bits).length →
      ¬ s.bw.Fits ((before ++ [x]).flatMap fun y => (bookEntry s.hf.book y).bits).length →
      ∃ m p b f, exec .hfEncodeBuf s = .next (({ s with
          mem := m, bw := { s.bw with pos := p, bits := b, buf := f }, anyCount := s.anyCount + 1 } : State).failed
            .outOfRangeWrite (word s.bw.fullPos)) ∧
        s.mem.SameOutside m (s.bw.base.toNat + s.bw.pos.toNat) (s.bw.fullPos - s.bw.pos.toNat))

/-- R352, R354: HF_DECODE follows the next bits from the root to a leaf and delivers its symbol; a synthesized leaf raises MALFORMED_TOKEN(0), a stream that ends first TRUNCATED_INPUT at the missing unit. -/
def Obligations.HfDecodeReadsSymbol : Prop :=
  ∀ s : State, s.hf.state.valid = true → s.ReaderReady → s.br.Sound → s.hf.nodes ≠ 0 →
    let walk := walkBits s.hf.tree s.hf.root.toNat s.unreadBits
    (∀ n rest, walk = some (n, rest) → n.synth = false →
      ∃ p b f, exec .hfDecode s = .next { s with
          result := n.sym.setWidth 32, br := { s.br with pos := p, bits := b, buf := f }, status := s.status.ended } ∧
        ({ s with br := { s.br with pos := p, bits := b, buf := f } } : State).unreadBits = rest) ∧
    (∀ n rest, walk = some (n, rest) → n.synth = true →
      ∃ v p b f, exec .hfDecode s = .next (({ s with
        result := v, br := { s.br with pos := p, bits := b, buf := f }, anyCount := s.anyCount + 1 } : State).failed
          .malformedToken 0)) ∧
    (walk = none → s.hf.root.toNat < s.hf.tree.length →
      (∀ n ∈ s.hf.tree, n.leaf = false → n.left.toNat < s.hf.tree.length ∧ n.right.toNat < s.hf.tree.length) →
      ∃ v p b f, exec .hfDecode s = .next (({ s with
        result := v, br := { s.br with pos := p, bits := b, buf := f }, anyCount := s.anyCount + 1 } : State).failed
          .truncatedInput (word s.br.endPos)))

/-- R352, R355: HF_DECODE_BUF decodes ARG0 symbols, packs them into the output window and sets HF_DST_POS to the bytes written; a symbol the window has no byte for raises OUT_OF_RANGE_WRITE at its index, a symbol whose walk ends at a synthesized leaf MALFORMED_TOKEN at its index, a stream that ends inside a walk TRUNCATED_INPUT at the missing unit. -/
def Obligations.HfDecodeBufFillsOutput : Prop :=
  ∀ s : State, s.hf.state.valid = true → s.ReaderReady → s.hf.dstWindow.Inside s.params.memSize →
    s.hf.dstWindow.Apart s.br.window → s.br.Sound → s.hf.nodes ≠ 0 → s.mem.wf = true →
    (∀ syms rest, walkMany s.hf.tree s.hf.root.toNat s.arg0.toNat s.unreadBits = some (syms, rest) →
      (packSymbols s.hf.cfg syms).length ≤ s.hf.dstCap.toNat →
      ∃ m p b f, exec .hfDecodeBuf s = .next { s with
          mem := m, br := { s.br with pos := p, bits := b, buf := f }
          hf := { s.hf with dstPos := word (packSymbols s.hf.cfg syms).length }
          status := s.status.ended } ∧
        s.mem.SameOutside m s.hf.dstBase.toNat (packSymbols s.hf.cfg syms).length ∧
        m.getBytes s.hf.dstBase.toNat (packSymbols s.hf.cfg syms).length = packSymbols s.hf.cfg syms ∧
        ({ s with br := { s.br with pos := p, bits := b, buf := f } } : State).unreadBits = rest) ∧
    (∀ k syms rest, k < s.arg0.toNat → walkMany s.hf.tree s.hf.root.toNat k s.unreadBits = some (syms, rest) →
      (∀ j < k, s.hf.cfg.byteIndex j < s.hf.dstCap.toNat) → s.hf.dstCap.toNat ≤ s.hf.cfg.byteIndex k →
      ∃ m p b f d, exec .hfDecodeBuf s = .next (({ s with
          mem := m, br := { s.br with pos := p, bits := b, buf := f }, hf := { s.hf with dstPos := d }
          anyCount := s.anyCount + 1 } : State).failed .outOfRangeWrite (word k)) ∧
        s.mem.SameOutside m s.hf.dstBase.toNat s.hf.dstCap.toNat) ∧
    (∀ k syms rest, k < s.arg0.toNat → walkMany s.hf.tree s.hf.root.toNat k s.unreadBits = some (syms, rest) →
      (∀ j ≤ k, s.hf.cfg.byteIndex j < s.hf.dstCap.toNat) →
      (∀ n left, walkBits s.hf.tree s.hf.root.toNat rest = some (n, left) → n.synth = true →
        ∃ m p b f d, exec .hfDecodeBuf s = .next (({ s with
            mem := m, br := { s.br with pos := p, bits := b, buf := f }, hf := { s.hf with dstPos := d }
            anyCount := s.anyCount + 1 } : State).failed .malformedToken (word k)) ∧
          s.mem.SameOutside m s.hf.dstBase.toNat s.hf.dstCap.toNat) ∧
      (walkBits s.hf.tree s.hf.root.toNat rest = none → s.hf.root.toNat < s.hf.tree.length →
        (∀ n ∈ s.hf.tree, n.leaf = false → n.left.toNat < s.hf.tree.length ∧ n.right.toNat < s.hf.tree.length) →
        ∃ m p b f d, exec .hfDecodeBuf s = .next (({ s with
            mem := m, br := { s.br with pos := p, bits := b, buf := f }, hf := { s.hf with dstPos := d }
            anyCount := s.anyCount + 1 } : State).failed .truncatedInput (word s.br.endPos)) ∧
          s.mem.SameOutside m s.hf.dstBase.toNat s.hf.dstCap.toNat))

/-- R356 law 2: encoding a source with a held tree and decoding the output with the same tree restores the source. -/
def Obligations.HuffmanRoundTrip : Prop :=
  ∀ (s s1 s2 s3 : State),
    s.mem.wf = true → s.status.err = false → s.hf.state.valid = true →
    s.hf.ReadsBack → s.hf.nodes.toNat = s.hf.tree.length →
    exec .bwReset s = .next s1 → exec .hfEncodeBuf s1 = .next s2 → s2.status.err = false →
    exec .bwFlush s2 = .next s3 → s3.status.err = false → s.sourceSymbols.length < 2 ^ 32 →
    let e : State := { s3.pointReader s.bw.cfg s.bw.base s3.bw.pos with arg0 := word s.sourceSymbols.length }
    e.hf.dstWindow.Inside s.params.memSize → e.hf.dstWindow.Apart e.br.window → s.hf.srcLen.toNat ≤ s.hf.dstCap.toNat →
    ∃ t, exec .hfDecodeBuf e = .next t ∧ t.status.err = false ∧ t.hf.dstPos = s.hf.srcLen ∧
      t.mem.getBytes s.hf.dstBase.toNat s.hf.srcLen.toNat = s.mem.getBytes s.hf.srcBase.toNat s.hf.srcLen.toNat

/-! ## Expander (45_expander.md) -/

/-- R390, R392: EX_LIT appends the unit in ARG0, first byte first; without room it raises OUT_OF_RANGE_WRITE(0) and writes nothing (that this covers EX_POS too is the model's reading, log entry 10). -/
def Obligations.ExLitAppends : Prop :=
  ∀ s : State, s.ExReady →
    let u := s.ex.unit.bytes
    (s.ex.pos.toNat + u ≤ s.ex.outCap.toNat → s.mem.wf = true →
      ∃ m, exec .exLit s = .next { s with
          mem := m, ex := { s.ex with pos := word (s.ex.pos.toNat + u) }, status := s.status.ended } ∧
        s.mem.SameOutside m (s.ex.lowAddr u) u ∧
        ({ s.ex with pos := word (s.ex.pos.toNat + u) } : Expander).history m =
          s.ex.history s.mem ++ (List.range u).map fun j => s.arg0.extractLsb' (8 * j) 8) ∧
    (s.ex.outCap.toNat < s.ex.pos.toNat + u → exec .exLit s = .next (s.failed .outOfRangeWrite 0))

/-- R390, R393, R398: EX_MATCH appends ARG1 bytes, each copied from ARG0 bytes before the end; a bad token raises MALFORMED_TOKEN(0), one without room OUT_OF_RANGE_WRITE(0); each writes nothing (that this covers EX_POS too is the model's reading, log entry 10). -/
def Obligations.ExMatchAppends : Prop :=
  ∀ s : State, s.ExReady →
    let d := s.arg0.toNat
    let len := s.arg1.toNat
    (s.ex.MatchOk d len → s.ex.pos.toNat + len ≤ s.ex.outCap.toNat → s.mem.wf = true →
      ∃ m, exec .exMatch s = .next { s with
          mem := m, ex := { s.ex with pos := word (s.ex.pos.toNat + len) }, status := s.status.ended } ∧
        s.mem.SameOutside m (s.ex.lowAddr len) len ∧
        ({ s.ex with pos := word (s.ex.pos.toNat + len) } : Expander).history m = copyHistory d len (s.ex.history s.mem)) ∧
    (¬ s.ex.MatchOk d len → exec .exMatch s = .next (s.failed .malformedToken 0)) ∧
    (s.ex.MatchOk d len → s.ex.outCap.toNat < s.ex.pos.toNat + len →
      exec .exMatch s = .next (s.failed .outOfRangeWrite 0))

/-- R394, R398: EX_STREAM appends every token of an accepted list in order; the first token not accepted raises its error at its index: fields and source, then capacity, then position. -/
def Obligations.ExStreamExpands : Prop :=
  ∀ s : State, s.ExStreamReady →
    (s.ex.AcceptsAll s.tokenList → s.mem.wf = true →
      let total := (s.tokenList.map fun t => t.length.toNat).sum
      ∃ m, exec .exStream s = .next { s with
          mem := m, ex := { s.ex with pos := word (s.ex.pos.toNat + total) }, status := s.status.ended } ∧
        s.mem.SameOutside m (s.ex.lowAddr total) total ∧
        ({ s.ex with pos := word (s.ex.pos.toNat + total) } : Expander).history m =
          s.tokenList.foldl (fun h t => t.extend s.ex.unit h) (s.ex.history s.mem)) ∧
    (∀ before t after, s.tokenList = before ++ t :: after → s.ex.AcceptsAll before →
      let e := before.foldl Expander.advance s.ex
      ¬ e.Accepts t →
      ∃ m p, exec .exStream s = .next
          (({ s with mem := m, ex := { s.ex with pos := p }, anyCount := s.anyCount + 1 } : State).failed
            (if e.FieldsOk t ∧ ¬ e.HasRoom t then .outOfRangeWrite else .malformedToken) (word before.length)) ∧
        s.mem.SameOutside m s.ex.outBase.toNat s.ex.outCap.toNat)

/-! ## Optimal codes (44_huffman.md R356, law 3) -/

/-- R356 law 3, R338: the code lengths HF_BUILD gives the symbols that occur weigh no more than those of any prefix code of them; where they were limited, they are within the cap and weigh no more than any within it. -/
def Obligations.CodeLengthsMinimal : Prop :=
  ∀ s t : State, s.status.err = false → exec .hfBuild s = .next t → t.status.err = false →
    (t.hf.state.limited = true → ∀ sym, (bookEntry t.hf.book sym).len ≤ s.hf.cfg.cap.toNat) ∧
    ∀ (lens : List Nat) (top : Nat), CodeLengths s.frequencyWords lens top →
      (t.hf.state.limited = true → top ≤ s.hf.cfg.cap.toNat) →
      codedLength s.frequencyWords t.hf.book ≤ ((s.frequencyWords.zip lens).map fun x => x.1 * x.2).sum
end

