-- ==== Sys2Proof/Laws/Memory.lean ====
section
/-! SUPPORT. The laws of data memory: read after write, the canonical form, and what multi-byte writes leave alone. -/

namespace Sys2Proof.Machine.Memory

@[simp] theorem get_nil (a : Nat) : Memory.get [] a = unlisted := rfl

theorem get_cons (k : Nat) (b : Byte) (m : Memory) (a : Nat) :
    Memory.get ((k, b) :: m) a = if k = a then b else Memory.get m a := rfl

theorem wfFrom_cons {lo k : Nat} {b : Byte} {m : Memory} :
    wfFrom lo ((k, b) :: m) = true ↔ lo ≤ k ∧ b ≠ unlisted ∧ wfFrom (k + 1) m = true := by
  simp [wfFrom, and_assoc]

theorem wfFrom_mono {lo lo' : Nat} {m : Memory} (h : wfFrom lo m = true) (hl : lo' ≤ lo) :
    wfFrom lo' m = true := by
  cases m with
  | nil => rfl
  | cons c m =>
    obtain ⟨k, b⟩ := c
    rw [wfFrom_cons] at h ⊢
    exact ⟨by omega, h.2⟩

/-- An address below every listed one reads as unlisted. -/
theorem get_of_lt {lo a : Nat} {m : Memory} (h : wfFrom lo m = true) (ha : a < lo) : m.get a = unlisted := by
  induction m generalizing lo with
  | nil => rfl
  | cons c m ih =>
    obtain ⟨k, b⟩ := c
    rw [wfFrom_cons] at h
    rw [get_cons, if_neg (by omega)]
    exact ih h.2.2 (by omega)

/-- A write leaves every other byte alone, whatever the memory. -/
theorem get_set_ne (m : Memory) {a x : Nat} (b : Byte) (h : x ≠ a) : (m.set a b).get x = m.get x := by
  induction m with
  | nil => by_cases hb : b = unlisted <;> simp [set, hb, get_cons, h.symm]
  | cons c m ih =>
    obtain ⟨k, v⟩ := c
    simp only [set]
    split
    · split <;> simp [get_cons, h.symm]
    · split
      · subst_vars
        split <;> simp [get_cons, h.symm]
      · simp [get_cons, ih]

/-- A read after a write to the same address gives the value written, in a canonical memory. -/
theorem get_set_self {lo : Nat} {m : Memory} (hm : wfFrom lo m = true) (a : Nat) (b : Byte) :
    (m.set a b).get a = b := by
  induction m generalizing lo with
  | nil => by_cases hb : b = unlisted <;> simp [set, hb, get_cons]
  | cons c m ih =>
    obtain ⟨k, v⟩ := c
    rw [wfFrom_cons] at hm
    simp only [set]
    split
    · split
      · next hlt hb => rw [get_cons, if_neg (by omega), hb, get_of_lt hm.2.2 (by omega)]
      · simp [get_cons]
    · split
      · split
        · next hb => rw [hb, get_of_lt hm.2.2 (by omega)]
        · simp [get_cons]
      · next hne => rw [get_cons, if_neg (by omega), ih hm.2.2]

/-- A write keeps the canonical form above any bound it respects. -/
theorem wfFrom_set {lo : Nat} {m : Memory} (hm : wfFrom lo m = true) {a : Nat} (ha : lo ≤ a) (b : Byte) :
    wfFrom lo (m.set a b) = true := by
  induction m generalizing lo with
  | nil => by_cases hb : b = unlisted <;> simp [set, hb, wfFrom, ha]
  | cons c m ih =>
    obtain ⟨k, v⟩ := c
    have hm' := wfFrom_cons.1 hm
    simp only [set]
    split
    · split
      · exact hm
      · next hlt hb => exact wfFrom_cons.2 ⟨ha, hb, wfFrom_cons.2 ⟨by omega, hm'.2⟩⟩
    · split
      · split
        · exact wfFrom_mono hm'.2.2 (by omega)
        · next heq hb => exact wfFrom_cons.2 ⟨ha, hb, by rw [heq]; exact hm'.2.2⟩
      · exact wfFrom_cons.2 ⟨hm'.1, hm'.2.1, ih hm'.2.2 (by omega)⟩

theorem wf_set {m : Memory} (hm : m.wf = true) (a : Nat) (b : Byte) : (m.set a b).wf = true :=
  wfFrom_set hm (Nat.zero_le a) b

theorem wf_nil : Memory.wf [] = true := rfl

@[simp] theorem below_nil (n : Nat) : Memory.below n [] = true := rfl

theorem below_cons {n k : Nat} {b : Byte} {m : Memory} :
    below n ((k, b) :: m) = true ↔ k < n ∧ below n m = true := by simp [below]

/-- A write to an address that exists keeps every listed address existing. -/
theorem below_set {n : Nat} {m : Memory} (hm : m.below n = true) {a : Nat} (ha : a < n) (b : Byte) :
    (m.set a b).below n = true := by
  induction m with
  | nil => by_cases hb : b = unlisted <;> simp [set, hb, below, ha]
  | cons c m ih =>
    obtain ⟨k, v⟩ := c
    have hm' := below_cons.1 hm
    simp only [set]
    split
    · split
      · exact hm
      · exact below_cons.2 ⟨ha, hm⟩
    · split
      · split
        · exact hm'.2
        · exact below_cons.2 ⟨ha, hm'.2⟩
      · exact below_cons.2 ⟨hm'.1, ih hm'.2⟩

/-! ## Runs of bytes -/

@[simp] theorem getBytes_zero (m : Memory) (a : Nat) : m.getBytes a 0 = [] := rfl

@[simp] theorem getBytes_succ (m : Memory) (a n : Nat) :
    m.getBytes a (n + 1) = m.get a :: m.getBytes (a + 1) n := rfl

@[simp] theorem length_getBytes (m : Memory) (a n : Nat) : (m.getBytes a n).length = n := by
  induction n generalizing a with
  | zero => rfl
  | succ n ih => simp [ih]

theorem getElem?_getBytes (m : Memory) (a n i : Nat) :
    (m.getBytes a n)[i]? = if i < n then some (m.get (a + i)) else none := by
  induction n generalizing a i with
  | zero => simp
  | succ n ih =>
    cases i with
    | zero => simp
    | succ i => simp [ih, Nat.add_assoc, Nat.add_comm 1 i]

theorem getBytes_add (m : Memory) (a n k : Nat) :
    m.getBytes a (n + k) = m.getBytes a n ++ m.getBytes (a + n) k := by
  induction n generalizing a with
  | zero => simp
  | succ n ih => simp [Nat.succ_add, ih, ← Nat.add_assoc]

/-- Two memories that agree on a run of bytes read alike there. -/
theorem getBytes_congr {m m' : Memory} {a n : Nat} (h : ∀ x, a ≤ x → x < a + n → m.get x = m'.get x) :
    m.getBytes a n = m'.getBytes a n := by
  induction n generalizing a with
  | zero => rfl
  | succ n ih =>
    rw [getBytes_succ, getBytes_succ, h a (by omega) (by omega), ih fun x h1 h2 => h x (by omega) (by omega)]

theorem wf_setBytes {m : Memory} (hm : m.wf = true) (a : Nat) (bs : List Byte) : (m.setBytes a bs).wf = true := by
  induction bs generalizing m a with
  | nil => exact hm
  | cons b bs ih => exact ih (wf_set hm a b) (a + 1)

theorem below_setBytes {n : Nat} {m : Memory} (hm : m.below n = true) {a : Nat} {bs : List Byte}
    (h : a + bs.length ≤ n) : (m.setBytes a bs).below n = true := by
  induction bs generalizing m a with
  | nil => exact hm
  | cons b bs ih =>
    simp only [List.length_cons] at h
    exact ih (below_set hm (by omega) b) (by omega)

/-- A run of bytes leaves every address outside it alone. -/
theorem get_setBytes_of_outside (m : Memory) {a x : Nat} (bs : List Byte) (h : x < a ∨ a + bs.length ≤ x) :
    (m.setBytes a bs).get x = m.get x := by
  induction bs generalizing m a with
  | nil => rfl
  | cons b bs ih =>
    simp only [List.length_cons] at h
    rw [setBytes, ih _ (by omega), get_set_ne _ _ (by omega)]

/-- Reading back a run of bytes just written gives them. -/
theorem getBytes_setBytes_self {m : Memory} (hm : m.wf = true) (a : Nat) (bs : List Byte) :
    (m.setBytes a bs).getBytes a bs.length = bs := by
  induction bs generalizing m a with
  | nil => rfl
  | cons b bs ih =>
    simp only [setBytes, List.length_cons, getBytes_succ]
    rw [ih (wf_set hm a b), get_setBytes_of_outside _ _ (by omega), get_set_self hm]

theorem length_valueBytes (o : ByteOrder) (n v : Nat) : (valueBytes o n v).length = n := by
  cases o <;> simp [valueBytes]

theorem wf_setWord {m : Memory} (hm : m.wf = true) (a : Nat) (v : Word) : (m.setWord a v).wf = true :=
  wf_setBytes hm a _

theorem below_setWord {n : Nat} {m : Memory} (hm : m.below n = true) {a : Nat} (h : a + 4 ≤ n) (v : Word) :
    (m.setWord a v).below n = true :=
  below_setBytes hm (by rw [length_valueBytes]; exact h)

theorem get_setWord_of_outside (m : Memory) {a x : Nat} (v : Word) (h : x < a ∨ a + 4 ≤ x) :
    (m.setWord a v).get x = m.get x :=
  get_setBytes_of_outside m _ (by rw [length_valueBytes]; exact h)

theorem wf_setWords {m : Memory} (hm : m.wf = true) (a : Nat) (vs : List Word) : (m.setWords a vs).wf = true := by
  induction vs generalizing m a with
  | nil => exact hm
  | cons v vs ih => exact ih (wf_setWord hm a v) (a + 4)

theorem below_setWords {n : Nat} {m : Memory} (hm : m.below n = true) {a : Nat} {vs : List Word}
    (h : a + 4 * vs.length ≤ n) : (m.setWords a vs).below n = true := by
  induction vs generalizing m a with
  | nil => exact hm
  | cons v vs ih =>
    simp only [List.length_cons] at h
    exact ih (below_setWord hm (by omega) v) (by omega)

/-- A run of words leaves every address outside it alone. -/
theorem get_setWords_of_outside (m : Memory) {a x : Nat} (vs : List Word) (h : x < a ∨ a + 4 * vs.length ≤ x) :
    (m.setWords a vs).get x = m.get x := by
  induction vs generalizing m a with
  | nil => rfl
  | cons v vs ih =>
    simp only [List.length_cons] at h
    rw [setWords, ih _ (by omega), get_setWord_of_outside _ _ (by omega)]

theorem wf_havoc {m : Memory} (hm : m.wf = true) (c a n : Nat) : (m.havoc c a n).wf = true := by
  induction n with
  | zero => exact hm
  | succ n ih => exact wf_set ih _ _

theorem below_havoc {k : Nat} {m : Memory} (hm : m.below k = true) (c : Nat) {a n : Nat} (h : n = 0 ∨ a + n ≤ k) :
    (m.havoc c a n).below k = true := by
  induction n with
  | zero => exact hm
  | succ n ih => exact below_set (ih (by omega)) (by omega) _

/-- Bytes outside the range left at any value are unchanged. -/
theorem get_havoc_of_outside (m : Memory) (c : Nat) {a n x : Nat} (h : x < a ∨ a + n ≤ x) :
    (m.havoc c a n).get x = m.get x := by
  induction n with
  | zero => rfl
  | succ n ih => rw [havoc, get_set_ne _ _ (by omega), ih (by omega)]

/-- A byte inside the range is the free value of this event at its address. -/
theorem get_havoc_of_inside {m : Memory} (hm : m.wf = true) (c : Nat) {a n x : Nat} (h1 : a ≤ x) (h2 : x < a + n) :
    (m.havoc c a n).get x = Config.anyByte c x := by
  induction n with
  | zero => omega
  | succ n ih =>
    rw [havoc]
    by_cases hx : x = a + n
    · rw [hx, get_set_self (wf_havoc hm c a n)]
    · rw [get_set_ne _ _ hx, ih (by omega)]

theorem length_codeBytes (c : Code) : c.bytes.length = 16 := by
  simp [Code.bytes, length_valueBytes]

theorem wf_setBook {m : Memory} (hm : m.wf = true) (base : Nat) (book : List (Nat × Code)) (s n : Nat) :
    (m.setBook base book s n).wf = true := by
  induction n generalizing m s with
  | zero => exact hm
  | succ n ih => exact ih (wf_setBytes hm _ _) (s + 1)

theorem below_setBook {k : Nat} {m : Memory} (hm : m.below k = true) {base : Nat} (book : List (Nat × Code)) {s n : Nat}
    (h : base + 16 * (s + n) ≤ k) : (m.setBook base book s n).below k = true := by
  induction n generalizing m s with
  | zero => exact hm
  | succ n ih =>
    exact ih (below_setBytes hm (by rw [length_codeBytes]; omega)) (by omega)

/-- The codebook export leaves every address outside its entries alone. -/
theorem get_setBook_of_outside (m : Memory) {base x : Nat} (book : List (Nat × Code)) {s n : Nat}
    (h : x < base + 16 * s ∨ base + 16 * (s + n) ≤ x) : (m.setBook base book s n).get x = m.get x := by
  induction n generalizing m s with
  | zero => rfl
  | succ n ih =>
    rw [setBook, ih _ (by omega), get_setBytes_of_outside _ _ (by rw [length_codeBytes]; omega)]

end Sys2Proof.Machine.Memory
end

