-- ==== Sys2Proof/Laws/State.lean ====
section
/-! SUPPORT. One lemma for each field of State under each named update, so that no proof unfolds a record update. -/

namespace Sys2Proof.Machine.State

@[simp] theorem complete_params (s : State) : (s.complete).params = s.params := rfl
@[simp] theorem complete_mem (s : State) : (s.complete).mem = s.mem := rfl
@[simp] theorem complete_ctrl (s : State) : (s.complete).ctrl = s.ctrl := rfl
@[simp] theorem complete_status (s : State) : (s.complete).status = s.status.complete := rfl
@[simp] theorem complete_errPos (s : State) : (s.complete).errPos = s.errPos := rfl
@[simp] theorem complete_arg0 (s : State) : (s.complete).arg0 = s.arg0 := rfl
@[simp] theorem complete_arg1 (s : State) : (s.complete).arg1 = s.arg1 := rfl
@[simp] theorem complete_result (s : State) : (s.complete).result = s.result := rfl
@[simp] theorem complete_resultHi (s : State) : (s.complete).resultHi = s.resultHi := rfl
@[simp] theorem complete_br (s : State) : (s.complete).br = s.br := rfl
@[simp] theorem complete_bw (s : State) : (s.complete).bw = s.bw := rfl
@[simp] theorem complete_mf (s : State) : (s.complete).mf = s.mf := rfl
@[simp] theorem complete_ex (s : State) : (s.complete).ex = s.ex := rfl
@[simp] theorem complete_hf (s : State) : (s.complete).hf = s.hf := rfl
@[simp] theorem complete_anyCount (s : State) : (s.complete).anyCount = s.anyCount := rfl
@[simp] theorem complete_host (s : State) : (s.complete).host = s.host := rfl
@[simp] theorem complete_hostData (s : State) : (s.complete).hostData = s.hostData := rfl

@[simp] theorem raise_params (s : State) (e : Err) : (s.raise e).params = s.params := rfl
@[simp] theorem raise_mem (s : State) (e : Err) : (s.raise e).mem = s.mem := rfl
@[simp] theorem raise_ctrl (s : State) (e : Err) : (s.raise e).ctrl = s.ctrl := rfl
@[simp] theorem raise_status (s : State) (e : Err) : (s.raise e).status = s.status.raise e.1 := rfl
@[simp] theorem raise_errPos (s : State) (e : Err) : (s.raise e).errPos = e.2 := rfl
@[simp] theorem raise_arg0 (s : State) (e : Err) : (s.raise e).arg0 = s.arg0 := rfl
@[simp] theorem raise_arg1 (s : State) (e : Err) : (s.raise e).arg1 = s.arg1 := rfl
@[simp] theorem raise_result (s : State) (e : Err) : (s.raise e).result = s.result := rfl
@[simp] theorem raise_resultHi (s : State) (e : Err) : (s.raise e).resultHi = s.resultHi := rfl
@[simp] theorem raise_br (s : State) (e : Err) : (s.raise e).br = s.br := rfl
@[simp] theorem raise_bw (s : State) (e : Err) : (s.raise e).bw = s.bw := rfl
@[simp] theorem raise_mf (s : State) (e : Err) : (s.raise e).mf = s.mf := rfl
@[simp] theorem raise_ex (s : State) (e : Err) : (s.raise e).ex = s.ex := rfl
@[simp] theorem raise_hf (s : State) (e : Err) : (s.raise e).hf = s.hf := rfl
@[simp] theorem raise_anyCount (s : State) (e : Err) : (s.raise e).anyCount = s.anyCount := rfl
@[simp] theorem raise_host (s : State) (e : Err) : (s.raise e).host = s.host := rfl
@[simp] theorem raise_hostData (s : State) (e : Err) : (s.raise e).hostData = s.hostData := rfl

@[simp] theorem writeStatus_params (s : State) (v : Word) : (s.writeStatus v).params = s.params := rfl
@[simp] theorem writeStatus_mem (s : State) (v : Word) : (s.writeStatus v).mem = s.mem := rfl
@[simp] theorem writeStatus_ctrl (s : State) (v : Word) : (s.writeStatus v).ctrl = s.ctrl := rfl
@[simp] theorem writeStatus_status (s : State) (v : Word) : (s.writeStatus v).status = s.status.writeOneToClear v := rfl
@[simp] theorem writeStatus_errPos (s : State) (v : Word) : (s.writeStatus v).errPos = if v.getLsbD 2 then 0 else s.errPos := rfl
@[simp] theorem writeStatus_arg0 (s : State) (v : Word) : (s.writeStatus v).arg0 = s.arg0 := rfl
@[simp] theorem writeStatus_arg1 (s : State) (v : Word) : (s.writeStatus v).arg1 = s.arg1 := rfl
@[simp] theorem writeStatus_result (s : State) (v : Word) : (s.writeStatus v).result = s.result := rfl
@[simp] theorem writeStatus_resultHi (s : State) (v : Word) : (s.writeStatus v).resultHi = s.resultHi := rfl
@[simp] theorem writeStatus_br (s : State) (v : Word) : (s.writeStatus v).br = s.br := rfl
@[simp] theorem writeStatus_bw (s : State) (v : Word) : (s.writeStatus v).bw = s.bw := rfl
@[simp] theorem writeStatus_mf (s : State) (v : Word) : (s.writeStatus v).mf = s.mf := rfl
@[simp] theorem writeStatus_ex (s : State) (v : Word) : (s.writeStatus v).ex = s.ex := rfl
@[simp] theorem writeStatus_hf (s : State) (v : Word) : (s.writeStatus v).hf = s.hf := rfl
@[simp] theorem writeStatus_anyCount (s : State) (v : Word) : (s.writeStatus v).anyCount = s.anyCount := rfl
@[simp] theorem writeStatus_host (s : State) (v : Word) : (s.writeStatus v).host = s.host := rfl
@[simp] theorem writeStatus_hostData (s : State) (v : Word) : (s.writeStatus v).hostData = s.hostData := rfl

@[simp] theorem accept_params (s : State) : (s.accept).params = s.params := rfl
@[simp] theorem accept_mem (s : State) : (s.accept).mem = s.mem := rfl
@[simp] theorem accept_ctrl (s : State) : (s.accept).ctrl = s.ctrl := rfl
@[simp] theorem accept_status (s : State) : (s.accept).status = s.status.accept := rfl
@[simp] theorem accept_errPos (s : State) : (s.accept).errPos = s.errPos := rfl
@[simp] theorem accept_arg0 (s : State) : (s.accept).arg0 = s.arg0 := rfl
@[simp] theorem accept_arg1 (s : State) : (s.accept).arg1 = s.arg1 := rfl
@[simp] theorem accept_result (s : State) : (s.accept).result = s.result := rfl
@[simp] theorem accept_resultHi (s : State) : (s.accept).resultHi = s.resultHi := rfl
@[simp] theorem accept_br (s : State) : (s.accept).br = s.br := rfl
@[simp] theorem accept_bw (s : State) : (s.accept).bw = s.bw := rfl
@[simp] theorem accept_mf (s : State) : (s.accept).mf = s.mf := rfl
@[simp] theorem accept_ex (s : State) : (s.accept).ex = s.ex := rfl
@[simp] theorem accept_hf (s : State) : (s.accept).hf = s.hf := rfl
@[simp] theorem accept_anyCount (s : State) : (s.accept).anyCount = s.anyCount := rfl
@[simp] theorem accept_host (s : State) : (s.accept).host = s.host := rfl
@[simp] theorem accept_hostData (s : State) : (s.accept).hostData = s.hostData := rfl

@[simp] theorem drop_params (s : State) : (s.drop).params = s.params := rfl
@[simp] theorem drop_mem (s : State) : (s.drop).mem = s.mem := rfl
@[simp] theorem drop_ctrl (s : State) : (s.drop).ctrl = s.ctrl := rfl
@[simp] theorem drop_status (s : State) : (s.drop).status = s.status.dropped := rfl
@[simp] theorem drop_errPos (s : State) : (s.drop).errPos = s.errPos := rfl
@[simp] theorem drop_arg0 (s : State) : (s.drop).arg0 = s.arg0 := rfl
@[simp] theorem drop_arg1 (s : State) : (s.drop).arg1 = s.arg1 := rfl
@[simp] theorem drop_result (s : State) : (s.drop).result = s.result := rfl
@[simp] theorem drop_resultHi (s : State) : (s.drop).resultHi = s.resultHi := rfl
@[simp] theorem drop_br (s : State) : (s.drop).br = s.br := rfl
@[simp] theorem drop_bw (s : State) : (s.drop).bw = s.bw := rfl
@[simp] theorem drop_mf (s : State) : (s.drop).mf = s.mf := rfl
@[simp] theorem drop_ex (s : State) : (s.drop).ex = s.ex := rfl
@[simp] theorem drop_hf (s : State) : (s.drop).hf = s.hf := rfl
@[simp] theorem drop_anyCount (s : State) : (s.drop).anyCount = s.anyCount := rfl
@[simp] theorem drop_host (s : State) : (s.drop).host = s.host := rfl
@[simp] theorem drop_hostData (s : State) : (s.drop).hostData = s.hostData := rfl

@[simp] theorem anyResult_params (s : State) : (s.anyResult).params = s.params := rfl
@[simp] theorem anyResult_mem (s : State) : (s.anyResult).mem = s.mem := rfl
@[simp] theorem anyResult_ctrl (s : State) : (s.anyResult).ctrl = s.ctrl := rfl
@[simp] theorem anyResult_status (s : State) : (s.anyResult).status = s.status := rfl
@[simp] theorem anyResult_errPos (s : State) : (s.anyResult).errPos = s.errPos := rfl
@[simp] theorem anyResult_arg0 (s : State) : (s.anyResult).arg0 = s.arg0 := rfl
@[simp] theorem anyResult_arg1 (s : State) : (s.anyResult).arg1 = s.arg1 := rfl
@[simp] theorem anyResult_result (s : State) : (s.anyResult).result = Config.anyWord s.anyCount 0x020 := rfl
@[simp] theorem anyResult_resultHi (s : State) : (s.anyResult).resultHi = s.resultHi := rfl
@[simp] theorem anyResult_br (s : State) : (s.anyResult).br = s.br := rfl
@[simp] theorem anyResult_bw (s : State) : (s.anyResult).bw = s.bw := rfl
@[simp] theorem anyResult_mf (s : State) : (s.anyResult).mf = s.mf := rfl
@[simp] theorem anyResult_ex (s : State) : (s.anyResult).ex = s.ex := rfl
@[simp] theorem anyResult_hf (s : State) : (s.anyResult).hf = s.hf := rfl
@[simp] theorem anyResult_anyCount (s : State) : (s.anyResult).anyCount = s.anyCount := rfl
@[simp] theorem anyResult_host (s : State) : (s.anyResult).host = s.host := rfl
@[simp] theorem anyResult_hostData (s : State) : (s.anyResult).hostData = s.hostData := rfl

@[simp] theorem anyReader_params (s : State) : (s.anyReader).params = s.params := rfl
@[simp] theorem anyReader_mem (s : State) : (s.anyReader).mem = s.mem := rfl
@[simp] theorem anyReader_ctrl (s : State) : (s.anyReader).ctrl = s.ctrl := rfl
@[simp] theorem anyReader_status (s : State) : (s.anyReader).status = s.status := rfl
@[simp] theorem anyReader_errPos (s : State) : (s.anyReader).errPos = s.errPos := rfl
@[simp] theorem anyReader_arg0 (s : State) : (s.anyReader).arg0 = s.arg0 := rfl
@[simp] theorem anyReader_arg1 (s : State) : (s.anyReader).arg1 = s.arg1 := rfl
@[simp] theorem anyReader_result (s : State) : (s.anyReader).result = s.result := rfl
@[simp] theorem anyReader_resultHi (s : State) : (s.anyReader).resultHi = s.resultHi := rfl
@[simp] theorem anyReader_br (s : State) : (s.anyReader).br = { s.br with pos := Config.anyWord s.anyCount 0x04C, bits := (Config.anyWord s.anyCount 0x050).setWidth 5, buf := (Config.anyWord s.anyCount 0x054).setWidth 16 } := rfl
@[simp] theorem anyReader_bw (s : State) : (s.anyReader).bw = s.bw := rfl
@[simp] theorem anyReader_mf (s : State) : (s.anyReader).mf = s.mf := rfl
@[simp] theorem anyReader_ex (s : State) : (s.anyReader).ex = s.ex := rfl
@[simp] theorem anyReader_hf (s : State) : (s.anyReader).hf = s.hf := rfl
@[simp] theorem anyReader_anyCount (s : State) : (s.anyReader).anyCount = s.anyCount := rfl
@[simp] theorem anyReader_host (s : State) : (s.anyReader).host = s.host := rfl
@[simp] theorem anyReader_hostData (s : State) : (s.anyReader).hostData = s.hostData := rfl

@[simp] theorem anyWriter_params (s : State) : (s.anyWriter).params = s.params := rfl
@[simp] theorem anyWriter_mem (s : State) : (s.anyWriter).mem = s.mem := rfl
@[simp] theorem anyWriter_ctrl (s : State) : (s.anyWriter).ctrl = s.ctrl := rfl
@[simp] theorem anyWriter_status (s : State) : (s.anyWriter).status = s.status := rfl
@[simp] theorem anyWriter_errPos (s : State) : (s.anyWriter).errPos = s.errPos := rfl
@[simp] theorem anyWriter_arg0 (s : State) : (s.anyWriter).arg0 = s.arg0 := rfl
@[simp] theorem anyWriter_arg1 (s : State) : (s.anyWriter).arg1 = s.arg1 := rfl
@[simp] theorem anyWriter_result (s : State) : (s.anyWriter).result = s.result := rfl
@[simp] theorem anyWriter_resultHi (s : State) : (s.anyWriter).resultHi = s.resultHi := rfl
@[simp] theorem anyWriter_br (s : State) : (s.anyWriter).br = s.br := rfl
@[simp] theorem anyWriter_bw (s : State) : (s.anyWriter).bw = { s.bw with pos := Config.anyWord s.anyCount 0x06C, bits := (Config.anyWord s.anyCount 0x070).setWidth 5, buf := (Config.anyWord s.anyCount 0x074).setWidth 16 } := rfl
@[simp] theorem anyWriter_mf (s : State) : (s.anyWriter).mf = s.mf := rfl
@[simp] theorem anyWriter_ex (s : State) : (s.anyWriter).ex = s.ex := rfl
@[simp] theorem anyWriter_hf (s : State) : (s.anyWriter).hf = s.hf := rfl
@[simp] theorem anyWriter_anyCount (s : State) : (s.anyWriter).anyCount = s.anyCount := rfl
@[simp] theorem anyWriter_host (s : State) : (s.anyWriter).host = s.host := rfl
@[simp] theorem anyWriter_hostData (s : State) : (s.anyWriter).hostData = s.hostData := rfl

@[simp] theorem anyParse_params (s : State) : (s.anyParse).params = s.params := rfl
@[simp] theorem anyParse_mem (s : State) : (s.anyParse).mem = s.mem := rfl
@[simp] theorem anyParse_ctrl (s : State) : (s.anyParse).ctrl = s.ctrl := rfl
@[simp] theorem anyParse_status (s : State) : (s.anyParse).status = s.status := rfl
@[simp] theorem anyParse_errPos (s : State) : (s.anyParse).errPos = s.errPos := rfl
@[simp] theorem anyParse_arg0 (s : State) : (s.anyParse).arg0 = s.arg0 := rfl
@[simp] theorem anyParse_arg1 (s : State) : (s.anyParse).arg1 = s.arg1 := rfl
@[simp] theorem anyParse_result (s : State) : (s.anyParse).result = s.result := rfl
@[simp] theorem anyParse_resultHi (s : State) : (s.anyParse).resultHi = s.resultHi := rfl
@[simp] theorem anyParse_br (s : State) : (s.anyParse).br = s.br := rfl
@[simp] theorem anyParse_bw (s : State) : (s.anyParse).bw = s.bw := rfl
@[simp] theorem anyParse_mf (s : State) : (s.anyParse).mf = { s.mf with tokCount := Config.anyWord s.anyCount 0x09C, costLo := Config.anyWord s.anyCount 0x0A0, costHi := Config.anyWord s.anyCount 0x0A4 } := rfl
@[simp] theorem anyParse_ex (s : State) : (s.anyParse).ex = s.ex := rfl
@[simp] theorem anyParse_hf (s : State) : (s.anyParse).hf = s.hf := rfl
@[simp] theorem anyParse_anyCount (s : State) : (s.anyParse).anyCount = s.anyCount := rfl
@[simp] theorem anyParse_host (s : State) : (s.anyParse).host = s.host := rfl
@[simp] theorem anyParse_hostData (s : State) : (s.anyParse).hostData = s.hostData := rfl

@[simp] theorem anyExPos_params (s : State) : (s.anyExPos).params = s.params := rfl
@[simp] theorem anyExPos_mem (s : State) : (s.anyExPos).mem = s.mem := rfl
@[simp] theorem anyExPos_ctrl (s : State) : (s.anyExPos).ctrl = s.ctrl := rfl
@[simp] theorem anyExPos_status (s : State) : (s.anyExPos).status = s.status := rfl
@[simp] theorem anyExPos_errPos (s : State) : (s.anyExPos).errPos = s.errPos := rfl
@[simp] theorem anyExPos_arg0 (s : State) : (s.anyExPos).arg0 = s.arg0 := rfl
@[simp] theorem anyExPos_arg1 (s : State) : (s.anyExPos).arg1 = s.arg1 := rfl
@[simp] theorem anyExPos_result (s : State) : (s.anyExPos).result = s.result := rfl
@[simp] theorem anyExPos_resultHi (s : State) : (s.anyExPos).resultHi = s.resultHi := rfl
@[simp] theorem anyExPos_br (s : State) : (s.anyExPos).br = s.br := rfl
@[simp] theorem anyExPos_bw (s : State) : (s.anyExPos).bw = s.bw := rfl
@[simp] theorem anyExPos_mf (s : State) : (s.anyExPos).mf = s.mf := rfl
@[simp] theorem anyExPos_ex (s : State) : (s.anyExPos).ex = { s.ex with pos := Config.anyWord s.anyCount 0x10C } := rfl
@[simp] theorem anyExPos_hf (s : State) : (s.anyExPos).hf = s.hf := rfl
@[simp] theorem anyExPos_anyCount (s : State) : (s.anyExPos).anyCount = s.anyCount := rfl
@[simp] theorem anyExPos_host (s : State) : (s.anyExPos).host = s.host := rfl
@[simp] theorem anyExPos_hostData (s : State) : (s.anyExPos).hostData = s.hostData := rfl

@[simp] theorem anyDstPos_params (s : State) : (s.anyDstPos).params = s.params := rfl
@[simp] theorem anyDstPos_mem (s : State) : (s.anyDstPos).mem = s.mem := rfl
@[simp] theorem anyDstPos_ctrl (s : State) : (s.anyDstPos).ctrl = s.ctrl := rfl
@[simp] theorem anyDstPos_status (s : State) : (s.anyDstPos).status = s.status := rfl
@[simp] theorem anyDstPos_errPos (s : State) : (s.anyDstPos).errPos = s.errPos := rfl
@[simp] theorem anyDstPos_arg0 (s : State) : (s.anyDstPos).arg0 = s.arg0 := rfl
@[simp] theorem anyDstPos_arg1 (s : State) : (s.anyDstPos).arg1 = s.arg1 := rfl
@[simp] theorem anyDstPos_result (s : State) : (s.anyDstPos).result = s.result := rfl
@[simp] theorem anyDstPos_resultHi (s : State) : (s.anyDstPos).resultHi = s.resultHi := rfl
@[simp] theorem anyDstPos_br (s : State) : (s.anyDstPos).br = s.br := rfl
@[simp] theorem anyDstPos_bw (s : State) : (s.anyDstPos).bw = s.bw := rfl
@[simp] theorem anyDstPos_mf (s : State) : (s.anyDstPos).mf = s.mf := rfl
@[simp] theorem anyDstPos_ex (s : State) : (s.anyDstPos).ex = s.ex := rfl
@[simp] theorem anyDstPos_hf (s : State) : (s.anyDstPos).hf = { s.hf with dstPos := Config.anyWord s.anyCount 0x16C } := rfl
@[simp] theorem anyDstPos_anyCount (s : State) : (s.anyDstPos).anyCount = s.anyCount := rfl
@[simp] theorem anyDstPos_host (s : State) : (s.anyDstPos).host = s.host := rfl
@[simp] theorem anyDstPos_hostData (s : State) : (s.anyDstPos).hostData = s.hostData := rfl

@[simp] theorem anyBytes_params (s : State) (a n : Nat) : (s.anyBytes a n).params = s.params := rfl
@[simp] theorem anyBytes_mem (s : State) (a n : Nat) : (s.anyBytes a n).mem = s.mem.havoc s.anyCount a n := rfl
@[simp] theorem anyBytes_ctrl (s : State) (a n : Nat) : (s.anyBytes a n).ctrl = s.ctrl := rfl
@[simp] theorem anyBytes_status (s : State) (a n : Nat) : (s.anyBytes a n).status = s.status := rfl
@[simp] theorem anyBytes_errPos (s : State) (a n : Nat) : (s.anyBytes a n).errPos = s.errPos := rfl
@[simp] theorem anyBytes_arg0 (s : State) (a n : Nat) : (s.anyBytes a n).arg0 = s.arg0 := rfl
@[simp] theorem anyBytes_arg1 (s : State) (a n : Nat) : (s.anyBytes a n).arg1 = s.arg1 := rfl
@[simp] theorem anyBytes_result (s : State) (a n : Nat) : (s.anyBytes a n).result = s.result := rfl
@[simp] theorem anyBytes_resultHi (s : State) (a n : Nat) : (s.anyBytes a n).resultHi = s.resultHi := rfl
@[simp] theorem anyBytes_br (s : State) (a n : Nat) : (s.anyBytes a n).br = s.br := rfl
@[simp] theorem anyBytes_bw (s : State) (a n : Nat) : (s.anyBytes a n).bw = s.bw := rfl
@[simp] theorem anyBytes_mf (s : State) (a n : Nat) : (s.anyBytes a n).mf = s.mf := rfl
@[simp] theorem anyBytes_ex (s : State) (a n : Nat) : (s.anyBytes a n).ex = s.ex := rfl
@[simp] theorem anyBytes_hf (s : State) (a n : Nat) : (s.anyBytes a n).hf = s.hf := rfl
@[simp] theorem anyBytes_anyCount (s : State) (a n : Nat) : (s.anyBytes a n).anyCount = s.anyCount := rfl
@[simp] theorem anyBytes_host (s : State) (a n : Nat) : (s.anyBytes a n).host = s.host := rfl
@[simp] theorem anyBytes_hostData (s : State) (a n : Nat) : (s.anyBytes a n).hostData = s.hostData := rfl

@[simp] theorem anyWindow_params (s : State) (w : Window) : (s.anyWindow w).params = s.params := rfl
@[simp] theorem anyWindow_mem (s : State) (w : Window) : (s.anyWindow w).mem = s.mem.havoc s.anyCount w.base w.len := rfl
@[simp] theorem anyWindow_ctrl (s : State) (w : Window) : (s.anyWindow w).ctrl = s.ctrl := rfl
@[simp] theorem anyWindow_status (s : State) (w : Window) : (s.anyWindow w).status = s.status := rfl
@[simp] theorem anyWindow_errPos (s : State) (w : Window) : (s.anyWindow w).errPos = s.errPos := rfl
@[simp] theorem anyWindow_arg0 (s : State) (w : Window) : (s.anyWindow w).arg0 = s.arg0 := rfl
@[simp] theorem anyWindow_arg1 (s : State) (w : Window) : (s.anyWindow w).arg1 = s.arg1 := rfl
@[simp] theorem anyWindow_result (s : State) (w : Window) : (s.anyWindow w).result = s.result := rfl
@[simp] theorem anyWindow_resultHi (s : State) (w : Window) : (s.anyWindow w).resultHi = s.resultHi := rfl
@[simp] theorem anyWindow_br (s : State) (w : Window) : (s.anyWindow w).br = s.br := rfl
@[simp] theorem anyWindow_bw (s : State) (w : Window) : (s.anyWindow w).bw = s.bw := rfl
@[simp] theorem anyWindow_mf (s : State) (w : Window) : (s.anyWindow w).mf = s.mf := rfl
@[simp] theorem anyWindow_ex (s : State) (w : Window) : (s.anyWindow w).ex = s.ex := rfl
@[simp] theorem anyWindow_hf (s : State) (w : Window) : (s.anyWindow w).hf = s.hf := rfl
@[simp] theorem anyWindow_anyCount (s : State) (w : Window) : (s.anyWindow w).anyCount = s.anyCount := rfl
@[simp] theorem anyWindow_host (s : State) (w : Window) : (s.anyWindow w).host = s.host := rfl
@[simp] theorem anyWindow_hostData (s : State) (w : Window) : (s.anyWindow w).hostData = s.hostData := rfl

@[simp] theorem nextAny_params (s : State) : (s.nextAny).params = s.params := rfl
@[simp] theorem nextAny_mem (s : State) : (s.nextAny).mem = s.mem := rfl
@[simp] theorem nextAny_ctrl (s : State) : (s.nextAny).ctrl = s.ctrl := rfl
@[simp] theorem nextAny_status (s : State) : (s.nextAny).status = s.status := rfl
@[simp] theorem nextAny_errPos (s : State) : (s.nextAny).errPos = s.errPos := rfl
@[simp] theorem nextAny_arg0 (s : State) : (s.nextAny).arg0 = s.arg0 := rfl
@[simp] theorem nextAny_arg1 (s : State) : (s.nextAny).arg1 = s.arg1 := rfl
@[simp] theorem nextAny_result (s : State) : (s.nextAny).result = s.result := rfl
@[simp] theorem nextAny_resultHi (s : State) : (s.nextAny).resultHi = s.resultHi := rfl
@[simp] theorem nextAny_br (s : State) : (s.nextAny).br = s.br := rfl
@[simp] theorem nextAny_bw (s : State) : (s.nextAny).bw = s.bw := rfl
@[simp] theorem nextAny_mf (s : State) : (s.nextAny).mf = s.mf := rfl
@[simp] theorem nextAny_ex (s : State) : (s.nextAny).ex = s.ex := rfl
@[simp] theorem nextAny_hf (s : State) : (s.nextAny).hf = s.hf := rfl
@[simp] theorem nextAny_anyCount (s : State) : (s.nextAny).anyCount = s.anyCount + 1 := rfl
@[simp] theorem nextAny_host (s : State) : (s.nextAny).host = s.host := rfl
@[simp] theorem nextAny_hostData (s : State) : (s.nextAny).hostData = s.hostData := rfl

@[simp] theorem popHost_params (s : State) : (s.popHost).params = s.params := rfl
@[simp] theorem popHost_mem (s : State) : (s.popHost).mem = s.mem := rfl
@[simp] theorem popHost_ctrl (s : State) : (s.popHost).ctrl = s.ctrl := rfl
@[simp] theorem popHost_status (s : State) : (s.popHost).status = s.status := rfl
@[simp] theorem popHost_errPos (s : State) : (s.popHost).errPos = s.errPos := rfl
@[simp] theorem popHost_arg0 (s : State) : (s.popHost).arg0 = s.arg0 := rfl
@[simp] theorem popHost_arg1 (s : State) : (s.popHost).arg1 = s.arg1 := rfl
@[simp] theorem popHost_result (s : State) : (s.popHost).result = s.result := rfl
@[simp] theorem popHost_resultHi (s : State) : (s.popHost).resultHi = s.resultHi := rfl
@[simp] theorem popHost_br (s : State) : (s.popHost).br = s.br := rfl
@[simp] theorem popHost_bw (s : State) : (s.popHost).bw = s.bw := rfl
@[simp] theorem popHost_mf (s : State) : (s.popHost).mf = s.mf := rfl
@[simp] theorem popHost_ex (s : State) : (s.popHost).ex = s.ex := rfl
@[simp] theorem popHost_hf (s : State) : (s.popHost).hf = s.hf := rfl
@[simp] theorem popHost_anyCount (s : State) : (s.popHost).anyCount = s.anyCount := rfl
@[simp] theorem popHost_host (s : State) : (s.popHost).host = s.host.tail := rfl
@[simp] theorem popHost_hostData (s : State) : (s.popHost).hostData = s.hostData := rfl

@[simp] theorem resetBlock_params (s : State) : s.resetBlock.params = s.params := rfl
@[simp] theorem resetBlock_mem (s : State) : s.resetBlock.mem = s.mem := rfl
@[simp] theorem resetBlock_ctrl (s : State) : s.resetBlock.ctrl = State.reset.ctrl := rfl
@[simp] theorem resetBlock_status (s : State) : s.resetBlock.status = State.reset.status := rfl
@[simp] theorem resetBlock_errPos (s : State) : s.resetBlock.errPos = State.reset.errPos := rfl
@[simp] theorem resetBlock_arg0 (s : State) : s.resetBlock.arg0 = State.reset.arg0 := rfl
@[simp] theorem resetBlock_arg1 (s : State) : s.resetBlock.arg1 = State.reset.arg1 := rfl
@[simp] theorem resetBlock_result (s : State) : s.resetBlock.result = State.reset.result := rfl
@[simp] theorem resetBlock_resultHi (s : State) : s.resetBlock.resultHi = State.reset.resultHi := rfl
@[simp] theorem resetBlock_br (s : State) : s.resetBlock.br = State.reset.br := rfl
@[simp] theorem resetBlock_bw (s : State) : s.resetBlock.bw = State.reset.bw := rfl
@[simp] theorem resetBlock_mf (s : State) : s.resetBlock.mf = State.reset.mf := rfl
@[simp] theorem resetBlock_ex (s : State) : s.resetBlock.ex = State.reset.ex := rfl
@[simp] theorem resetBlock_hf (s : State) : s.resetBlock.hf = State.reset.hf := rfl
@[simp] theorem resetBlock_anyCount (s : State) : s.resetBlock.anyCount = s.anyCount := rfl
@[simp] theorem resetBlock_host (s : State) : s.resetBlock.host = s.host := rfl
@[simp] theorem resetBlock_hostData (s : State) : s.resetBlock.hostData = s.hostData := rfl

@[simp] theorem countFrom_params (s f : State) : (s.countFrom f).params = s.params := rfl
@[simp] theorem countFrom_mem (s f : State) : (s.countFrom f).mem = s.mem := rfl
@[simp] theorem countFrom_ctrl (s f : State) : (s.countFrom f).ctrl = s.ctrl := rfl
@[simp] theorem countFrom_status (s f : State) : (s.countFrom f).status = s.status := rfl
@[simp] theorem countFrom_errPos (s f : State) : (s.countFrom f).errPos = s.errPos := rfl
@[simp] theorem countFrom_arg0 (s f : State) : (s.countFrom f).arg0 = s.arg0 := rfl
@[simp] theorem countFrom_arg1 (s f : State) : (s.countFrom f).arg1 = s.arg1 := rfl
@[simp] theorem countFrom_result (s f : State) : (s.countFrom f).result = s.result := rfl
@[simp] theorem countFrom_resultHi (s f : State) : (s.countFrom f).resultHi = s.resultHi := rfl
@[simp] theorem countFrom_br (s f : State) : (s.countFrom f).br = s.br := rfl
@[simp] theorem countFrom_bw (s f : State) : (s.countFrom f).bw = s.bw := rfl
@[simp] theorem countFrom_mf (s f : State) : (s.countFrom f).mf = s.mf := rfl
@[simp] theorem countFrom_ex (s f : State) : (s.countFrom f).ex = s.ex := rfl
@[simp] theorem countFrom_hf (s f : State) : (s.countFrom f).hf = s.hf := rfl
@[simp] theorem countFrom_anyCount (s f : State) : (s.countFrom f).anyCount = f.anyCount := rfl
@[simp] theorem countFrom_host (s f : State) : (s.countFrom f).host = s.host := rfl
@[simp] theorem countFrom_hostData (s f : State) : (s.countFrom f).hostData = s.hostData := rfl
@[simp] theorem countFrom_self (s : State) : s.countFrom s = s := rfl

end Sys2Proof.Machine.State
end

