-- ==== Sys2Proof/Laws/BitIO.lean ====
section
/-! SUPPORT. What the bit primitives of 41_bitio.md can do: the reader touches only its stream state, the writer only its stream state and bytes of its window. -/

namespace Sys2Proof.Machine

/-- Everything a reader primitive can change: the stream state, and the free-value counter. -/
def ReadsFrom (s t : State) : Prop :=
  ∃ p b f k, t = { s with br := { s.br with pos := p, bits := b, buf := f }, anyCount := k }

theorem ReadsFrom.refl (s : State) : ReadsFrom s s := ⟨_, _, _, _, rfl⟩

theorem ReadsFrom.trans {s t u : State} : ReadsFrom s t → ReadsFrom t u → ReadsFrom s u := by
  rintro ⟨_, _, _, _, rfl⟩ ⟨p, b, f, k, rfl⟩
  exact ⟨p, b, f, k, rfl⟩

/-- fetch_unit delivers a unit when it fits, and otherwise names the unchanged state. -/
theorem fetchUnit_cases (s : State) :
    (s.br.len.toNat < s.br.pos.toNat + s.br.cfg.unit.bytes ∧ fetchUnit s = .error s) ∨
    (s.br.pos.toNat + s.br.cfg.unit.bytes ≤ s.br.len.toNat ∧ ∃ t, fetchUnit s = .ok t ∧ ReadsFrom s t) := by
  by_cases h : s.br.pos.toNat + s.br.cfg.unit.bytes > s.br.len.toNat
  · exact .inl ⟨h, by simp [fetchUnit, h]⟩
  · refine .inr ⟨by omega, ?_⟩
    simp only [fetchUnit, if_neg h]
    exact ⟨_, rfl, _, _, _, _, rfl⟩

theorem takeBit_readsFrom (s : State) : ReadsFrom s (takeBit s).2 := by
  unfold takeBit
  dsimp only
  split
  · exact ⟨_, _, _, _, rfl⟩
  · exact ⟨_, _, _, _, rfl⟩

/-- With BR_BITS a count of bits of one unit, the bit is the next of the unit and no free value is drawn (R202). -/
theorem takeBit_of_sound {s : State} (h : s.br.Sound) :
    takeBit s = (s.br.nextBit, { s with br := { s.br with bits := s.br.bits - 1 } }) := by
  unfold takeBit
  exact if_neg fun hc => absurd h (by simpa [Reader.Sound] using hc.2)

/-- read_bit, with or without an error, touches only the stream state. -/
theorem readBit_readsFrom (s : State) :
    (∀ f, readBit s = .error f → ReadsFrom s f) ∧ ∀ b t, readBit s = .ok (b, t) → ReadsFrom s t := by
  unfold readBit
  split
  · obtain ⟨-, h⟩ | ⟨-, t, h, ht⟩ := fetchUnit_cases s
    · rw [h]
      exact ⟨fun f hf => by cases hf; exact .refl s, fun b t ht => by cases ht⟩
    · rw [h]
      refine ⟨fun f hf => (by cases hf), fun b u hu => ?_⟩
      have := takeBit_readsFrom t
      simp only [Except.ok.injEq] at hu
      rw [hu] at this
      exact ht.trans this
  · refine ⟨fun f hf => (by cases hf), fun b u hu => ?_⟩
    have := takeBit_readsFrom s
    simp only [Except.ok.injEq] at hu
    rwa [hu] at this

/-- Reading bits, with or without an error, touches only the stream state. -/
theorem readBits_readsFrom (n : Nat) (s : State) :
    (∀ f, readBits s n = .error f → ReadsFrom s f) ∧ ∀ bs t, readBits s n = .ok (bs, t) → ReadsFrom s t := by
  induction n generalizing s with
  | zero => exact ⟨fun f h => (by cases h), fun bs t h => by cases h; exact .refl s⟩
  | succ n ih =>
    have h1 := readBit_readsFrom s
    simp only [readBits]
    cases hb : readBit s with
    | error f => exact ⟨fun g h => by cases h; exact h1.1 f hb, fun bs t h => by cases h⟩
    | ok x =>
      obtain ⟨b, s1⟩ := x
      have hs := h1.2 b s1 hb
      have h2 := ih s1
      dsimp only
      cases hr : readBits s1 n with
      | error f => exact ⟨fun g h => by cases h; exact hs.trans (h2.1 f hr), fun bs t h => by cases h⟩
      | ok y =>
        obtain ⟨bs, s2⟩ := y
        exact ⟨fun g h => (by cases h), fun cs t h => by cases h; exact hs.trans (h2.2 bs s2 hr)⟩

theorem readBits_length (n : Nat) {s t : State} {bs : List Bool} (h : readBits s n = .ok (bs, t)) : bs.length = n := by
  induction n generalizing s t bs with
  | zero => cases h; rfl
  | succ n ih =>
    simp only [readBits] at h
    cases hb : readBit s with
    | error f => rw [hb] at h; cases h
    | ok x =>
      rw [hb] at h
      dsimp only at h
      cases hr : readBits x.2 n with
      | error f => rw [hr] at h; cases h
      | ok y => rw [hr] at h; cases h; simp [ih hr]

/-- Everything a writer primitive can change: the stream state, the free-value counter, and bytes of the window. -/
def WritesInto (s t : State) : Prop :=
  ∃ m p b f k, t = { s with mem := m, bw := { s.bw with pos := p, bits := b, buf := f }, anyCount := k } ∧
    (s.mem.wf = true → m.wf = true) ∧
    ∀ a, ¬ s.bw.window.Holds a → m.get a = s.mem.get a

theorem WritesInto.refl (s : State) : WritesInto s s := ⟨_, _, _, _, _, rfl, id, fun _ _ => rfl⟩

theorem WritesInto.trans {s t u : State} : WritesInto s t → WritesInto t u → WritesInto s u := by
  rintro ⟨m, _, _, _, _, rfl, hw, hm⟩ ⟨m', p, b, f, k, rfl, hw', hm'⟩
  exact ⟨m', p, b, f, k, rfl, fun h => hw' (hw h), fun a ha => (hm' a ha).trans (hm a ha)⟩

/-- emit_unit stores a unit that fits, and otherwise names the unchanged state. -/
theorem emitUnit_cases (s : State) :
    (s.bw.cap.toNat < s.bw.pos.toNat + s.bw.cfg.unit.bytes ∧ emitUnit s = .error s) ∨
    (s.bw.pos.toNat + s.bw.cfg.unit.bytes ≤ s.bw.cap.toNat ∧ ∃ t, emitUnit s = .ok t ∧ WritesInto s t) := by
  by_cases h : s.bw.pos.toNat + s.bw.cfg.unit.bytes > s.bw.cap.toNat
  · exact .inl ⟨h, by simp [emitUnit, h]⟩
  · refine .inr ⟨by omega, ?_⟩
    simp only [emitUnit, if_neg h]
    refine ⟨_, rfl, _, _, _, _, _, rfl, fun hw => Memory.wf_setBytes hw _ _, fun a ha => ?_⟩
    refine Memory.get_setBytes_of_outside _ _ ?_
    rw [Memory.length_valueBytes]
    simp only [Window.Holds, Writer.window] at ha
    omega

/-- Placing a bit touches only the pending unit, its count and the free-value counter. -/
theorem placeBit_cases (s : State) (b : Bool) :
    ∃ n f k, s.placeBit b = { s with bw := { s.bw with bits := n, buf := f }, anyCount := k } := by
  unfold State.placeBit
  dsimp only
  split
  · exact ⟨_, _, _, rfl⟩
  · exact ⟨_, _, _, rfl⟩

/-- With BW_BITS a count of an unfinished unit, the bit takes its place in the unit and no free value is drawn (R211). -/
theorem placeBit_of_sound {s : State} (h : s.bw.Sound) (b : Bool) :
    s.placeBit b = { s with bw := { s.bw with
      buf := setBit s.bw.buf (s.bw.cfg.place s.bw.bits.toNat) b, bits := BitVec.ofNat 5 (s.bw.bits.toNat + 1) } } := by
  unfold State.placeBit
  exact if_pos h

/-- put_bit, with or without an error, touches only the stream state and the window. -/
theorem putBit_writesInto (s : State) (b : Bool) :
    (∀ f, putBit s b = .error f → WritesInto s f) ∧ ∀ t, putBit s b = .ok t → WritesInto s t := by
  obtain ⟨n, f, k, h⟩ := placeBit_cases s b
  have h1 : WritesInto s (s.placeBit b) := h ▸ ⟨_, _, _, _, _, rfl, id, fun _ _ => rfl⟩
  unfold putBit
  dsimp only
  split
  · obtain ⟨-, h⟩ | ⟨-, t, h, ht⟩ := emitUnit_cases (s.placeBit b)
    · rw [h]
      exact ⟨fun f hf => by cases hf; exact h1, fun t ht => by cases ht⟩
    · rw [h]
      exact ⟨fun f hf => (by cases hf), fun u hu => by cases hu; exact h1.trans ht⟩
  · exact ⟨fun f hf => (by cases hf), fun u hu => by cases hu; exact h1⟩

/-- Putting bits, with or without an error, touches only the stream state and the window. -/
theorem putBits_writesInto (bs : List Bool) (s : State) :
    (∀ f, putBits s bs = .error f → WritesInto s f) ∧ ∀ t, putBits s bs = .ok t → WritesInto s t := by
  induction bs generalizing s with
  | nil => exact ⟨fun f h => (by cases h), fun t h => by cases h; exact .refl s⟩
  | cons b bs ih =>
    have h1 := putBit_writesInto s b
    simp only [putBits]
    cases hb : putBit s b with
    | error f => exact ⟨fun g h => by cases h; exact h1.1 f hb, fun t h => by cases h⟩
    | ok s1 =>
      have hs := h1.2 s1 hb
      exact ⟨fun g h => hs.trans ((ih s1).1 g h), fun t h => hs.trans ((ih s1).2 t h)⟩

/-- Bits put one list after another. -/
theorem putBits_append (s : State) (as bs : List Bool) :
    putBits s (as ++ bs) =
      match putBits s as with
      | .error f => .error f
      | .ok s1 => putBits s1 bs := by
  induction as generalizing s with
  | nil => rfl
  | cons a as ih =>
    simp only [List.cons_append, putBits]
    cases putBit s a with
    | error f => rfl
    | ok s1 => exact ih s1

end Sys2Proof.Machine
end

