-- ==== Sys2Proof/Laws/Expander.lean ====
section
/-! SUPPORT. What appending and copying can do to memory (45_expander.md R392, R393): they keep the canonical form and touch only the output addresses they name. -/

namespace Sys2Proof.Machine

theorem wf_appendBytes (e : Expander) {m : Memory} (hm : m.wf = true) (w : Nat) (bs : List Byte) :
    (appendBytes e m w bs).wf = true := by
  induction bs generalizing m w with
  | nil => exact hm
  | cons b bs ih => exact ih (Memory.wf_set hm _ _) (w + 1)

/-- Appending touches only the addresses of its output positions. -/
theorem get_appendBytes_of_ne (e : Expander) (m : Memory) {w a : Nat} (bs : List Byte)
    (h : ∀ j < bs.length, a ≠ e.outAddr (w + j)) : (appendBytes e m w bs).get a = m.get a := by
  induction bs generalizing m w with
  | nil => rfl
  | cons b bs ih =>
    rw [appendBytes, ih _ fun j hj => by
      have := h (j + 1) (by simpa using hj)
      rwa [← Nat.add_assoc, Nat.add_right_comm] at this]
    exact Memory.get_set_ne _ _ (by simpa using h 0 (by simp))

theorem wf_copyBytes (e : Expander) (d n w : Nat) {m : Memory} (hm : m.wf = true) : (copyBytes e d n w m).wf = true := by
  induction n generalizing m w with
  | zero => exact hm
  | succ n ih => exact ih _ (Memory.wf_set hm _ _)

/-- Copying touches only the addresses of its output positions. -/
theorem get_copyBytes_of_ne (e : Expander) (d n w : Nat) (m : Memory) {a : Nat}
    (h : ∀ j < n, a ≠ e.outAddr (w + j)) : (copyBytes e d n w m).get a = m.get a := by
  induction n generalizing m w with
  | zero => rfl
  | succ n ih =>
    rw [copyBytes, ih _ _ fun j hj => by
      have := h (j + 1) (by omega)
      rwa [← Nat.add_assoc, Nat.add_right_comm] at this]
    exact Memory.get_set_ne _ _ (by simpa using h 0 (by omega))

/-- A token's effect is on memory and EX_POS alone, or the token is refused. -/
theorem expandToken_cases (s : State) (k pos x len : Word) :
    (∃ e, s.expandToken k pos x len = .error e) ∨
    (k = 0 ∧ s.expandToken k pos x len = .ok (s.appendLiteral x)) ∨
    (k.toNat = 1 ∧ s.expandToken k pos x len = .ok (s.appendMatch x.toNat len.toNat)) := by
  unfold State.expandToken
  dsimp only
  by_cases hk : 1 < k.toNat
  · exact .inl ⟨_, if_pos hk⟩
  · rw [if_neg hk]
    by_cases h0 : k = 0
    · rw [if_pos h0]
      split
      · exact .inl ⟨_, rfl⟩
      · split
        · exact .inl ⟨_, rfl⟩
        · split
          · exact .inl ⟨_, rfl⟩
          · exact .inr (.inl ⟨h0, rfl⟩)
    · rw [if_neg h0]
      have h1 : k.toNat = 1 := by
        have : k.toNat ≠ 0 := fun h => h0 (by rw [← BitVec.toNat_inj]; simpa using h)
        omega
      split
      · exact .inl ⟨_, rfl⟩
      · split
        · exact .inl ⟨_, rfl⟩
        · split
          · exact .inl ⟨_, rfl⟩
          · exact .inr (.inr ⟨h1, rfl⟩)

end Sys2Proof.Machine
end

