-- ==== Sys2Proof/Laws/Huffman.lean ====
section
/-! SUPPORT. What the Huffman coder's shared operations can do (44_huffman.md R350, R352): a walk touches only the reader's stream state, emission only the writer's and its window. -/

namespace Sys2Proof.Machine

/-- A walk that reaches a leaf touches only the reader's stream state. -/
theorem walkTree_readsFrom (k : Word) (fuel i : Nat) {s t : State} {n : Node}
    (h : walkTree k fuel i s = .ok (n, t)) : ReadsFrom s t ∧ n.leaf = true := by
  induction fuel generalizing i s with
  | zero => simp [walkTree] at h
  | succ fuel ih =>
    rw [walkTree] at h
    split at h
    · cases h
    · split at h
      · cases h
        exact ⟨.refl _, by assumption⟩
      · split at h
        · cases h
        · next b s1 hb =>
          have h2 := ih _ h
          exact ⟨((readBit_readsFrom s).2 b s1 hb).trans h2.1, h2.2⟩

/-- decode_symbol touches only the reader's stream state. -/
theorem decodeSymbol_readsFrom (k : Word) {s t : State} {sym : Byte} (h : decodeSymbol k s = .ok (sym, t)) :
    ReadsFrom s t := by
  unfold decodeSymbol at h
  split at h
  · cases h
  · split at h
    · cases h
    · next n s1 hw =>
      split at h
      · cases h
      · cases h
        exact (walkTree_readsFrom k _ _ hw).1

/-- emit_code, with or without an error, touches only the writer's stream state and its window. -/
theorem emitCode_writesInto (s : State) (sym : Nat) :
    (∀ f, emitCode s sym = .error f → WritesInto s f) ∧ ∀ t, emitCode s sym = .ok t → WritesInto s t :=
  putBits_writesInto _ s

/-- A symbol index that fits ERR_POS is reported as it is (R353). -/
@[simp] theorem symbolPos_of_lt (s : State) {j : Nat} (h : j < 2 ^ 32) : s.symbolPos j = word j := if_pos h

/-- Encoding symbols, with or without an error, touches only the writer's stream state and its window. -/
theorem encodeSymbols_writesInto (syms : List Nat) (s : State) (j : Nat) :
    (∀ e f, encodeSymbols s j syms = .error (e, f) → WritesInto s f) ∧
    ∀ t, encodeSymbols s j syms = .ok t → WritesInto s t := by
  induction syms generalizing s j with
  | nil => exact ⟨fun e f h => (by cases h), fun t h => by cases h; exact .refl s⟩
  | cons sym syms ih =>
    have h1 := emitCode_writesInto s sym
    rw [encodeSymbols]
    split
    · exact ⟨fun e f h => by cases h; exact .refl s, fun t h => by cases h⟩
    · cases hc : emitCode s sym with
      | error f => exact ⟨fun e g h => by cases h; exact h1.1 f hc, fun t h => by cases h⟩
      | ok s1 =>
        have hs := h1.2 s1 hc
        exact ⟨fun e g h => hs.trans ((ih s1 (j + 1)).1 e g h), fun t h => hs.trans ((ih s1 (j + 1)).2 t h)⟩

end Sys2Proof.Machine
end

