-- ==== Sys2Proof/Laws/Ops.lean ====
section
/-! SUPPORT. The laws of start checks and of the two ways a command ends. -/

namespace Sys2Proof.Machine

@[simp] theorem failIf_eq_none {bad : Bool} {e : ErrKind} {p : Word} : failIf bad e p = none ↔ bad = false := by
  cases bad <;> simp [failIf]

theorem failIf_eq_some {bad : Bool} {e : ErrKind} {p : Word} {x : Err} :
    failIf bad e p = some x ↔ bad = true ∧ x = (e, p) := by
  cases bad <;> simp [failIf, eq_comm]

theorem Window.valid_iff_inside {n : Nat} {w : Window} : w.valid n = true ↔ w.Inside n := by
  simp [Window.valid]

theorem Window.overlaps_eq_false_iff_apart {a b : Window} : a.overlaps b = false ↔ a.Apart b := by
  simp only [Window.overlaps, Window.Apart, Bool.and_eq_false_iff, decide_eq_false_iff_not]
  omega

@[simp] theorem windowErr_eq_none {n : Nat} {w : Window} : windowErr n w = none ↔ w.Inside n := by
  rw [← Window.valid_iff_inside, windowErr, failIf_eq_none]
  cases w.valid n <;> simp

@[simp] theorem overlapErr_eq_none {a b : Window} : overlapErr a b = none ↔ a.Apart b := by
  rw [← Window.overlaps_eq_false_iff_apart, overlapErr, failIf_eq_none]

/-- An invalid window is INVALID_RANGE at its base register. -/
theorem windowErr_of_not_inside {n : Nat} {w : Window} (h : ¬ w.Inside n) :
    windowErr n w = some (.invalidRange, word w.reg) := by
  rw [← Window.valid_iff_inside, Bool.not_eq_true] at h
  simp [windowErr, failIf, h]

/-- An overlap is INVALID_RANGE at the written window's base register. -/
theorem overlapErr_of_not_apart {a b : Window} (h : ¬ a.Apart b) : overlapErr a b = some (.invalidRange, word a.reg) := by
  rw [← Window.overlaps_eq_false_iff_apart, Bool.not_eq_false] at h
  simp [overlapErr, failIf, h]

@[simp] theorem firstErr_nil : firstErr [] = none := rfl
@[simp] theorem firstErr_cons_none (cs : List (Option Err)) : firstErr (none :: cs) = firstErr cs := rfl
theorem firstErr_cons_eq_none {c : Option Err} {cs : List (Option Err)} :
    firstErr (c :: cs) = none ↔ c = none ∧ firstErr cs = none := by
  cases c <;> simp [firstErr]

@[simp] theorem firstErr_cons_some (e : Err) (cs : List (Option Err)) : firstErr (some e :: cs) = some e := rfl

/-- No check fails exactly when each passes. -/
theorem firstErr_eq_none {cs : List (Option Err)} : firstErr cs = none ↔ ∀ c ∈ cs, c = none := by
  induction cs with
  | nil => simp
  | cons c cs ih => cases c <;> simp [ih]

/-- Passed checks do not hide a later one. -/
theorem firstErr_append_of_none {cs ds : List (Option Err)} (h : firstErr cs = none) :
    firstErr (cs ++ ds) = firstErr ds := by
  induction cs with
  | nil => rfl
  | cons c cs ih => cases c <;> simp_all

/-- An error reported is one of the checks'. -/
theorem mem_of_firstErr_eq_some {cs : List (Option Err)} {e : Err} (h : firstErr cs = some e) : some e ∈ cs := by
  induction cs with
  | nil => simp at h
  | cons c cs ih => cases c <;> simp_all

theorem checked_of_none {s : State} {cs : List (Option Err)} {body : Host.Outcome State Fault Refusal}
    (h : firstErr cs = none) : s.checked cs body = body := by
  simp [State.checked, h]

theorem checked_of_some {s : State} {cs : List (Option Err)} {body : Host.Outcome State Fault Refusal} {e : Err}
    (h : firstErr cs = some e) : s.checked cs body = .next (s.raise e) := by
  simp [State.checked, h]

/-- The outcome of a checked command: the first failing check with no other effect, or the body. -/
theorem checked_cases (s : State) (cs : List (Option Err)) (body : Host.Outcome State Fault Refusal) :
    (∃ e, firstErr cs = some e ∧ s.checked cs body = .next (s.raise e)) ∨
    (firstErr cs = none ∧ s.checked cs body = body) := by
  cases h : firstErr cs with
  | none => exact .inr ⟨rfl, checked_of_none h⟩
  | some e => exact .inl ⟨e, rfl, checked_of_some h⟩

theorem raise_eq_failed (s : State) (e : ErrKind) (p : Word) : s.raise (e, p) = s.failed e p := rfl

theorem complete_eq (s : State) : s.complete = { s with status := s.status.ended } := rfl

/-- The start checks of MF_FIND (but its position check) and LZ_PARSE pass exactly when `FinderReady` says. -/
theorem finderChecks_eq_none {s : State} {out : Window} :
    firstErr (s.finderChecks out) = none ↔ s.FinderReady out := by
  simp only [State.finderChecks, firstErr_cons_eq_none, firstErr_nil, and_true, failIf_eq_none, windowErr_eq_none,
    overlapErr_eq_none, decide_eq_false_iff_not, State.FinderReady, State.FinderOptionsOk]
  have hu : s.mf.opt.unit.bytes = 1 ↔ s.mf.opt.unit = .one := by cases s.mf.opt.unit <;> decide
  have hb : s.mf.prebufSize.toNat = 0 ↔ s.mf.prebufSize = 0 := by rw [← BitVec.toNat_inj]; rfl
  rw [← hu, ← hb]
  cases s.mf.opt.direction <;> simp only [not_and, not_or, not_not, and_assoc, reduceCtorEq, false_imp_iff, true_imp_iff]

/-- The start checks of EX_LIT and EX_MATCH pass exactly when `ExReady` says. -/
theorem expanderChecks_eq_none {s : State} : firstErr (s.expanderChecks []) = none ↔ s.ExReady := by
  simp only [State.expanderChecks, List.map_nil, List.append_nil, List.cons_append, List.nil_append,
    firstErr_cons_eq_none, firstErr_nil, and_true, failIf_eq_none, windowErr_eq_none, overlapErr_eq_none,
    decide_eq_false_iff_not, State.ExReady, State.ExOptionsOk, Nat.not_lt]
  have hu : s.ex.unit.bytes = 1 ↔ s.ex.unit = .one := by cases s.ex.unit <;> decide
  have hb : s.ex.prebufSize.toNat = 0 ↔ s.ex.prebufSize = 0 := by rw [← BitVec.toNat_inj]; rfl
  rw [← hu, ← hb]
  cases s.ex.direction <;> simp only [not_and, not_or, not_not, and_assoc, reduceCtorEq, false_imp_iff, true_imp_iff]

/-- The start checks of EX_STREAM pass exactly when `ExStreamReady` says. -/
theorem expanderStreamChecks_eq_none {s : State} :
    firstErr (s.expanderChecks [s.ex.tokWindow]) = none ↔ s.ExStreamReady := by
  rw [State.ExStreamReady, ← expanderChecks_eq_none]
  simp only [State.expanderChecks, List.map_nil, List.map_cons, List.append_nil, List.cons_append, List.nil_append,
    firstErr_cons_eq_none, firstErr_nil, and_true, windowErr_eq_none, overlapErr_eq_none, and_assoc]
  exact ⟨fun ⟨a, b, c, d, e, f, g, h⟩ => ⟨a, b, c, d, e, g, f, h⟩, fun ⟨a, b, c, d, e, g, f, h⟩ => ⟨a, b, c, d, e, f, g, h⟩⟩

end Sys2Proof.Machine
end

