-- ==== Sys2Proof/Laws/PerInstr.lean ====
section
/-! SUPPORT. A property of every command as syntax, one lemma per constructor: bits [31:14] of its word are 0 in every format (30_encoding.md R141). -/

namespace Sys2Proof.Laws.HighBits

/-- Bits [31:14] of the command's word are 0. -/
def Statement (i : Instr) : Prop := (encode i).extractLsb' 14 18 = 0

theorem nop : Statement .nop := by unfold Statement; decide
theorem brReset : Statement .brReset := by unfold Statement; decide
theorem brRead (n : BitVec 6) : Statement (.brRead n) := by revert n; unfold Statement; decide
theorem brAlign : Statement .brAlign := by unfold Statement; decide
theorem brReadInt (w : BitVec 2) : Statement (.brReadInt w) := by revert w; unfold Statement; decide
theorem bwReset : Statement .bwReset := by unfold Statement; decide
theorem bwWrite (n : BitVec 6) : Statement (.bwWrite n) := by revert n; unfold Statement; decide
theorem bwFlush : Statement .bwFlush := by unfold Statement; decide
theorem bwWriteInt (w : BitVec 2) : Statement (.bwWriteInt w) := by revert w; unfold Statement; decide
theorem mfFind : Statement .mfFind := by unfold Statement; decide
theorem lzParse : Statement .lzParse := by unfold Statement; decide
theorem hfCount : Statement .hfCount := by unfold Statement; decide
theorem hfBuild : Statement .hfBuild := by unfold Statement; decide
theorem hfLoad : Statement .hfLoad := by unfold Statement; decide
theorem hfEncode : Statement .hfEncode := by unfold Statement; decide
theorem hfEncodeBuf : Statement .hfEncodeBuf := by unfold Statement; decide
theorem hfDecode : Statement .hfDecode := by unfold Statement; decide
theorem hfDecodeBuf : Statement .hfDecodeBuf := by unfold Statement; decide
theorem exReset : Statement .exReset := by unfold Statement; decide
theorem exLit : Statement .exLit := by unfold Statement; decide
theorem exMatch : Statement .exMatch := by unfold Statement; decide
theorem exStream : Statement .exStream := by unfold Statement; decide

end Sys2Proof.Laws.HighBits
end

