-- ==== Sys2Proof/Tests/Slice0.lean ====
section
/-! SUPPORT. Tests of the model against the spec's own words and vectors (95_test_vectors.md), and for each obligation with hypotheses a concrete state and operands that meet them. -/

namespace Sys2Proof.Tests

set_option Elab.async false

open Sys2Proof.Machine

/-! ## Well-formedness: the check refuses each ill-formed term (30_encoding.md R141) -/

theorem test_wf_refuses_count_33 : (Instr.brRead 33).wf = false ∧ (Instr.brRead 32).wf = true := by decide
theorem test_wf_refuses_write_count_63 : (Instr.bwWrite 63).wf = false ∧ (Instr.bwWrite 0).wf = true := by decide
theorem test_wf_refuses_read_width_3 : (Instr.brReadInt 3).wf = false ∧ (Instr.brReadInt 2).wf = true := by decide
theorem test_wf_refuses_write_width_3 : (Instr.bwWriteInt 3).wf = false ∧ (Instr.bwWriteInt 2).wf = true := by decide

/-! ## Decoding: words written out from the formats of R141 and the opcodes of R143 -/

theorem test_decode_control : decode 0b00000000000000000000000000000000 = .ok .nop := by decide

theorem test_decode_reader :
    decode 0b00000000000000000000000000000001 = .ok .brReset ∧
    decode 0b00000000000000000010000000000010 = .ok (.brRead 32) ∧
    decode 0b00000000000000000000000000000011 = .ok .brAlign ∧
    decode 0b00000000000000000000000100000100 = .ok (.brReadInt 1) := by decide

theorem test_decode_writer :
    decode 0b00000000000000000000000000001000 = .ok .bwReset ∧
    decode 0b00000000000000000000001100001001 = .ok (.bwWrite 3) ∧
    decode 0b00000000000000000000000000001010 = .ok .bwFlush ∧
    decode 0b00000000000000000000001000001011 = .ok (.bwWriteInt 2) := by decide

theorem test_decode_finder :
    decode 0b00000000000000000000000000010000 = .ok .mfFind ∧
    decode 0b00000000000000000000000000010001 = .ok .lzParse := by decide

theorem test_decode_huffman :
    decode 0b00000000000000000000000000100000 = .ok .hfCount ∧
    decode 0b00000000000000000000000000100001 = .ok .hfBuild ∧
    decode 0b00000000000000000000000000100010 = .ok .hfLoad ∧
    decode 0b00000000000000000000000000100011 = .ok .hfEncode ∧
    decode 0b00000000000000000000000000100100 = .ok .hfEncodeBuf ∧
    decode 0b00000000000000000000000000100101 = .ok .hfDecode ∧
    decode 0b00000000000000000000000000100110 = .ok .hfDecodeBuf := by decide

theorem test_decode_expander :
    decode 0b00000000000000000000000000110000 = .ok .exReset ∧
    decode 0b00000000000000000000000000110001 = .ok .exLit ∧
    decode 0b00000000000000000000000000110010 = .ok .exMatch ∧
    decode 0b00000000000000000000000000110011 = .ok .exStream := by decide

/-- The illegal words of 95_test_vectors.md B1, each refused by name. -/
theorem test_decode_refuses :
    decode 0x00000100 = .error .nonzeroBits ∧ decode 0x00000005 = .error (.reservedOpcode 5) ∧
    decode 0x00002102 = .error (.countAbove32 33) ∧ decode 0x00004002 = .error .nonzeroBits ∧
    decode 0x00000304 = .error .widthCode3 ∧ decode 0x00000034 = .error (.reservedOpcode 0x34) := by decide

theorem test_decodeTableWord :
    decodeTableWord 32 0x302 = some (.brRead 3) ∧ decodeTableWord 32 0x0C = none := by decide

/-! ## Small states -/

/-- The state after a command, if it answers one. -/
def after (i : Instr) (s : State) : Option State :=
  match exec i s with
  | .next t => some t
  | _ => none

/-- A command answers a next state with a property. -/
theorem next_of_after {i : Instr} {s : State} {p : State → Bool} (h : (after i s).any p = true) :
    ∃ t, exec i s = .next t ∧ p t = true := by
  unfold after at h
  cases he : exec i s with
  | next t => rw [he] at h; exact ⟨t, rfl, h⟩
  | fault r => rw [he] at h; cases h
  | refused r => rw [he] at h; cases h

/-- One step answers a next state with a property. -/
def stepAfter (s : State) : Option State :=
  match step s with
  | .next t => some t
  | _ => none

/-- The reset state with MEM_SIZE 0x4000 and the constant prices of 95_test_vectors.md (9 and 17). -/
def start : State := { State.reset with params := { memSize := 0x4000, price := .perKind 9 17, limiter := .choice } }

/-- Bytes stored at an address. -/
def State.put (s : State) (a : Nat) (bs : List Byte) : State := { s with mem := s.mem.setBytes a bs }

/-- The host's pending accesses. -/
def pending (ops : List HostOp) : State := { start with host := ops }

/-- The bytes B9 80 as source at 0x100, a writer window of two bytes at 0x200. -/
def bitState : State :=
  { start with
    mem := Memory.setBytes [] 0x100 [0xB9, 0x80]
    br := { cfg := .reset, base := 0x100, len := 2, pos := 0, bits := 0, buf := 0 }
    bw := { cfg := .reset, base := 0x200, cap := 2, pos := 0, bits := 0, buf := 0 } }

/-- The setting of 95_test_vectors.md A1: "ABABABABAB" at 0x200, slot 0 = (3, 18, 1, 4096). -/
def findState : State :=
  { start with
    mem := Memory.setBytes [] 0x200 [0x41, 0x42, 0x41, 0x42, 0x41, 0x42, 0x41, 0x42, 0x41, 0x42]
    arg0 := 2
    mf := { Finder.reset with
      inBase := 0x200, inLen := 10, tokBase := 0x300, tokCap := 3, candBase := 0x500, candCap := 1, limEn := 1
      lim0 := { minLen := 3, maxLen := 18, minDisp := 1, maxDisp := 4096 } } }

/-- The setting of 95_test_vectors.md A4: four bytes 5A at 0x600, 4-bit symbols. -/
def huffState : State :=
  { start with
    mem := Memory.setBytes [] 0x600 [0x5A, 0x5A, 0x5A, 0x5A]
    hf := { Huffman.reset with
      cfg := { width := .bits4, nibbleOrder := .lowFirst, canon := false, limitEn := false, cap := 0 }
      srcBase := 0x600, srcLen := 4, freqBase := 0x700, treeBase := 0x800, bookBase := 0xA00
      dstBase := 0xC00, dstCap := 4 }
    bw := { cfg := .reset, base := 0x200, cap := 2, pos := 0, bits := 0, buf := 0 } }

/-- The frequency table of A4: f[5] = f[0xA] = 4. -/
def countedState : State := { huffState with mem := (huffState.mem.setWord 0x714 4).setWord 0x728 4 }

/-- The tree of A4 as a held tree: 5 = "0", 0xA = "1". -/
def heldTree : Huffman :=
  { huffState.hf with
    tree :=
      [{ leaf := true, synth := false, sym := 5, freq := 4, left := 0xFFFFFFFF, right := 0xFFFFFFFF },
       { leaf := true, synth := false, sym := 0xA, freq := 4, left := 0xFFFFFFFF, right := 0xFFFFFFFF },
       { leaf := false, synth := false, sym := 0, freq := 8, left := 0, right := 1 }]
    book := [(5, ⟨0, 1⟩), (0xA, ⟨1, 1⟩)]
    root := 2, nodes := 3, state := { valid := true, limited := false, maxLen := 1 } }

/-- A held tree, the byte AA as reader source at 0x100. -/
def codedState : State :=
  { huffState with
    mem := huffState.mem.setBytes 0x100 [0xAA]
    hf := heldTree
    br := { cfg := .reset, base := 0x100, len := 1, pos := 0, bits := 0, buf := 0 } }

/-- A held tree whose left leaf is synthesized (R335, r = 0x5). -/
def loneState : State :=
  { codedState with
    hf := { heldTree with
      tree :=
        [{ leaf := true, synth := false, sym := 5, freq := 8, left := 0xFFFFFFFF, right := 0xFFFFFFFF },
         { leaf := true, synth := true, sym := 0, freq := 0, left := 0xFFFFFFFF, right := 0xFFFFFFFF },
         { leaf := false, synth := false, sym := 0, freq := 8, left := 1, right := 0 }]
      book := [(5, ⟨1, 1⟩)] }
    mem := Memory.setBytes [] 0x100 [0x40] }

/-- The three nodes of the HF_LOAD example of R344 ('x' and 'y') at 0x800. -/
def loadState : State :=
  { start with
    mem := Memory.setWords [] 0x800
      [0, 0, 1, 2, 0x178, 0, 0xFFFFFFFF, 0xFFFFFFFF, 0x179, 0, 0xFFFFFFFF, 0xFFFFFFFF]
    arg1 := 3
    hf := { Huffman.reset with treeBase := 0x800 } }

/-- "AB" already written to a ten-byte output at 0x400. -/
def expandState : State :=
  { start with
    mem := Memory.setBytes [] 0x400 [0x41, 0x42]
    arg0 := 2, arg1 := 8
    ex := { Expander.reset with outBase := 0x400, outCap := 10, pos := 2 } }

/-- The three tokens of A1 at 0x300, an empty output at 0x400. -/
def streamState : State :=
  { start with
    mem := Memory.setWords [] 0x300 [0, 0, 0x41, 1, 0, 1, 0x42, 1, 1, 2, 2, 8]
    ex := { Expander.reset with outBase := 0x400, outCap := 10, tokBase := 0x300, tokCount := 3 } }

/-! ## One command each, against the vectors of 95_test_vectors.md -/

/-- R184's example: from reset, NOP leaves STATUS = 2. -/
theorem test_nop : (after .nop State.reset).map (·.status.toWord) = some 2 := by decide +kernel

/-- R200's example. -/
theorem test_brReset :
    (after .brReset { start with br := { Reader.reset with pos := 5, bits := 3 } }).map (fun t => (t.br.pos, t.br.bits)) =
      some (0, 0) := by decide +kernel

/-- R203's example: BR_READ 3 on B9 80 gives 5 and leaves 5 bits. -/
theorem test_brRead : (after (.brRead 3) bitState).map (fun t => (t.result, t.br.pos, t.br.bits)) = some (5, 1, 5) := by
  decide +kernel

/-- B3: on 12 34 56 78, LSB-first in big-endian 16-bit units, BR_READ 32 gives 0x56781234. -/
theorem test_brRead_lsb_be16 :
    (after (.brRead 32) { start with
      mem := Memory.setBytes [] 0x100 [0x12, 0x34, 0x56, 0x78]
      br := { cfg := ⟨.lsbFirst, .be, .bits16⟩, base := 0x100, len := 4, pos := 0, bits := 0, buf := 0 } }).map (·.result) =
      some 0x56781234 := by decide +kernel

/-- R204's example: five bits left are dropped. -/
theorem test_brAlign :
    (after .brAlign { bitState with br := { bitState.br with pos := 1, bits := 5, buf := 0xB9 } }).map
      (fun t => (t.br.pos, t.br.bits)) = some (1, 0) := by decide +kernel

/-- R205's example, big-endian. -/
theorem test_brReadInt :
    (after (.brReadInt 2) { start with
      mem := Memory.setBytes [] 0x100 [0x12, 0x34, 0x56, 0x78]
      br := { cfg := ⟨.msbFirst, .be, .bits8⟩, base := 0x100, len := 4, pos := 0, bits := 0, buf := 0 } }).map (·.result) =
      some 0x12345678 := by decide +kernel

/-- B3: BR_READ_INT 4 with BR_LEN = 3 is TRUNCATED_INPUT at 0. -/
theorem test_brReadInt_truncated :
    (after (.brReadInt 2) { bitState with br := { bitState.br with len := 3 } }).map
      (fun t => (t.status.toWord, t.errPos, t.br.pos)) = some (0x306, 0, 0) := by decide +kernel

/-- R210's example. -/
theorem test_bwReset :
    (after .bwReset { bitState with bw := { bitState.bw with bits := 3, buf := 0xA0 } }).map (fun t => (t.bw.pos, t.bw.bits)) =
      some (0, 0) := by decide +kernel

/-- R212's example, second write: six bits after 101. -/
theorem test_bwWrite :
    (after (.bwWrite 6) { bitState with arg0 := 0x33, bw := { bitState.bw with bits := 3, buf := 0xA0 } }).map
      (fun t => (t.mem.get 0x200, t.bw.pos, t.bw.bits, t.bw.buf)) = some (0xB9, 1, 1, 0x80) := by decide +kernel

/-- B2: a second 16-bit unit with one byte left writes neither byte, ERR_POS = 2. -/
theorem test_bwWrite_full :
    (after (.bwWrite 16) { bitState with
      arg0 := 1, bw := { bitState.bw with cfg := ⟨.msbFirst, .le, .bits16⟩, cap := 3, pos := 2 } }).map
      (fun t => (t.status.toWord, t.errPos, t.mem)) = some (0x106, 2, bitState.mem) := by decide +kernel

/-- R213's example: the pending 0x80 is stored. -/
theorem test_bwFlush :
    (after .bwFlush { bitState with bw := { bitState.bw with pos := 1, bits := 1, buf := 0x80 } }).map
      (fun t => (t.mem.get 0x201, t.bw.pos, t.bw.bits)) = some (0x80, 2, 0) := by decide +kernel

/-- R214's example: BW_WRITE_INT 2 of 0x1234, big-endian. -/
theorem test_bwWriteInt :
    (after (.bwWriteInt 1) { bitState with arg0 := 0x1234, bw := { bitState.bw with cfg := ⟨.msbFirst, .be, .bits8⟩ } }).map
      (fun t => t.mem.getBytes 0x200 2) = some [0x12, 0x34] := by decide +kernel

/-- B4, first row: one descriptor (0, 2, 3, 8). -/
theorem test_mfFind :
    (after .mfFind findState).map (fun t => (t.result, [0x500, 0x504, 0x508, 0x50C].map t.mem.getWord)) =
      some (1, [0, 2, 3, 8]) := by decide +kernel

/-- B4: MF_CAND_CAP = 0 is OUT_OF_RANGE_WRITE at 0. -/
theorem test_mfFind_full :
    (after .mfFind { findState with mf := { findState.mf with candCap := 0 } }).map (fun t => (t.status.toWord, t.errPos)) =
      some (0x106, 0) := by decide +kernel

/-- A1: L(0, 'A'), L(1, 'B'), M(2, 2, 8), cost 35. -/
theorem test_lzParse :
    (after .lzParse findState).map (fun t => (t.mf.tokCount, t.mf.costLo, t.mf.costHi,
      (List.range 12).map fun i => (t.mem.getWord (0x300 + 4 * i)).toNat)) =
      some (3, 35, 0, [0, 0, 0x41, 1, 0, 1, 0x42, 1, 1, 2, 2, 8]) := by decide +kernel

/-- B5: backward "abcXYZabcXYZ" starts with the last byte, ends with M(0, 6, 6), cost 71. -/
theorem test_lzParse_backward :
    (after .lzParse { start with
      mem := Memory.setBytes [] 0x200 [0x61, 0x62, 0x63, 0x58, 0x59, 0x5A, 0x61, 0x62, 0x63, 0x58, 0x59, 0x5A]
      mf := { Finder.reset with
        opt := { direction := .backward, unit := .one, skip := 0, decodeOnly := false }
        inBase := 0x200, inLen := 12, tokBase := 0x300, tokCap := 16, limEn := 1
        lim0 := { minLen := 3, maxLen := 0x12, minDisp := 3, maxDisp := 0x1002 } } }).map
      (fun t => (t.mf.tokCount, t.mf.costLo, [0x300, 0x304, 0x308, 0x30C, 0x360, 0x364, 0x368, 0x36C].map t.mem.getWord)) =
      some (7, 71, [0, 11, 0x5A, 1, 1, 0, 6, 6]) := by decide +kernel

/-- A4: f[5] = 4, f[0xA] = 4. -/
theorem test_hfCount :
    (after .hfCount huffState).map (fun t => [0x700, 0x714, 0x728, 0x73C].map t.mem.getWord) = some [0, 4, 4, 0] := by
  decide +kernel

/-- A4: the arena, root 2, three nodes, HF_STATE = 0x101, and the codes 0 and 1. -/
theorem test_hfBuild :
    (after .hfBuild countedState).map (fun t => (t.hf.book,
      t.hf.root :: t.hf.nodes :: t.hf.state.toWord :: (List.range 12).map fun i => t.mem.getWord (0x800 + 4 * i))) =
      some ([(5, ⟨0, 1⟩), (0xA, ⟨1, 1⟩)],
        [2, 3, 0x101, 0x105, 4, 0xFFFFFFFF, 0xFFFFFFFF, 0x10A, 4, 0xFFFFFFFF, 0xFFFFFFFF, 0, 8, 0, 1]) := by decide +kernel

/-- B6, limiting to 3 with 4-bit symbols: lengths (3, 3, 3, 3, 1), canonical codes 100, 101, 110, 111, 0, HF_STATE = 0x303. -/
theorem test_hfBuild_limited :
    (after .hfBuild { huffState with
      params := { huffState.params with limiter := .fixed [] }
      mem := Memory.setWords [] 0x700 [1, 1, 2, 4, 8]
      hf := { huffState.hf with cfg := { huffState.hf.cfg with limitEn := true, cap := 3 } } }).map
      (fun t => (t.hf.state.toWord, t.hf.book)) =
      some (0x303, [(0, ⟨4, 3⟩), (1, ⟨5, 3⟩), (2, ⟨6, 3⟩), (3, ⟨7, 3⟩), (4, ⟨0, 1⟩)]) := by decide +kernel

/-- R344's example: 'x' = 0, 'y' = 1, HF_STATE = 0x101. -/
theorem test_hfLoad :
    (after .hfLoad loadState).map (fun t => (t.hf.state.toWord, t.hf.book)) =
      some (0x101, [(0x78, ⟨0, 1⟩), (0x79, ⟨1, 1⟩)]) := by decide +kernel

/-- B6: with two nodes the root's RIGHT is out of range, MALFORMED_TOKEN at 0. -/
theorem test_hfLoad_malformed :
    (after .hfLoad { loadState with arg1 := 2 }).map (fun t => (t.status.toWord, t.errPos, t.hf.state.valid)) =
      some (0x406, 0, false) := by decide +kernel

/-- Symbol 0xA of A4 has code "1": one bit, first of its unit. -/
theorem test_hfEncode :
    (after .hfEncode { codedState with arg0 := 0xA }).map (fun t => (t.bw.bits, t.bw.buf)) = some (1, 0x80) := by
  decide +kernel

/-- B6: HF_ENCODE with no tree held is ILLEGAL_COMMAND at its own word. -/
theorem test_hfEncode_no_tree :
    (after .hfEncode huffState).map (fun t => (t.status.toWord, t.errPos)) = some (0x706, 0x23) := by decide +kernel

/-- A4: eight bits 10101010, one byte AA. -/
theorem test_hfEncodeBuf :
    (after .hfEncodeBuf { huffState with hf := heldTree }).map (fun t => (t.mem.get 0x200, t.bw.pos, t.bw.bits)) =
      some (0xAA, 1, 0) := by decide +kernel

/-- A4's stream: the first symbol is 0xA. -/
theorem test_hfDecode : (after .hfDecode codedState).map (fun t => (t.result, t.br.bits)) = some (0xA, 7) := by decide +kernel

/-- R354's example, second command: bit 0 reaches the synthesized leaf, MALFORMED_TOKEN at 0. -/
theorem test_hfDecode_synth :
    (after .hfDecode loneState).map (fun t => (t.status.toWord, t.errPos)) = some (0x406, 0) := by decide +kernel

/-- A4's stream decoded: eight symbols pack to 5A 5A 5A 5A. -/
theorem test_hfDecodeBuf :
    (after .hfDecodeBuf { codedState with arg0 := 8 }).map (fun t => (t.mem.getBytes 0xC00 4, t.hf.dstPos)) =
      some ([0x5A, 0x5A, 0x5A, 0x5A], 4) := by decide +kernel

/-- R355: an odd count leaves the last second nibble 0. -/
theorem test_hfDecodeBuf_odd :
    (after .hfDecodeBuf { codedState with arg0 := 3 }).map (fun t => (t.mem.getBytes 0xC00 2, t.hf.dstPos)) =
      some ([0x5A, 0x0A], 2) := by decide +kernel

/-- R391's example. -/
theorem test_exReset :
    (after .exReset { start with ex := { Expander.reset with pos := 10 } }).map (·.ex.pos) = some 0 := by decide +kernel

/-- R392's example. -/
theorem test_exLit :
    (after .exLit { expandState with arg0 := 0x41, ex := { expandState.ex with pos := 0 } }).map
      (fun t => (t.mem.get 0x400, t.ex.pos)) = some (0x41, 1) := by decide +kernel

/-- B7: u = 2 with one byte of room is OUT_OF_RANGE_WRITE, nothing written. -/
theorem test_exLit_full :
    (after .exLit { expandState with arg0 := 0x4241, ex := { expandState.ex with unit := .two, outCap := 3 } }).map
      (fun t => (t.status.toWord, t.mem, t.ex.pos)) = some (0x106, expandState.mem, 2) := by decide +kernel

/-- R393's example: "ABABABABAB". -/
theorem test_exMatch :
    (after .exMatch expandState).map (fun t => (t.mem.getBytes 0x400 10, t.ex.pos)) =
      some ([0x41, 0x42, 0x41, 0x42, 0x41, 0x42, 0x41, 0x42, 0x41, 0x42], 10) := by decide +kernel

/-- B7: pre-buffer 01 02 03 04, M(0, 4, 6) runs on into the output. -/
theorem test_exMatch_prebuffer :
    (after .exMatch { start with
      mem := Memory.setBytes [] 0x300 [1, 2, 3, 4], arg0 := 4, arg1 := 6
      ex := { Expander.reset with outBase := 0x400, outCap := 6, prebufBase := 0x300, prebufSize := 4 } }).map
      (fun t => t.mem.getBytes 0x400 6) = some [1, 2, 3, 4, 1, 2] := by decide +kernel

/-- R394's example. -/
theorem test_exStream :
    (after .exStream streamState).map (fun t => (t.mem.getBytes 0x400 10, t.ex.pos)) =
      some ([0x41, 0x42, 0x41, 0x42, 0x41, 0x42, 0x41, 0x42, 0x41, 0x42], 10) := by decide +kernel

/-- B7, backward: cap 4, L(3, 01), M(1, 2, 1) is MALFORMED_TOKEN at 1. -/
theorem test_exStream_backward :
    (after .exStream { start with
      mem := Memory.setWords [] 0x300 [0, 3, 1, 1, 1, 1, 2, 1]
      ex := { Expander.reset with direction := .backward, outBase := 0x400, outCap := 4, tokBase := 0x300, tokCount := 2 } }).map
      (fun t => (t.status.toWord, t.errPos)) = some (0x406, 1) := by decide +kernel

/-! ## Steps -/

/-- C4: a reserved opcode, then STATUS and the interrupt line. -/
theorem test_step_illegal :
    (stepAfter { pending [.regWrite 0x014 4 5] with ctrl := ⟨true, true⟩ }).map
      (fun t => (t.status.toWord, t.errPos, t.irq)) = some (0x706, 5, true) := by decide +kernel

/-- The host's placement of a command word: the next step runs it. -/
theorem test_withFetchWord :
    (stepAfter (State.reset.withFetchWord 32 0)).map (·.status.toWord) = some 2 := by decide +kernel

/-- R31: ID and VERSION. -/
theorem test_identification : State.reset.readReg 0 = 0x4B324C5A ∧ State.reset.readReg 4 = 0x00070001 := by decide +kernel

/-! ## Witnesses: a state and operands that meet the hypotheses of each obligation, clause by clause -/

theorem witness_DecodeInvertsEncode : decode 0x2002 = .ok (.brRead 32) ∧ (Instr.brRead 32).wf = true := by decide

/-- Every case of R144 at its boundary. -/
theorem witness_IllegalWordsRaise :
    (IllegalWord 5 ∧ IllegalWord 7 ∧ IllegalWord 0x0C ∧ IllegalWord 0x0F ∧ IllegalWord 0x12 ∧ IllegalWord 0x1F ∧
      IllegalWord 0x27 ∧ IllegalWord 0x2F ∧ IllegalWord 0x34 ∧ IllegalWord 0xFF ∧ IllegalWord 0x100 ∧
      IllegalWord 0x80000001 ∧ IllegalWord 0x2102 ∧ IllegalWord 0x4009 ∧ IllegalWord 0x304 ∧ IllegalWord 0x40B) ∧
    (pending [.regWrite 0x014 4 5]).host = .regWrite 0x014 4 5 :: [] ∧
    (pending [.regWrite 0x014 4 5]).status.busy = false ∧ (pending [.regWrite 0x014 4 5]).status.err = false := by
  refine ⟨⟨?_, ?_, ?_, ?_, ?_, ?_, ?_, ?_, ?_, ?_, ?_, ?_, ?_, ?_, ?_, ?_⟩, rfl, rfl, rfl⟩ <;>
    (unfold IllegalWord; decide +kernel)

theorem witness_AcceptedCommandRuns :
    (pending [.regWrite 0x014 4 0]).host = .regWrite 0x014 4 0 :: [] ∧
    (pending [.regWrite 0x014 4 0]).status.busy = false ∧ (pending [.regWrite 0x014 4 0]).status.err = false ∧
    decode 0 = .ok .nop := by decide +kernel

theorem witness_EveryCommandEnds : start.status.err = false ∧ start.status.errCode = 0 := by decide +kernel

theorem witness_ErrorKindsOfEachCommand :
    (Instr.brRead 1).wf = true ∧ start.status.err = false ∧
    ∃ t, exec (.brRead 1) start = .next t ∧ t.status.err = true :=
  ⟨by decide, by decide +kernel, next_of_after (p := fun t => t.status.err) (by decide +kernel)⟩

theorem witness_DroppedWrites :
    let failed := { pending [.regWrite 0x014 4 0] with status := ⟨false, true, true, false, 7⟩ }
    let running := { pending [.regWrite 0x3FC 4 1] with status := ⟨true, false, false, false, 0⟩ }
    (failed.host = .regWrite 0x014 4 0 :: [] ∧ failed.status.err = true) ∧
    (running.host = .regWrite 0x3FC 4 1 :: [] ∧ 0x3FC % 4 = 0 ∧ 0x3FC < 1024 ∧ running.status.busy = true) := by
  decide +kernel

theorem witness_StatusWriteOneToClear :
    (pending [.regWrite 0x00C 4 0xE]).host = .regWrite 0x00C 4 0xE :: [] := rfl

theorem witness_CtrlWrite :
    (pending [.regWrite 0x008 4 0x80000003]).host = .regWrite 0x008 4 0x80000003 :: [] ∧
    (0x80000003 : Word).getLsbD 31 = true ∧
    (pending [.regWrite 0x008 4 0x7FFFFFFF]).host = .regWrite 0x008 4 0x7FFFFFFF :: [] ∧
    (0x7FFFFFFF : Word).getLsbD 31 = false := by decide +kernel

theorem witness_ResetValues :
    (pending [.resetInput]).host = .resetInput :: [] ∧
    (pending [.regWrite 0x008 4 0x80000000]).host = .regWrite 0x008 4 0x80000000 :: [] ∧
    (0x80000000 : Word).getLsbD 31 = true := by decide +kernel

theorem witness_InterruptLine :
    (start.status.err = false ∧ ∃ t, exec .nop start = .next t) ∧
    (∃ t, step (pending [.regWrite 0x00C 4 2]) = .next t) ∧
    (∃ t, step (pending [.regWrite 0x008 4 1]) = .next t) ∧ (1 : Word).getLsbD 31 = false ∧
    ∃ t, step { pending [.regWrite 0x014 4 0] with status := ⟨false, true, true, false, 7⟩ } = .next t :=
  ⟨⟨rfl, _, rfl⟩, ⟨_, rfl⟩, ⟨_, rfl⟩, by decide, ⟨_, rfl⟩⟩

theorem witness_AccessesNotAdmittedStop :
    (pending [.regRead 0x3FC 4]).host = .regRead 0x3FC 4 :: [] ∧ (0x3FC % 4 = 0 ∧ 0x3FC < 1024) ∧
    (pending [.regWrite 0x400 4 0]).host = .regWrite 0x400 4 0 :: [] ∧
    (pending [.memRead 0x3FFF]).host = .memRead 0x3FFF :: [] ∧ 0x3FFF < start.params.memSize ∧
    (pending [.memWrite 0x4000 1]).host = .memWrite 0x4000 1 :: [] ∧ start.params.memSize ≤ 0x4000 := by decide +kernel

theorem witness_RegistersReadBack :
    (start.status.busy = false) ∧
    (readWriteMask 0x140 = some 0x3F0F ∧
      (pending [.regWrite 0x140 4 5, .regRead 0x140 4]).host = .regWrite 0x140 4 5 :: .regRead 0x140 4 :: []) ∧
    (readWriteMask 0x10C = none ∧ readWriteMask 0x108 = some 0xFFFFFFFF ∧
      0x108 ∉ [0x040, 0x044, 0x048, 0x060, 0x064, 0x068, 0x100, 0x140] ∧
      (pending [.regWrite 0x108 4 5]).host = .regWrite 0x108 4 5 :: [] ∧
      (plainWrite (pending []) 0x108 5).map (fun t => (t.ex.outCap, t.ex.pos)) = some (5, 0)) ∧
    (let running := { pending [.regRead 0x00C 4] with status := ⟨true, false, false, false, 0⟩ };
      0x00C < 0x010 ∧ 0x00C ∈ 0x008 :: 0x00C :: readOnlyOffsets ∧ running.host = .regRead 0x00C 4 :: [] ∧
      statusValue running 0x00C = some 1) ∧
    ((pending [.regRead 0x16C 4]).status.busy = false ∧ 0x16C ∈ 0x008 :: 0x00C :: readOnlyOffsets ∧
      (pending [.regRead 0x16C 4]).host = .regRead 0x16C 4 :: []) ∧
    (readWriteMask 0x010 = none ∧ 0x010 ∉ [0x008, 0x00C, 0x014] ∧
      (pending [.regWrite 0x010 4 5]).host = .regWrite 0x010 4 5 :: []) ∧
    (readWriteMask 0x3FC = none ∧ 0x3FC ∉ 0x008 :: 0x00C :: readOnlyOffsets ∧
      (pending [.regRead 0x3FC 4]).host = .regRead 0x3FC 4 :: []) ∧
    (readWriteMask 0x014 = none ∧ 0x014 ∉ 0x008 :: 0x00C :: readOnlyOffsets) := by decide +kernel

theorem witness_ConfigWritesRestartUnits :
    (∀ off ∈ [0x040, 0x044, 0x048, 0x060, 0x064, 0x068, 0x100, 0x140],
      (pending [.regWrite off 4 7]).host = .regWrite off 4 7 :: [] ∧ (pending [.regWrite off 4 7]).status.busy = false) := by
  decide +kernel

theorem witness_DataBytesReadBack :
    start.mem.wf = true ∧ 0x3FFF < start.params.memSize ∧
    (pending [.memWrite 0x3FFF 7, .memRead 0x3FFF]).host = .memWrite 0x3FFF 7 :: .memRead 0x3FFF :: [] := by decide +kernel

theorem witness_CommandFrame : ∃ t, exec (.bwWrite 8) bitState = .next t :=
  (next_of_after (p := fun _ => true) (by decide +kernel)).imp fun _ h => h.1

theorem witness_WriteWindowsFrame :
    (∃ t, exec (.bwWrite 8) bitState = .next t) ∧ ∀ w ∈ writeWindows bitState (.bwWrite 8), ¬ w.Holds 0x202 :=
  ⟨(next_of_after (p := fun _ => true) (by decide +kernel)).imp fun _ h => h.1, by decide +kernel⟩

/-- One accepted step answers an error state. -/
theorem stepNext_of_after {s : State} {p : State → Bool} (h : (stepAfter s).any p = true) :
    ∃ t, step s = .next t ∧ p t = true := by
  unfold stepAfter at h
  cases he : step s with
  | next t => rw [he] at h; exact ⟨t, rfl, h⟩
  | fault r => rw [he] at h; cases h
  | refused r => rw [he] at h; cases h

/-- Natural depth 4 with cap 2 and no limiter (95_test_vectors.md B6). -/
def cappedState : State :=
  { huffState with
    mem := Memory.setWords [] 0x700 [1, 1, 2, 4, 8]
    hf := { huffState.hf with cfg := { huffState.hf.cfg with cap := 3 } } }

theorem witness_EarlyErrorsChangeNothing :
    (∃ t, step (pending [.regWrite 0x014 4 5]) = .next t ∧ (t.status.err && t.status.errCode == 7) = true) ∧
    (∃ t, step { cappedState with host := [.regWrite 0x014 4 0x21] } = .next t ∧ (t.status.err && t.status.errCode == 5) = true) ∧
    (∃ t, step { loadState with arg1 := 2, host := [.regWrite 0x014 4 0x22] } = .next t ∧
      (t.status.err && t.status.errCode == 4) = true) ∧
    (∃ t, step { huffState with hf := { huffState.hf with srcLen := 0x4000 }, host := [.regWrite 0x014 4 0x20] } = .next t ∧
      (t.status.err && t.status.errCode == 2) = true) :=
  ⟨stepNext_of_after (p := fun t => t.status.err && t.status.errCode == 7) (by decide +kernel),
   stepNext_of_after (p := fun t => t.status.err && t.status.errCode == 5) (by decide +kernel),
   stepNext_of_after (p := fun t => t.status.err && t.status.errCode == 4) (by decide +kernel),
   stepNext_of_after (p := fun t => t.status.err && t.status.errCode == 2) (by decide +kernel)⟩

theorem witness_StepKeepsInv : start.Inv ∧ ∃ t, step { start with host := [.regWrite 0x014 4 0] } = .next t :=
  ⟨⟨by decide, by decide, by decide, by decide, by decide, by decide, by decide⟩, _, rfl⟩

/-- An invalid first window, and an invalid window after a valid one. -/
theorem witness_InvalidWindowsRaise :
    let s1 := { bitState with br := { bitState.br with base := 0x3FFF } }
    let s2 := { huffState with hf := { huffState.hf with freqBase := 0x3FC1 } }
    (PriorChecks s1 (.brRead 32) ∧ usedWindows s1 (.brRead 32) = [] ++ s1.br.window :: [] ∧
      ¬ s1.br.window.Inside s1.params.memSize) ∧
    (PriorChecks s2 .hfCount ∧ usedWindows s2 .hfCount = [s2.hf.srcWindow] ++ s2.hf.freqWindow :: [] ∧
      s2.hf.srcWindow.Inside s2.params.memSize ∧ ¬ s2.hf.freqWindow.Inside s2.params.memSize) := by
  unfold PriorChecks
  decide +kernel

theorem witness_OverlapsRaise :
    let s := { huffState with hf := { huffState.hf with freqBase := 0x603 } }
    PriorChecks s .hfCount ∧ (∀ v ∈ usedWindows s .hfCount, v.Inside s.params.memSize) ∧
    ∃ w ∈ writeWindows s .hfCount, ∃ o ∈ usedWindows s .hfCount, o.reg ≠ w.reg ∧ ¬ w.Apart o := by
  unfold PriorChecks
  decide +kernel

theorem witness_ForbiddenStates :
    (MfOpt.mk .forward .one 0 true).decodeOnly = true ∧ huffState.hf.state.valid = false := by decide +kernel

theorem witness_BrReadDeliversBits :
    (BitVec.toNat 16#6 ≤ 32) ∧ bitState.ReaderReady ∧ bitState.br.Sound ∧ 16 ≤ bitState.unreadBits.length := by decide +kernel

theorem witness_BrReadPastEnd :
    (BitVec.toNat 17#6 ≤ 32) ∧ bitState.ReaderReady ∧ bitState.br.Sound ∧ bitState.unreadBits.length < 17 := by decide +kernel

theorem witness_BrReadIntReads :
    (0#2).toNat ≠ 3 ∧ (2#2).toNat ≠ 3 ∧
    ({ bitState.br with bits := 1 } : Reader).bits ≠ 0 ∧
    (bitState.br.bits = 0 ∧ bitState.ReaderReady ∧ bitState.br.pos.toNat + widthBytes 1 ≤ bitState.br.len.toNat) ∧
    bitState.br.len.toNat < bitState.br.pos.toNat + widthBytes 2 := by decide +kernel

theorem witness_BwWriteAppendsBits :
    (BitVec.toNat 16#6 ≤ 32) ∧ bitState.WriterReady ∧ bitState.bw.Sound ∧ bitState.bw.Fits 16 ∧ bitState.mem.wf = true ∧
    bitState.bw.Clean := by decide +kernel

theorem witness_BwWriteFull :
    (BitVec.toNat 24#6 ≤ 32) ∧ bitState.WriterReady ∧ bitState.bw.Sound ∧ ¬ bitState.bw.Fits 24 := by decide +kernel

theorem witness_BwFlushStoresUnit :
    bitState.WriterReady ∧ bitState.bw.bits = 0 ∧
    (let w : Writer := { bitState.bw with pos := 1, bits := 1 };
      w.bits ≠ 0 ∧ w.pos.toNat + w.cfg.unit.bytes ≤ w.cap.toNat ∧ bitState.mem.wf = true) ∧
    (let w : Writer := { bitState.bw with cfg := ⟨.msbFirst, .le, .bits16⟩, pos := 1, bits := 1 };
      w.bits ≠ 0 ∧ w.cap.toNat < w.pos.toNat + w.cfg.unit.bytes) := by decide +kernel

theorem witness_BwWriteIntStores :
    (1#2).toNat ≠ 3 ∧ ({ bitState.bw with bits := 1 } : Writer).bits ≠ 0 ∧
    (bitState.bw.bits = 0 ∧ bitState.WriterReady ∧ bitState.bw.pos.toNat + widthBytes 1 ≤ bitState.bw.cap.toNat ∧
      bitState.mem.wf = true) ∧
    bitState.bw.cap.toNat < bitState.bw.pos.toNat + widthBytes 2 := by decide +kernel

theorem after_eq_some {i : Instr} {s t : State} (h : after i s = some t) : exec i s = .next t := by
  unfold after at h
  cases he : exec i s with
  | next u => rw [he] at h; cases h; rfl
  | fault r => rw [he] at h; cases h
  | refused r => rw [he] at h; cases h

/-- A write that ends without error, leaving a pending unit there is room for, and a flush after it. -/
theorem writeFlush_of_any {s : State} {n : BitVec 6} {v : Word}
    (h : ((after (.bwWrite n) { s with arg0 := v }).any fun t =>
      !t.status.err && t.bw == { bitState.bw with bits := 3, buf := 0xA0 } && t.params.memSize == 0x4000) = true) :
    ∃ t u, writeSequence s [(n, v)] = some t ∧ exec .bwFlush t = .next u ∧ u.status.err = false := by
  obtain ⟨t, ht, hp⟩ := next_of_after h
  simp only [Bool.and_eq_true, Bool.not_eq_true', beq_iff_eq] at hp
  obtain ⟨⟨he, hb⟩, hm⟩ := hp
  have hf : ∃ u, exec .bwFlush t = .next u ∧ u.status.err = false := by
    simp [exec, execBwFlush, State.checked, firstErr, windowErr, failIf, Window.valid, Writer.window, hb, hm, emitUnit,
      UnitWidth.bytes, bitState, BitCfg.reset, State.complete, Status.complete, he]
  obtain ⟨u, hu, hue⟩ := hf
  exact ⟨t, u, by simp [writeSequence, ht, he], hu, hue⟩

theorem witness_BitRoundTrip_and_OutputLength :
    bitState.mem.wf = true ∧ bitState.status.err = false ∧ bitState.WriterReady ∧
    bitState.bw.pos = 0 ∧ bitState.bw.bits = 0 ∧ bitState.bw.buf = 0 ∧
    (∀ w ∈ ([(3, 5)] : List (BitVec 6 × Word)), w.1.toNat ≤ 32) ∧
    ∃ t u, writeSequence bitState [(3, 5)] = some t ∧ exec .bwFlush t = .next u ∧ u.status.err = false :=
  ⟨by decide +kernel, by decide +kernel, by decide +kernel, by decide +kernel, by decide +kernel, by decide +kernel,
   by simp, writeFlush_of_any (by decide +kernel)⟩

theorem witness_MfFindListsCandidates :
    findState.FinderReady findState.mf.candWindow ∧
    (2 < findState.mf.inLen.toNat ∧ 2 % findState.mf.opt.unit.bytes = 0 ∧
      (findState.scan.candidates 2).length ≤ findState.mf.candCap.toNat ∧ findState.mem.wf = true) ∧
    (let s := { findState with mf := { findState.mf with candCap := 0 } };
      s.FinderReady s.mf.candWindow ∧ s.mf.candCap.toNat < (s.scan.candidates 2).length) ∧
    findState.mf.inLen.toNat ≤ 10 := by decide +kernel

theorem witness_CandidatesAreLegalMatches :
    findState.scan.Aligned ∧ 9 < findState.scan.text.length ∧ 9 % findState.scan.u = 0 ∧
    findState.scan.slots.Pairwise (fun a b => a.1 < b.1) := by decide +kernel

theorem witness_LzParseWritesTokens :
    findState.FinderReady findState.mf.tokWindow ∧
    (findState.parseInput.parse.2.length ≤ findState.mf.tokCap.toNat ∧ findState.mem.wf = true) ∧
    (let s := { findState with mf := { findState.mf with tokCap := 2 } };
      s.FinderReady s.mf.tokWindow ∧ s.mf.tokCap.toNat < s.parseInput.parse.2.length) := by decide +kernel

/-- "AA" with slot (1, 255, 1, 255). -/
def doubled : ParseInput :=
  { scan := { u := 1, pre := [], text := [0x41, 0x41], slots := [(0, ⟨1, 255, 1, 255⟩)] }
    direction := .forward, skip := 1, pricing := .perKind 9 8 }

theorem witness_ParseIsValid : doubled.scan.Aligned := by decide +kernel

theorem witness_ParseIsOptimal : doubled.scan.Aligned ∧ doubled.Covers 0 0 [.lit, .copy 1 1] :=
  ⟨by decide +kernel, by decide +kernel, rfl,
   ⟨by decide, by decide, by decide, by decide, by decide, by decide, by decide,
     ⟨_, List.mem_singleton.2 rfl, by decide, by decide, by decide, by decide⟩⟩, rfl⟩

theorem witness_PredecessorChoice :
    0 ≤ doubled.skip ∧
    (doubled.nextColumn 1 (doubled.startColumn :: [])).best[0]? = some (some ⟨9, 1, 0, 0⟩) ∧
    doubled.scan.Aligned ∧ (0 < 2 ∧ 2 ≤ doubled.scan.text.length ∧ 2 % doubled.scan.u = 0 ∧ 1 ≤ doubled.skip) ∧
    doubled.chosen 1 1 = none ∧ doubled.chosen 2 1 = some ⟨17, 1, 1, 0⟩ := by decide +kernel

theorem witness_ExpanderRoundTrip :
    findState.mem.wf = true ∧ findState.status.err = false ∧
    ∃ t, exec .lzParse findState = .next t ∧
      (decide (t.status.err = false ∧ (t.setUpExpander 0x400).ex.outWindow.Inside findState.params.memSize ∧
        (t.setUpExpander 0x400).ex.outWindow.Apart (t.setUpExpander 0x400).ex.preWindow ∧
        (t.setUpExpander 0x400).ex.outWindow.Apart (t.setUpExpander 0x400).ex.tokWindow)) = true :=
  ⟨by decide +kernel, by decide +kernel,
   next_of_after (p := fun t => decide (t.status.err = false ∧
        (t.setUpExpander 0x400).ex.outWindow.Inside findState.params.memSize ∧
        (t.setUpExpander 0x400).ex.outWindow.Apart (t.setUpExpander 0x400).ex.preWindow ∧
        (t.setUpExpander 0x400).ex.outWindow.Apart (t.setUpExpander 0x400).ex.tokWindow)) (by decide +kernel)⟩

theorem witness_HfCountCounts :
    (huffState.hf.srcWindow.Inside huffState.params.memSize ∧ huffState.hf.freqWindow.Inside huffState.params.memSize ∧
      huffState.hf.freqWindow.Apart huffState.hf.srcWindow ∧ huffState.hf.cfg.symbolCount huffState.hf.srcLen.toNat < 2 ^ 32 ∧
      huffState.mem.wf = true) ∧
    (let h := { huffState.hf with srcBase := 0, srcLen := 0x80000000, freqBase := 0x80000000 };
      h.srcWindow.Inside (2 ^ 32) ∧ h.freqWindow.Inside (2 ^ 32) ∧ h.freqWindow.Apart h.srcWindow ∧
      2 ^ 32 ≤ h.cfg.symbolCount h.srcLen.toNat) := by decide +kernel

/-- The window hypotheses of HF_BUILD. -/
def buildWindowsOk (s : State) : Bool :=
  decide (s.hf.freqWindow.Inside s.params.memSize ∧ s.hf.treeWindow.Inside s.params.memSize ∧
    s.hf.bookWindow.Inside s.params.memSize ∧ s.hf.treeWindow.Apart s.hf.freqWindow ∧
    s.hf.treeWindow.Apart s.hf.bookWindow ∧ s.hf.bookWindow.Apart s.hf.freqWindow)

theorem witness_HfBuildBuilds :
    (buildWindowsOk countedState = true ∧ countedState.frequencyWords.sum < 2 ^ 32 ∧ countedState.hf.cfg.cap = 0 ∧
      countedState.mem.wf = true) ∧
    naturalDepth countedState.frequencyWords ≤ 1 ∧
    (cappedState.frequencyWords.filter (· ≠ 0)).length ≤ 2 ^ cappedState.hf.cfg.cap.toNat := by decide +kernel

theorem witness_HfBuildStops :
    (let s := { huffState with mem := Memory.setWords [] 0x700 [0x80000000, 0x80000000] };
      buildWindowsOk s = true ∧ 2 ^ 32 ≤ s.frequencyWords.sum) ∧
    (buildWindowsOk cappedState = true ∧ cappedState.frequencyWords.sum < 2 ^ 32 ∧ cappedState.hf.cfg.cap ≠ 0 ∧
      cappedState.hf.cfg.cap.toNat < naturalDepth cappedState.frequencyWords ∧ cappedState.hf.cfg.limitEn = false) ∧
    2 ^ 2 < (cappedState.frequencyWords.filter (· ≠ 0)).length := by decide +kernel

theorem witness_SingleSymbolTree :
    huffState.hf.cfg.canon = false ∧ ({ huffState.hf.cfg with canon := true } : HfCfg).canon = true ∧ 15 < huffState.hf.cfg.width.alphabet ∧ 0xFFFFFFFF ≠ 0 ∧ 0xFFFFFFFF < 2 ^ 32 := by
  decide +kernel

theorem witness_EmptyTree :
    (∀ f ∈ List.replicate 16 0, f = 0) ∧
    (let s := { codedState with hf := { heldTree with tree := [], book := [], root := 0, nodes := 0 }, arg0 := 1 };
      s.hf.state.valid = true ∧ s.hf.nodes = 0 ∧ s.hf.book = [] ∧ s.WriterReady ∧ s.ReaderReady ∧
      s.hf.dstWindow.Inside s.params.memSize ∧ s.hf.dstWindow.Apart s.br.window ∧ s.arg0 ≠ 0 ∧ s.hf.dstCap ≠ 0) := by
  decide +kernel

theorem witness_LimitedLengthsMinimal :
    2 ≤ [1, 1].length ∧ [1, 1].length ≤ 2 ^ 1 ∧ [1, 1].length = [1, 1].length ∧ (∀ l ∈ [1, 1], 1 ≤ l ∧ l ≤ 1) ∧
    ([1, 1].map fun l => 2 ^ (1 - l)).sum ≤ 2 ^ 1 := by decide

/-- The tree of the HF_LOAD example of R344. -/
def loadTree : CodeTree := .node 0 (.leaf 1 false 0x78) (.leaf 2 false 0x79)

theorem witness_HfLoadTakesCodeTree :
    (1 ≤ loadState.arg1.toNat ∧ loadState.arg1.toNat ≤ loadState.hf.cfg.width.maxNodes ∧
      loadState.arg0.toNat < loadState.arg1.toNat ∧
      (loadState.hf.loadWindow loadState.arg1.toNat).Inside loadState.params.memSize ∧
      loadTree.idx = loadState.arg0.toNat) ∧
    loadTree.StoredIn (loadState.loadArena loadState.arg1.toNat) loadState.hf.cfg.width.alphabet ∧
    loadTree.indexes.Nodup ∧ (loadTree.codes.map Prod.fst).Nodup ∧ 1 ≤ loadTree.depth ∧ loadTree.depth ≤ 64 :=
  ⟨by decide +kernel,
   ⟨_, rfl, by decide +kernel, by decide +kernel, by decide +kernel,
     ⟨_, rfl, by decide +kernel, by decide +kernel, by decide +kernel, by decide +kernel⟩,
     ⟨_, rfl, by decide +kernel, by decide +kernel, by decide +kernel, by decide +kernel⟩⟩,
   by decide +kernel, by decide +kernel, by decide +kernel, by decide +kernel⟩

theorem witness_HfLoadTakesOnlyCodeTrees :
    (∃ t, exec .hfLoad loadState = .next t ∧ (!t.status.err) = true) ∧ loadState.status.err = false ∧
    (loadState.hf.cfg.width.maxNodes < 512 ∧ 511 ≤ loadState.hf.cfg.width.maxNodes) ∧
    ((loadState.hf.loadWindow 3).Inside loadState.params.memSize ∧
      (loadState.mem.getWord (loadState.hf.treeBase.toNat + 16 * 2)).getLsbD 8 = true) :=
  ⟨next_of_after (p := fun t => !t.status.err) (by decide +kernel), by decide +kernel, by decide +kernel, by decide +kernel⟩

theorem witness_HeldTreesReadBack :
    (loadState.status.err = false ∧ ∃ t, exec .hfLoad loadState = .next t ∧ (!t.status.err) = true) ∧
    (countedState.status.err = false ∧ countedState.frequencyWords[5]? = some 4 ∧
      ∃ t, exec .hfBuild countedState = .next t ∧ (!t.status.err) = true) :=
  ⟨⟨by decide +kernel, next_of_after (p := fun t => !t.status.err) (by decide +kernel)⟩,
   by decide +kernel, by decide +kernel, next_of_after (p := fun t => !t.status.err) (by decide +kernel)⟩

/-- Both symbols of A4 with one bit: Σ 2^-1 over the two is 1. -/
theorem witness_CodeLengthsMinimal :
    (countedState.status.err = false ∧
      ∃ t, exec .hfBuild countedState = .next t ∧ (!t.status.err && !t.hf.state.limited) = true) ∧
    CodeLengths countedState.frequencyWords (List.replicate 16 1) 1 ∧
    ∃ t, exec .hfBuild { cappedState with
        params := { cappedState.params with limiter := .fixed [] }
        hf := { cappedState.hf with cfg := { cappedState.hf.cfg with limitEn := true } } } = .next t ∧
      (!t.status.err && t.hf.state.limited) = true :=
  ⟨⟨by decide +kernel, next_of_after (p := fun t => !t.status.err && !t.hf.state.limited) (by decide +kernel)⟩,
   ⟨by decide +kernel, by decide +kernel, by decide +kernel⟩,
   next_of_after (p := fun t => !t.status.err && t.hf.state.limited) (by decide +kernel)⟩

theorem witness_HfEncodeWritesCode :
    (codedState.hf.state.valid = true ∧ codedState.WriterReady) ∧
    (0xA < codedState.hf.cfg.width.alphabet ∧ (bookEntry codedState.hf.book 0xA).len ≠ 0 ∧ codedState.bw.Sound ∧
      codedState.bw.Fits (bookEntry codedState.hf.book 0xA).len ∧ codedState.mem.wf = true) ∧
    (codedState.hf.cfg.width.alphabet ≤ 16 ∧ (bookEntry codedState.hf.book 15).len = 0) ∧
    (let w : Writer := { codedState.bw with pos := 2, bits := 7 };
      w.Sound ∧ ¬ w.Fits (bookEntry codedState.hf.book 0xA).len) := by decide +kernel

theorem witness_HfEncodeBufWritesCodes :
    (codedState.hf.state.valid = true ∧ codedState.hf.srcWindow.Inside codedState.params.memSize ∧ codedState.WriterReady ∧
      codedState.bw.window.Apart codedState.hf.srcWindow ∧ codedState.bw.Sound) ∧
    ((∀ x ∈ codedState.sourceSymbols, (bookEntry codedState.hf.book x).len ≠ 0) ∧
      codedState.bw.Fits (codedState.sourceSymbols.flatMap fun x => (bookEntry codedState.hf.book x).bits).length ∧
      codedState.mem.wf = true) ∧
    (let s := { codedState with mem := Memory.setBytes [] 0x600 [0x35], hf := { heldTree with srcLen := 1 } };
      s.sourceSymbols = [5] ++ 3 :: [] ∧ (∀ y ∈ [5], (bookEntry s.hf.book y).len ≠ 0) ∧
      (bookEntry s.hf.book 3).len = 0 ∧ s.bw.Fits ([5].flatMap fun y => (bookEntry s.hf.book y).bits).length ∧
      [5].length < 2 ^ 32) ∧
    (let s := { codedState with hf := { heldTree with srcLen := 1 }, bw := { codedState.bw with pos := 2, bits := 6 } };
      s.WriterReady ∧ s.bw.Sound ∧ s.bw.window.Apart s.hf.srcWindow ∧ s.sourceSymbols = [0xA] ++ 5 :: [] ∧
      (∀ y ∈ [0xA] ++ [5], (bookEntry s.hf.book y).len ≠ 0) ∧
      s.bw.Fits ([0xA].flatMap fun y => (bookEntry s.hf.book y).bits).length ∧
      ¬ s.bw.Fits (([0xA] ++ [5]).flatMap fun y => (bookEntry s.hf.book y).bits).length) := by
  decide +kernel

theorem witness_HfDecodeReadsSymbol :
    (codedState.hf.state.valid = true ∧ codedState.ReaderReady ∧ codedState.br.Sound ∧ codedState.hf.nodes ≠ 0) ∧
    ((walkBits codedState.hf.tree codedState.hf.root.toNat codedState.unreadBits).any fun r => !r.1.synth) = true ∧
    ((walkBits loneState.hf.tree loneState.hf.root.toNat loneState.unreadBits).any fun r => r.1.synth) = true ∧
    (let s := { codedState with br := { codedState.br with len := 0 } };
      walkBits s.hf.tree s.hf.root.toNat s.unreadBits = none ∧ s.hf.root.toNat < s.hf.tree.length ∧
      ∀ n ∈ s.hf.tree, n.leaf = false → n.left.toNat < s.hf.tree.length ∧ n.right.toNat < s.hf.tree.length) := by
  decide +kernel

theorem witness_HfDecodeBufFillsOutput :
    (codedState.hf.state.valid = true ∧ codedState.ReaderReady ∧ codedState.hf.dstWindow.Inside codedState.params.memSize ∧
      codedState.hf.dstWindow.Apart codedState.br.window ∧ codedState.br.Sound ∧ codedState.hf.nodes ≠ 0 ∧
      codedState.mem.wf = true) ∧
    ((walkMany codedState.hf.tree codedState.hf.root.toNat 8 codedState.unreadBits).any fun r =>
      decide ((packSymbols codedState.hf.cfg r.1).length ≤ codedState.hf.dstCap.toNat)) = true ∧
    ((walkMany codedState.hf.tree codedState.hf.root.toNat 2 codedState.unreadBits).isSome = true ∧
      (∀ j < 2, codedState.hf.cfg.byteIndex j < 1) ∧ 1 ≤ codedState.hf.cfg.byteIndex 2) ∧
    ((∀ j ≤ 0, loneState.hf.cfg.byteIndex j < loneState.hf.dstCap.toNat) ∧
      loneState.ReaderReady ∧ loneState.hf.dstWindow.Apart loneState.br.window ∧ loneState.mem.wf = true ∧
      (walkMany loneState.hf.tree loneState.hf.root.toNat 0 loneState.unreadBits).isSome = true ∧
      (walkBits loneState.hf.tree loneState.hf.root.toNat loneState.unreadBits).any (fun r => r.1.synth) = true) ∧
    (let s := { codedState with hf := { codedState.hf with dstCap := 5 } };
      s.hf.dstWindow.Inside s.params.memSize ∧ s.hf.dstWindow.Apart s.br.window ∧ (∀ j ≤ 8, s.hf.cfg.byteIndex j < s.hf.dstCap.toNat) ∧
      (walkMany s.hf.tree s.hf.root.toNat 8 s.unreadBits).map (fun r => r.2) = some [] ∧
      walkBits s.hf.tree s.hf.root.toNat [] = none ∧ s.hf.root.toNat < s.hf.tree.length ∧
      ∀ n ∈ s.hf.tree, n.leaf = false → n.left.toNat < s.hf.tree.length ∧ n.right.toNat < s.hf.tree.length) := by decide +kernel

/-- The held tree of A4 reads its codes back. -/
theorem heldTree_readsBack : heldTree.ReadsBack := by
  intro e he
  simp only [heldTree, List.mem_cons, List.not_mem_nil, or_false] at he
  rcases he with rfl | rfl
  · refine ⟨by decide, fun rest => ?_⟩
    cases rest <;> exact ⟨_, rfl, rfl, rfl⟩
  · refine ⟨by decide, fun rest => ?_⟩
    cases rest <;> exact ⟨_, rfl, rfl, rfl⟩

/-- Encoding and flushing that end without error. -/
def encodedFlushed (s : State) : Option State :=
  (after .bwReset s).bind fun s1 => (after .hfEncodeBuf s1).bind fun s2 => if s2.status.err then none else after .bwFlush s2

theorem encodedFlushed_cases {s : State} {p : State → Bool} (h : (encodedFlushed s).any p = true) :
    ∃ s1 s2 s3, exec .bwReset s = .next s1 ∧ exec .hfEncodeBuf s1 = .next s2 ∧ s2.status.err = false ∧
      exec .bwFlush s2 = .next s3 ∧ p s3 = true := by
  unfold encodedFlushed at h
  cases h1 : after .bwReset s with
  | none => rw [h1] at h; cases h
  | some s1 =>
    rw [h1] at h
    simp only [Option.bind_some] at h
    cases h2 : after .hfEncodeBuf s1 with
    | none => rw [h2] at h; cases h
    | some s2 =>
      rw [h2] at h
      simp only [Option.bind_some] at h
      cases he : s2.status.err with
      | true => rw [he] at h; cases h
      | false =>
        rw [he] at h
        obtain ⟨s3, h3, hp⟩ := next_of_after h
        exact ⟨s1, s2, s3, after_eq_some h1, after_eq_some h2, he, h3, hp⟩

theorem witness_HuffmanRoundTrip :
    codedState.mem.wf = true ∧ codedState.status.err = false ∧ codedState.hf.state.valid = true ∧
    codedState.hf.ReadsBack ∧ codedState.hf.nodes.toNat = codedState.hf.tree.length ∧
    codedState.sourceSymbols.length < 2 ^ 32 ∧ codedState.hf.srcLen.toNat ≤ codedState.hf.dstCap.toNat ∧
    ∃ s1 s2 s3, exec .bwReset codedState = .next s1 ∧ exec .hfEncodeBuf s1 = .next s2 ∧ s2.status.err = false ∧
      exec .bwFlush s2 = .next s3 ∧
      decide (s3.status.err = false ∧
        (s3.pointReader codedState.bw.cfg codedState.bw.base s3.bw.pos).hf.dstWindow.Inside codedState.params.memSize ∧
        (s3.pointReader codedState.bw.cfg codedState.bw.base s3.bw.pos).hf.dstWindow.Apart
          (s3.pointReader codedState.bw.cfg codedState.bw.base s3.bw.pos).br.window) = true :=
  ⟨by decide +kernel, by decide +kernel, by decide +kernel, heldTree_readsBack, by decide +kernel, by decide +kernel,
   by decide +kernel,
   encodedFlushed_cases (p := fun s3 => decide (s3.status.err = false ∧
        (s3.pointReader codedState.bw.cfg codedState.bw.base s3.bw.pos).hf.dstWindow.Inside codedState.params.memSize ∧
        (s3.pointReader codedState.bw.cfg codedState.bw.base s3.bw.pos).hf.dstWindow.Apart
          (s3.pointReader codedState.bw.cfg codedState.bw.base s3.bw.pos).br.window)) (by decide +kernel)⟩

theorem witness_ExLitAppends :
    expandState.ExReady ∧ expandState.mem.wf = true ∧
    expandState.ex.pos.toNat + expandState.ex.unit.bytes ≤ 3 ∧ 2 < expandState.ex.pos.toNat + expandState.ex.unit.bytes := by
  decide +kernel

theorem witness_ExMatchAppends :
    expandState.ExReady ∧ expandState.ex.MatchOk 2 8 ∧ expandState.ex.pos.toNat + 8 ≤ expandState.ex.outCap.toNat ∧
    expandState.mem.wf = true ∧ ¬ expandState.ex.MatchOk 3 8 ∧ expandState.ex.outCap.toNat < expandState.ex.pos.toNat + 9 := by
  decide +kernel

/-- Whether every token of a list is accepted. -/
def acceptsAll (e : Expander) : List TokenWords → Bool
  | [] => true
  | t :: ts => decide (e.Accepts t) && acceptsAll (e.advance t) ts

theorem acceptsAll_sound {e : Expander} {ts : List TokenWords} (h : acceptsAll e ts = true) : e.AcceptsAll ts := by
  induction ts generalizing e with
  | nil => exact trivial
  | cons t ts ih =>
    simp only [acceptsAll, Bool.and_eq_true, decide_eq_true_eq] at h
    exact ⟨h.1, ih h.2⟩

theorem witness_ExStreamExpands :
    (streamState.ExStreamReady ∧ streamState.mem.wf = true) ∧ streamState.ex.AcceptsAll streamState.tokenList ∧
    (let s := { streamState with ex := { streamState.ex with outCap := 9 } };
      s.ExStreamReady ∧ s.tokenList = [⟨0, 0, 0x41, 1⟩, ⟨0, 1, 0x42, 1⟩] ++ ⟨1, 2, 2, 8⟩ :: [] ∧
      ¬ ([⟨0, 0, 0x41, 1⟩, ⟨0, 1, 0x42, 1⟩].foldl Expander.advance s.ex).Accepts ⟨1, 2, 2, 8⟩) ∧
    ({ streamState.ex with outCap := 9 } : Expander).AcceptsAll [⟨0, 0, 0x41, 1⟩, ⟨0, 1, 0x42, 1⟩] :=
  ⟨by decide +kernel, acceptsAll_sound (by decide +kernel), by decide +kernel, acceptsAll_sound (by decide +kernel)⟩

end Sys2Proof.Tests
end

section
/-! What each command can do, whatever state it starts in: it ends with or without an error, changes only its own registers, and only bytes of its own valid write windows (R36, R103, R105, R424). -/

namespace Sys2Proof.Machine

/-- A canonical memory lists only addresses below n exactly when every address from n on reads as unlisted. -/
theorem Memory.below_iff_get {lo n : Nat} {m : Memory} (hm : wfFrom lo m = true) :
    m.below n = true ↔ ∀ a, n ≤ a → m.get a = unlisted := by
  induction m generalizing lo with
  | nil => simp
  | cons c m ih =>
    obtain ⟨k, b⟩ := c
    obtain ⟨-, hb, hm'⟩ := wfFrom_cons.1 hm
    rw [below_cons, ih hm']
    constructor
    · rintro ⟨hk, h⟩ a ha
      rw [get_cons, if_neg (by omega), h a ha]
    · intro h
      have hk : k < n := by
        by_contra hk
        exact hb (by simpa [get_cons] using h k (by omega))
      refine ⟨hk, fun a ha => ?_⟩
      simpa [get_cons, show k ≠ a by omega] using h a ha

/-- From m to m' the canonical form is kept, and every byte that changed lies in a valid one of the windows ws (20_memory.md R103, R105). -/
structure Memory.WritesWithin (n : Nat) (ws : List Window) (m m' : Memory) : Prop where
  wf : m.wf = true → m'.wf = true
  changed : ∀ a, m'.get a ≠ m.get a → ∃ w ∈ ws, w.Inside n ∧ w.Holds a

namespace Memory.WritesWithin

variable {n : Nat} {ws : List Window} {m m' m'' : Memory}

theorem refl (n : Nat) (ws : List Window) (m : Memory) : WritesWithin n ws m m := ⟨id, fun _ h => absurd rfl h⟩

theorem trans (h : WritesWithin n ws m m') (h' : WritesWithin n ws m' m'') : WritesWithin n ws m m'' where
  wf := h'.wf ∘ h.wf
  changed a ha := by
    by_cases hm : m'.get a = m.get a
    · exact h'.changed a (by rwa [hm])
    · exact h.changed a hm

/-- A change that leaves every byte outside one valid window alone. -/
theorem of_window {w : Window} (hw : w ∈ ws) (hin : w.Inside n) (hwf : m.wf = true → m'.wf = true)
    (hout : ∀ a, ¬ w.Holds a → m'.get a = m.get a) : WritesWithin n ws m m' where
  wf := hwf
  changed a ha := ⟨w, hw, hin, by_contra fun h => ha (hout a h)⟩

/-- Bytes that lie in valid windows exist, so no address from n on becomes listed. -/
theorem below (h : WritesWithin n ws m m') (hm : m.wf = true) (hb : m.below n = true) : m'.below n = true := by
  rw [Memory.below_iff_get (h.wf hm)]
  intro a ha
  have hsame : m'.get a = m.get a := by
    by_contra hne
    obtain ⟨w, -, hin, hlo, hhi⟩ := h.changed a hne
    omega
  rw [hsame, (Memory.below_iff_get hm).1 hb a ha]

/-- Storing words that fit a valid window. -/
theorem setWords {w : Window} (hw : w ∈ ws) (hin : w.Inside n) (m : Memory) {vs : List Word}
    (h : 4 * vs.length ≤ w.len) : WritesWithin n ws m (m.setWords w.base vs) :=
  .of_window hw hin (fun hm => wf_setWords hm _ _) fun a ha =>
    get_setWords_of_outside _ _ (by simp only [Window.Holds] at ha; omega)

/-- A valid window's bytes left at any value. -/
theorem havoc {w : Window} (hw : w ∈ ws) (hin : w.Inside n) (m : Memory) (c : Nat) :
    WritesWithin n ws m (m.havoc c w.base w.len) :=
  .of_window hw hin (fun hm => wf_havoc hm _ _ _) fun a ha =>
    get_havoc_of_outside _ _ (by simp only [Window.Holds] at ha; omega)

end Memory.WritesWithin

/-! ## How a command ends -/

/-- The command answers a state of P with only STATUS and ERR_POS set as R182 or R424 says. -/
def EndsIn (P : State → Prop) (o : Host.Outcome State Fault Refusal) : Prop :=
  ∃ u, P u ∧ (o = .next u.complete ∨ ∃ e, o = .next (u.raise e))

namespace EndsIn

variable {P : State → Prop} {s : State}

theorem complete (h : P s) : EndsIn P (.next s.complete) := ⟨s, h, .inl rfl⟩

theorem raise (h : P s) (e : Err) : EndsIn P (.next (s.raise e)) := ⟨s, h, .inr ⟨e, rfl⟩⟩

/-- A start check that fails leaves the state itself; the body runs only when each check passed. -/
theorem checked {cs : List (Option Err)} {body : Host.Outcome State Fault Refusal} (h : P s)
    (hbody : firstErr cs = none → EndsIn P body) : EndsIn P (s.checked cs body) := by
  obtain ⟨e, -, hc⟩ | ⟨hcs, hc⟩ := checked_cases s cs body
  · rw [hc]
    exact raise h e
  · rw [hc]
    exact hbody hcs

/-- The state a command answers is that of its effect but for STATUS and ERR_POS. -/
theorem cases {o : Host.Outcome State Fault Refusal} {t : State} (h : EndsIn P o) (ht : o = .next t) :
    ∃ u, P u ∧ (t = u.complete ∨ ∃ e, t = u.raise e) := by
  obtain ⟨u, hu, hend | ⟨e, hend⟩⟩ := h
  · exact ⟨u, hu, .inl (Host.Outcome.next.inj (ht.symm.trans hend))⟩
  · exact ⟨u, hu, .inr ⟨e, Host.Outcome.next.inj (ht.symm.trans hend)⟩⟩

end EndsIn

/-! ## What each command can change -/

/-- The registers and the held tree a command can change, before STATUS and ERR_POS: a state of the form given here. -/
def RegEffect (s : State) (i : Instr) (u : State) : Prop :=
  match i with
  | .nop => u = s
  | .brReset | .brAlign => ReadsFrom s u
  | .brRead _ | .brReadInt _ | .hfDecode => ∃ r, ReadsFrom { s with result := r } u
  | .bwReset | .bwWrite _ | .bwFlush | .bwWriteInt _ | .hfEncode | .hfEncodeBuf =>
    ∃ m p b f k, u = { s with mem := m, bw := { s.bw with pos := p, bits := b, buf := f }, anyCount := k }
  | .mfFind => ∃ m r k, u = { s with mem := m, result := r, anyCount := k }
  | .lzParse => ∃ m c lo hi k,
    u = { s with mem := m, mf := { s.mf with tokCount := c, costLo := lo, costHi := hi }, anyCount := k }
  | .hfCount => ∃ m, u = { s with mem := m }
  | .hfBuild | .hfLoad => ∃ m root nodes st tree book,
    u = { s with mem := m, hf := { s.hf with root := root, nodes := nodes, state := st, tree := tree, book := book } }
  | .hfDecodeBuf => ∃ m p, ReadsFrom { s with mem := m, hf := { s.hf with dstPos := p } } u
  | .exReset | .exLit | .exMatch | .exStream =>
    ∃ m p k, u = { s with mem := m, ex := { s.ex with pos := p }, anyCount := k }

/-- What a command can change before STATUS and ERR_POS: its registers, and bytes of its valid write windows. -/
structure Effect (s : State) (i : Instr) (u : State) : Prop where
  regs : RegEffect s i u
  mem : s.mem.WritesWithin s.params.memSize (writeWindows s i) u.mem

/-- Every command may change nothing. -/
theorem RegEffect.refl (s : State) (i : Instr) : RegEffect s i s :=
  match i with
  | .nop => rfl
  | .brReset | .brAlign => ReadsFrom.refl s
  | .brRead _ | .brReadInt _ | .hfDecode => ⟨_, ReadsFrom.refl s⟩
  | .bwReset | .bwWrite _ | .bwFlush | .bwWriteInt _ | .hfEncode | .hfEncodeBuf => ⟨_, _, _, _, _, rfl⟩
  | .mfFind => ⟨_, _, _, rfl⟩
  | .lzParse => ⟨_, _, _, _, _, rfl⟩
  | .hfCount => ⟨_, rfl⟩
  | .hfBuild | .hfLoad => ⟨_, _, _, _, _, _, rfl⟩
  | .hfDecodeBuf => ⟨_, _, ReadsFrom.refl s⟩
  | .exReset | .exLit | .exMatch | .exStream => ⟨_, _, _, rfl⟩

theorem Effect.refl (s : State) (i : Instr) : Effect s i s := ⟨.refl s i, .refl _ _ _⟩

/-- A command that leaves memory alone. -/
theorem Effect.of_mem_eq {s u : State} {i : Instr} (hr : RegEffect s i u) (hm : u.mem = s.mem) : Effect s i u :=
  ⟨hr, hm ▸ .refl _ _ _⟩

theorem ReadsFrom.mem_eq {s t : State} (h : ReadsFrom s t) : t.mem = s.mem := by
  obtain ⟨_, _, _, _, rfl⟩ := h
  rfl

/-! ## Reader commands -/

theorem execBrReset_endsIn (s : State) : EndsIn (Effect s .brReset) (execBrReset s) :=
  .complete (.of_mem_eq ⟨_, _, _, _, rfl⟩ rfl)

theorem execBrAlign_endsIn (s : State) : EndsIn (Effect s .brAlign) (execBrAlign s) :=
  .complete (.of_mem_eq ⟨_, _, _, _, rfl⟩ rfl)

theorem execBrRead_endsIn (n : BitVec 6) (s : State) : EndsIn (Effect s (.brRead n)) (execBrRead n s) := by
  refine .checked (.refl s _) fun _ => ?_
  split
  · exact .raise (.of_mem_eq ⟨_, _, _, _, _, rfl⟩ rfl) _
  · next bs t h =>
    obtain ⟨_, _, _, _, rfl⟩ := (readBits_readsFrom _ s).2 bs t h
    exact .complete (.of_mem_eq ⟨_, _, _, _, _, rfl⟩ rfl)

theorem execBrReadInt_endsIn (w : BitVec 2) (s : State) : EndsIn (Effect s (.brReadInt w)) (execBrReadInt w s) := by
  refine .checked (.refl s _) fun _ => ?_
  split
  · exact .raise (.of_mem_eq ⟨_, _, _, _, _, rfl⟩ rfl) _
  · exact .complete (.of_mem_eq ⟨word _, word _, s.br.bits, s.br.buf, _, rfl⟩ rfl)

theorem execHfDecode_endsIn (s : State) : EndsIn (Effect s .hfDecode) (execHfDecode s) := by
  refine .checked (.refl s _) fun _ => ?_
  split
  · exact .raise (.of_mem_eq ⟨_, _, _, _, _, rfl⟩ rfl) _
  · next sym t h =>
    obtain ⟨_, _, _, _, rfl⟩ := decodeSymbol_readsFrom _ h
    exact .complete (.of_mem_eq ⟨_, _, _, _, _, rfl⟩ rfl)

/-! ## Writer commands -/

theorem WritesInto.countFrom (s f : State) : WritesInto s (s.countFrom f) := ⟨_, _, _, _, _, rfl, id, fun _ _ => rfl⟩

theorem WritesInto.nextAny {s t : State} (h : WritesInto s t) : WritesInto s t.nextAny := by
  obtain ⟨m, p, b, f, k, rfl, hm⟩ := h
  exact ⟨m, p, b, f, k + 1, rfl, hm⟩

theorem WritesInto.anyWriter (s : State) : WritesInto s s.anyWriter := ⟨_, _, _, _, _, rfl, id, fun _ _ => rfl⟩

/-- The bytes left at any value from `start` on lie in the writer's window. -/
theorem WritesInto.anyWritten (s : State) (start : Nat) (f : State) : WritesInto s (s.anyWritten start f) := by
  refine ⟨_, _, _, _, _, rfl, fun h => Memory.wf_havoc h _ _ _, fun a ha => Memory.get_havoc_of_outside _ _ ?_⟩
  simp only [Window.Holds, Writer.window] at ha
  omega

theorem WritesInto.anyWindow (s : State) : WritesInto s (s.anyWindow s.bw.window).anyWriter := by
  refine ⟨_, _, _, _, _, rfl, fun h => Memory.wf_havoc h _ _ _, fun a ha => Memory.get_havoc_of_outside _ _ ?_⟩
  simp only [Window.Holds] at ha
  omega

theorem WritesInto.anyWindowWritten (s f : State) : WritesInto s (s.anyWindowWritten f) := by
  unfold State.anyWindowWritten
  split
  · exact .anyWindow s
  · exact .anyWritten s 0 f

/-- Storing bytes that fit the window at BW_POS. -/
theorem WritesInto.setBytes (s : State) {bs : List Byte} (p : Word) (h : s.bw.pos.toNat + bs.length ≤ s.bw.cap.toNat) :
    WritesInto s { s with
      mem := s.mem.setBytes (s.bw.base.toNat + s.bw.pos.toNat) bs, bw := { s.bw with pos := p } } := by
  refine ⟨_, p, s.bw.bits, s.bw.buf, _, rfl, fun hm => Memory.wf_setBytes hm _ _, fun a ha =>
    Memory.get_setBytes_of_outside _ _ ?_⟩
  simp only [Window.Holds, Writer.window] at ha
  omega

/-- What a command of the bit writer does is its effect, once its window is valid. -/
theorem WritesInto.effect {s u : State} {i : Instr} (h : WritesInto s u) (hin : s.WriterReady)
    (hw : writeWindows s i = [s.bw.window])
    (hr : RegEffect s i u = ∃ m p b f k,
      u = { s with mem := m, bw := { s.bw with pos := p, bits := b, buf := f }, anyCount := k }) :
    Effect s i u := by
  obtain ⟨m, p, b, f, k, hu, hm, hout⟩ := h
  refine ⟨hr ▸ ⟨m, p, b, f, k, hu⟩, ?_⟩
  rw [hw, hu]
  exact .of_window (List.mem_singleton_self _) hin hm hout

theorem execBwReset_endsIn (s : State) : EndsIn (Effect s .bwReset) (execBwReset s) :=
  .complete (.of_mem_eq ⟨_, _, _, _, _, rfl⟩ rfl)

theorem execBwWrite_endsIn (n : BitVec 6) (s : State) : EndsIn (Effect s (.bwWrite n)) (execBwWrite n s) := by
  refine .checked (.refl s _) fun hc => ?_
  simp only [firstErr_cons_eq_none, windowErr_eq_none] at hc
  obtain ⟨-, hin, -⟩ := hc
  split
  · next f _ => exact .raise (((WritesInto.countFrom s f).trans (.anyWritten _ _ f)).nextAny.effect hin rfl rfl) _
  · next t h => exact .complete (((putBits_writesInto _ s).2 t h).effect hin rfl rfl)

theorem execBwFlush_endsIn (s : State) : EndsIn (Effect s .bwFlush) (execBwFlush s) := by
  refine .checked (.refl s _) fun hc => ?_
  simp only [firstErr_cons_eq_none, windowErr_eq_none] at hc
  obtain ⟨hin, -⟩ := hc
  split
  · exact .complete (.refl s _)
  · obtain ⟨-, h⟩ | ⟨-, t, h, ht⟩ := emitUnit_cases s
    · rw [h]
      dsimp only
      split
      · exact .raise ((WritesInto.anyWindowWritten s s).nextAny.effect hin rfl rfl) _
      · exact .raise ((WritesInto.anyWriter s).nextAny.effect hin rfl rfl) _
    · rw [h]
      exact .complete (ht.effect hin rfl rfl)

theorem execBwWriteInt_endsIn (w : BitVec 2) (s : State) : EndsIn (Effect s (.bwWriteInt w)) (execBwWriteInt w s) := by
  refine .checked (.refl s _) fun hc => ?_
  simp only [firstErr_cons_eq_none, windowErr_eq_none] at hc
  obtain ⟨-, -, hin, -⟩ := hc
  split
  · exact .raise (.refl s _) _
  · next hroom =>
    refine .complete ((WritesInto.setBytes s _ ?_).effect hin rfl rfl)
    rw [Memory.length_valueBytes]
    omega

theorem execHfEncode_endsIn (s : State) : EndsIn (Effect s .hfEncode) (execHfEncode s) := by
  refine .checked (.refl s _) fun hc => ?_
  simp only [firstErr_cons_eq_none, windowErr_eq_none] at hc
  obtain ⟨-, hin, -⟩ := hc
  dsimp only
  split
  · exact .raise ((WritesInto.anyWindow s).nextAny.effect hin rfl rfl) _
  · split
    · next f _ => exact .raise (((WritesInto.countFrom s f).trans (.anyWindowWritten _ f)).nextAny.effect hin rfl rfl) _
    · next t h => exact .complete (((emitCode_writesInto s _).2 t h).effect hin rfl rfl)

theorem execHfEncodeBuf_endsIn (s : State) : EndsIn (Effect s .hfEncodeBuf) (execHfEncodeBuf s) := by
  refine .checked (.refl s _) fun hc => ?_
  simp only [firstErr_cons_eq_none, windowErr_eq_none] at hc
  obtain ⟨-, -, hin, -⟩ := hc
  split
  · next f _ => exact .raise (((WritesInto.countFrom s f).trans (.anyWritten _ _ f)).nextAny.effect hin rfl rfl) _
  · next t h => exact .complete (((encodeSymbols_writesInto _ s 0).2 t h).effect hin rfl rfl)

/-! ## Finder, parser and counting -/

theorem Candidate.length_flatMap_words (cs : List Candidate) : (cs.flatMap Candidate.words).length = 4 * cs.length := by
  simp [List.length_flatMap, Candidate.words, Nat.mul_comm]

theorem Token.length_flatMap_words (ts : List Token) : (ts.flatMap Token.words).length = 4 * ts.length := by
  simp [List.length_flatMap, Token.words, Nat.mul_comm]

theorem Node.length_flatMap_words (ns : List Node) : (ns.flatMap Node.words).length = 4 * ns.length := by
  simp [List.length_flatMap, Node.words, Nat.mul_comm]

theorem execMfFind_endsIn (s : State) : EndsIn (Effect s .mfFind) (execMfFind s) := by
  refine .checked (.refl s _) fun hc => ?_
  obtain ⟨-, -, -, hin, -⟩ : s.FinderReady s.mf.candWindow := finderChecks_eq_none.1 (firstErr_eq_none.2
    fun c hm => firstErr_eq_none.1 hc c (List.mem_append_left _ hm))
  dsimp only
  split
  · exact .raise ⟨⟨_, _, _, rfl⟩, .havoc (List.mem_singleton_self _) hin _ _⟩ _
  · next hroom =>
    refine .complete ⟨⟨_, _, _, rfl⟩, .setWords (w := s.mf.candWindow) (List.mem_singleton_self _) hin _ ?_⟩
    rw [Candidate.length_flatMap_words]
    simp only [Finder.candWindow]
    omega

theorem execLzParse_endsIn (s : State) : EndsIn (Effect s .lzParse) (execLzParse s) := by
  refine .checked (.refl s _) fun hc => ?_
  obtain ⟨-, -, -, hin, -⟩ := finderChecks_eq_none.1 hc
  dsimp only
  split
  · exact .raise ⟨⟨_, _, _, _, _, rfl⟩, .havoc (List.mem_singleton_self _) hin _ _⟩ _
  · next hroom =>
    refine .complete ⟨⟨_, _, _, _, _, rfl⟩, .setWords (w := s.mf.tokWindow) (List.mem_singleton_self _) hin _ ?_⟩
    rw [Token.length_flatMap_words]
    simp only [Finder.tokWindow]
    omega

theorem execHfCount_endsIn (s : State) : EndsIn (Effect s .hfCount) (execHfCount s) := by
  refine .checked (.refl s _) fun hc => ?_
  simp only [firstErr_cons_eq_none, windowErr_eq_none] at hc
  obtain ⟨-, hin, -⟩ := hc
  refine .complete ⟨⟨_, rfl⟩, .setWords (w := s.hf.freqWindow) (List.mem_singleton_self _) hin _ ?_⟩
  simp [frequencies, Huffman.freqWindow]

/-! ## The expander -/

/-- A change of bytes of the output window and of EX_POS. -/
def ExpandsInto (s t : State) : Prop :=
  ∃ m p, t = { s with mem := m, ex := { s.ex with pos := p } } ∧ (s.mem.wf = true → m.wf = true) ∧
    ∀ a, ¬ s.ex.outWindow.Holds a → m.get a = s.mem.get a

theorem ExpandsInto.refl (s : State) : ExpandsInto s s := ⟨_, _, rfl, id, fun _ _ => rfl⟩

theorem ExpandsInto.trans {s t u : State} : ExpandsInto s t → ExpandsInto t u → ExpandsInto s u := by
  rintro ⟨m, _, rfl, hw, hm⟩ ⟨m', p, rfl, hw', hm'⟩
  exact ⟨m', p, rfl, fun h => hw' (hw h), fun a ha => (hm' a ha).trans (hm a ha)⟩

/-- An output position below the capacity has its address in the output window, in either direction (R390). -/
theorem Expander.outWindow_holds_outAddr (e : Expander) {w : Nat} (h : w < e.outCap.toNat) :
    e.outWindow.Holds (e.outAddr w) := by
  unfold Expander.outAddr Expander.outWindow Window.Holds
  cases e.direction <;> simp only <;> omega

theorem Expander.le_of_lacksRoom_eq_false {e : Expander} {len : Nat} (h : e.lacksRoom len = false) :
    e.pos.toNat + len ≤ e.outCap.toNat := by
  simpa [Expander.lacksRoom] using h

theorem length_literalBytes (u : UnitSize) (v : Word) : (literalBytes u v).length = u.bytes := by cases u <;> rfl

theorem ExpandsInto.appendLiteral {s : State} (v : Word) (h : s.ex.pos.toNat + s.ex.unit.bytes ≤ s.ex.outCap.toNat) :
    ExpandsInto s (s.appendLiteral v) := by
  refine ⟨_, _, rfl, fun hm => wf_appendBytes _ hm _ _, fun a ha => get_appendBytes_of_ne _ _ _ fun j hj hja => ha ?_⟩
  rw [length_literalBytes] at hj
  exact hja ▸ s.ex.outWindow_holds_outAddr (by omega)

theorem ExpandsInto.appendMatch {s : State} (d : Nat) {len : Nat} (h : s.ex.pos.toNat + len ≤ s.ex.outCap.toNat) :
    ExpandsInto s (s.appendMatch d len) := by
  refine ⟨_, _, rfl, fun hm => wf_copyBytes _ _ _ _ hm, fun a ha => get_copyBytes_of_ne _ _ _ _ _ fun j hj hja => ha ?_⟩
  exact hja ▸ s.ex.outWindow_holds_outAddr (by omega)

/-- An accepted token has room in the output (R394). -/
theorem expandToken_expandsInto {s t : State} {k pos x len : Word} (h : s.expandToken k pos x len = .ok t) :
    ExpandsInto s t := by
  unfold State.expandToken at h
  dsimp only at h
  split at h
  · cases h
  · split at h
    · split at h
      · cases h
      · split at h
        · cases h
        · next hroom =>
          split at h
          · cases h
          · cases h
            exact .appendLiteral x (Expander.le_of_lacksRoom_eq_false (by simpa using hroom))
    · split at h
      · cases h
      · split at h
        · cases h
        · next hroom =>
          split at h
          · cases h
          · cases h
            exact .appendMatch _ (Expander.le_of_lacksRoom_eq_false (by simpa using hroom))

theorem expandStream_expandsInto (n i : Nat) {s t : State} (h : expandStream n i s = .ok t) : ExpandsInto s t := by
  induction n generalizing i s with
  | zero => cases h; exact .refl _
  | succ n ih =>
    rw [expandStream] at h
    split at h
    · cases h
    · next s1 h1 => exact (expandToken_expandsInto h1).trans (ih _ h)

theorem ExpandsInto.effect {s u : State} {i : Instr} (h : ExpandsInto s u) (hin : s.ex.outWindow.Inside s.params.memSize)
    (hw : writeWindows s i = [s.ex.outWindow])
    (hr : RegEffect s i u = ∃ m p k, u = { s with mem := m, ex := { s.ex with pos := p }, anyCount := k }) :
    Effect s i u := by
  obtain ⟨m, p, hu, hm, hout⟩ := h
  refine ⟨hr ▸ ⟨m, p, s.anyCount, hu⟩, ?_⟩
  rw [hw, hu]
  exact .of_window (List.mem_singleton_self _) hin hm hout

theorem execExReset_endsIn (s : State) : EndsIn (Effect s .exReset) (execExReset s) :=
  .complete (.of_mem_eq ⟨_, _, _, rfl⟩ rfl)

theorem execExLit_endsIn (s : State) : EndsIn (Effect s .exLit) (execExLit s) := by
  refine .checked (.refl s _) fun hc => ?_
  obtain ⟨-, hin, -⟩ := expanderChecks_eq_none.1 hc
  split
  · exact .raise (.refl s _) _
  · next hroom =>
    exact .complete ((ExpandsInto.appendLiteral _ (Expander.le_of_lacksRoom_eq_false (by simpa using hroom))).effect
      hin rfl rfl)

theorem execExMatch_endsIn (s : State) : EndsIn (Effect s .exMatch) (execExMatch s) := by
  refine .checked (.refl s _) fun hc => ?_
  obtain ⟨-, hin, -⟩ := expanderChecks_eq_none.1 hc
  split
  · exact .raise (.refl s _) _
  · split
    · exact .raise (.refl s _) _
    · next hroom =>
      exact .complete ((ExpandsInto.appendMatch _ (Expander.le_of_lacksRoom_eq_false (by simpa using hroom))).effect
        hin rfl rfl)

theorem execExStream_endsIn (s : State) : EndsIn (Effect s .exStream) (execExStream s) := by
  refine .checked (.refl s _) fun hc => ?_
  obtain ⟨⟨-, hin, -⟩, -⟩ := expanderStreamChecks_eq_none.1 hc
  split
  · exact .raise ⟨⟨_, _, _, rfl⟩, .havoc (List.mem_singleton_self _) hin _ _⟩ _
  · next t h => exact .complete ((expandStream_expandsInto _ _ h).effect hin rfl rfl)

/-! ## Decoding into a buffer -/

/-- A change of the reader's stream state, of HF_DST_POS and of bytes of the destination window. -/
def DecodesInto (s t : State) : Prop :=
  ∃ m d, ReadsFrom { s with mem := m, hf := { s.hf with dstPos := d } } t ∧ (s.mem.wf = true → m.wf = true) ∧
    ∀ a, ¬ s.hf.dstWindow.Holds a → m.get a = s.mem.get a

theorem DecodesInto.of_readsFrom {s t : State} (h : ReadsFrom s t) : DecodesInto s t :=
  ⟨_, _, h, id, fun _ _ => rfl⟩

theorem DecodesInto.trans {s t u : State} : DecodesInto s t → DecodesInto t u → DecodesInto s u := by
  rintro ⟨m, _, ⟨_, _, _, _, rfl⟩, hw, hm⟩ ⟨m', d, ⟨p, b, f, k, rfl⟩, hw', hm'⟩
  exact ⟨m', d, ⟨p, b, f, k, rfl⟩, fun h => hw' (hw h), fun a ha => (hm' a ha).trans (hm a ha)⟩

/-- Setting HF_DST_POS, before the first symbol. -/
theorem DecodesInto.setDstPos (s : State) (d : Word) : DecodesInto s { s with hf := { s.hf with dstPos := d } } :=
  ⟨_, d, .refl _, id, fun _ _ => rfl⟩

/-- Storing the output byte of a symbol that fits the window (R355). -/
theorem DecodesInto.set (s : State) {j : Nat} (hj : j < s.hf.dstCap.toNat) (v : Byte) (d : Word) :
    DecodesInto s { s with mem := s.mem.set (s.hf.dstBase.toNat + j) v, hf := { s.hf with dstPos := d } } := by
  refine ⟨_, d, .refl _, fun hm => Memory.wf_set hm _ _, fun a ha => Memory.get_set_ne _ _ ?_⟩
  simp only [Window.Holds, Huffman.dstWindow] at ha
  omega

theorem decodeSymbols_decodesInto (n k : Nat) {s t : State} (h : decodeSymbols n k s = .ok t) : DecodesInto s t := by
  induction n generalizing k s with
  | zero => cases h; exact .of_readsFrom (.refl _)
  | succ n ih =>
    rw [decodeSymbols] at h
    dsimp only at h
    split at h
    · cases h
    · next hroom =>
      split at h
      · cases h
      · next sym s1 h1 =>
        have hread := decodeSymbol_readsFrom _ h1
        have hcap : s.hf.cfg.byteIndex k < s1.hf.dstCap.toNat := by
          obtain ⟨_, _, _, _, rfl⟩ := hread
          exact Nat.lt_of_not_le hroom
        exact (DecodesInto.of_readsFrom hread).trans ((DecodesInto.set s1 hcap _ _).trans (ih _ h))

theorem DecodesInto.effect {s u : State} (h : DecodesInto s u) (hin : s.hf.dstWindow.Inside s.params.memSize) :
    Effect s .hfDecodeBuf u := by
  obtain ⟨m, d, hread, hm, hout⟩ := h
  refine ⟨⟨m, d, hread⟩, ?_⟩
  rw [hread.mem_eq]
  exact .of_window (List.mem_singleton_self _) hin hm hout

theorem execHfDecodeBuf_endsIn (s : State) : EndsIn (Effect s .hfDecodeBuf) (execHfDecodeBuf s) := by
  refine .checked (.refl s _) fun hc => ?_
  simp only [firstErr_cons_eq_none, windowErr_eq_none] at hc
  obtain ⟨-, -, hin, -⟩ := hc
  split
  · exact .raise ⟨⟨_, _, _, _, _, _, rfl⟩, .havoc (List.mem_singleton_self _) hin _ _⟩ _
  · next t h => exact .complete (((DecodesInto.setDstPos s 0).trans (decodeSymbols_decodesInto _ _ h)).effect hin)

/-! ## Trees -/

theorem length_heapInsert (x : HeapEntry) (h : List HeapEntry) : (heapInsert x h).length = h.length + 1 := by
  induction h with
  | nil => rfl
  | cons y ys ih =>
    rw [heapInsert]
    split <;> simp [ih]

theorem length_initialHeap (leaves : List Node) : (initialHeap leaves).length = leaves.length := by
  have h : ∀ (ls : List (Node × Nat)) (heap : List HeapEntry),
      (ls.foldl (fun h l => heapInsert (l.1.freq.toNat, l.2) h) heap).length = heap.length + ls.length := by
    intro ls
    induction ls with
    | nil => simp
    | cons l ls ih =>
      intro heap
      rw [List.foldl_cons, ih, length_heapInsert, List.length_cons]
      omega
  rw [initialHeap, h]
  simp

/-- Merging appends internal nodes only, one fewer than the heap has nodes (R334). -/
theorem mergeNodes_eq_append (fuel : Nat) (heap : List HeapEntry) (arena : List Node) :
    ∃ inner, mergeNodes fuel heap arena = arena ++ inner ∧ (∀ n ∈ inner, n.leaf = false) ∧
      inner.length ≤ heap.length - 1 := by
  induction fuel generalizing heap arena with
  | zero => exact ⟨[], by simp [mergeNodes]⟩
  | succ fuel ih =>
    match heap with
    | [] => exact ⟨[], by simp [mergeNodes]⟩
    | [x] => exact ⟨[], by simp [mergeNodes]⟩
    | x :: y :: rest =>
      obtain ⟨inner, heq, hleaf, hlen⟩ := ih (heapInsert (x.1 + y.1, arena.length) rest)
        (arena ++ [innerNode (x.1 + y.1) x.2 y.2])
      refine ⟨innerNode (x.1 + y.1) x.2 y.2 :: inner, by simp [mergeNodes, heq], ?_, ?_⟩
      · exact List.forall_mem_cons.2 ⟨rfl, hleaf⟩
      · rw [length_heapInsert] at hlen
        simp only [List.length_cons]
        omega

theorem length_realLeaves_le (sym : Nat) (freqs : List Nat) : (realLeaves sym freqs).length ≤ freqs.length := by
  induction freqs generalizing sym with
  | nil => simp [realLeaves]
  | cons f fs ih =>
    have := ih (sym + 1)
    rw [realLeaves]
    split <;> simp only [List.length_cons] <;> omega

/-- At most one leaf for each symbol, or the two leaves of a lone symbol (R333, R335). -/
theorem length_naturalLeaves_le (freqs : List Nat) : (naturalLeaves freqs).length ≤ max 2 freqs.length := by
  have := length_realLeaves_le 0 freqs
  unfold naturalLeaves
  split
  · simp
  · omega

/-- The natural arena is its leaves and fewer internal nodes (R341). -/
theorem naturalArena_eq_append (freqs : List Nat) :
    ∃ inner, naturalArena freqs = naturalLeaves freqs ++ inner ∧ (∀ n ∈ inner, n.leaf = false) ∧
      inner.length ≤ (naturalLeaves freqs).length - 1 := by
  have h := mergeNodes_eq_append (naturalLeaves freqs).length (initialHeap (naturalLeaves freqs)) (naturalLeaves freqs)
  rwa [length_initialHeap] at h

/-- Only leaves have paths (R340). -/
theorem leaf_of_mem_leafPaths {arena : List Node} {fuel i code len : Nat} {l : Leaf}
    (h : l ∈ leafPaths arena fuel i code len) : ∃ n, arena[l.idx]? = some n ∧ n.leaf = true := by
  induction fuel generalizing i code len with
  | zero => simp [leafPaths] at h
  | succ fuel ih =>
    rw [leafPaths] at h
    split at h
    · simp at h
    · next n hn =>
      split at h
      · next hleaf =>
        obtain rfl := List.mem_singleton.1 h
        exact ⟨n, hn, hleaf⟩
      · obtain h | h := List.mem_append.1 h
        · exact ih h
        · exact ih h

/-- A tree's coded leaves are among the leaves of its arena. -/
theorem length_pathCoded_le (arena : List Node) (root : Nat) :
    (pathCoded arena root).length ≤ arena.countP Node.leaf := by
  have hcount : arena.countP Node.leaf = arena.zipIdx.countP fun x => x.1.leaf := by
    conv_lhs => rw [← List.zipIdx_map_fst 0 arena, List.countP_map]
    rfl
  rw [pathCoded, List.length_filterMap_eq_countP, hcount]
  refine List.countP_mono_left fun x hx hsome => ?_
  obtain ⟨l, hl⟩ : ∃ l, (leafPaths arena (arena.length + 1) root 0 0).find? (fun l => l.idx == x.2) = some l :=
    Option.isSome_iff_exists.1 (by simpa using hsome)
  obtain ⟨n, hn, hleaf⟩ := leaf_of_mem_leafPaths (List.mem_of_find?_eq_some hl)
  have hidx : l.idx = x.2 := by simpa using List.find?_some hl
  rw [hidx, List.mem_zipIdx_iff_getElem?.1 hx] at hn
  rwa [← Option.some.inj hn] at hleaf

theorem length_insertCanonical (x : CodedLeaf) (ls : List CodedLeaf) :
    (insertCanonical x ls).length = ls.length + 1 := by
  induction ls with
  | nil => rfl
  | cons y ys ih =>
    rw [insertCanonical]
    split <;> simp [ih]

theorem length_sortCanonical (ls : List CodedLeaf) : (sortCanonical ls).length = ls.length := by
  induction ls with
  | nil => rfl
  | cons l ls ih => rw [sortCanonical, List.foldr_cons, length_insertCanonical, ← sortCanonical, ih, List.length_cons]

theorem length_assignAfter (code len : Nat) (ls : List CodedLeaf) : (assignAfter code len ls).length = ls.length := by
  induction ls generalizing code len with
  | nil => rfl
  | cons l ls ih => simp [assignAfter, ih]

theorem length_assignCanonical (ls : List CodedLeaf) : (assignCanonical ls).length = ls.length := by
  rw [← length_sortCanonical ls, assignCanonical]
  cases sortCanonical ls with
  | nil => rfl
  | cons l rest => simp [length_assignAfter]

theorem length_withLengths_le (ls : List CodedLeaf) (lens : List Nat) : (withLengths ls lens).length ≤ ls.length := by
  induction ls generalizing lens with
  | nil => simp [withLengths]
  | cons l ls ih =>
    cases lens with
    | nil => simp [withLengths]
    | cons n ns => simpa [withLengths] using ih ns

theorem length_breadthFirst_le (ls : List CodedLeaf) (fuel : Nat) (queue : List (Nat × Nat)) (next : Nat) :
    (breadthFirst ls fuel queue next).length ≤ fuel := by
  induction fuel generalizing queue next with
  | zero => simp [breadthFirst]
  | succ fuel ih =>
    match queue with
    | [] => simp [breadthFirst]
    | (code, len) :: queue =>
      rw [breadthFirst]
      split
      · simpa using ih queue next
      · simpa using ih (queue ++ [(2 * code, len + 1), (2 * code + 1, len + 1)]) (next + 2)

theorem length_buildCanonical_tree_le (alphabet : Nat) (limited : Bool) (ls : List CodedLeaf) :
    (buildCanonical alphabet limited ls).tree.length ≤ 2 * ls.length - 1 :=
  (length_breadthFirst_le _ _ _ _).trans (by rw [length_assignCanonical])

/-- A built tree of at most n symbols, n at least 2, has at most 2n - 1 nodes (R341). -/
theorem length_tree_le_of_buildTree {cfg : HfCfg} {limiter : Limiter} {freqs : List Nat} {b : Built}
    (h : buildTree cfg limiter freqs = .ok b) : b.tree.length ≤ 2 * max 2 freqs.length - 1 := by
  have hleaves := length_naturalLeaves_le freqs
  obtain ⟨inner, harena, hinner, hlen⟩ := naturalArena_eq_append freqs
  have hnat : (naturalArena freqs).length ≤ 2 * max 2 freqs.length - 1 := by
    rw [harena, List.length_append]
    omega
  have hcoded (root : Nat) : (pathCoded (naturalArena freqs) root).length ≤ max 2 freqs.length := by
    have hzero : inner.countP Node.leaf = 0 := List.countP_eq_zero.2 fun n hn => by simp [hinner n hn]
    have hpath := length_pathCoded_le (naturalArena freqs) root
    have hcount := List.countP_le_length (p := Node.leaf) (l := naturalLeaves freqs)
    rw [harena, List.countP_append, hzero, ← harena] at hpath
    omega
  have hroot := hcoded ((naturalArena freqs).length - 1)
  unfold buildTree at h
  dsimp only at h
  split at h
  · cases h; simp
  · split at h
    · split at h
      · cases h
        exact (length_buildCanonical_tree_le _ _ _).trans (by omega)
      · cases h
        exact hnat
    · split at h
      · cases h
      · split at h
        · cases h
        · cases h
          refine (length_buildCanonical_tree_le _ _ _).trans ?_
          have := length_withLengths_le (pathCoded (naturalArena freqs) ((naturalArena freqs).length - 1))
            (limitLengths (limiter.proposal freqs cfg.cap.toNat) cfg.cap.toNat (freqs.filter (· ≠ 0)))
          omega

/-- A tree built from a whole frequency table fits the tree window (R343). -/
theorem length_tree_le_maxNodes {s : State} {b : Built}
    (h : buildTree s.hf.cfg s.params.limiter s.frequencyWords = .ok b) :
    b.tree.length ≤ s.hf.cfg.width.maxNodes := by
  have hlen : s.frequencyWords.length = s.hf.cfg.width.alphabet := by simp [State.frequencyWords]
  have htwo : 2 ≤ s.hf.cfg.width.alphabet := by cases s.hf.cfg.width <;> decide
  have htree := length_tree_le_of_buildTree h
  rwa [hlen, max_eq_right htwo] at htree

/-- Storing a whole codebook in its valid window (R342). -/
theorem Memory.WritesWithin.setBook {n : Nat} {ws : List Window} {h : Huffman} (hw : h.bookWindow ∈ ws)
    (hin : h.bookWindow.Inside n) (m : Memory) (book : List (Nat × Code)) :
    WritesWithin n ws m (m.setBook h.bookBase.toNat book 0 h.cfg.width.alphabet) :=
  .of_window hw hin (fun hm => wf_setBook hm _ _ _ _) fun a ha =>
    get_setBook_of_outside _ _ (by simp only [Window.Holds, Huffman.bookWindow] at ha; omega)

theorem execHfBuild_endsIn (s : State) : EndsIn (Effect s .hfBuild) (execHfBuild s) := by
  refine .checked (.refl s _) fun hc => ?_
  simp only [firstErr_cons_eq_none, windowErr_eq_none] at hc
  obtain ⟨-, htree, hbook, -⟩ := hc
  split
  · exact .raise (.refl s _) _
  · next b hb =>
    refine .complete ⟨⟨_, _, _, _, _, _, rfl⟩, .trans
      (.setWords (w := s.hf.treeWindow) (by simp [writeWindows]) htree _ ?_) (.setBook (by simp [writeWindows]) hbook _ _)⟩
    have := length_tree_le_maxNodes hb
    rw [Node.length_flatMap_words]
    simp only [Huffman.treeWindow]
    omega

theorem execHfLoad_endsIn (s : State) : EndsIn (Effect s .hfLoad) (execHfLoad s) := by
  refine .checked (.refl s _) fun _ => ?_
  dsimp only
  split
  · exact .raise (.refl s _) _
  · exact .complete (.of_mem_eq ⟨_, _, _, _, _, _, rfl⟩ rfl)

/-! ## Every command -/

/-- Every command ends in a state of its effect, whatever the state it starts in. -/
theorem exec_endsIn (i : Instr) (s : State) : EndsIn (Effect s i) (exec i s) :=
  match i with
  | .nop => .complete (.refl s _)
  | .brReset => execBrReset_endsIn s
  | .brRead n => execBrRead_endsIn n s
  | .brAlign => execBrAlign_endsIn s
  | .brReadInt w => execBrReadInt_endsIn w s
  | .bwReset => execBwReset_endsIn s
  | .bwWrite n => execBwWrite_endsIn n s
  | .bwFlush => execBwFlush_endsIn s
  | .bwWriteInt w => execBwWriteInt_endsIn w s
  | .mfFind => execMfFind_endsIn s
  | .lzParse => execLzParse_endsIn s
  | .hfCount => execHfCount_endsIn s
  | .hfBuild => execHfBuild_endsIn s
  | .hfLoad => execHfLoad_endsIn s
  | .hfEncode => execHfEncode_endsIn s
  | .hfEncodeBuf => execHfEncodeBuf_endsIn s
  | .hfDecode => execHfDecode_endsIn s
  | .hfDecodeBuf => execHfDecodeBuf_endsIn s
  | .exReset => execExReset_endsIn s
  | .exLit => execExLit_endsIn s
  | .exMatch => execExMatch_endsIn s
  | .exStream => execExStream_endsIn s

end Sys2Proof.Machine
end

section
/-! The frame of every command (R36, R424) and the invariant of the block. -/

namespace Sys2Proof.Machine

/-- Every command answers a next state. -/
theorem exec_next (i : Instr) (s : State) : ∃ t, exec i s = .next t := by
  obtain ⟨u, -, h | ⟨e, h⟩⟩ := exec_endsIn i s
  · exact ⟨_, h⟩
  · exact ⟨_, h⟩

/-- What every command keeps until it ends: the parameters, the host's side, and each configuration and operand register (R36). -/
structure State.SameConfig (s t : State) : Prop where
  params : t.params = s.params
  ctrl : t.ctrl = s.ctrl
  status : t.status = s.status
  errPos : t.errPos = s.errPos
  arg0 : t.arg0 = s.arg0
  arg1 : t.arg1 = s.arg1
  resultHi : t.resultHi = s.resultHi
  host : t.host = s.host
  hostData : t.hostData = s.hostData
  br : t.br = { s.br with pos := t.br.pos, bits := t.br.bits, buf := t.br.buf }
  bw : t.bw = { s.bw with pos := t.bw.pos, bits := t.bw.bits, buf := t.bw.buf }
  mf : t.mf = { s.mf with tokCount := t.mf.tokCount, costLo := t.mf.costLo, costHi := t.mf.costHi }
  ex : t.ex = { s.ex with pos := t.ex.pos }
  hf : t.hf = { s.hf with
    root := t.hf.root, nodes := t.hf.nodes, state := t.hf.state, dstPos := t.hf.dstPos
    tree := t.hf.tree, book := t.hf.book }

theorem RegEffect.sameConfig {s u : State} : {i : Instr} → RegEffect s i u → s.SameConfig u
  | .nop, h => by obtain rfl := h; constructor <;> rfl
  | .brReset, h | .brAlign, h => by obtain ⟨_, _, _, _, rfl⟩ := h; constructor <;> rfl
  | .brRead _, h | .brReadInt _, h | .hfDecode, h => by obtain ⟨_, _, _, _, _, rfl⟩ := h; constructor <;> rfl
  | .bwReset, h | .bwWrite _, h | .bwFlush, h | .bwWriteInt _, h | .hfEncode, h | .hfEncodeBuf, h => by
    obtain ⟨_, _, _, _, _, rfl⟩ := h; constructor <;> rfl
  | .mfFind, h => by obtain ⟨_, _, _, rfl⟩ := h; constructor <;> rfl
  | .lzParse, h => by obtain ⟨_, _, _, _, _, rfl⟩ := h; constructor <;> rfl
  | .hfCount, h => by obtain ⟨_, rfl⟩ := h; constructor <;> rfl
  | .hfBuild, h | .hfLoad, h => by obtain ⟨_, _, _, _, _, _, rfl⟩ := h; constructor <;> rfl
  | .hfDecodeBuf, h => by obtain ⟨_, _, _, _, _, _, rfl⟩ := h; constructor <;> rfl
  | .exReset, h | .exLit, h | .exMatch, h | .exStream, h => by obtain ⟨_, _, _, rfl⟩ := h; constructor <;> rfl

/-- RESULT and the state of a unit change only by the commands that name them (R36, R424). -/
structure UnitFrame (i : Instr) (s t : State) : Prop where
  result : (∀ n, i ≠ .brRead n) → (∀ w, i ≠ .brReadInt w) → i ≠ .mfFind → i ≠ .hfDecode → t.result = s.result
  br : (∀ n, i ≠ .brRead n) → (∀ w, i ≠ .brReadInt w) → i ≠ .brReset → i ≠ .brAlign → i ≠ .hfDecode →
    i ≠ .hfDecodeBuf → t.br = s.br
  bw : (∀ n, i ≠ .bwWrite n) → (∀ w, i ≠ .bwWriteInt w) → i ≠ .bwReset → i ≠ .bwFlush → i ≠ .hfEncode →
    i ≠ .hfEncodeBuf → t.bw = s.bw
  mf : i ≠ .lzParse → t.mf = s.mf
  ex : i ≠ .exReset → i ≠ .exLit → i ≠ .exMatch → i ≠ .exStream → t.ex = s.ex
  hf : i ≠ .hfBuild → i ≠ .hfLoad → t.hf = { s.hf with dstPos := t.hf.dstPos }
  dstPos : i ≠ .hfDecodeBuf → t.hf.dstPos = s.hf.dstPos

theorem RegEffect.unitFrame {s u : State} : {i : Instr} → RegEffect s i u → UnitFrame i s u
  | .nop, h => by obtain rfl := h; constructor <;> simp
  | .brReset, h | .brAlign, h => by obtain ⟨_, _, _, _, rfl⟩ := h; constructor <;> simp
  | .brRead _, h | .brReadInt _, h | .hfDecode, h => by obtain ⟨_, _, _, _, _, rfl⟩ := h; constructor <;> simp
  | .bwReset, h | .bwWrite _, h | .bwFlush, h | .bwWriteInt _, h | .hfEncode, h | .hfEncodeBuf, h => by
    obtain ⟨_, _, _, _, _, rfl⟩ := h; constructor <;> simp
  | .mfFind, h => by obtain ⟨_, _, _, rfl⟩ := h; constructor <;> simp
  | .lzParse, h => by obtain ⟨_, _, _, _, _, rfl⟩ := h; constructor <;> simp
  | .hfCount, h => by obtain ⟨_, rfl⟩ := h; constructor <;> simp
  | .hfBuild, h | .hfLoad, h => by obtain ⟨_, _, _, _, _, _, rfl⟩ := h; constructor <;> simp
  | .hfDecodeBuf, h => by obtain ⟨_, _, _, _, _, _, rfl⟩ := h; constructor <;> simp
  | .exReset, h | .exLit, h | .exMatch, h | .exStream, h => by obtain ⟨_, _, _, rfl⟩ := h; constructor <;> simp

/-- Settles O16: the frame of the command's effect, which STATUS and ERR_POS at its end do not touch. -/
theorem commandFrame : Obligations.CommandFrame := by
  unfold Obligations.CommandFrame
  intro i s t ht
  obtain ⟨u, ⟨hregs, -⟩, hend⟩ := (exec_endsIn i s).cases ht
  have hc := hregs.sameConfig
  have hu := hregs.unitFrame
  have hdrop : u.status.drop = s.status.drop := congrArg Status.drop hc.status
  obtain rfl | ⟨e, rfl⟩ := hend
  all_goals
    exact ⟨⟨hc.params, hc.ctrl, hdrop, hc.arg0, hc.arg1, hc.resultHi, hc.host, hc.hostData⟩,
      ⟨hc.br, hc.bw, hc.mf, hc.ex, hc.hf⟩, hu.result, hu.br, hu.bw, hu.mf, hu.ex, hu.hf, hu.dstPos⟩

/-! ## The invariant -/

/-- Error codes are 1 to 7 (R420). -/
theorem ErrKind.code_bounds (e : ErrKind) : 1 ≤ e.code.toNat ∧ e.code.toNat ≤ 7 := by cases e <;> decide

namespace State.Inv

variable {s t : State}

theorem popHost (h : s.Inv) : s.popHost.Inv := { h with }

theorem drop (h : s.Inv) : s.drop.Inv := { h with }

theorem resetBlock (h : s.Inv) : s.resetBlock.Inv :=
  { h with idle := rfl, noErr := fun _ => ⟨rfl, rfl⟩, errCode := fun he => absurd he Bool.false_ne_true, resultHi := rfl }

theorem writeIdle (h : s.Inv) (off : Nat) (v : Word) : (s.writeIdle off v).Inv := { h with }

/-- Acknowledging ERR clears ERR_CODE and ERR_POS; any other write keeps all three (R185). -/
theorem writeStatus (h : s.Inv) (v : Word) : (s.writeStatus v).Inv := by
  cases hv : v.getLsbD 2 with
  | false =>
    have herr : (s.writeStatus v).status.err = s.status.err := by
      rw [writeStatus_status, Status.writeOneToClear, hv, Bool.not_false, Bool.and_true]
    have hcode : (s.writeStatus v).status.errCode = s.status.errCode := by
      rw [writeStatus_status, Status.writeOneToClear, hv, if_neg Bool.false_ne_true]
    have hpos : (s.writeStatus v).errPos = s.errPos := by
      rw [writeStatus_errPos, hv, if_neg Bool.false_ne_true]
    refine { h with noErr := ?_, errCode := ?_ }
    · rw [herr, hcode, hpos]
      exact h.noErr
    · rw [herr, hcode]
      exact h.errCode
  | true =>
    have herr : (s.writeStatus v).status.err = false := by
      rw [writeStatus_status, Status.writeOneToClear, hv, Bool.not_true, Bool.and_false]
    refine { h with noErr := fun _ => ⟨?_, ?_⟩, errCode := fun he => absurd (herr.symm.trans he) Bool.false_ne_true }
    · rw [writeStatus_status, Status.writeOneToClear, if_pos hv]
    · rw [writeStatus_errPos, if_pos hv]

theorem writeCtrl (h : s.Inv) (v : Word) : (s.writeCtrl v).Inv := by
  unfold State.writeCtrl
  split
  · exact h.resetBlock
  · exact { h with }

theorem writeReg (h : s.Inv) (off : Nat) (v : Word) : (s.writeReg off v).Inv := by
  unfold State.writeReg
  split
  · exact h.writeCtrl v
  · split
    · exact h.writeStatus v
    · split
      · exact h.drop
      · exact h.writeIdle off v

theorem hostRead (h : s.Inv) (off : Nat) : (s.hostRead off).Inv := by
  unfold State.hostRead
  split
  · exact { h with }
  · exact { h with }

theorem memWrite (h : s.Inv) {a : Nat} (ha : a < s.params.memSize) (b : Byte) :
    ({ s with mem := s.mem.set a b } : State).Inv :=
  { h with memWf := Memory.wf_set h.memWf a b, memBelow := Memory.below_set h.memBelow ha b }

/-- A command accepted while ERR = 0 ends in a state that meets the invariant. -/
theorem exec (h : s.Inv) (herr : s.status.err = false) {i : Instr} (ht : exec i s.accept = .next t) : t.Inv := by
  obtain ⟨u, ⟨hregs, hmem⟩, hend⟩ := (exec_endsIn i s.accept).cases ht
  have hc := hregs.sameConfig
  have hlegal : u.params.Legal := hc.params ▸ h.params
  have hwf : u.mem.wf = true := hmem.wf h.memWf
  have hbelow : u.mem.below u.params.memSize = true := hc.params ▸ hmem.below h.memWf h.memBelow
  have hhi : u.resultHi = 0 := hc.resultHi.trans h.resultHi
  obtain rfl | ⟨e, rfl⟩ := hend
  · have huerr : u.status.err = false := (congrArg Status.err hc.status).trans herr
    obtain ⟨hcode, hpos⟩ := h.noErr herr
    exact {
      params := hlegal, memWf := hwf, memBelow := hbelow, idle := rfl, resultHi := hhi
      noErr := fun _ => ⟨(congrArg Status.errCode hc.status).trans hcode, hc.errPos.trans hpos⟩
      errCode := fun he => absurd (huerr.symm.trans he) Bool.false_ne_true }
  · exact {
      params := hlegal, memWf := hwf, memBelow := hbelow, idle := rfl, resultHi := hhi
      noErr := fun he => absurd he.symm Bool.false_ne_true
      errCode := fun _ => e.1.code_bounds }

/-- A word the decoder refuses raises ILLEGAL_COMMAND and nothing else (R180). -/
theorem illegalWord (h : s.Inv) (c : Word) : (s.accept.illegalWord c).Inv :=
  { h with
    idle := rfl
    noErr := fun he => absurd he.symm Bool.false_ne_true
    errCode := fun _ => ErrKind.illegalCommand.code_bounds }

theorem issue (h : s.Inv) {c : Word} (ht : s.issue c = .next t) : t.Inv := by
  unfold State.issue at ht
  split at ht
  · next hacc =>
    split at ht
    · exact h.exec (by simpa [Status.accepts, h.idle] using hacc) ht
    · cases ht
      exact h.illegalWord c
  · cases ht
    exact h.drop

theorem perform (h : s.Inv) {op : HostOp} (ht : s.perform op = .next t) : t.Inv := by
  cases op with
  | regWrite off width v =>
    rw [State.perform] at ht
    split at ht
    · split at ht
      · exact h.issue ht
      · cases ht
        exact h.writeReg off v
    · cases ht
  | regRead off width =>
    rw [State.perform] at ht
    split at ht
    · cases ht
      exact h.hostRead off
    · cases ht
  | memWrite a b =>
    rw [State.perform] at ht
    split at ht
    · next ha =>
      cases ht
      exact h.memWrite (by simpa [State.hasAddr] using ha) b
    · cases ht
  | memRead a =>
    rw [State.perform] at ht
    split at ht
    · cases ht
      exact { h with }
    · cases ht
  | resetInput =>
    cases ht
    exact h.resetBlock

end State.Inv

/-- Settles O19: the oldest host access keeps the invariant, and an accepted command keeps it because the bytes it changes lie in valid windows. -/
theorem stepKeepsInv : Obligations.StepKeepsInv := by
  unfold Obligations.StepKeepsInv
  intro s t h ht
  unfold step at ht
  split at ht
  · cases ht
    exact h
  · exact h.popHost.perform ht

end Sys2Proof.Machine
end

section
/-! The register port: what a register access does in one step (10_state.md R30 to R43, R60 to R62, R80 to R82). -/

namespace Sys2Proof.Machine

/-! ## Steps of the host -/

theorem step_of_host {s : State} {rest : List HostOp} {op : HostOp} (h : s.host = op :: rest) :
    step s = ({ s with host := rest } : State).perform op := by
  simp [step, h, State.popHost]

theorem admitsPort_eq_true_iff {off width : Nat} :
    admitsPort off width = true ↔ width = 4 ∧ off % 4 = 0 ∧ off < 1024 := by
  simp [admitsPort, and_assoc]

theorem issue_next (s : State) (c : Word) : ∃ t, s.issue c = .next t := by
  unfold State.issue
  split
  · split
    · exact exec_next _ _
    · exact ⟨_, rfl⟩
  · exact ⟨_, rfl⟩

/-- A register access that the port admits answers a next state. -/
theorem perform_register_of_admits {off width : Nat} {op : HostOp} (s : State) (h : admitsPort off width = true)
    (hop : (∃ v, op = .regWrite off width v) ∨ op = .regRead off width) : ∃ t, s.perform op = .next t := by
  obtain ⟨v, rfl⟩ | rfl := hop
  · rw [State.perform, if_pos h]
    split
    · exact issue_next s v
    · exact ⟨_, rfl⟩
  · exact ⟨_, if_pos h⟩

/-- Any other register access has no step (R30). -/
theorem perform_register_of_not_admits {off width : Nat} {op : HostOp} (s : State) (h : ¬ admitsPort off width = true)
    (hop : (∃ v, op = .regWrite off width v) ∨ op = .regRead off width) :
    s.perform op = .fault .registerAccessNotAdmitted := by
  obtain ⟨v, rfl⟩ | rfl := hop
  · exact if_neg h
  · exact if_neg h

/-- A data access to an address that exists answers a next state. -/
theorem perform_data_of_lt {a : Nat} {op : HostOp} {s : State} (h : a < s.params.memSize)
    (hop : (∃ b, op = .memWrite a b) ∨ op = .memRead a) : ∃ t, s.perform op = .next t := by
  have hhas : s.hasAddr a = true := decide_eq_true h
  obtain ⟨b, rfl⟩ | rfl := hop
  · exact ⟨_, if_pos hhas⟩
  · exact ⟨_, if_pos hhas⟩

/-- A data access to any other address has no step (log entry 15). -/
theorem perform_data_of_le {a : Nat} {op : HostOp} {s : State} (h : s.params.memSize ≤ a)
    (hop : (∃ b, op = .memWrite a b) ∨ op = .memRead a) : s.perform op = .fault .noSuchDataAddress := by
  have hhas : ¬ s.hasAddr a = true := by simpa [State.hasAddr] using h
  obtain ⟨b, rfl⟩ | rfl := hop
  · exact if_neg hhas
  · exact if_neg hhas

/-- Settles O12: an access that is admitted answers a next state, and no other does. -/
theorem accessesNotAdmittedStop : Obligations.AccessesNotAdmittedStop := by
  unfold Obligations.AccessesNotAdmittedStop
  constructor
  · intro s rest off width v hhost
    obtain ⟨op, hop, hkind⟩ : ∃ op, s.host = op :: rest ∧ ((∃ v, op = .regWrite off width v) ∨ op = .regRead off width) :=
      hhost.elim (fun h => ⟨_, h, .inl ⟨v, rfl⟩⟩) fun h => ⟨_, h, .inr rfl⟩
    rw [step_of_host hop]
    by_cases hadm : admitsPort off width = true
    · obtain ⟨t, ht⟩ := perform_register_of_admits { s with host := rest } hadm hkind
      have := admitsPort_eq_true_iff.1 hadm
      rw [ht]
      exact ⟨⟨nofun, fun h => by omega⟩, fun _ _ _ => ⟨t, rfl⟩⟩
    · rw [perform_register_of_not_admits _ hadm hkind]
      rw [admitsPort_eq_true_iff] at hadm
      exact ⟨⟨fun _ => by omega, fun _ => rfl⟩, fun h4 hal hlt => absurd ⟨h4, hal, hlt⟩ hadm⟩
  · intro s rest a b hhost
    obtain ⟨op, hop, hkind⟩ : ∃ op, s.host = op :: rest ∧ ((∃ b, op = .memWrite a b) ∨ op = .memRead a) :=
      hhost.elim (fun h => ⟨_, h, .inl ⟨b, rfl⟩⟩) fun h => ⟨_, h, .inr rfl⟩
    rw [step_of_host hop]
    by_cases ha : a < s.params.memSize
    · obtain ⟨t, ht⟩ := perform_data_of_lt (s := { s with host := rest }) ha hkind
      rw [ht]
      exact ⟨⟨nofun, fun h => by omega⟩, fun _ => ⟨t, rfl⟩⟩
    · rw [perform_data_of_le (s := { s with host := rest }) (Nat.le_of_not_lt ha) hkind]
      exact ⟨⟨fun _ => Nat.le_of_not_lt ha, fun _ => rfl⟩, fun h => absurd h ha⟩

/-- A register write other than to CMD (R30). -/
theorem step_regWrite {s : State} {rest : List HostOp} {off : Nat} {v : Word} (h : s.host = .regWrite off 4 v :: rest)
    (hal : off % 4 = 0) (hlt : off < 1024) (hcmd : off ≠ 0x014) :
    step s = .next (({ s with host := rest } : State).writeReg off v) := by
  rw [step_of_host h, State.perform, if_pos (admitsPort_eq_true_iff.2 ⟨rfl, hal, hlt⟩),
    if_neg (show off ≠ cmdOffset from hcmd)]

/-- A write to a register other than CTRL, STATUS and CMD while the block is idle. -/
theorem step_regWrite_idle {s : State} {rest : List HostOp} {off : Nat} {v : Word}
    (h : s.host = .regWrite off 4 v :: rest) (hal : off % 4 = 0) (hlt : off < 1024) (hidle : s.status.busy = false)
    (hoff : off ∉ [0x008, 0x00C, 0x014]) : step s = .next (({ s with host := rest } : State).writeIdle off v) := by
  simp only [List.mem_cons, List.not_mem_nil, or_false, not_or] at hoff
  obtain ⟨hctrl, hstatus, hcmd⟩ := hoff
  rw [step_regWrite h hal hlt hcmd, State.writeReg, if_neg hctrl, if_neg hstatus,
    if_neg (ne_true_of_eq_false hidle)]

/-- A register read while the block is idle, or of one of the first four registers (R187). -/
theorem step_regRead {s : State} {rest : List HostOp} {off : Nat} (h : s.host = .regRead off 4 :: rest)
    (hal : off % 4 = 0) (hlt : off < 1024) (hread : s.status.busy = false ∨ off < 0x010) :
    step s = .next { s with host := rest, hostData := s.readReg off } := by
  rw [step_of_host h, State.perform, if_pos (admitsPort_eq_true_iff.2 ⟨rfl, hal, hlt⟩), State.hostRead, if_neg]
  · rfl
  · rintro ⟨hbusy, hoff⟩
    obtain hidle | hoff' := hread
    · exact ne_true_of_eq_false hidle hbusy
    · omega

/-- Settles O14: each configuration write is a step of `writeIdle` at its offset. -/
theorem configWritesRestartUnits : Obligations.ConfigWritesRestartUnits := by
  unfold Obligations.ConfigWritesRestartUnits
  intro s rest off v h hidle
  have hstep (hoff : off ∈ [0x040, 0x044, 0x048, 0x060, 0x064, 0x068, 0x100, 0x140]) :
      step s = .next (({ s with host := rest } : State).writeIdle off v) := by
    have hfacts : ∀ o ∈ [0x040, 0x044, 0x048, 0x060, 0x064, 0x068, 0x100, 0x140],
        o % 4 = 0 ∧ o < 1024 ∧ o ∉ [0x008, 0x00C, 0x014] := by decide
    obtain ⟨hal, hlt, hne⟩ := hfacts off hoff
    exact step_regWrite_idle h hal hlt hidle hne
  refine ⟨?_, ?_, ?_, ?_, ?_, ?_, ?_, ?_⟩
  all_goals
    rintro rfl
    exact hstep (by decide)

/-! ## Register words -/

theorem toNat_append_eq_add {n m : Nat} (x : BitVec n) (y : BitVec m) :
    (x ++ y).toNat = x.toNat * 2 ^ m + y.toNat := by
  rw [BitVec.toNat_append, ← Nat.shiftLeft_add_eq_or_of_lt y.isLt, Nat.shiftLeft_eq]

theorem Ctrl.toWord_eq_append (c : Ctrl) :
    c.toWord = 0#30 ++ BitVec.ofBool c.irqEnErr ++ BitVec.ofBool c.irqEnDone := by
  obtain ⟨_ | _, _ | _⟩ := c <;> rfl

theorem Status.toWord_eq_append (t : Status) :
    t.toWord = 0#20 ++ t.errCode ++ 0#4 ++ BitVec.ofBool t.drop ++ BitVec.ofBool t.err ++
      BitVec.ofBool t.done ++ BitVec.ofBool t.busy := by
  have hcode := t.errCode.isLt
  have hdrop := t.drop.toNat_le
  have herr := t.err.toNat_le
  have hdone := t.done.toNat_le
  have hbusy := t.busy.toNat_le
  refine BitVec.eq_of_toNat_eq ?_
  simp only [toNat_append_eq_add, Status.toWord, bit, BitVec.toNat_ofNat, BitVec.toNat_ofBool]
  omega

theorem HfState.toWord_eq_append (t : HfState) :
    t.toWord = 0#17 ++ t.maxLen ++ 0#6 ++ BitVec.ofBool t.limited ++ BitVec.ofBool t.valid := by
  have hlen := t.maxLen.isLt
  have hlimited := t.limited.toNat_le
  have hvalid := t.valid.toNat_le
  refine BitVec.eq_of_toNat_eq ?_
  simp only [toNat_append_eq_add, HfState.toWord, bit, BitVec.toNat_ofNat, BitVec.toNat_ofBool]
  omega

theorem BitCfg.toWord_eq_append (c : BitCfg) :
    c.toWord = 0#29 ++ BitVec.ofBool (c.unit == .bits16) ++ BitVec.ofBool (c.byteOrder == .be) ++
      BitVec.ofBool (c.bitOrder == .lsbFirst) := by
  obtain ⟨_ | _, _ | _, _ | _⟩ := c <;> rfl

theorem MfOpt.toWord_eq_append (o : MfOpt) :
    o.toWord = 0#15 ++ BitVec.ofBool o.decodeOnly ++ o.skip ++ 0#6 ++ BitVec.ofBool (o.unit == .two) ++
      BitVec.ofBool (o.direction == .backward) := by
  have hdir := (o.direction == .backward).toNat_le
  have hunit := (o.unit == .two).toNat_le
  have hskip := o.skip.isLt
  have honly := o.decodeOnly.toNat_le
  refine BitVec.eq_of_toNat_eq ?_
  simp only [toNat_append_eq_add, MfOpt.toWord, bit, BitVec.toNat_ofNat, BitVec.toNat_ofBool]
  omega

theorem Expander.cfgWord_eq_append (e : Expander) :
    e.cfgWord = 0#30 ++ BitVec.ofBool (e.unit == .two) ++ BitVec.ofBool (e.direction == .backward) := by
  unfold Expander.cfgWord
  cases e.unit <;> cases e.direction <;> rfl

theorem HfCfg.toWord_eq_append (c : HfCfg) :
    c.toWord = 0#18 ++ c.cap ++ 0#4 ++ BitVec.ofBool c.limitEn ++ BitVec.ofBool c.canon ++
      BitVec.ofBool (c.nibbleOrder == .highFirst) ++ BitVec.ofBool (c.width == .bits4) := by
  have hwidth := (c.width == .bits4).toNat_le
  have hnibble := (c.nibbleOrder == .highFirst).toNat_le
  have hcanon := c.canon.toNat_le
  have hlimit := c.limitEn.toNat_le
  have hcap := c.cap.isLt
  refine BitVec.eq_of_toNat_eq ?_
  simp only [toNat_append_eq_add, HfCfg.toWord, bit, BitVec.toNat_ofNat, BitVec.toNat_ofBool]
  omega

/-! ## Configuration words read back under their mask -/

/-- A two-valued field set from a bit holds that bit. -/
theorem ite_beq_self_left {α : Type} [DecidableEq α] {x y : α} (b : Bool) (h : y ≠ x) :
    ((if b then x else y) == x) = b := by
  cases b <;> simp [h]

theorem BitCfg.toWord_ofWord (v : Word) : (BitCfg.ofWord v).toWord = v &&& 0x7 := by
  refine BitVec.eq_of_getLsbD_eq fun i hi => ?_
  simp only [BitCfg.toWord_eq_append, BitVec.getLsbD_append, BitVec.getLsbD_ofBool, BitVec.getLsbD_and]
  interval_cases i <;> simp [BitCfg.ofWord, ite_beq_self_left]

theorem MfOpt.toWord_ofWord (v : Word) : (MfOpt.ofWord v).toWord = v &&& 0x1FF03 := by
  refine BitVec.eq_of_getLsbD_eq fun i hi => ?_
  simp only [MfOpt.toWord_eq_append, BitVec.getLsbD_append, BitVec.getLsbD_ofBool, BitVec.getLsbD_and]
  interval_cases i <;> simp [MfOpt.ofWord, ite_beq_self_left]

theorem Expander.cfgWord_setCfg (e : Expander) (v : Word) : (e.setCfg v).cfgWord = v &&& 0x3 := by
  refine BitVec.eq_of_getLsbD_eq fun i hi => ?_
  simp only [Expander.cfgWord_eq_append, BitVec.getLsbD_append, BitVec.getLsbD_ofBool, BitVec.getLsbD_and]
  interval_cases i <;> simp [Expander.setCfg, ite_beq_self_left]

theorem HfCfg.toWord_ofWord (v : Word) : (HfCfg.ofWord v).toWord = v &&& 0x3F0F := by
  refine BitVec.eq_of_getLsbD_eq fun i hi => ?_
  simp only [HfCfg.toWord_eq_append, BitVec.getLsbD_append, BitVec.getLsbD_ofBool, BitVec.getLsbD_and]
  interval_cases i <;> simp [HfCfg.ofWord, ite_beq_self_left]

theorem limEn_readBack (v : Word) : (v.setWidth 4).setWidth 32 = v &&& 0xF := by
  refine BitVec.eq_of_getLsbD_eq fun i hi => ?_
  interval_cases i <;> simp

/-! ## Reads and writes by offset -/

/-- The read-write registers all of whose 32 bits are assigned. -/
def fullWordOffsets : List Nat :=
  [0x018, 0x01C, 0x044, 0x048, 0x064, 0x068,
   0x084, 0x088, 0x08C, 0x090, 0x094, 0x098, 0x0AC, 0x0B0,
   0x0C0, 0x0C4, 0x0C8, 0x0CC, 0x0D0, 0x0D4, 0x0D8, 0x0DC,
   0x0E0, 0x0E4, 0x0E8, 0x0EC, 0x0F0, 0x0F4, 0x0F8, 0x0FC,
   0x104, 0x108, 0x110, 0x114, 0x118, 0x11C,
   0x144, 0x148, 0x14C, 0x150, 0x154, 0x164, 0x168]

/-- The read-write registers by their masks. -/
theorem readWriteMask_cases {off : Nat} {mask : Word} (h : readWriteMask off = some mask) :
    (off ∈ [0x040, 0x060] ∧ mask = 0x7) ∨ (off = 0x080 ∧ mask = 0x1FF03) ∨ (off = 0x0A8 ∧ mask = 0xF) ∨
    (off = 0x100 ∧ mask = 0x3) ∨ (off = 0x140 ∧ mask = 0x3F0F) ∨
    (off ∈ fullWordOffsets ∧ mask = BitVec.allOnes 32) := by
  unfold readWriteMask at h
  split_ifs at h with hbit hopt hlim hex hhf hfull
  · exact .inl ⟨hbit, (Option.some.inj h).symm⟩
  · exact .inr (.inl ⟨hopt, (Option.some.inj h).symm⟩)
  · exact .inr (.inr (.inl ⟨hlim, (Option.some.inj h).symm⟩))
  · exact .inr (.inr (.inr (.inl ⟨hex, (Option.some.inj h).symm⟩)))
  · exact .inr (.inr (.inr (.inr (.inl ⟨hhf, (Option.some.inj h).symm⟩))))
  · exact .inr (.inr (.inr (.inr (.inr ⟨hfull, (Option.some.inj h).symm⟩))))

/-- CTRL, STATUS and CMD are no plain read-write registers. -/
theorem not_mem_of_readWriteMask {off : Nat} {mask : Word} (h : readWriteMask off = some mask) :
    off ∉ [0x008, 0x00C, 0x014] := by
  intro hoff
  fin_cases hoff <;> cases h

/-- A read-write register holds what was written, under its mask. -/
theorem readReg_writeIdle {off : Nat} {mask : Word} (h : readWriteMask off = some mask) (s : State) (v : Word) :
    (s.writeIdle off v).readReg off = v &&& mask := by
  obtain ⟨hoff, rfl⟩ | ⟨rfl, rfl⟩ | ⟨rfl, rfl⟩ | ⟨rfl, rfl⟩ | ⟨rfl, rfl⟩ | ⟨hoff, rfl⟩ := readWriteMask_cases h
  · fin_cases hoff <;> exact BitCfg.toWord_ofWord v
  · exact MfOpt.toWord_ofWord v
  · exact limEn_readBack v
  · exact s.ex.cfgWord_setCfg v
  · exact HfCfg.toWord_ofWord v
  · rw [BitVec.and_allOnes]
    fin_cases hoff <;> rfl

/-- Outside the configuration registers of the reader, the writer, EX_CFG and HF_CFG, a write to a read-write register changes that register alone. -/
theorem plainWrite_eq_writeIdle {off : Nat} {mask : Word} (h : readWriteMask off = some mask)
    (hoff : off ∉ [0x040, 0x044, 0x048, 0x060, 0x064, 0x068, 0x100, 0x140]) (s : State) (v : Word) :
    plainWrite s off v = some (s.writeIdle off v) := by
  obtain ⟨hbit, -⟩ | ⟨rfl, -⟩ | ⟨rfl, -⟩ | ⟨rfl, -⟩ | ⟨rfl, -⟩ | ⟨hfull, -⟩ := readWriteMask_cases h
  · fin_cases hbit <;> simp at hoff
  · rfl
  · rfl
  · simp at hoff
  · simp at hoff
  · have hplain : off ∈ fullWordOffsets.filter (· ∉ [0x040, 0x044, 0x048, 0x060, 0x064, 0x068, 0x100, 0x140]) :=
      List.mem_filter.2 ⟨hfull, decide_eq_true hoff⟩
    fin_cases hplain <;> rfl

section
variable {off : Nat} (h : readWriteMask off = none) (v : Word)
include h

theorem Reader.writeReg_of_readOnly (r : Reader) : r.writeReg off v = r := by
  unfold Reader.writeReg
  split
  pick_goal -1
  · rfl
  all_goals exact absurd h (by decide)

theorem Writer.writeReg_of_readOnly (w : Writer) : w.writeReg off v = w := by
  unfold Writer.writeReg
  split
  pick_goal -1
  · rfl
  all_goals exact absurd h (by decide)

theorem Finder.writeReg_of_readOnly (f : Finder) : f.writeReg off v = f := by
  unfold Finder.writeReg
  split
  pick_goal -1
  · rfl
  all_goals exact absurd h (by decide)

theorem Expander.writeReg_of_readOnly (e : Expander) : e.writeReg off v = e := by
  unfold Expander.writeReg
  split
  pick_goal -1
  · rfl
  all_goals exact absurd h (by decide)

theorem Huffman.writeReg_of_readOnly (e : Huffman) : e.writeReg off v = e := by
  unfold Huffman.writeReg
  split
  pick_goal -1
  · rfl
  all_goals exact absurd h (by decide)

/-- A write to an offset that names no read-write register changes nothing (R30). -/
theorem writeIdle_of_readOnly (s : State) : s.writeIdle off v = s := by
  have harg0 : off ≠ 0x018 := by
    rintro rfl
    simp [readWriteMask] at h
  have harg1 : off ≠ 0x01C := by
    rintro rfl
    simp [readWriteMask] at h
  rw [State.writeIdle, if_neg harg0, if_neg harg1, Reader.writeReg_of_readOnly h, Writer.writeReg_of_readOnly h,
    Finder.writeReg_of_readOnly h, Expander.writeReg_of_readOnly h, Huffman.writeReg_of_readOnly h]

omit v in
/-- CMD, and an offset that no row names, read 0 (R30). -/
theorem readReg_of_unnamed (hro : off ∉ 0x008 :: 0x00C :: readOnlyOffsets) (s : State) : s.readReg off = 0 := by
  have hunnamed := And.intro h hro
  unfold State.readReg
  split
  pick_goal -1
  · rfl
  all_goals exact absurd hunnamed (by decide)

end

theorem zero_append_eq_setWidth {m : Nat} (n : Nat) (x : BitVec m) : 0#n ++ x = x.setWidth (n + m) := by
  refine BitVec.eq_of_toNat_eq ?_
  rw [toNat_append_eq_add, BitVec.toNat_setWidth_of_le (Nat.le_add_left m n)]
  simp

/-- The constants, CTRL, STATUS and the read-only registers read as their fields. -/
theorem statusValue_eq_readReg {off : Nat} (hoff : off ∈ 0x008 :: 0x00C :: readOnlyOffsets) (s : State) :
    statusValue s off = some (s.readReg off) := by
  fin_cases hoff <;> simp only [statusValue, State.readReg, Ctrl.toWord_eq_append, Status.toWord_eq_append,
    HfState.toWord_eq_append, Option.some.injEq]
  all_goals exact zero_append_eq_setWidth _ _

/-- Settles O13: reads and writes at each offset through `readReg` and `writeIdle`. -/
theorem registersReadBack : Obligations.RegistersReadBack := by
  unfold Obligations.RegistersReadBack
  constructor
  · intro s rest off v hal hlt hidle
    refine ⟨fun mask hmask h => ?_, fun mask hmask hoff h => ?_, fun hmask hoff h => ?_, fun hmask hoff h => ?_⟩
    · refine ⟨_, _, step_regWrite_idle h hal hlt hidle (not_mem_of_readWriteMask hmask), step_regRead rfl hal hlt (.inl hidle), ?_⟩
      exact readReg_writeIdle hmask { s with host := .regRead off 4 :: rest } v
    · exact ⟨_, plainWrite_eq_writeIdle hmask hoff _ v,
        step_regWrite_idle h hal hlt hidle (not_mem_of_readWriteMask hmask)⟩
    · rw [step_regWrite_idle h hal hlt hidle hoff, writeIdle_of_readOnly hmask]
    · rw [step_regRead h hal hlt (.inl hidle), readReg_of_unnamed hmask hoff]
  · intro s rest off hread hoff h
    have hfacts : ∀ o ∈ 0x008 :: 0x00C :: readOnlyOffsets, o % 4 = 0 ∧ o < 1024 := by decide
    obtain ⟨hal, hlt⟩ := hfacts off hoff
    exact ⟨_, statusValue_eq_readReg hoff s, step_regRead h hal hlt hread⟩

end Sys2Proof.Machine
end

section
/-! Data memory: what a command and what a host access changes of it (20_memory.md R100, R105, R109). -/

namespace Sys2Proof.Machine

/-- Settles O17: a byte that the command's effect changed lies in one of its write windows. -/
theorem writeWindowsFrame : Obligations.WriteWindowsFrame := by
  unfold Obligations.WriteWindowsFrame
  intro i s t ht a ha
  obtain ⟨u, ⟨-, hmem⟩, hend⟩ := (exec_endsIn i s).cases ht
  have hu : u.mem.get a = s.mem.get a := by
    by_contra hne
    obtain ⟨w, hw, -, hholds⟩ := hmem.changed a hne
    exact ha w hw hholds
  obtain rfl | ⟨e, rfl⟩ := hend
  · exact hu
  · exact hu

/-! ## Host accesses to data memory -/

theorem step_memWrite {s : State} {rest : List HostOp} {a : Nat} {b : Byte} (h : s.host = .memWrite a b :: rest)
    (ha : a < s.params.memSize) : step s = .next { s with host := rest, mem := s.mem.set a b } :=
  (step_of_host h).trans (if_pos (decide_eq_true ha))

theorem step_memRead {s : State} {rest : List HostOp} {a : Nat} (h : s.host = .memRead a :: rest)
    (ha : a < s.params.memSize) :
    step s = .next { s with host := rest, hostData := (s.mem.get a).setWidth 32 } :=
  (step_of_host h).trans (if_pos (decide_eq_true ha))

/-- A read after a write, in a canonical memory. -/
theorem Memory.get_set {m : Memory} (hm : m.wf = true) (a x : Nat) (b : Byte) :
    (m.set a b).get x = if x = a then b else m.get x := by
  split
  · next h => rw [h, get_set_self hm]
  · next h => exact get_set_ne m b h

/-- Settles O15: a step of the write, then a step of the read. -/
theorem dataBytesReadBack : Obligations.DataBytesReadBack := by
  unfold Obligations.DataBytesReadBack
  intro s rest a a' b hm ha ha' h
  refine ⟨_, _, step_memWrite h ha, step_memRead rfl ha', fun x hx => ?_, ?_⟩
  · exact Memory.get_set_ne _ _ (by omega)
  · rw [← Memory.get_set hm]

end Sys2Proof.Machine
end

section
/-! The window checks of every command (20_memory.md R103, R104; 60_exceptions.md R422). -/

namespace Sys2Proof.Machine

/-! ## Laws of windows and of lists of checks -/

theorem Window.Apart.symm {a b : Window} (h : a.Apart b) : b.Apart a := by
  simp only [Window.Apart] at h ⊢
  omega

theorem Window.overlaps_comm (a b : Window) : a.overlaps b = b.overlaps a := by
  rw [Bool.eq_iff_iff, ← not_iff_not, Bool.not_eq_true, Bool.not_eq_true, overlaps_eq_false_iff_apart,
    overlaps_eq_false_iff_apart]
  exact ⟨Apart.symm, Apart.symm⟩

/-- Passed checks leave the outcome to the later ones. -/
theorem checked_append_of_none {s : State} {cs ds : List (Option Err)} {body : Host.Outcome State Fault Refusal}
    (h : firstErr cs = none) : s.checked (cs ++ ds) body = s.checked ds body := by
  rw [State.checked, State.checked, firstErr_append_of_none h]

/-- Later checks do not hide a failed one. -/
theorem firstErr_append_of_some {cs ds : List (Option Err)} {e : Err} (h : firstErr cs = some e) :
    firstErr (cs ++ ds) = some e := by
  induction cs with
  | nil => simp at h
  | cons c cs ih =>
    cases c with
    | none => exact ih h
    | some e' => exact h

/-! ## The checks of each command -/

/-- The overlaps a command checks, in order: a written window, at whose base register the overlap is reported, and another window. Which of HF_BUILD's tree and book windows comes first is open (log entry 13). -/
def overlapPairs (s : State) : Instr → List (Window × Window)
  | .mfFind => [(s.mf.candWindow, s.mf.preWindow), (s.mf.candWindow, s.mf.inWindow)]
  | .lzParse => [(s.mf.tokWindow, s.mf.preWindow), (s.mf.tokWindow, s.mf.inWindow)]
  | .hfCount => [(s.hf.freqWindow, s.hf.srcWindow)]
  | .hfBuild =>
    [(s.hf.treeWindow, s.hf.freqWindow),
     if Config.overlapNamesTree then (s.hf.treeWindow, s.hf.bookWindow) else (s.hf.bookWindow, s.hf.treeWindow),
     (s.hf.bookWindow, s.hf.freqWindow)]
  | .hfEncodeBuf => [(s.bw.window, s.hf.srcWindow)]
  | .hfDecodeBuf => [(s.hf.dstWindow, s.br.window)]
  | .exLit | .exMatch => [(s.ex.outWindow, s.ex.preWindow)]
  | .exStream => [(s.ex.outWindow, s.ex.preWindow), (s.ex.outWindow, s.ex.tokWindow)]
  | .nop | .brReset | .brRead _ | .brAlign | .brReadInt _ | .bwReset | .bwWrite _ | .bwFlush | .bwWriteInt _ | .hfLoad
  | .hfEncode | .hfDecode | .exReset => []

/-- A command's window checks in its order: each window's validity, then the overlaps (log entry 14). -/
def windowChecks (s : State) (i : Instr) : List (Option Err) :=
  (usedWindows s i).map (windowErr s.params.memSize) ++ (overlapPairs s i).map fun p => overlapErr p.1 p.2

/-- The command's outcome is that of its window checks, then its later checks and its body. -/
def ChecksWindows (s : State) (i : Instr) : Prop :=
  ∃ rest body, exec i s = s.checked (windowChecks s i ++ rest) body

/-- A command whose start checks are ones that pass, then those of its windows. -/
theorem ChecksWindows.of_prior {s : State} {i : Instr} (prior rest : List (Option Err))
    {body : Host.Outcome State Fault Refusal} (hprior : firstErr prior = none)
    (h : exec i s = s.checked (prior ++ (windowChecks s i ++ rest)) body) : ChecksWindows s i :=
  ⟨rest, body, h.trans (checked_append_of_none hprior)⟩

/-- A command that checks no window. -/
theorem ChecksWindows.of_no_window {s : State} {i : Instr} (h : windowChecks s i = []) : ChecksWindows s i :=
  ⟨[], exec i s, by rw [h]; rfl⟩

/-- The tree and book windows overlap whichever of them the report names. -/
theorem treeBookErr_eq (h : Huffman) :
    failIf (h.treeWindow.overlaps h.bookWindow) .invalidRange treeBookOverlapReg =
      let p := if Config.overlapNamesTree then (h.treeWindow, h.bookWindow) else (h.bookWindow, h.treeWindow)
      overlapErr p.1 p.2 := by
  unfold treeBookOverlapReg
  cases Config.overlapNamesTree
  · rw [Window.overlaps_comm]
    rfl
  · rfl

/-- The checks of MF_FIND and LZ_PARSE before their windows (R258, R299, R256). -/
theorem finderOptionChecks_pass {s : State} (h : s.FinderOptionsOk) (out : Window) :
    firstErr ((s.finderChecks out).take 4) = none := by
  obtain ⟨hdecode, hback, hpre, hin⟩ := h
  simp only [State.finderChecks, List.take_succ_cons, List.take_zero, firstErr_cons_eq_none, failIf_eq_none,
    decide_eq_false_iff_not, not_and, not_or, not_not, firstErr_nil, and_true]
  refine ⟨hdecode, fun hd => ?_, hpre, hin⟩
  obtain ⟨hu, hb⟩ := hback hd
  simp [hu, hb, UnitSize.bytes]

/-- The checks of the expander commands before their windows (R397). -/
theorem expanderOptionChecks_pass {s : State} (h : s.ExOptionsOk) (toks : List Window) :
    firstErr ((s.expanderChecks toks).take 3) = none := by
  obtain ⟨hback, hpre, hpos⟩ := h
  simp only [State.expanderChecks, List.cons_append, List.take_succ_cons, List.take_zero, firstErr_cons_eq_none,
    failIf_eq_none, decide_eq_false_iff_not, not_and, not_or, not_not, firstErr_nil, and_true, Nat.not_lt]
  refine ⟨fun hd => ?_, hpre, hpos⟩
  obtain ⟨hu, hb⟩ := hback hd
  simp [hu, hb, UnitSize.bytes]

/-- Once its earlier checks pass, every command's outcome is decided by its window checks first (R422). -/
theorem checksWindows_of_priorChecks {s : State} : {i : Instr} → PriorChecks s i → ChecksWindows s i
  | .nop, _ | .brReset, _ | .brAlign, _ | .bwReset, _ | .exReset, _ => .of_no_window rfl
  | .brRead n, (h : n.toNat ≤ 32) | .bwWrite n, (h : n.toNat ≤ 32) =>
    .of_prior [failIf (32 < n.toNat) _ _] [] (by simpa [firstErr_cons_eq_none] using h) rfl
  | .brReadInt w, h => .of_prior [failIf (w.toNat = 3) _ _, failIf (s.br.bits ≠ 0) _ _] []
      (by simpa [firstErr_cons_eq_none, PriorChecks] using h) rfl
  | .bwWriteInt w, h => .of_prior [failIf (w.toNat = 3) _ _, failIf (s.bw.bits ≠ 0) _ _] []
      (by simpa [firstErr_cons_eq_none, PriorChecks] using h) rfl
  | .bwFlush, _ => .of_prior [] [] rfl rfl
  | .hfCount, _ => .of_prior [] [_] rfl rfl
  | .hfBuild, _ => .of_prior [] [failIf (2 ^ 32 ≤ s.frequencyWords.sum) .invalidRange 0x14C] rfl (by
      simp only [windowChecks, usedWindows, overlapPairs, List.map_cons, List.map_nil, ← treeBookErr_eq]
      rfl)
  | .mfFind, h => .of_prior _ [_] (finderOptionChecks_pass h s.mf.candWindow) rfl
  | .lzParse, h => .of_prior _ [] (finderOptionChecks_pass h s.mf.tokWindow) rfl
  | .hfLoad, h => .of_prior [failIf (s.arg1.toNat = 0 ∨ s.hf.cfg.width.maxNodes < s.arg1.toNat) _ _,
        failIf (s.arg1.toNat ≤ s.arg0.toNat) _ _] [] (by
      obtain ⟨hlo, hhi, hroot⟩ := h
      simp only [firstErr_cons_eq_none, failIf_eq_none, decide_eq_false_iff_not, firstErr_nil, not_or]
      exact ⟨by omega, by omega, trivial⟩) rfl
  | .hfEncode, h | .hfEncodeBuf, h | .hfDecode, h | .hfDecodeBuf, h =>
    .of_prior [s.noTreeErr _] [] (by simpa [firstErr_cons_eq_none, State.noTreeErr, PriorChecks] using h) rfl
  | .exLit, h | .exMatch, h => .of_prior _ [] (expanderOptionChecks_pass h []) rfl
  | .exStream, h => .of_prior _ [] (expanderOptionChecks_pass h [s.ex.tokWindow]) rfl

/-- Settles O21: the first failing window check is the one of the first invalid window. -/
theorem invalidWindowsRaise : Obligations.InvalidWindowsRaise := by
  unfold Obligations.InvalidWindowsRaise
  intro i s before after w hprior hused hbefore hw
  obtain ⟨rest, body, hexec⟩ := checksWindows_of_priorChecks hprior
  have hpass : firstErr (before.map (windowErr s.params.memSize)) = none := by
    simpa [firstErr_eq_none] using hbefore
  rw [hexec, ← raise_eq_failed]
  refine checked_of_some ?_
  rw [windowChecks, hused, List.map_append, List.append_assoc, List.append_assoc, firstErr_append_of_none hpass,
    List.map_cons, windowErr_of_not_inside hw]
  rfl

/-! ## Which windows are checked against each other -/

@[simp] theorem Reader.window_reg (r : Reader) : r.window.reg = 0x044 := rfl
@[simp] theorem Writer.window_reg (w : Writer) : w.window.reg = 0x064 := rfl
@[simp] theorem Finder.preWindow_reg (f : Finder) : f.preWindow.reg = 0x084 := rfl
@[simp] theorem Finder.inWindow_reg (f : Finder) : f.inWindow.reg = 0x08C := rfl
@[simp] theorem Finder.tokWindow_reg (f : Finder) : f.tokWindow.reg = 0x094 := rfl
@[simp] theorem Finder.candWindow_reg (f : Finder) : f.candWindow.reg = 0x0AC := rfl
@[simp] theorem Expander.outWindow_reg (e : Expander) : e.outWindow.reg = 0x104 := rfl
@[simp] theorem Expander.preWindow_reg (e : Expander) : e.preWindow.reg = 0x110 := rfl
@[simp] theorem Expander.tokWindow_reg (e : Expander) : e.tokWindow.reg = 0x118 := rfl
@[simp] theorem Huffman.srcWindow_reg (h : Huffman) : h.srcWindow.reg = 0x144 := rfl
@[simp] theorem Huffman.freqWindow_reg (h : Huffman) : h.freqWindow.reg = 0x14C := rfl
@[simp] theorem Huffman.treeWindow_reg (h : Huffman) : h.treeWindow.reg = 0x150 := rfl
@[simp] theorem Huffman.bookWindow_reg (h : Huffman) : h.bookWindow.reg = 0x154 := rfl
@[simp] theorem Huffman.dstWindow_reg (h : Huffman) : h.dstWindow.reg = 0x164 := rfl

/-- An overlap the command checks is one of a written window with another window it uses. -/
theorem overlapPairs_sound (s : State) (i : Instr) : ∀ p ∈ overlapPairs s i,
    p.1 ∈ writeWindows s i ∧ p.2 ∈ usedWindows s i ∧ p.2.reg ≠ p.1.reg := by
  cases i
  case hfBuild => cases hb : Config.overlapNamesTree <;> simp [overlapPairs, writeWindows, usedWindows, hb]
  all_goals simp [overlapPairs, writeWindows, usedWindows]

/-- A written window is checked against every other window of the command, in one of the two orders. -/
theorem overlapPairs_complete (s : State) (i : Instr) : ∀ w ∈ writeWindows s i, ∀ o ∈ usedWindows s i,
    o.reg ≠ w.reg → (w, o) ∈ overlapPairs s i ∨ (o, w) ∈ overlapPairs s i := by
  cases i
  case hfBuild => cases hb : Config.overlapNamesTree <;> simp [overlapPairs, writeWindows, usedWindows, hb]
  all_goals simp [overlapPairs, writeWindows, usedWindows]

/-- Settles O22: with every window valid, the first failing window check is an overlap, and one fails. -/
theorem overlapsRaise : Obligations.OverlapsRaise := by
  unfold Obligations.OverlapsRaise
  intro i s hprior hvalid ⟨w, hw, o, ho, hne, hover⟩
  obtain ⟨rest, body, hexec⟩ := checksWindows_of_priorChecks hprior
  have hpass : firstErr ((usedWindows s i).map (windowErr s.params.memSize)) = none := by
    simpa [firstErr_eq_none] using hvalid
  rw [windowChecks, List.append_assoc, checked_append_of_none hpass] at hexec
  cases hfirst : firstErr ((overlapPairs s i).map fun p => overlapErr p.1 p.2) with
  | none =>
    have hapart : ∀ p ∈ overlapPairs s i, p.1.Apart p.2 := fun p hp =>
      overlapErr_eq_none.1 (firstErr_eq_none.1 hfirst _ (List.mem_map_of_mem hp))
    obtain h | h := overlapPairs_complete s i w hw o ho hne
    · exact absurd (hapart _ h) hover
    · exact absurd (hapart _ h).symm hover
  | some e =>
    obtain ⟨p, hp, hpe⟩ := List.mem_map.1 (mem_of_firstErr_eq_some hfirst)
    obtain ⟨hw', ho', hne'⟩ := overlapPairs_sound s i p hp
    have hover' : ¬ p.1.Apart p.2 := fun h => by simp [overlapErr_eq_none.2 h] at hpe
    obtain rfl : (.invalidRange, word p.1.reg) = e := Option.some.inj ((overlapErr_of_not_apart hover').symm.trans hpe)
    refine ⟨p.1, hw', ⟨p.2, ho', hne', hover'⟩, ?_⟩
    rw [hexec, ← raise_eq_failed]
    exact checked_of_some (firstErr_append_of_some hfirst)

end Sys2Proof.Machine
end

section
/-! Command words: the encoder and the decoder format by format, and the words the decoder refuses (30_encoding.md R141 to R145). -/

namespace Sys2Proof.Machine

/-! ## The fields of a word -/

theorem field_eq_toNat_extractLsb' (c : Word) (lo n : Nat) : c.field lo n = (c.extractLsb' lo n).toNat := by
  rw [Word.field, BitVec.extractLsb'_toNat, Nat.shiftRight_eq_div_pow]

theorem field_eq_zero_iff {c : Word} {lo n : Nat} : c.field lo n = 0 ↔ c.extractLsb' lo n = 0 := by
  rw [field_eq_toNat_extractLsb', ← BitVec.toNat_inj]; rfl

/-- A word whose bits [31:8] are 0 is its opcode. -/
theorem encodeZ_fields {c : Word} (hhigh : c.extractLsb' 8 24 = 0) : encodeZ (c.extractLsb' 0 8) = c := by
  rw [encodeZ, show 0#24 = c.extractLsb' 8 24 from hhigh.symm]
  exact BitVec.extractLsb'_append_extractLsb'

/-- A word whose bits [31:14] are 0 is its count and its opcode. -/
theorem encodeN_fields {c : Word} (hhigh : c.extractLsb' 14 18 = 0) :
    encodeN (c.extractLsb' 0 8) (c.extractLsb' 8 6) = c := by
  rw [encodeN, show 0#18 = c.extractLsb' 14 18 from hhigh.symm,
    BitVec.extractLsb'_append_extractLsb'_eq_extractLsb' (show 14 = 8 + 6 from rfl)]
  exact BitVec.extractLsb'_append_extractLsb'

/-- A word whose bits [31:10] are 0 is its width code and its opcode. -/
theorem encodeW_fields {c : Word} (hhigh : c.extractLsb' 10 22 = 0) :
    encodeW (c.extractLsb' 0 8) (c.extractLsb' 8 2) = c := by
  rw [encodeW, show 0#22 = c.extractLsb' 10 22 from hhigh.symm,
    BitVec.extractLsb'_append_extractLsb'_eq_extractLsb' (show 10 = 8 + 2 from rfl)]
  exact BitVec.extractLsb'_append_extractLsb'

section
variable (opc : BitVec 8) (n : BitVec 6) (w : BitVec 2)

@[simp] theorem encodeN_opcode : (encodeN opc n).extractLsb' 0 8 = opc := BitVec.extractLsb'_append_eq_right

@[simp] theorem encodeN_count : (encodeN opc n).extractLsb' 8 6 = n :=
  (BitVec.extractLsb'_append_eq_of_le le_rfl).trans BitVec.extractLsb'_append_eq_right

@[simp] theorem encodeN_high : (encodeN opc n).extractLsb' 14 18 = 0 :=
  (BitVec.extractLsb'_append_eq_of_le (by decide)).trans BitVec.extractLsb'_append_eq_left

@[simp] theorem encodeW_opcode : (encodeW opc w).extractLsb' 0 8 = opc := BitVec.extractLsb'_append_eq_right

@[simp] theorem encodeW_width : (encodeW opc w).extractLsb' 8 2 = w :=
  (BitVec.extractLsb'_append_eq_of_le le_rfl).trans BitVec.extractLsb'_append_eq_right

@[simp] theorem encodeW_high : (encodeW opc w).extractLsb' 10 22 = 0 :=
  (BitVec.extractLsb'_append_eq_of_le (by decide)).trans BitVec.extractLsb'_append_eq_left

end

/-! ## The decoder, one format at a time (R141) -/

theorem decodeZ_eq_ok {c : Word} {i j : Instr} (h : decodeZ c i = .ok j) : i = j ∧ encodeZ (c.extractLsb' 0 8) = c := by
  unfold decodeZ at h
  split at h
  · next hhigh => exact ⟨Except.ok.inj h, encodeZ_fields hhigh⟩
  · cases h

theorem decodeN_eq_ok {c : Word} {mk : BitVec 6 → Instr} {j : Instr} (h : decodeN c mk = .ok j) :
    ∃ n : BitVec 6, n.toNat ≤ 32 ∧ mk n = j ∧ encodeN (c.extractLsb' 0 8) n = c := by
  unfold decodeN at h
  split at h
  · next hhigh =>
    split at h
    · next hcount => exact ⟨_, hcount, Except.ok.inj h, encodeN_fields hhigh⟩
    · cases h
  · cases h

theorem decodeW_eq_ok {c : Word} {mk : BitVec 2 → Instr} {j : Instr} (h : decodeW c mk = .ok j) :
    ∃ w : BitVec 2, w.toNat ≠ 3 ∧ mk w = j ∧ encodeW (c.extractLsb' 0 8) w = c := by
  unfold decodeW at h
  split at h
  · next hhigh =>
    split at h
    · next hwidth => exact ⟨_, hwidth, Except.ok.inj h, encodeW_fields hhigh⟩
    · cases h
  · cases h

theorem decodeN_encodeN (opc : BitVec 8) {n : BitVec 6} (mk : BitVec 6 → Instr) (h : n.toNat ≤ 32) :
    decodeN (encodeN opc n) mk = .ok (mk n) := by
  simp [decodeN, h]

theorem decodeW_encodeW (opc : BitVec 8) {w : BitVec 2} (mk : BitVec 2 → Instr) (h : w.toNat ≠ 3) :
    decodeW (encodeW opc w) mk = .ok (mk w) := by
  simp [decodeW, h]

theorem decodeZ_refuses_iff {c : Word} {i : Instr} : (∃ e, decodeZ c i = .error e) ↔ c.field 8 24 ≠ 0 := by
  rw [Ne, field_eq_zero_iff, decodeZ]
  split <;> simp_all

theorem decodeN_refuses_iff {c : Word} {mk : BitVec 6 → Instr} :
    (∃ e, decodeN c mk = .error e) ↔ c.field 14 18 ≠ 0 ∨ 32 < c.field 8 6 := by
  rw [Ne, field_eq_zero_iff, field_eq_toNat_extractLsb', ← Nat.not_le, decodeN]
  split_ifs <;> simp_all

theorem decodeW_refuses_iff {c : Word} {mk : BitVec 2 → Instr} :
    (∃ e, decodeW c mk = .error e) ↔ c.field 10 22 ≠ 0 ∨ c.field 8 2 = 3 := by
  rw [Ne, field_eq_zero_iff, field_eq_toNat_extractLsb', decodeW]
  split_ifs <;> simp_all

/-! ## The opcode map (R143) -/

/-- The opcodes of the commands of format Z. -/
def opcodesZ : List Nat :=
  [0x00, 0x01, 0x03, 0x08, 0x0A, 0x10, 0x11, 0x20, 0x21, 0x22, 0x23, 0x24, 0x25, 0x26, 0x30, 0x31, 0x32, 0x33]

/-- The opcodes of the commands of format N. -/
def opcodesN : List Nat := [0x02, 0x09]

/-- The opcodes of the commands of format W. -/
def opcodesW : List Nat := [0x04, 0x0B]

/-- What the decoder answers for a word: it reads the word in the format of its opcode's command, or refuses a reserved
opcode. -/
inductive DecodesTo (c : Word) (r : Except Illegal Instr) : Prop
  | formatZ (i : Instr) (hopc : c.field 0 8 ∈ opcodesZ) (hwf : i.wf = true)
      (henc : encode i = encodeZ (c.extractLsb' 0 8)) (hr : decodeZ c i = r)
  | formatN (mk : BitVec 6 → Instr) (hopc : c.field 0 8 ∈ opcodesN) (hwf : ∀ n, (mk n).wf = decide (n.toNat ≤ 32))
      (henc : ∀ n, encode (mk n) = encodeN (c.extractLsb' 0 8) n) (hr : decodeN c mk = r)
  | formatW (mk : BitVec 2 → Instr) (hopc : c.field 0 8 ∈ opcodesW) (hwf : ∀ w, (mk w).wf = decide (w.toNat ≠ 3))
      (henc : ∀ w, encode (mk w) = encodeW (c.extractLsb' 0 8) w) (hr : decodeW c mk = r)
  | reserved (hopc : c.field 0 8 ∉ opcodesZ ++ opcodesN ++ opcodesW)
      (hr : .error (.reservedOpcode (c.extractLsb' 0 8)) = r)

theorem decode_decodesTo (c : Word) : DecodesTo c (decode c) := by
  generalize hr : decode c = r
  have hopcode := field_eq_toNat_extractLsb' c 0 8
  unfold decode at hr
  split at hr
  -- `h_23` is the decoder's last row, every opcode of no command; the rows not named here are those of format Z.
  case h_3 h | h_7 h =>
    exact .formatN _ (by simp [hopcode, h, opcodesN]) (fun _ => rfl) (fun _ => by rw [h]; rfl) hr
  case h_5 h | h_9 h =>
    exact .formatW _ (by simp [hopcode, h, opcodesW]) (fun _ => rfl) (fun _ => by rw [h]; rfl) hr
  case h_23 =>
    refine .reserved ?_ hr
    rw [hopcode]
    simp_all [opcodesZ, opcodesN, opcodesW, ← BitVec.toNat_inj, -BitVec.extractLsb'_toNat]
  all_goals
    next h => exact .formatZ _ (by simp [hopcode, h, opcodesZ]) rfl (by rw [h]; rfl) hr

theorem decode_encode : {i : Instr} → i.wf = true → decode (encode i) = .ok i
  | .brRead n, h | .bwWrite n, h => by simpa [encode, decode] using decodeN_encodeN _ _ (of_decide_eq_true h)
  | .brReadInt w, h | .bwWriteInt w, h => by simpa [encode, decode] using decodeW_encodeW _ _ (of_decide_eq_true h)
  | .nop, _ | .brReset, _ | .brAlign, _ | .bwReset, _ | .bwFlush, _ | .mfFind, _ | .lzParse, _ | .hfCount, _ | .hfBuild, _
  | .hfLoad, _ | .hfEncode, _ | .hfEncodeBuf, _ | .hfDecode, _ | .hfDecodeBuf, _ | .exReset, _ | .exLit, _ | .exMatch, _
  | .exStream, _ => rfl

/-- The decoder answers only well-formed commands, each for its own word. -/
theorem wf_and_encode_of_decode {c : Word} {i : Instr} (h : decode c = .ok i) : i.wf = true ∧ encode i = c := by
  cases h ▸ decode_decodesTo c with
  | formatZ j _ hwf henc hr =>
    obtain ⟨rfl, hc⟩ := decodeZ_eq_ok hr
    exact ⟨hwf, henc.trans hc⟩
  | formatN mk _ hwf henc hr =>
    obtain ⟨n, hn, rfl, hc⟩ := decodeN_eq_ok hr
    exact ⟨(hwf n).trans (decide_eq_true hn), (henc n).trans hc⟩
  | formatW mk _ hwf henc hr =>
    obtain ⟨w, hw, rfl, hc⟩ := decodeW_eq_ok hr
    exact ⟨(hwf w).trans (decide_eq_true hw), (henc w).trans hc⟩
  | reserved _ hr => cases hr

theorem decode_eq_ok_iff {c : Word} {i : Instr} : decode c = .ok i ↔ i.wf = true ∧ encode i = c := by
  refine ⟨wf_and_encode_of_decode, ?_⟩
  rintro ⟨hwf, rfl⟩
  exact decode_encode hwf

/-- Settles O1: decoding the word of a well-formed command answers the command, and the decoder answers nothing else. -/
theorem decodeInvertsEncode : Obligations.DecodeInvertsEncode := fun _ _ => decode_eq_ok_iff

/-- Settles O3: each legal word is the encoding of its command. -/
theorem writtenOutWordsDecode : Obligations.WrittenOutWordsDecode := by
  unfold Obligations.WrittenOutWordsDecode
  simp only [decode_eq_ok_iff]
  decide

/-! ## Illegal words (R144) -/

/-- The opcodes R144 lists as reserved are those of no format. -/
theorem reserved_iff_not_mem {k : Nat} :
    (5 ≤ k ∧ k ≤ 7 ∨ 0x0C ≤ k ∧ k ≤ 0x0F ∨ 0x12 ≤ k ∧ k ≤ 0x1F ∨ 0x27 ≤ k ∧ k ≤ 0x2F ∨ 0x34 ≤ k) ↔
      k ∉ opcodesZ ++ opcodesN ++ opcodesW := by
  have hlt : ∀ j ∈ opcodesZ ++ opcodesN ++ opcodesW, j < 0x34 := by decide
  by_cases hk : k < 0x34
  · revert k
    decide
  · exact iff_of_true (by omega) fun h => hk (hlt k h)

/-- The four cases of R144 by the format of the word's opcode. -/
theorem illegalWord_iff {c : Word} : IllegalWord c ↔
    c.field 0 8 ∉ opcodesZ ++ opcodesN ++ opcodesW ∨
    (c.field 0 8 ∈ opcodesZ ∧ c.field 8 24 ≠ 0) ∨
    (c.field 0 8 ∈ opcodesN ∧ (c.field 14 18 ≠ 0 ∨ 32 < c.field 8 6)) ∨
    (c.field 0 8 ∈ opcodesW ∧ (c.field 10 22 ≠ 0 ∨ c.field 8 2 = 3)) := by
  rw [← reserved_iff_not_mem, IllegalWord]
  simp only [or_assoc, opcodesZ, opcodesN, opcodesW]

theorem not_mem_of_mem_opcodesZ : ∀ k ∈ opcodesZ, k ∉ opcodesN ∧ k ∉ opcodesW := by decide

theorem not_mem_of_mem_opcodesN : ∀ k ∈ opcodesN, k ∉ opcodesZ ∧ k ∉ opcodesW := by decide

theorem not_mem_of_mem_opcodesW : ∀ k ∈ opcodesW, k ∉ opcodesZ ∧ k ∉ opcodesN := by decide

theorem decode_refuses_iff {c : Word} : (∃ e, decode c = .error e) ↔ IllegalWord c := by
  generalize hd : decode c = r
  cases hd ▸ decode_decodesTo c with
  | formatZ i hopc _ _ hr =>
    rw [← hr, decodeZ_refuses_iff, illegalWord_iff]
    simp [hopc, not_mem_of_mem_opcodesZ _ hopc]
  | formatN mk hopc _ _ hr =>
    rw [← hr, decodeN_refuses_iff, illegalWord_iff]
    simp [hopc, not_mem_of_mem_opcodesN _ hopc]
  | formatW mk hopc _ _ hr =>
    rw [← hr, decodeW_refuses_iff, illegalWord_iff]
    simp [hopc, not_mem_of_mem_opcodesW _ hopc]
  | reserved hopc hr => exact iff_of_true ⟨_, hr.symm⟩ (illegalWord_iff.2 (.inl hopc))

/-- A register write to CMD (R180). -/
theorem step_cmdWrite {s : State} {rest : List HostOp} {c : Word} (h : s.host = .regWrite 0x014 4 c :: rest) :
    step s = ({ s with host := rest } : State).issue c :=
  step_of_host h

/-- An accepted illegal word raises ILLEGAL_COMMAND at itself (R144). -/
theorem issue_of_illegalWord {s : State} {c : Word} (hbusy : s.status.busy = false) (herr : s.status.err = false)
    (hc : IllegalWord c) : s.issue c = .next (s.failed .illegalCommand c) := by
  obtain ⟨e, he⟩ := decode_refuses_iff.2 hc
  have hacc : s.status.accepts = true := by simp [Status.accepts, hbusy, herr]
  rw [State.issue, if_pos hacc, he]
  rfl

/-- Settles O2: the refused words are the illegal ones, and a step that issues one is `issue_of_illegalWord`. -/
theorem illegalWordsRaise : Obligations.IllegalWordsRaise := by
  unfold Obligations.IllegalWordsRaise
  exact fun c => ⟨decode_refuses_iff, fun s rest hhost hbusy herr hc =>
    (step_cmdWrite hhost).trans (issue_of_illegalWord hbusy herr hc)⟩

end Sys2Proof.Machine
end

section
/-! Command control: the acceptance and the end of a command, dropped writes, and writes to STATUS and CTRL (40_control.md R180 to R186). -/

namespace Sys2Proof.Machine

/-! ## Ends of commands -/

/-- The two forms of STATUS and ERR_POS at the end of a command (R182), whatever STATUS it starts in. -/
theorem exec_status (i : Instr) (s : State) : ∃ t, exec i s = .next t ∧
    ((t.status = s.status.complete ∧ t.errPos = s.errPos) ∨ ∃ e, t.status = s.status.raise e) := by
  obtain ⟨u, ⟨hregs, -⟩, hend⟩ := exec_endsIn i s
  have hstatus : u.status = s.status := hregs.sameConfig.status
  obtain hend | ⟨e, hend⟩ := hend
  · exact ⟨_, hend, .inl ⟨congrArg Status.complete hstatus, hregs.sameConfig.errPos⟩⟩
  · exact ⟨_, hend, .inr ⟨e.1, congrArg (Status.raise · e.1) hstatus⟩⟩

/-- Settles O5: every command completes or raises, and its effect before that leaves STATUS and ERR_POS alone. -/
theorem everyCommandEnds : Obligations.EveryCommandEnds := fun i s _ _ => exec_status i s

/-- Settles O24: the word of NOP is 0, and NOP is standard completion. -/
theorem nopOnlyCompletes : Obligations.NopOnlyCompletes := by
  unfold Obligations.NopOnlyCompletes
  constructor
  · intro c
    have hwf : Instr.nop.wf = true := rfl
    have hword : encode .nop = 0 := rfl
    rw [decode_eq_ok_iff, hword, and_iff_right hwf, eq_comm]
  · exact fun _ => rfl

/-! ## Writes to CMD -/

/-- A command is accepted exactly while BUSY and ERR are 0 (R180). -/
theorem Status.accepts_eq_true_iff {t : Status} : t.accepts = true ↔ t.busy = false ∧ t.err = false := by
  simp [Status.accepts]

/-- An accepted legal word runs its command (R180). -/
theorem issue_of_decode {s : State} {c : Word} {i : Instr} (hacc : s.status.accepts = true) (hc : decode c = .ok i) :
    s.issue c = exec i s.accept := by
  rw [State.issue, if_pos hacc, hc]

/-- A CMD write that is not accepted is dropped (R181). -/
theorem step_cmdWrite_of_not_accepts {s : State} {rest : List HostOp} {c : Word}
    (h : s.host = .regWrite 0x014 4 c :: rest) (hacc : ¬ s.status.accepts = true) :
    step s = .next ({ s with host := rest } : State).drop :=
  (step_cmdWrite h).trans (if_neg hacc)

/-- Settles O4: the step is the CMD write, which `issue_of_decode` runs. -/
theorem acceptedCommandRuns : Obligations.AcceptedCommandRuns := fun _ _ _ _ hhost hbusy herr hc =>
  (step_cmdWrite hhost).trans (issue_of_decode (Status.accepts_eq_true_iff.2 ⟨hbusy, herr⟩) hc)

/-! ## Writes to the other registers -/

/-- A busy block drops a write to any register but CTRL, STATUS and CMD (R183). -/
theorem step_regWrite_of_busy {s : State} {rest : List HostOp} {off : Nat} {v : Word}
    (h : s.host = .regWrite off 4 v :: rest) (hal : off % 4 = 0) (hlt : off < 1024) (hbusy : s.status.busy = true)
    (hctrl : off ≠ 0x008) (hstatus : off ≠ 0x00C) (hcmd : off ≠ 0x014) :
    step s = .next ({ s with host := rest } : State).drop := by
  rw [step_regWrite h hal hlt hcmd, State.writeReg, if_neg hctrl, if_neg hstatus, if_pos hbusy]

/-- Settles O7: a write to CMD that is not accepted is dropped, and so is any other register write to a busy block. -/
theorem droppedWrites : Obligations.DroppedWrites := by
  unfold Obligations.DroppedWrites
  intro s rest off v hhost hal hlt hdrop
  by_cases hcmd : off = 0x014
  · subst hcmd
    have hacc : ¬ s.status.accepts = true := by
      rw [Status.accepts_eq_true_iff]
      rintro ⟨hidle, hok⟩
      simp [hidle, hok] at hdrop
    exact step_cmdWrite_of_not_accepts hhost hacc
  · obtain ⟨hoff, -⟩ | ⟨hctrl, hstatus, hbusy⟩ := hdrop
    · exact absurd hoff hcmd
    · exact step_regWrite_of_busy hhost hal hlt hbusy hctrl hstatus hcmd

/-- A flag under a W1C bit is cleared where the bit is 1 and kept where it is 0 (R185). -/
theorem Status.writeOneToClear_eq_ite (t : Status) (v : Word) : t.writeOneToClear v =
    { busy := t.busy
      done := if v.getLsbD 1 then false else t.done
      err := if v.getLsbD 2 then false else t.err
      drop := if v.getLsbD 3 then false else t.drop
      errCode := if v.getLsbD 2 then 0 else t.errCode } := by
  have hflag (b x : Bool) : (b && !x) = if x then false else b := by cases x <;> simp
  simp only [Status.writeOneToClear, hflag]

/-- Settles O8: the step is the W1C write of STATUS. -/
theorem statusWriteOneToClear : Obligations.StatusWriteOneToClear := by
  unfold Obligations.StatusWriteOneToClear
  intro s rest v hhost
  rw [step_regWrite hhost (by decide) (by decide) (by decide), ← Status.writeOneToClear_eq_ite]
  rfl

/-- Settles O9: the step is the write of CTRL, in each of its two branches. -/
theorem ctrlWrite : Obligations.CtrlWrite := by
  unfold Obligations.CtrlWrite
  intro s rest v hhost
  have hstep : step s = .next (({ s with host := rest } : State).writeCtrl v) :=
    step_regWrite hhost (by decide) (by decide) (by decide)
  constructor
  · intro hreset
    rw [hstep, State.writeCtrl, if_pos hreset]
    rfl
  · intro hkeep
    rw [hstep, State.writeCtrl, if_neg (ne_true_of_eq_false hkeep)]
    rfl

end Sys2Proof.Machine
end

section
/-! Bits, bytes and units as numbers: the laws of `valueBits`, `valueBytes`, `unitsOf` and `streamBits` (20_memory.md R107; 41_bitio.md R201, R203, R211, R212). -/

namespace Sys2Proof.Machine

/-! ## Registers as numbers -/

theorem word_toNat (v : Word) : word v.toNat = v :=
  (BitVec.ofNat_toNat ..).trans (BitVec.setWidth_eq ..)

theorem bitCount_toNat (b : BitVec 5) : BitVec.ofNat 5 b.toNat = b :=
  (BitVec.ofNat_toNat ..).trans (BitVec.setWidth_eq ..)

theorem bitCount_pos {b : BitVec 5} (h : b ≠ 0) : 0 < b.toNat :=
  Nat.pos_of_ne_zero fun h0 => h (BitVec.eq_of_toNat_eq h0)

theorem toNat_bitCount_pred {b : BitVec 5} (h : b ≠ 0) : (b - 1).toNat = b.toNat - 1 := by
  have := bitCount_pos h
  bv_omega

theorem toNat_bitCount_zero {b : BitVec 5} (h : b = 0) : b.toNat = 0 := by
  rw [h]
  rfl

theorem UnitWidth.bytes_pos (u : UnitWidth) : 0 < u.bytes := by cases u <;> decide
theorem UnitWidth.bits_pos (u : UnitWidth) : 0 < u.bits := by cases u <;> decide
theorem UnitWidth.bits_le (u : UnitWidth) : u.bits ≤ 16 := by cases u <;> decide

/-! ## Bits of a number -/

@[simp] theorem length_valueBits (o : BitOrder) (n v : Nat) : (valueBits o n v).length = n := by
  cases o <;> simp [valueBits]

/-- The index in a number of the `i`-th of its low `n` bits in stream order. -/
def BitOrder.index (o : BitOrder) (n i : Nat) : Nat :=
  match o with
  | .msbFirst => n - 1 - i
  | .lsbFirst => i

theorem BitOrder.index_lt (o : BitOrder) {n i : Nat} (h : i < n) : o.index n i < n := by
  cases o <;> (simp only [index]; omega)

theorem BitOrder.index_inj (o : BitOrder) {n i j : Nat} (hi : i < n) (hj : j < n) :
    o.index n i = o.index n j ↔ i = j := by
  cases o with
  | msbFirst => simp only [index]; omega
  | lsbFirst => exact Iff.rfl

theorem BitCfg.place_eq_index (c : BitCfg) (k : Nat) : c.place k = c.bitOrder.index c.unit.bits k := by
  unfold BitCfg.place BitOrder.index
  cases c.bitOrder <;> rfl

theorem getElem_valueBits (o : BitOrder) (n v : Nat) {i : Nat} (h : i < (valueBits o n v).length) :
    (valueBits o n v)[i] = v.testBit (o.index n i) := by
  cases o <;> simp [valueBits, BitOrder.index]

/-- Numbers alike in their low bits have the same bits. -/
theorem valueBits_congr {o : BitOrder} {n v w : Nat} (h : ∀ i < n, v.testBit i = w.testBit i) :
    valueBits o n v = valueBits o n w := by
  refine List.ext_getElem (by simp) fun i hv hw => ?_
  rw [getElem_valueBits, getElem_valueBits]
  exact h _ (o.index_lt (by simpa using hv))

/-- Only the low `n` bits matter. -/
theorem valueBits_mod_two_pow (o : BitOrder) {n k : Nat} (h : n ≤ k) (v : Nat) :
    valueBits o n (v % 2 ^ k) = valueBits o n v :=
  valueBits_congr fun i hi => by simp [Nat.testBit_mod_two_pow, show i < k by omega]

theorem valueBits_zero (o : BitOrder) (n : Nat) : valueBits o n 0 = List.replicate n false :=
  List.ext_getElem (by simp) fun i hi _ => by simp [getElem_valueBits]

theorem valueBits_msbFirst_succ (n v : Nat) :
    valueBits .msbFirst (n + 1) v = v.testBit n :: valueBits .msbFirst n v := by
  simp only [valueBits, List.range_succ_eq_map, List.map_cons, List.map_map]
  refine congrArg (_ :: ·) (List.map_congr_left fun i _ => ?_)
  simp only [Function.comp, show n + 1 - 1 - i.succ = n - 1 - i by omega]

theorem valueBits_lsbFirst_succ (n v : Nat) :
    valueBits .lsbFirst (n + 1) v = v.testBit 0 :: valueBits .lsbFirst n (v / 2) := by
  simp only [valueBits, List.range_succ_eq_map, List.map_cons, List.map_map]
  exact congrArg (_ :: ·) (List.map_congr_left fun i _ => Nat.testBit_succ v i)

/-- Bits read after a value `v` shift it up (R203). -/
theorem foldl_bits_eq (bs : List Bool) (v : Nat) :
    bs.foldl (fun v b => 2 * v + b.toNat) v = v * 2 ^ bs.length + bitsValue .msbFirst bs := by
  induction bs generalizing v with
  | nil => simp [bitsValue]
  | cons b bs ih =>
    simp only [bitsValue, List.foldl_cons, List.length_cons]
    rw [ih, ih]
    ring

/-- Bits read in the order they were written form the number's low bits again (R203, R212). -/
theorem bitsValue_valueBits (o : BitOrder) (n v : Nat) : bitsValue o (valueBits o n v) = v % 2 ^ n := by
  induction n generalizing v with
  | zero => cases o <;> simp [bitsValue, valueBits, Nat.mod_one]
  | succ n ih =>
    cases o with
    | msbFirst =>
      have hcons : bitsValue .msbFirst (valueBits .msbFirst (n + 1) v) =
          (v.testBit n).toNat * 2 ^ n + bitsValue .msbFirst (valueBits .msbFirst n v) := by
        rw [valueBits_msbFirst_succ, bitsValue, List.foldl_cons, foldl_bits_eq, length_valueBits]
        simp
      rw [hcons, ih, Nat.mod_pow_succ, Nat.toNat_testBit]
      ring
    | lsbFirst =>
      have hcons : bitsValue .lsbFirst (valueBits .lsbFirst (n + 1) v) =
          (v.testBit 0).toNat + 2 * bitsValue .lsbFirst (valueBits .lsbFirst n (v / 2)) := by
        rw [valueBits_lsbFirst_succ]
        rfl
      rw [hcons, ih, Nat.pow_succ', Nat.mod_mul, Nat.toNat_testBit, Nat.pow_zero, Nat.div_one]

/-- BW_BUF with one bit set, bit by bit (R211). -/
theorem getLsbD_setBit (v : BitVec 16) {i : Nat} (hi : i < 16) (b : Bool) (j : Nat) :
    (setBit v i b).getLsbD j = if i = j then b else v.getLsbD j := by
  by_cases hj : j < 16
  · cases b
    · simp only [setBit, Bool.false_eq_true, if_false, BitVec.getLsbD_and, BitVec.getLsbD_not, hj, decide_true,
        Bool.true_and, BitVec.getLsbD_ofNat, Nat.testBit_two_pow]
      split <;> simp_all
    · simp only [setBit, if_true, BitVec.getLsbD_or, BitVec.getLsbD_ofNat, hj, decide_true, Bool.true_and,
        Nat.testBit_two_pow]
      split <;> simp_all
  · rw [BitVec.getLsbD_of_ge _ _ (by omega), BitVec.getLsbD_of_ge _ _ (by omega), if_neg (by omega)]

/-- The k-th placed bit is the k-th of the unit in stream order (R211). -/
theorem valueBits_setBit_place (c : BitCfg) (v : BitVec 16) {k : Nat} (hk : k < c.unit.bits) (b : Bool) :
    valueBits c.bitOrder c.unit.bits (setBit v (c.place k) b).toNat =
      (valueBits c.bitOrder c.unit.bits v.toNat).set k b := by
  have hplace : c.place k < 16 := by
    rw [BitCfg.place_eq_index]
    exact Nat.lt_of_lt_of_le (c.bitOrder.index_lt hk) c.unit.bits_le
  refine List.ext_getElem (by simp) fun i hi _ => ?_
  rw [length_valueBits] at hi
  rw [List.getElem_set, getElem_valueBits, getElem_valueBits, BitVec.testBit_toNat, BitVec.testBit_toNat,
    getLsbD_setBit _ hplace, BitCfg.place_eq_index]
  simp only [c.bitOrder.index_inj hk hi]

/-! ## Bytes of a number -/

/-- Storing the low bytes of a number and reading them back gives its value (R107). -/
theorem bytesValue_valueBytes_unit (o : ByteOrder) (u : UnitWidth) (v : Nat) :
    bytesValue o (valueBytes o u.bytes v) = v % 2 ^ u.bits := by
  cases o <;> cases u <;> simp [bytesValue, valueBytes, UnitWidth.bytes, UnitWidth.bits, List.range_succ] <;> omega

/-! ## Units and stream bits of a byte string -/

/-- The first unit of a byte string, and those after it (R201). -/
theorem unitsOf_cons_unit (c : BitCfg) {as : List Byte} (bs : List Byte) (h : as.length = c.unit.bytes) :
    unitsOf c (as ++ bs) = bytesValue c.byteOrder as :: unitsOf c bs := by
  obtain ⟨bo, yo, u⟩ := c
  match u, as, bs, h with
  | .bits8, [a], [], _ => cases yo <;> simp [unitsOf, bytesValue]
  | .bits8, [a], b :: bs, _ => cases yo <;> simp [unitsOf, bytesValue]
  | .bits16, [a0, a1], bs, _ => rfl

/-- The stream bits of one unit followed by further bytes (R201, R202). -/
theorem streamBits_cons_unit (c : BitCfg) {as : List Byte} (bs : List Byte) (h : as.length = c.unit.bytes) :
    streamBits c (as ++ bs) =
      valueBits c.bitOrder c.unit.bits (bytesValue c.byteOrder as) ++ streamBits c bs := by
  rw [streamBits, unitsOf_cons_unit c bs h]
  rfl

@[simp] theorem streamBits_nil (c : BitCfg) : streamBits c [] = [] := rfl

theorem streamBits_unit (c : BitCfg) {as : List Byte} (h : as.length = c.unit.bytes) :
    streamBits c as = valueBits c.bitOrder c.unit.bits (bytesValue c.byteOrder as) := by
  simpa using streamBits_cons_unit c [] h

/-- Too few bytes for a unit hold no stream bit (R201). -/
theorem streamBits_eq_nil (c : BitCfg) {as : List Byte} (h : as.length < c.unit.bytes) : streamBits c as = [] := by
  obtain ⟨bo, yo, u⟩ := c
  match u, as, h with
  | .bits8, [], _ => rfl
  | .bits16, [], _ => rfl
  | .bits16, [a], _ => rfl

/-- The stream bits of `k` whole units followed by further bytes. -/
theorem streamBits_append (c : BitCfg) (k : Nat) {as : List Byte} (bs : List Byte) (h : as.length = c.unit.bytes * k) :
    streamBits c (as ++ bs) = streamBits c as ++ streamBits c bs := by
  induction k generalizing as with
  | zero => simp [List.eq_nil_of_length_eq_zero (h.trans (Nat.mul_zero _))]
  | succ k ih =>
    rw [Nat.mul_succ] at h
    have hunit : (as.take c.unit.bytes).length = c.unit.bytes := by rw [List.length_take]; omega
    have hrest : (as.drop c.unit.bytes).length = c.unit.bytes * k := by rw [List.length_drop]; omega
    rw [← List.take_append_drop c.unit.bytes as, List.append_assoc, streamBits_cons_unit c _ hunit,
      streamBits_cons_unit c _ hunit, ih hrest, List.append_assoc]

/-- The stream bits of a stored unit are its bits (R202, R211). -/
theorem streamBits_valueBytes (c : BitCfg) (v : Nat) :
    streamBits c (valueBytes c.byteOrder c.unit.bytes v) = valueBits c.bitOrder c.unit.bits v := by
  rw [streamBits_unit c (Memory.length_valueBytes _ _ _), bytesValue_valueBytes_unit, valueBits_mod_two_pow _ le_rfl]

/-- A byte string has U stream bits for each whole unit. -/
theorem length_streamBits (c : BitCfg) (bs : List Byte) :
    (streamBits c bs).length = c.unit.bits * (bs.length / c.unit.bytes) := by
  have hpos := c.unit.bytes_pos
  induction hn : bs.length using Nat.strong_induction_on generalizing bs with
  | _ n ih =>
    by_cases h : bs.length < c.unit.bytes
    · rw [streamBits_eq_nil c h, ← hn, Nat.div_eq_of_lt h]
      rfl
    · have hunit : (bs.take c.unit.bytes).length = c.unit.bytes := by rw [List.length_take]; omega
      have hrest : (bs.drop c.unit.bytes).length = n - c.unit.bytes := by rw [List.length_drop, hn]
      rw [← List.take_append_drop c.unit.bytes bs, streamBits_cons_unit c _ hunit, List.length_append,
        length_valueBits, ih _ (by omega) _ hrest, Nat.div_eq_sub_div hpos (show c.unit.bytes ≤ n by omega)]
      ring

end Sys2Proof.Machine
end

section
/-! The bit reader: what BR_READ, BR_READ_INT and the stream resets do (41_bitio.md R200 to R205). -/

namespace Sys2Proof.Machine

/-- Settles O25: the four commands are record updates and standard completion. -/
theorem streamResets : Obligations.StreamResets := fun _ => ⟨rfl, rfl, rfl, rfl⟩

/-! ## The unread bits -/

/-- The number of units `n` more bits need, once the buffered ones are used (R203). -/
def Reader.fetches (r : Reader) (n : Nat) : Nat :=
  (n - r.bits.toNat + r.cfg.unit.bits - 1) / r.cfg.unit.bits

/-- The number of the unit at offset `pos` of the reader's window (R201). -/
def State.unitAt (s : State) (pos : Nat) : Nat :=
  bytesValue s.br.cfg.byteOrder (s.mem.getBytes (s.br.base.toNat + pos) s.br.cfg.unit.bytes)

/-- The reader after fetch_unit (R201). -/
def State.fetched (s : State) : Reader :=
  { s.br with
    pos := word (s.br.pos.toNat + s.br.cfg.unit.bytes)
    bits := BitVec.ofNat 5 s.br.cfg.unit.bits
    buf := BitVec.ofNat 16 (s.unitAt s.br.pos.toNat) }

/-- The reader after `n` more bits (R203). -/
def State.readerAfter (s : State) (n : Nat) : Reader :=
  { s.br with
    pos := word (s.br.pos.toNat + s.br.cfg.unit.bytes * s.br.fetches n)
    bits := BitVec.ofNat 5 (s.br.bits.toNat + s.br.cfg.unit.bits * s.br.fetches n - n)
    buf := if s.br.fetches n = 0 then s.br.buf else
      BitVec.ofNat 16 (s.unitAt (s.br.pos.toNat + s.br.cfg.unit.bytes * (s.br.fetches n - 1))) }

theorem fetchUnit_of_room {s : State} (h : s.br.pos.toNat + s.br.cfg.unit.bytes ≤ s.br.len.toNat) :
    fetchUnit s = .ok { s with br := s.fetched } :=
  if_neg (by omega)

theorem fetchUnit_of_no_room {s : State} (h : s.br.len.toNat < s.br.pos.toNat + s.br.cfg.unit.bytes) :
    fetchUnit s = .error s :=
  if_pos h

theorem Reader.heldBits_of_bits_eq_zero {r : Reader} (h : r.bits = 0) : r.heldBits = [] := by
  simp [heldBits, h]

/-- While the unit has bits left, the next one is `nextBit` (R202). -/
theorem Reader.heldBits_eq_cons {r : Reader} (hs : r.Sound) (h : r.bits ≠ 0) :
    r.heldBits = r.nextBit :: ({ r with bits := r.bits - 1 } : Reader).heldBits := by
  have hpos := bitCount_pos h
  have hpred := toNat_bitCount_pred h
  have hlt : r.cfg.unit.bits - r.bits.toNat < (valueBits r.cfg.bitOrder r.cfg.unit.bits r.buf.toNat).length := by
    rw [length_valueBits]
    omega
  unfold heldBits
  rw [List.drop_eq_getElem_cons hlt, getElem_valueBits, BitVec.testBit_toNat, hpred,
    show r.cfg.unit.bits - r.bits.toNat + 1 = r.cfg.unit.bits - (r.bits.toNat - 1) by omega]
  congr 1
  unfold nextBit
  cases r.cfg.bitOrder with
  | msbFirst =>
    have hindex : r.cfg.unit.bits - 1 - (r.cfg.unit.bits - r.bits.toNat) = r.bits.toNat - 1 := by omega
    simp only [BitOrder.index, hindex]
  | lsbFirst => rfl

theorem length_unreadBits {s : State} (h : s.br.Sound) :
    s.unreadBits.length =
      s.br.bits.toNat + s.br.cfg.unit.bits * ((s.br.len.toNat - s.br.pos.toNat) / s.br.cfg.unit.bytes) := by
  rw [State.unreadBits, List.length_append, length_streamBits, Memory.length_getBytes, Reader.heldBits,
    List.length_drop, length_valueBits, Nat.sub_sub_self h]

theorem toNat_fetched_bits (s : State) : s.fetched.bits.toNat = s.br.cfg.unit.bits := by
  simp only [State.fetched]
  cases s.br.cfg.unit <;> rfl

/-- A fetch moves the bits of the next unit from the window to the buffer (R201). -/
theorem unreadBits_fetched {s : State} (hb : s.br.bits = 0)
    (h : s.br.pos.toNat + s.br.cfg.unit.bytes ≤ s.br.len.toNat) :
    ({ s with br := s.fetched } : State).unreadBits = s.unreadBits := by
  have hpos : (word (s.br.pos.toNat + s.br.cfg.unit.bytes)).toNat = s.br.pos.toNat + s.br.cfg.unit.bytes :=
    Nat.mod_eq_of_lt (by omega)
  have hsplit : s.br.len.toNat - s.br.pos.toNat =
      s.br.cfg.unit.bytes + (s.br.len.toNat - (s.br.pos.toNat + s.br.cfg.unit.bytes)) := by omega
  have hheld : s.fetched.heldBits =
      valueBits s.br.cfg.bitOrder s.br.cfg.unit.bits (s.unitAt s.br.pos.toNat) := by
    rw [Reader.heldBits, toNat_fetched_bits, ← valueBits_mod_two_pow _ s.br.cfg.unit.bits_le, ← BitVec.toNat_ofNat]
    exact congrArg (List.drop · _) (Nat.sub_self _)
  rw [State.unreadBits, State.unreadBits, Reader.heldBits_of_bits_eq_zero hb, hsplit, Memory.getBytes_add,
    streamBits_cons_unit _ _ (Memory.length_getBytes _ _ _), hheld]
  simp only [State.fetched, hpos, Nat.add_assoc, List.nil_append, State.unitAt]

/-- With no bit buffered, a bit is left exactly while a whole unit is (R201). -/
theorem unreadBits_eq_nil_iff {s : State} (hb : s.br.bits = 0) :
    s.unreadBits = [] ↔ s.br.len.toNat < s.br.pos.toNat + s.br.cfg.unit.bytes := by
  have hzero := toNat_bitCount_zero hb
  have hs : s.br.Sound := by simp [Reader.Sound, hzero]
  have hbits : s.br.cfg.unit.bits ≠ 0 := s.br.cfg.unit.bits_pos.ne'
  have hbytes := s.br.cfg.unit.bytes_pos
  rw [← List.length_eq_zero_iff, length_unreadBits hs, hzero, Nat.zero_add, Nat.mul_eq_zero,
    or_iff_right hbits, Nat.div_eq_zero_iff, or_iff_right hbytes.ne']
  omega

/-- With no bit buffered but one left, a whole unit is in the window. -/
theorem room_of_unreadBits_ne_nil {s : State} (hb : s.br.bits = 0) (h : s.unreadBits ≠ []) :
    s.br.pos.toNat + s.br.cfg.unit.bytes ≤ s.br.len.toNat :=
  Nat.not_lt.1 (mt (unreadBits_eq_nil_iff hb).2 h)

/-! ## Reading bits -/

theorem State.readerAfter_one_of_held {s : State} (h : s.br.bits ≠ 0) :
    s.readerAfter 1 = { s.br with bits := s.br.bits - 1 } := by
  have hpos := bitCount_pos h
  have hnone : s.br.fetches 1 = 0 := by
    unfold Reader.fetches
    cases s.br.cfg.unit <;> simp only [UnitWidth.bits] <;> omega
  have hbits : BitVec.ofNat 5 (s.br.bits.toNat - 1) = s.br.bits - 1 := by
    rw [← toNat_bitCount_pred h, bitCount_toNat]
  simp [readerAfter, hnone, hbits]

theorem State.readerAfter_one_of_empty {s : State} (h : s.br.bits = 0) :
    s.readerAfter 1 = { s.fetched with bits := s.fetched.bits - 1 } := by
  have hone : s.br.fetches 1 = 1 := by
    simp only [Reader.fetches, h]
    cases s.br.cfg.unit <;> rfl
  have hbits : BitVec.ofNat 5 (s.br.cfg.unit.bits - 1) = BitVec.ofNat 5 s.br.cfg.unit.bits - 1 := by
    cases s.br.cfg.unit <;> rfl
  simp [readerAfter, fetched, hone, hbits, h]

/-- read_bit takes the first unread bit (R202). -/
theorem readBit_ok {s : State} (hs : s.br.Sound) (h : s.unreadBits ≠ []) :
    ∃ b, readBit s = .ok (b, { s with br := s.readerAfter 1 }) ∧
      s.unreadBits = b :: ({ s with br := s.readerAfter 1 } : State).unreadBits := by
  by_cases hb : s.br.bits = 0
  · have hroom := room_of_unreadBits_ne_nil hb h
    have hfs : s.fetched.Sound := (toNat_fetched_bits s).le
    have hfb : s.fetched.bits ≠ 0 := by
      simp only [State.fetched]
      cases s.br.cfg.unit <;> decide
    refine ⟨s.fetched.nextBit, ?_, ?_⟩
    · rw [readBit, if_pos hb, fetchUnit_of_room hroom, State.readerAfter_one_of_empty hb]
      exact congrArg Except.ok (takeBit_of_sound (s := { s with br := s.fetched }) hfs)
    · rw [← unreadBits_fetched hb hroom, State.unreadBits, Reader.heldBits_eq_cons hfs hfb,
        State.readerAfter_one_of_empty hb]
      rfl
  · refine ⟨s.br.nextBit, ?_, ?_⟩
    · rw [readBit, if_neg hb, takeBit_of_sound hs, State.readerAfter_one_of_held hb]
    · rw [State.unreadBits, Reader.heldBits_eq_cons hs hb, State.readerAfter_one_of_held hb]
      rfl

/-- Without an unread bit, read_bit misses the unit at BR_POS (R201, R202). -/
theorem readBit_error {s : State} (hs : s.br.Sound) (h : s.unreadBits = []) :
    readBit s = .error s ∧ s.br.endPos = s.br.pos.toNat := by
  have hb : s.br.bits = 0 := by
    have hlen := length_unreadBits hs
    rw [h, List.length_nil] at hlen
    exact BitVec.eq_of_toNat_eq (show _ = 0 by omega)
  have hroom := (unreadBits_eq_nil_iff hb).1 h
  constructor
  · rw [readBit, if_pos hb, fetchUnit_of_no_room hroom]
  · have hbytes := s.br.cfg.unit.bytes_pos
    rw [Reader.endPos, Nat.div_eq_of_lt (by omega)]
    rfl

theorem readerAfter_zero {s : State} : s.readerAfter 0 = s.br := by
  have hnone : s.br.fetches 0 = 0 := by
    unfold Reader.fetches
    cases s.br.cfg.unit <;> simp only [UnitWidth.bits] <;> omega
  simp [State.readerAfter, hnone]

theorem toNat_readerAfter_bits {s : State} (hs : s.br.Sound) (n : Nat) :
    (s.readerAfter n).bits.toNat = s.br.bits.toNat + s.br.cfg.unit.bits * s.br.fetches n - n := by
  refine Nat.mod_eq_of_lt ?_
  unfold Reader.Sound at hs
  unfold Reader.fetches
  cases hu : s.br.cfg.unit <;> simp only [hu, UnitWidth.bits] at hs ⊢ <;> omega

theorem readerAfter_sound {s : State} (hs : s.br.Sound) (n : Nat) : (s.readerAfter n).Sound := by
  unfold Reader.Sound
  rw [toNat_readerAfter_bits hs]
  unfold Reader.Sound at hs
  unfold Reader.fetches
  simp only [State.readerAfter]
  cases hu : s.br.cfg.unit <;> simp only [hu, UnitWidth.bits] at hs ⊢ <;> omega

/-- The reader of `n` more bits after one, while its unit has bits left. -/
theorem readerAfter_of_held {s : State} (hb : s.br.bits ≠ 0) (n : Nat) :
    ({ s with br := { s.br with bits := s.br.bits - 1 } } : State).readerAfter n = s.readerAfter (n + 1) := by
  have hpos := bitCount_pos hb
  have hpred := toNat_bitCount_pred hb
  have hf : ({ s.br with bits := s.br.bits - 1 } : Reader).fetches n = s.br.fetches (n + 1) := by
    simp only [Reader.fetches, hpred]
    congr 2
    omega
  have hleft (k : Nat) : s.br.bits.toNat - 1 + k - n = s.br.bits.toNat + k - (n + 1) := by omega
  simp only [State.readerAfter, hf, hpred, hleft, State.unitAt]

/-- The reader of `n` more bits after the first of a unit that had to be fetched. -/
theorem readerAfter_of_empty {s : State} (hb : s.br.bits = 0)
    (hroom : s.br.pos.toNat + s.br.cfg.unit.bytes ≤ s.br.len.toNat) (n : Nat) :
    ({ s with br := { s.fetched with bits := s.fetched.bits - 1 } } : State).readerAfter n = s.readerAfter (n + 1) := by
  have hzero := toNat_bitCount_zero hb
  have hpos : s.fetched.pos.toNat = s.br.pos.toNat + s.br.cfg.unit.bytes := Nat.mod_eq_of_lt (by omega)
  have hpred : (s.fetched.bits - 1).toNat = s.br.cfg.unit.bits - 1 := by
    simp only [State.fetched]
    cases s.br.cfg.unit <;> rfl
  have hf : s.br.fetches (n + 1) = ({ s.fetched with bits := s.fetched.bits - 1 } : Reader).fetches n + 1 := by
    have hcfg : s.fetched.cfg = s.br.cfg := rfl
    simp only [Reader.fetches, hpred, hzero, hcfg]
    cases s.br.cfg.unit <;> simp only [UnitWidth.bits] <;> omega
  have hleft (k : Nat) : s.br.cfg.unit.bits * (k + 1) - (n + 1) =
      s.br.cfg.unit.bits - 1 + s.br.cfg.unit.bits * k - n := by
    have := s.br.cfg.unit.bits_pos
    rw [Nat.mul_succ]
    omega
  have hnext (k : Nat) : s.br.cfg.unit.bytes + s.br.cfg.unit.bytes * k = s.br.cfg.unit.bytes * (k + 1) := by ring
  unfold State.readerAfter
  rw [hf, hzero, Nat.zero_add, hleft]
  simp only [hpred, hpos]
  generalize ({ s.fetched with bits := s.fetched.bits - 1 } : Reader).fetches n = k
  cases k <;> simp [State.fetched, State.unitAt, Nat.add_assoc, hnext]

/-- One bit and then `n` more are `n + 1` bits. -/
theorem readerAfter_one_readerAfter {s : State} (h : s.unreadBits ≠ []) (n : Nat) :
    ({ s with br := s.readerAfter 1 } : State).readerAfter n = s.readerAfter (n + 1) := by
  by_cases hb : s.br.bits = 0
  · rw [State.readerAfter_one_of_empty hb]
    exact readerAfter_of_empty hb (room_of_unreadBits_ne_nil hb h) n
  · rw [State.readerAfter_one_of_held hb]
    exact readerAfter_of_held hb n

/-- Where the reader will lack a unit does not move as a bit is read. -/
theorem endPos_readerAfter_one {s : State} (h : s.unreadBits ≠ []) : (s.readerAfter 1).endPos = s.br.endPos := by
  by_cases hb : s.br.bits = 0
  · have hroom := room_of_unreadBits_ne_nil hb h
    have hpos : s.fetched.pos.toNat = s.br.pos.toNat + s.br.cfg.unit.bytes := Nat.mod_eq_of_lt (by omega)
    have hdiv := Nat.div_eq_sub_div (a := s.br.len.toNat - s.br.pos.toNat) s.br.cfg.unit.bytes_pos (by omega)
    rw [State.readerAfter_one_of_empty hb, Reader.endPos, Reader.endPos, hdiv, hpos, Nat.mul_succ, Nat.sub_sub]
    simp only [State.fetched]
    ring
  · rw [State.readerAfter_one_of_held hb]
    rfl

/-- Reading no more bits than are left takes them from the front (R203). -/
theorem readBits_ok {s : State} (hs : s.br.Sound) {n : Nat} (h : n ≤ s.unreadBits.length) :
    readBits s n = .ok (s.unreadBits.take n, { s with br := s.readerAfter n }) ∧
      ({ s with br := s.readerAfter n } : State).unreadBits = s.unreadBits.drop n := by
  induction n generalizing s with
  | zero =>
    rw [readerAfter_zero]
    exact ⟨rfl, rfl⟩
  | succ n ih =>
    have hne : s.unreadBits ≠ [] := List.ne_nil_of_length_pos (by omega)
    obtain ⟨b, hread, hbits⟩ := readBit_ok hs hne
    obtain ⟨hrest, hleft⟩ := ih (s := { s with br := s.readerAfter 1 }) (readerAfter_sound hs 1) (by
      rw [hbits, List.length_cons] at h
      omega)
    rw [readerAfter_one_readerAfter hne] at hrest hleft
    rw [readBits, hread, hbits]
    simp only [hrest, List.take_succ_cons, List.drop_succ_cons]
    exact ⟨trivial, hleft⟩

/-- Reading more bits than are left fails at the first missing unit, and draws no free value (R201, R203). -/
theorem readBits_error {s : State} (hs : s.br.Sound) {n : Nat} (h : s.unreadBits.length < n) :
    ∃ f, readBits s n = .error f ∧ f.br.pos.toNat = s.br.endPos ∧ f.anyCount = s.anyCount := by
  induction n generalizing s with
  | zero => omega
  | succ n ih =>
    by_cases hne : s.unreadBits = []
    · obtain ⟨hread, hpos⟩ := readBit_error hs hne
      refine ⟨s, ?_, hpos.symm, rfl⟩
      rw [readBits, hread]
    · obtain ⟨b, hread, hbits⟩ := readBit_ok hs hne
      obtain ⟨f, hrest, hpos, hcount⟩ := ih (s := { s with br := s.readerAfter 1 }) (readerAfter_sound hs 1) (by
        rw [hbits, List.length_cons] at h
        omega)
      refine ⟨f, ?_, hpos.trans (endPos_readerAfter_one hne), hcount⟩
      rw [readBits, hread]
      simp only [hrest]

/-! ## Reader commands -/

theorem exec_brRead {s : State} {n : BitVec 6} (hn : n.toNat ≤ 32) (hw : s.ReaderReady) :
    exec (.brRead n) s = match readBits s n.toNat with
      | .error f => .next ((s.countFrom f).anyResult.anyReader.nextAny.raise (.truncatedInput, f.br.pos))
      | .ok (bs, s1) => .next ({ s1 with result := word (bitsValue s.br.cfg.bitOrder bs) } : State).complete := by
  refine checked_of_none ?_
  simp only [firstErr_cons_eq_none, failIf_eq_none, windowErr_eq_none, decide_eq_false_iff_not, firstErr_nil]
  exact ⟨by omega, hw, trivial⟩

/-- BR_READ of bits that are left completes with the number they form (R203). -/
theorem exec_brRead_ok {s : State} {n : BitVec 6} (hn : n.toNat ≤ 32) (hw : s.ReaderReady) (hs : s.br.Sound)
    (hlen : n.toNat ≤ s.unreadBits.length) :
    exec (.brRead n) s = .next { s with
      result := word (bitsValue s.br.cfg.bitOrder (s.unreadBits.take n.toNat))
      br := s.readerAfter n.toNat, status := s.status.ended } := by
  rw [exec_brRead hn hw, (readBits_ok hs hlen).1]
  rfl

/-- Settles O26: `State.readerAfter` is the reader the statement writes out. -/
theorem brReadDeliversBits : Obligations.BrReadDeliversBits := fun _ _ hn hw hs hlen =>
  ⟨exec_brRead_ok hn hw hs hlen, (readBits_ok hs hlen).2⟩

/-- Settles O27, from where reading too many bits fails. -/
theorem brReadPastEnd : Obligations.BrReadPastEnd := by
  unfold Obligations.BrReadPastEnd
  intro s n hn hw hs hlen
  obtain ⟨f, hread, hpos, hcount⟩ := readBits_error hs hlen
  have hend : f.br.pos = word s.br.endPos := by rw [← hpos, word_toNat]
  rw [exec_brRead hn hw, hread, ← hend, ← hcount]
  exact ⟨_, _, _, _, rfl⟩

theorem exec_brReadInt {s : State} {w : BitVec 2} (hw : w.toNat ≠ 3) (hb : s.br.bits = 0) (hin : s.ReaderReady) :
    exec (.brReadInt w) s =
      if s.br.pos.toNat + widthBytes w > s.br.len.toNat then
        .next (s.anyResult.nextAny.raise (.truncatedInput, s.br.pos))
      else
        .next ({ s with
          result := word (bytesValue s.br.cfg.byteOrder
            (s.mem.getBytes (s.br.base.toNat + s.br.pos.toNat) (widthBytes w)))
          br := { s.br with pos := word (s.br.pos.toNat + widthBytes w) } } : State).complete := by
  refine checked_of_none ?_
  simp only [firstErr_cons_eq_none, failIf_eq_none, windowErr_eq_none, decide_eq_false_iff_not, firstErr_nil, not_not]
  exact ⟨hw, hb, hin, trivial⟩

/-- Settles O28: buffered bits fail a start check, and the body has a branch for each of the other clauses. -/
theorem brReadIntReads : Obligations.BrReadIntReads := by
  unfold Obligations.BrReadIntReads
  intro s w hw
  refine ⟨fun hb => ?_, fun hb hin hroom => ?_, fun hb hin hroom => ?_⟩
  · refine checked_of_some (e := (.illegalCommand, encode (.brReadInt w))) ?_
    have hb0 : ¬ s.br.bits = 0#5 := hb
    simp [failIf, hw, hb0]
  · rw [exec_brReadInt hw hb hin, if_neg (by omega)]
    rfl
  · rw [exec_brReadInt hw hb hin, if_pos hroom]
    exact ⟨_, rfl⟩

end Sys2Proof.Machine
end

section
/-! The bit writer: what placing, storing and flushing bits do (41_bitio.md R211 to R214). -/

namespace Sys2Proof.Machine

/-! ## The pending unit -/

/-- The writer after its pending unit has taken one more bit (R211). -/
def Writer.placed (w : Writer) (b : Bool) : Writer :=
  { w with buf := setBit w.buf (w.cfg.place w.bits.toNat) b, bits := BitVec.ofNat 5 (w.bits.toNat + 1) }

/-- The state after emit_unit has stored the pending unit (R211). -/
def State.emitted (s : State) : State :=
  { s with
    mem := s.mem.setBytes (s.bw.base.toNat + s.bw.pos.toNat)
      (valueBytes s.bw.cfg.byteOrder s.bw.cfg.unit.bytes s.bw.buf.toNat)
    bw := { s.bw with pos := word (s.bw.pos.toNat + s.bw.cfg.unit.bytes), buf := 0, bits := 0 } }

theorem Memory.getBytes_setBytes_valueBytes {m : Memory} (hm : m.wf = true) (a : Nat) (o : ByteOrder) (n v : Nat) :
    (m.setBytes a (valueBytes o n v)).getBytes a n = valueBytes o n v := by
  have h := Memory.getBytes_setBytes_self hm a (valueBytes o n v)
  rwa [length_valueBytes] at h

theorem emitUnit_of_room {s : State} (h : s.bw.pos.toNat + s.bw.cfg.unit.bytes ≤ s.bw.cap.toNat) :
    emitUnit s = .ok s.emitted :=
  if_neg (by omega)

theorem emitUnit_of_no_room {s : State} (h : s.bw.cap.toNat < s.bw.pos.toNat + s.bw.cfg.unit.bytes) :
    emitUnit s = .error s :=
  if_pos h

theorem Writer.toNat_placed_bits {w : Writer} (hs : w.Sound) (b : Bool) :
    (w.placed b).bits.toNat = w.bits.toNat + 1 :=
  Nat.mod_eq_of_lt (by have := w.cfg.unit.bits_le; omega)

theorem Writer.pendingBits_placed {w : Writer} (hs : w.Sound) (b : Bool) :
    (w.placed b).pendingBits = w.pendingBits ++ [b] := by
  have hlen : w.bits.toNat < (valueBits w.cfg.bitOrder w.cfg.unit.bits w.buf.toNat).length := by
    rwa [length_valueBits]
  rw [pendingBits, toNat_placed_bits hs, placed, valueBits_setBit_place _ _ hs, pendingBits,
    ← List.take_append_getElem (by rwa [List.length_set]), List.take_set_of_le le_rfl, List.getElem_set_self]

theorem setBit_lt_two_pow {v : BitVec 16} {i n : Nat} (hv : v.toNat < 2 ^ n) (hi : i < n) (hn : n ≤ 16) (b : Bool) :
    (setBit v i b).toNat < 2 ^ n := by
  refine Nat.lt_pow_two_of_testBit _ fun j hj => ?_
  rw [BitVec.testBit_toNat, getLsbD_setBit _ (by omega), if_neg (by omega), ← BitVec.testBit_toNat]
  exact Nat.testBit_lt_two_pow (hv.trans_le (Nat.pow_le_pow_right two_pos hj))

theorem Writer.Clean.placed {w : Writer} (hc : w.Clean) (hs : w.Sound) (b : Bool) : (w.placed b).Clean := by
  obtain ⟨hlt, hzero⟩ := hc
  constructor
  · refine setBit_lt_two_pow hlt ?_ w.cfg.unit.bits_le b
    rw [BitCfg.place_eq_index]
    exact w.cfg.bitOrder.index_lt hs
  · intro x hx
    rw [toNat_placed_bits hs, Writer.placed, valueBits_setBit_place _ _ hs,
      List.drop_set_of_lt (Nat.lt_succ_self _)] at hx
    exact hzero x ((List.drop_sublist_drop_left _ (Nat.le_succ _)).subset hx)

/-- With BW_BUF 0 every unplaced bit is 0. -/
theorem Writer.clean_of_buf_eq_zero {w : Writer} (h : w.buf = 0) : w.Clean := by
  have hzero : w.buf.toNat = 0 := by rw [h]; rfl
  refine ⟨by rw [hzero]; exact Nat.two_pow_pos _, fun b hb => ?_⟩
  rw [hzero, valueBits_zero] at hb
  exact List.eq_of_mem_replicate (List.mem_of_mem_drop hb)

/-- A pending unit whose unplaced bits are 0 is its bits and their zero padding (R213). -/
theorem Writer.Clean.valueBits_buf {w : Writer} (hc : w.Clean) :
    valueBits w.cfg.bitOrder w.cfg.unit.bits w.buf.toNat =
      w.pendingBits ++ List.replicate (w.cfg.unit.bits - w.bits.toNat) false := by
  rw [← List.take_append_drop w.bits.toNat (valueBits w.cfg.bitOrder w.cfg.unit.bits w.buf.toNat)]
  exact congrArg _ (List.eq_replicate_iff.2 ⟨by rw [List.length_drop, length_valueBits], hc.2⟩)

/-! ## Storing a unit -/

theorem toNat_emitted_pos {s : State} (h : s.bw.pos.toNat + s.bw.cfg.unit.bytes ≤ s.bw.cap.toNat) :
    s.emitted.bw.pos.toNat = s.bw.pos.toNat + s.bw.cfg.unit.bytes :=
  Nat.mod_eq_of_lt (by omega)

theorem sameOutside_emitted (s : State) :
    s.mem.SameOutside s.emitted.mem (s.bw.base.toNat + s.bw.pos.toNat) s.bw.cfg.unit.bytes := fun a ha =>
  Memory.get_setBytes_of_outside _ _ (by rwa [Memory.length_valueBytes])

/-- A stored unit's bits follow those of the units before it (R211). -/
theorem writtenBits_emitted {s : State} (hwf : s.mem.wf = true)
    (hroom : s.bw.pos.toNat + s.bw.cfg.unit.bytes ≤ s.bw.cap.toNat) {start k : Nat}
    (hk : s.bw.pos.toNat = start + s.bw.cfg.unit.bytes * k) :
    s.emitted.writtenBits start =
      streamBits s.bw.cfg (s.mem.getBytes (s.bw.base.toNat + start) (s.bw.pos.toNat - start)) ++
        valueBits s.bw.cfg.bitOrder s.bw.cfg.unit.bits s.bw.buf.toNat := by
  have hpending : s.emitted.bw.pendingBits = [] := rfl
  have hbytes : s.emitted.bw.pos.toNat - start = s.bw.cfg.unit.bytes * k + s.bw.cfg.unit.bytes := by
    rw [toNat_emitted_pos hroom]
    omega
  have hbefore : s.emitted.mem.getBytes (s.bw.base.toNat + start) (s.bw.cfg.unit.bytes * k) =
      s.mem.getBytes (s.bw.base.toNat + start) (s.bw.cfg.unit.bytes * k) :=
    Memory.getBytes_congr fun x _ hx => sameOutside_emitted s x (by omega)
  have hunit : s.emitted.mem.getBytes (s.bw.base.toNat + start + s.bw.cfg.unit.bytes * k) s.bw.cfg.unit.bytes =
      valueBytes s.bw.cfg.byteOrder s.bw.cfg.unit.bytes s.bw.buf.toNat := by
    rw [Nat.add_assoc, ← hk]
    exact Memory.getBytes_setBytes_valueBytes hwf _ _ _ _
  rw [State.writtenBits, hpending, hbytes, List.append_nil, ← streamBits_valueBytes, ← hunit,
    show s.bw.pos.toNat - start = s.bw.cfg.unit.bytes * k by omega, ← hbefore,
    ← streamBits_append _ k _ (Memory.length_getBytes _ _ _), ← Memory.getBytes_add]
  rfl

/-! ## Appending bits -/

/-- What putting the bits `bs` without an error does (R211): BW_POS and BW_BITS count them, only stored units have changed, and the written bits are the old ones and then `bs`, from any earlier unit boundary `start` on. -/
structure Appends (s t : State) (bs : List Bool) : Prop where
  params : t.params = s.params
  anyCount : t.anyCount = s.anyCount
  config : t.bw = { s.bw with pos := t.bw.pos, bits := t.bw.bits, buf := t.bw.buf }
  pos : t.bw.pos.toNat = s.bw.posAfter bs.length
  bits : t.bw.bits.toNat = (s.bw.bits.toNat + bs.length) % s.bw.cfg.unit.bits
  room : s.bw.pos.toNat ≤ s.bw.cap.toNat → t.bw.pos.toNat ≤ s.bw.cap.toNat
  wf : s.mem.wf = true → t.mem.wf = true
  outside : s.mem.SameOutside t.mem (s.bw.base.toNat + s.bw.pos.toNat) (s.bw.posAfter bs.length - s.bw.pos.toNat)
  written : s.mem.wf = true → ∀ start k, s.bw.pos.toNat = start + s.bw.cfg.unit.bytes * k →
    t.writtenBits start = s.writtenBits start ++ bs
  clean : s.bw.Clean → t.bw.Clean

namespace Appends

variable {s t u : State} {as bs : List Bool}

theorem cfg (h : Appends s t bs) : t.bw.cfg = s.bw.cfg := by rw [h.config]
theorem base (h : Appends s t bs) : t.bw.base = s.bw.base := by rw [h.config]
theorem cap (h : Appends s t bs) : t.bw.cap = s.bw.cap := by rw [h.config]

theorem sound (h : Appends s t bs) : t.bw.Sound := by
  rw [Writer.Sound, h.bits, h.cfg]
  exact Nat.mod_lt _ s.bw.cfg.unit.bits_pos

theorem ready (h : Appends s t bs) (hw : s.WriterReady) : t.WriterReady := by
  rw [State.WriterReady, Writer.window, h.base, h.cap, h.params]
  exact hw

theorem refl (hs : s.bw.Sound) : Appends s s [] where
  params := rfl
  anyCount := rfl
  config := rfl
  pos := by simp [Writer.posAfter, Nat.div_eq_of_lt hs]
  bits := (Nat.mod_eq_of_lt hs).symm
  room := id
  wf := id
  outside := fun _ _ => rfl
  written := fun _ _ _ _ => (List.append_nil _).symm
  clean := id

/-- The units that `n` bits and then `m` more complete. -/
theorem posAfter_eq (h : Appends s t as) (m : Nat) : t.bw.posAfter m = s.bw.posAfter (as.length + m) := by
  have hU := s.bw.cfg.unit.bits_pos
  have hsplit : s.bw.bits.toNat + (as.length + m) = (s.bw.bits.toNat + as.length) % s.bw.cfg.unit.bits + m +
      s.bw.cfg.unit.bits * ((s.bw.bits.toNat + as.length) / s.bw.cfg.unit.bits) := by
    have := Nat.mod_add_div (s.bw.bits.toNat + as.length) s.bw.cfg.unit.bits
    omega
  rw [Writer.posAfter, h.pos, h.bits, h.cfg, Writer.posAfter, Writer.posAfter, hsplit, Nat.add_mul_div_left _ _ hU]
  ring

theorem pos_le (h : Appends s t as) : s.bw.pos.toNat ≤ t.bw.pos.toNat := by
  rw [h.pos]
  exact Nat.le_add_right _ _

theorem trans (h : Appends s t as) (h' : Appends t u bs) : Appends s u (as ++ bs) where
  params := h'.params.trans h.params
  anyCount := h'.anyCount.trans h.anyCount
  config := by rw [h'.config, h.config]
  pos := by rw [h'.pos, h.posAfter_eq, List.length_append]
  bits := by rw [h'.bits, h.bits, h.cfg, Nat.mod_add_mod, List.length_append, Nat.add_assoc]
  room := fun hr => by
    have := h'.room (by rw [h.cap]; exact h.room hr)
    rwa [h.cap] at this
  wf := h'.wf ∘ h.wf
  outside := fun a ha => by
    have hle := h.pos_le
    have hle' := h'.pos_le
    have hend := h'.pos
    have hmid := h.pos
    rw [h.posAfter_eq] at hend
    rw [List.length_append] at ha
    rw [h'.outside a (by rw [h.base, h.posAfter_eq]; omega), h.outside a (by omega)]
  written := fun hwf start k hk => by
    have hmid := h'.written (h.wf hwf) start (k + (s.bw.bits.toNat + as.length) / s.bw.cfg.unit.bits) (by
      rw [h.pos, Writer.posAfter, h.cfg, hk]
      ring)
    rw [hmid, h.written hwf start k hk, List.append_assoc]
  clean := h'.clean ∘ h.clean

/-- ARG0 plays no part in what is appended. -/
theorem of_arg0 {v : Word} (h : Appends { s with arg0 := v } t bs) : Appends s t bs :=
  ⟨h.params, h.anyCount, h.config, h.pos, h.bits, h.room, h.wf, h.outside, h.written, h.clean⟩

/-- Completion appends nothing more. -/
theorem complete (h : Appends s t bs) : Appends s t.complete bs :=
  ⟨h.params, h.anyCount, h.config, h.pos, h.bits, h.room, h.wf, h.outside, h.written, h.clean⟩

end Appends

/-! ## One bit -/

/-- A bit that leaves the unit unfinished is placed (R211). -/
theorem putBit_of_unfinished {s : State} (h : s.bw.bits.toNat + 1 < s.bw.cfg.unit.bits) (b : Bool) :
    putBit s b = .ok { s with bw := s.bw.placed b } := by
  have hs : s.bw.Sound := by unfold Writer.Sound; omega
  rw [putBit, placeBit_of_sound hs]
  exact if_neg (by rw [← Writer.placed, Writer.toNat_placed_bits hs]; exact h.ne)

/-- A bit that finishes the unit has it stored (R211). -/
theorem putBit_of_finished {s : State} (h : s.bw.bits.toNat + 1 = s.bw.cfg.unit.bits) (b : Bool) :
    putBit s b = emitUnit { s with bw := s.bw.placed b } := by
  have hs : s.bw.Sound := by unfold Writer.Sound; omega
  rw [putBit, placeBit_of_sound hs]
  exact if_pos (by rw [← Writer.placed, Writer.toNat_placed_bits hs]; exact h)

theorem appends_placed {s : State} (h : s.bw.bits.toNat + 1 < s.bw.cfg.unit.bits) (b : Bool) :
    Appends s { s with bw := s.bw.placed b } [b] where
  params := rfl
  anyCount := rfl
  config := rfl
  pos := by
    rw [Writer.posAfter, List.length_singleton, Nat.div_eq_of_lt h]
    rfl
  bits := by
    rw [List.length_singleton, Nat.mod_eq_of_lt h]
    exact Writer.toNat_placed_bits (by unfold Writer.Sound; omega) b
  room := id
  wf := id
  outside := fun _ _ => rfl
  written := fun _ start _ _ => by
    have hs : s.bw.Sound := by unfold Writer.Sound; omega
    rw [State.writtenBits, Writer.pendingBits_placed hs, ← List.append_assoc]
    rfl
  clean := fun hc => hc.placed (by unfold Writer.Sound; omega) b

/-- Storing the pending unit once `bs` have filled it. -/
theorem appends_emitted {s : State} {bs : List Bool} (c : BitVec 5) {f : BitVec 16}
    (hroom : s.bw.pos.toNat + s.bw.cfg.unit.bytes ≤ s.bw.cap.toNat)
    (hlen : s.bw.bits.toNat + bs.length = s.bw.cfg.unit.bits)
    (hunit : valueBits s.bw.cfg.bitOrder s.bw.cfg.unit.bits f.toNat = s.bw.pendingBits ++ bs) :
    Appends s ({ s with bw := { s.bw with bits := c, buf := f } } : State).emitted bs := by
  have hpos : ({ s with bw := { s.bw with bits := c, buf := f } } : State).emitted.bw.pos.toNat =
      s.bw.pos.toNat + s.bw.cfg.unit.bytes :=
    toNat_emitted_pos (s := { s with bw := { s.bw with bits := c, buf := f } }) hroom
  have hafter : s.bw.posAfter bs.length = s.bw.pos.toNat + s.bw.cfg.unit.bytes := by
    rw [Writer.posAfter, hlen, Nat.div_self s.bw.cfg.unit.bits_pos, Nat.mul_one]
  refine ⟨rfl, rfl, rfl, hpos.trans hafter.symm, ?_, fun _ => hpos.trans_le hroom,
    fun hwf => Memory.wf_setBytes hwf _ _, ?_, fun hwf start k hk => ?_, fun _ => Writer.clean_of_buf_eq_zero rfl⟩
  · rw [hlen, Nat.mod_self]
    rfl
  · rw [hafter, Nat.add_sub_cancel_left]
    exact sameOutside_emitted { s with bw := { s.bw with bits := c, buf := f } }
  · rw [writtenBits_emitted (s := { s with bw := { s.bw with bits := c, buf := f } }) hwf hroom hk, hunit,
      ← List.append_assoc]
    rfl

/-- A bit that completes no unit, or one that fits, is appended (R211). -/
theorem putBit_ok {s : State} (hs : s.bw.Sound) (hfit : s.bw.Fits 1) (b : Bool) :
    ∃ t, putBit s b = .ok t ∧ Appends s t [b] := by
  by_cases hlast : s.bw.bits.toNat + 1 < s.bw.cfg.unit.bits
  · exact ⟨_, putBit_of_unfinished hlast b, appends_placed hlast b⟩
  · have hfin : s.bw.bits.toNat + 1 = s.bw.cfg.unit.bits := by unfold Writer.Sound at hs; omega
    have hroom : s.bw.pos.toNat + s.bw.cfg.unit.bytes ≤ s.bw.cap.toNat := by
      have := hfit.resolve_left hlast
      rwa [Writer.posAfter, hfin, Nat.div_self s.bw.cfg.unit.bits_pos, Nat.mul_one] at this
    have hunit : valueBits s.bw.cfg.bitOrder s.bw.cfg.unit.bits (s.bw.placed b).buf.toNat =
        s.bw.pendingBits ++ [b] := by
      rw [← Writer.pendingBits_placed hs, Writer.pendingBits, Writer.toNat_placed_bits hs, hfin]
      exact (List.take_of_length_le (length_valueBits _ _ _).le).symm
    refine ⟨_, ?_, appends_emitted (s.bw.placed b).bits hroom hfin hunit⟩
    rw [putBit_of_finished hfin]
    exact emitUnit_of_room hroom

/-- A bit that completes a unit without room fails where the unit would lie, and draws no free value (R211). -/
theorem putBit_error {s : State} (hs : s.bw.Sound) (hfit : ¬ s.bw.Fits 1) (b : Bool) :
    ∃ f, putBit s b = .error f ∧ f.bw.pos.toNat = s.bw.fullPos ∧ f.anyCount = s.anyCount := by
  obtain ⟨hlast, hfull⟩ := not_or.1 hfit
  have hfin : s.bw.bits.toNat + 1 = s.bw.cfg.unit.bits := by unfold Writer.Sound at hs; omega
  rw [Writer.posAfter, hfin, Nat.div_self s.bw.cfg.unit.bits_pos, Nat.mul_one] at hfull
  have hbytes := s.bw.cfg.unit.bytes_pos
  refine ⟨{ s with bw := s.bw.placed b }, ?_, ?_, rfl⟩
  · rw [putBit_of_finished hfin]
    exact emitUnit_of_no_room (Nat.not_le.1 hfull)
  · rw [Writer.fullPos, Nat.div_eq_of_lt (by omega), Nat.mul_zero, Nat.add_zero]
    rfl

/-! ## Several bits -/

theorem posAfter_mono (w : Writer) {m n : Nat} (h : m ≤ n) : w.posAfter m ≤ w.posAfter n := by
  unfold Writer.posAfter
  gcongr

theorem Writer.Fits.mono {w : Writer} {m n : Nat} (h : w.Fits n) (hle : m ≤ n) : w.Fits m :=
  h.imp (by omega) (posAfter_mono w hle).trans

/-- Once `as` have been appended, further bits fit exactly when all together do. -/
theorem Appends.fits_iff {s t : State} {as : List Bool} (h : Appends s t as) (hfit : s.bw.Fits as.length) (m : Nat) :
    t.bw.Fits m ↔ s.bw.Fits (as.length + m) := by
  rw [Writer.Fits, h.posAfter_eq, h.bits, h.cfg, h.cap, Writer.Fits]
  unfold Writer.Fits at hfit
  unfold Writer.posAfter at hfit ⊢
  cases hu : s.bw.cfg.unit <;> simp only [hu, UnitWidth.bits, UnitWidth.bytes] at hfit ⊢ <;> omega

theorem Appends.fullPos_eq {s t : State} {as : List Bool} (h : Appends s t as) (hfit : s.bw.Fits as.length) :
    t.bw.fullPos = s.bw.fullPos := by
  rw [Writer.fullPos, h.pos, h.cfg, h.cap, Writer.fullPos]
  unfold Writer.Fits at hfit
  unfold Writer.posAfter at hfit ⊢
  cases hu : s.bw.cfg.unit <;> simp only [hu, UnitWidth.bits, UnitWidth.bytes] at hfit ⊢ <;> omega

/-- Bits that fit are appended (R211, R212). -/
theorem putBits_ok {s : State} (hs : s.bw.Sound) {bs : List Bool} (hfit : s.bw.Fits bs.length) :
    ∃ t, putBits s bs = .ok t ∧ Appends s t bs := by
  induction bs generalizing s with
  | nil => exact ⟨s, rfl, .refl hs⟩
  | cons b bs ih =>
    rw [List.length_cons] at hfit
    have hfit1 : s.bw.Fits 1 := hfit.mono (by omega)
    obtain ⟨s1, hput, h1⟩ := putBit_ok hs hfit1 b
    obtain ⟨t, hputs, h2⟩ := ih h1.sound ((h1.fits_iff hfit1 _).2 (by rwa [List.length_singleton, Nat.add_comm]))
    refine ⟨t, ?_, h1.trans h2⟩
    rw [putBits, hput]
    exact hputs

/-- Bits that do not fit fail at the first unit without room, and draw no free value (R211, R212). -/
theorem putBits_error {s : State} (hs : s.bw.Sound) {bs : List Bool} (hfit : ¬ s.bw.Fits bs.length) :
    ∃ f, putBits s bs = .error f ∧ f.bw.pos.toNat = s.bw.fullPos ∧ f.anyCount = s.anyCount := by
  induction bs generalizing s with
  | nil => exact absurd (.inl hs) hfit
  | cons b bs ih =>
    rw [List.length_cons] at hfit
    by_cases hfit1 : s.bw.Fits 1
    · obtain ⟨s1, hput, h1⟩ := putBit_ok hs hfit1 b
      obtain ⟨f, hputs, hpos, hcount⟩ := ih h1.sound
        (mt (h1.fits_iff hfit1 _).1 (by rwa [List.length_singleton, Nat.add_comm]))
      refine ⟨f, ?_, hpos.trans (h1.fullPos_eq hfit1), hcount.trans h1.anyCount⟩
      rw [putBits, hput]
      exact hputs
    · obtain ⟨f, hput, hf⟩ := putBit_error hs hfit1 b
      refine ⟨f, ?_, hf⟩
      rw [putBits, hput]

/-! ## Writer commands -/

theorem exec_bwWrite {s : State} {n : BitVec 6} (hn : n.toNat ≤ 32) (hw : s.WriterReady) :
    exec (.bwWrite n) s = match putBits s (valueBits s.bw.cfg.bitOrder n.toNat s.arg0.toNat) with
      | .error f => .next (((s.countFrom f).anyWritten s.bw.pos.toNat f).nextAny.raise (.outOfRangeWrite, f.bw.pos))
      | .ok s1 => .next s1.complete := by
  refine checked_of_none ?_
  simp only [firstErr_cons_eq_none, failIf_eq_none, windowErr_eq_none, decide_eq_false_iff_not, firstErr_nil]
  exact ⟨by omega, hw, trivial⟩

/-- BW_WRITE of bits that fit puts them and completes (R212). -/
theorem exec_bwWrite_ok {s : State} {n : BitVec 6} (hn : n.toNat ≤ 32) (hw : s.WriterReady) (hs : s.bw.Sound)
    (hfit : s.bw.Fits n.toNat) :
    ∃ t, exec (.bwWrite n) s = .next t.complete ∧ t = { s with mem := t.mem, bw := t.bw } ∧
      Appends s t (valueBits s.bw.cfg.bitOrder n.toNat s.arg0.toNat) := by
  obtain ⟨t, hput, happ⟩ := putBits_ok hs (bs := valueBits s.bw.cfg.bitOrder n.toNat s.arg0.toNat) (by
    rwa [length_valueBits])
  refine ⟨t, ?_, ?_, happ⟩
  · rw [exec_bwWrite hn hw, hput]
  · obtain ⟨m, p, b, f, k, rfl, -, -⟩ := (putBits_writesInto _ s).2 t hput
    have hk : k = s.anyCount := happ.anyCount
    rw [hk]

/-- Settles O29, from what putting the bits does, seen from the old BW_POS. -/
theorem bwWriteAppendsBits : Obligations.BwWriteAppendsBits := by
  unfold Obligations.BwWriteAppendsBits
  intro s n hn hw hs hfit hwf
  obtain ⟨t, hexec, hstate, happ⟩ := exec_bwWrite_ok hn hw hs hfit
  have hlen : (valueBits s.bw.cfg.bitOrder n.toNat s.arg0.toNat).length = n.toNat := length_valueBits _ _ _
  have hbw : t.bw = { s.bw with
      pos := word (s.bw.posAfter n.toNat)
      bits := BitVec.ofNat 5 ((s.bw.bits.toNat + n.toNat) % s.bw.cfg.unit.bits)
      buf := t.bw.buf } := by
    rw [← hlen, ← happ.pos, ← happ.bits, word_toNat, bitCount_toNat]
    exact happ.config
  refine ⟨t.mem, t.bw.buf, ?_, ?_, ?_, ?_⟩
  · rw [hexec, ← hbw, complete_eq, hstate]
  · rw [← hlen]
    exact happ.outside
  · rw [← hbw]
    refine (happ.written hwf s.bw.pos.toNat 0 rfl).trans ?_
    rw [State.writtenBits, Nat.sub_self]
    rfl
  · rw [← hbw]
    exact happ.clean

/-- Settles O30, from where putting the bits fails. -/
theorem bwWriteFull : Obligations.BwWriteFull := by
  unfold Obligations.BwWriteFull
  intro s n hn hw hs hfit
  obtain ⟨f, hput, hpos, hcount⟩ := putBits_error hs (bs := valueBits s.bw.cfg.bitOrder n.toNat s.arg0.toNat) (by
    rwa [length_valueBits])
  have hend : f.bw.pos = word s.bw.fullPos := by rw [← hpos, word_toNat]
  rw [exec_bwWrite hn hw, hput, ← hend, ← hcount]
  refine ⟨_, _, _, _, rfl, fun a ha => Memory.get_havoc_of_outside _ _ ?_⟩
  simp only [State.countFrom_bw]
  omega

theorem exec_bwFlush {s : State} (hw : s.WriterReady) :
    exec .bwFlush s =
      if s.bw.bits = 0 then .next s.complete
      else
        match emitUnit s with
        | .error f =>
          let s1 := match s.bw.cfg.unit with
            | .bits8 => s.anyWindowWritten f
            | .bits16 => s.anyWriter
          .next (s1.nextAny.raise (.outOfRangeWrite, f.bw.pos))
        | .ok s1 => .next s1.complete := by
  refine checked_of_none ?_
  simp only [firstErr_cons_eq_none, windowErr_eq_none, firstErr_nil]
  exact ⟨hw, trivial⟩

/-- Settles O31: BW_FLUSH with nothing pending, with room for its unit, and without, a unit width at a time. -/
theorem bwFlushStoresUnit : Obligations.BwFlushStoresUnit := by
  unfold Obligations.BwFlushStoresUnit
  intro s hw
  refine ⟨fun hb => ?_, fun hb hroom hwf => ?_, fun hb hroom => ?_⟩
  · rw [exec_bwFlush hw, if_pos hb]
    rfl
  · refine ⟨s.emitted.mem, ?_, sameOutside_emitted s, Memory.getBytes_setBytes_valueBytes hwf _ _ _ _⟩
    rw [exec_bwFlush hw, if_neg hb, emitUnit_of_room hroom]
    rfl
  · rw [exec_bwFlush hw, if_neg hb, emitUnit_of_no_room hroom]
    cases hu : s.bw.cfg.unit with
    | bits8 =>
      simp only [State.anyWindowWritten, hu]
      exact ⟨_, _, _, _, rfl, fun a ha => Memory.get_havoc_of_outside _ _ ha, nofun⟩
    | bits16 => exact ⟨_, _, _, _, rfl, fun _ _ => rfl, fun _ => rfl⟩

theorem exec_bwWriteInt {s : State} {w : BitVec 2} (hw : w.toNat ≠ 3) (hb : s.bw.bits = 0) (hin : s.WriterReady) :
    exec (.bwWriteInt w) s =
      if s.bw.pos.toNat + widthBytes w > s.bw.cap.toNat then .next (s.raise (.outOfRangeWrite, s.bw.pos))
      else
        .next ({ s with
          mem := s.mem.setBytes (s.bw.base.toNat + s.bw.pos.toNat)
            (valueBytes s.bw.cfg.byteOrder (widthBytes w) s.arg0.toNat)
          bw := { s.bw with pos := word (s.bw.pos.toNat + widthBytes w) } } : State).complete := by
  refine checked_of_none ?_
  simp only [firstErr_cons_eq_none, failIf_eq_none, windowErr_eq_none, decide_eq_false_iff_not, firstErr_nil, not_not]
  exact ⟨hw, hb, hin, trivial⟩

/-- Settles O32: pending bits fail a start check, and the body has a branch for each of the other clauses. -/
theorem bwWriteIntStores : Obligations.BwWriteIntStores := by
  unfold Obligations.BwWriteIntStores
  intro s w hw
  refine ⟨fun hb => ?_, fun hb hin hroom hwf => ?_, fun hb hin hroom => ?_⟩
  · refine checked_of_some (e := (.illegalCommand, encode (.bwWriteInt w))) ?_
    have hb0 : ¬ s.bw.bits = 0#5 := hb
    simp [failIf, hw, hb0]
  · refine ⟨s.mem.setBytes (s.bw.base.toNat + s.bw.pos.toNat)
        (valueBytes s.bw.cfg.byteOrder (widthBytes w) s.arg0.toNat), ?_,
      fun a ha => Memory.get_setBytes_of_outside _ _ (by rwa [Memory.length_valueBytes]),
      Memory.getBytes_setBytes_valueBytes hwf _ _ _ _⟩
    rw [exec_bwWriteInt hw hb hin, if_neg (by omega)]
    rfl
  · rw [exec_bwWriteInt hw hb hin, if_pos hroom]
    rfl

end Sys2Proof.Machine
end

section
/-! The laws of bit I/O: what a sequence of BW_WRITE and a BW_FLUSH leave in the window, and its reading back (41_bitio.md R215, R216). -/

namespace Sys2Proof.Machine

/-! ## A sequence of writes -/

/-- The bits a sequence of BW_WRITE (n, v) puts (R212). -/
def sequenceBits (o : BitOrder) (ws : List (BitVec 6 × Word)) : List Bool :=
  ws.flatMap fun w => valueBits o w.1.toNat w.2.toNat

theorem sequenceBits_cons (o : BitOrder) (n : BitVec 6) (v : Word) (ws : List (BitVec 6 × Word)) :
    sequenceBits o ((n, v) :: ws) = valueBits o n.toNat v.toNat ++ sequenceBits o ws := rfl

theorem length_sequenceBits (o : BitOrder) (ws : List (BitVec 6 × Word)) :
    (sequenceBits o ws).length = (ws.map fun w => w.1.toNat).sum := by
  simp [sequenceBits, List.length_flatMap]

/-- A BW_WRITE that leaves ERR 0 had room for its bits and appended them. -/
theorem bwWrite_appends {s t : State} {n : BitVec 6} (hn : n.toNat ≤ 32) (hw : s.WriterReady) (hs : s.bw.Sound)
    (h : exec (.bwWrite n) s = .next t) (herr : t.status.err = false) :
    Appends s t (valueBits s.bw.cfg.bitOrder n.toNat s.arg0.toNat) := by
  by_cases hfit : s.bw.Fits n.toNat
  · obtain ⟨t', hexec, -, happ⟩ := exec_bwWrite_ok hn hw hs hfit
    obtain rfl := Host.Outcome.next.inj (h.symm.trans hexec)
    exact happ.complete
  · obtain ⟨m, p, b, f, hexec, -⟩ := bwWriteFull s n hn hw hs hfit
    obtain rfl := Host.Outcome.next.inj (h.symm.trans hexec)
    exact absurd herr Bool.noConfusion

theorem writeSequence_appends {s t : State} {ws : List (BitVec 6 × Word)} (hw : s.WriterReady) (hs : s.bw.Sound)
    (hn : ∀ w ∈ ws, w.1.toNat ≤ 32) (h : writeSequence s ws = some t) :
    Appends s t (sequenceBits s.bw.cfg.bitOrder ws) := by
  induction ws generalizing s with
  | nil =>
    obtain rfl := Option.some.inj h
    exact .refl hs
  | cons w ws ih =>
    obtain ⟨n, v⟩ := w
    obtain ⟨s1, hexec⟩ := exec_next (.bwWrite n) { s with arg0 := v }
    rw [writeSequence, hexec] at h
    dsimp only at h
    split at h
    · cases h
    · next herr =>
      have hn1 : n.toNat ≤ 32 := hn (n, v) List.mem_cons_self
      have h1 := (bwWrite_appends (s := { s with arg0 := v }) hn1 hw hs hexec (Bool.eq_false_iff.2 herr)).of_arg0
      have h2 := ih (h1.ready hw) h1.sound (fun w hmem => hn w (List.mem_cons_of_mem _ hmem)) h
      rw [h1.cfg] at h2
      exact h1.trans h2

/-! ## Flushing -/

/-- A BW_FLUSH that leaves ERR 0 appends the zero padding of a clean pending unit, none without one (R213). -/
theorem bwFlush_appends {s t : State} (hw : s.WriterReady) (hs : s.bw.Sound) (hc : s.bw.Clean)
    (h : exec .bwFlush s = .next t) (herr : t.status.err = false) :
    Appends s t (List.replicate ((s.bw.cfg.unit.bits - s.bw.bits.toNat) % s.bw.cfg.unit.bits) false) := by
  obtain ⟨hnone, -, hfull⟩ := bwFlushStoresUnit s hw
  by_cases hb : s.bw.bits = 0
  · obtain rfl := Host.Outcome.next.inj (h.symm.trans (hnone hb))
    rw [toNat_bitCount_zero hb, Nat.sub_zero, Nat.mod_self]
    exact (Appends.refl hs).complete
  · have hpos := bitCount_pos hb
    have hroom : s.bw.pos.toNat + s.bw.cfg.unit.bytes ≤ s.bw.cap.toNat := by
      by_contra hno
      obtain ⟨m, p, b, f, hexec, -⟩ := hfull hb (Nat.not_le.1 hno)
      obtain rfl := Host.Outcome.next.inj (h.symm.trans hexec)
      exact absurd herr Bool.noConfusion
    rw [exec_bwFlush hw, if_neg hb, emitUnit_of_room hroom] at h
    obtain rfl := Host.Outcome.next.inj h
    unfold Writer.Sound at hs
    rw [Nat.mod_eq_of_lt (by omega)]
    exact (appends_emitted s.bw.bits hroom (by rw [List.length_replicate]; omega) hc.valueBits_buf).complete

/-- The bits that fill the last unit after `n` bits. -/
theorem padding_eq (u : UnitWidth) (n : Nat) :
    (u.bits - n % u.bits) % u.bits = u.bits * ((n + u.bits - 1) / u.bits) - n := by
  cases u <;> simp only [UnitWidth.bits] <;> omega

/-- The written bits and their padding are whole units. -/
theorem add_padding (u : UnitWidth) (n : Nat) :
    n + (u.bits * ((n + u.bits - 1) / u.bits) - n) = u.bits * ((n + u.bits - 1) / u.bits) := by
  cases u <;> simp only [UnitWidth.bits] <;> omega

/-- From a fresh writer, the writes and the flush append the written bits and their zero padding. -/
theorem output_appends {s t u : State} {ws : List (BitVec 6 × Word)} (hw : s.WriterReady) (hbits : s.bw.bits = 0)
    (hbuf : s.bw.buf = 0) (hn : ∀ w ∈ ws, w.1.toNat ≤ 32) (hws : writeSequence s ws = some t)
    (hflush : exec .bwFlush t = .next u) (herr : u.status.err = false) :
    let total := (ws.map fun w => w.1.toNat).sum
    let width := s.bw.cfg.unit.bits
    Appends s u (sequenceBits s.bw.cfg.bitOrder ws ++
      List.replicate (width * ((total + width - 1) / width) - total) false) := by
  have hzero := toNat_bitCount_zero hbits
  have hs : s.bw.Sound := by
    rw [Writer.Sound, hzero]
    exact s.bw.cfg.unit.bits_pos
  have h1 := writeSequence_appends hw hs hn hws
  have h2 := bwFlush_appends (h1.ready hw) h1.sound (h1.clean (Writer.clean_of_buf_eq_zero hbuf)) hflush herr
  rw [h1.cfg, h1.bits, hzero, Nat.zero_add, length_sequenceBits, padding_eq] at h2
  exact h1.trans h2

/-- Settles O34: the appended bits and their padding, read off as BW_POS and as the bits written from 0 on. -/
theorem outputLength : Obligations.OutputLength := by
  unfold Obligations.OutputLength
  intro s t u ws hwf _ hw hpos hbits hbuf hn hws hflush herr
  have happ := output_appends hw hbits hbuf hn hws hflush herr
  have hzero := toNat_bitCount_zero hbits
  have hstart : s.bw.pos.toNat = 0 := by rw [hpos]; rfl
  have hlen := add_padding s.bw.cfg.unit (ws.map fun w => w.1.toNat).sum
  have hend := happ.pos
  have hlast := happ.bits
  have hwritten := happ.written hwf 0 0 hstart
  rw [List.length_append, length_sequenceBits, List.length_replicate, hlen] at hend hlast
  rw [Writer.posAfter, hstart, hzero, Nat.zero_add, Nat.zero_add,
    Nat.mul_div_cancel_left _ s.bw.cfg.unit.bits_pos] at hend
  rw [hzero, Nat.zero_add, Nat.mul_mod_right] at hlast
  have hfresh : s.writtenBits 0 = [] := by
    rw [State.writtenBits, hstart, Writer.pendingBits, hzero]
    rfl
  have hnone : u.bw.pendingBits = [] := by
    rw [Writer.pendingBits, hlast]
    rfl
  rw [hfresh, State.writtenBits, hnone, List.append_nil, happ.cfg, happ.base] at hwritten
  exact ⟨hend, hwritten⟩

/-! ## Reading back -/

/-- Bits that stand next to be read, in the order they were written, are read as the values written (R203, R212). -/
theorem readSequence_eq {s : State} {ws : List (BitVec 6 × Word)} {rest : List Bool} (hw : s.ReaderReady)
    (hs : s.br.Sound) (herr : s.status.err = false) (hn : ∀ w ∈ ws, w.1.toNat ≤ 32)
    (hbits : s.unreadBits = sequenceBits s.br.cfg.bitOrder ws ++ rest) :
    readSequence s (ws.map Prod.fst) = some (ws.map fun w => word (w.2.toNat % 2 ^ w.1.toNat)) := by
  induction ws generalizing s with
  | nil => rfl
  | cons w ws ih =>
    obtain ⟨n, v⟩ := w
    rw [sequenceBits_cons, List.append_assoc] at hbits
    have hvlen : (valueBits s.br.cfg.bitOrder n.toNat v.toNat).length = n.toNat := length_valueBits _ _ _
    have hlen : n.toNat ≤ s.unreadBits.length := by
      rw [hbits, List.length_append, hvlen]
      exact Nat.le_add_right _ _
    have hn1 : n.toNat ≤ 32 := hn (n, v) List.mem_cons_self
    have hexec := exec_brRead_ok hn1 hw hs hlen
    have hleft := (readBits_ok hs hlen).2
    rw [hbits, List.take_left' hvlen, bitsValue_valueBits] at hexec
    rw [hbits, List.drop_left' hvlen] at hleft
    rw [List.map_cons, readSequence, hexec]
    have hrest := ih (s := { s with
      result := word (v.toNat % 2 ^ n.toNat), br := s.readerAfter n.toNat, status := s.status.ended })
      hw (readerAfter_sound hs _) herr (fun w hmem => hn w (List.mem_cons_of_mem _ hmem)) hleft
    dsimp only
    have hkeep : s.status.ended.err = false := herr
    rw [if_neg (ne_true_of_eq_false hkeep), hrest]
    rfl

/-- Settles O33: the output of R216 is the written bits and a padding, which the reader delivers in their order. -/
theorem bitRoundTrip : Obligations.BitRoundTrip := by
  unfold Obligations.BitRoundTrip
  intro s t u ws hwf herr0 hw hpos hbits hbuf hn hws hflush herr
  have happ := output_appends hw hbits hbuf hn hws hflush herr
  obtain ⟨-, hout⟩ := outputLength s t u ws hwf herr0 hw hpos hbits hbuf hn hws hflush herr
  have hroom : u.bw.pos.toNat ≤ s.bw.cap.toNat := happ.room (by rw [hpos]; exact Nat.zero_le _)
  have hready : (u.pointReader s.bw.cfg s.bw.base u.bw.pos).ReaderReady := by
    have hwin : s.bw.cap.toNat = 0 ∨ s.bw.base.toNat + s.bw.cap.toNat ≤ s.params.memSize := hw
    change u.bw.pos.toNat = 0 ∨ s.bw.base.toNat + u.bw.pos.toNat ≤ u.params.memSize
    rw [happ.params]
    omega
  have hunread : (u.pointReader s.bw.cfg s.bw.base u.bw.pos).unreadBits =
      streamBits s.bw.cfg (u.mem.getBytes s.bw.base.toNat u.bw.pos.toNat) := by
    rw [State.unreadBits, Reader.heldBits_of_bits_eq_zero rfl]
    rfl
  exact readSequence_eq hready (Nat.zero_le _) herr hn (hunread.trans hout)

end Sys2Proof.Machine
end

section
/-! Words in data memory, and the states a command's first check refuses (20_memory.md R107; 60_exceptions.md R422). -/

namespace Sys2Proof.Machine

/-! ## Words in data memory -/

/-- The four bytes stored for a word read back as that word (R107(b)). -/
theorem word_bytesValue_valueBytes (v : Word) : word (bytesValue .le (valueBytes .le 4 v.toNat)) = v := by
  have hlt := v.isLt
  refine BitVec.eq_of_toNat_eq ?_
  simp [word, bytesValue, valueBytes, List.range_succ]
  omega

theorem Memory.getWord_setWord_self {m : Memory} (hm : m.wf = true) (a : Nat) (v : Word) :
    (m.setWord a v).getWord a = v := by
  rw [getWord, setWord, getBytes_setBytes_valueBytes hm, word_bytesValue_valueBytes]

/-- Words stored one after another, each at its own address, read back (R107(b)). -/
theorem Memory.holdsWords_setWords {m : Memory} (hm : m.wf = true) (a : Nat) (vs : List Word) :
    (m.setWords a vs).HoldsWords a vs := by
  induction vs generalizing m a with
  | nil => nofun
  | cons v vs ih =>
    intro i w hi
    cases i with
    | zero =>
      obtain rfl : v = w := by simpa using hi
      have hkept : ((m.setWord a v).setWords (a + 4) vs).getBytes a 4 = (m.setWord a v).getBytes a 4 :=
        getBytes_congr fun x _ hx => get_setWords_of_outside _ _ (.inl hx)
      exact (congrArg (fun bs => word (bytesValue .le bs)) hkept).trans (getWord_setWord_self hm a v)
    | succ i =>
      have h := ih (wf_setWord hm a v) (a + 4) i w hi
      rwa [show a + 4 + 4 * i = a + 4 * (i + 1) by omega] at h

/-! ## States that forbid a command -/

theorem finderChecks_of_decodeOnly {s : State} (h : s.mf.opt.decodeOnly = true) (out : Window) :
    firstErr (s.finderChecks out) = some (.unsupportedOperation, 0) := by
  simp [State.finderChecks, failIf, h]

/-- A coder's first check is that of the held tree. -/
theorem checked_noTreeErr_of_not_valid {s : State} (h : s.hf.state.valid = false) (i : Instr) (cs : List (Option Err))
    (body : Host.Outcome State Fault Refusal) :
    s.checked (s.noTreeErr i :: cs) body = .next (s.failed .illegalCommand (encode i)) :=
  checked_of_some (e := (.illegalCommand, encode i)) (by simp [State.noTreeErr, failIf, h])

/-- Settles O23: each command's first check fails. -/
theorem forbiddenStates : Obligations.ForbiddenStates := by
  unfold Obligations.ForbiddenStates
  intro s
  refine ⟨fun h => ⟨?_, ?_⟩, fun h => ⟨?_, ?_, ?_, ?_⟩⟩
  · exact checked_of_some (firstErr_append_of_some (finderChecks_of_decodeOnly h _))
  · exact checked_of_some (finderChecks_of_decodeOnly h _)
  · exact checked_noTreeErr_of_not_valid h .hfEncode _ _
  · exact checked_noTreeErr_of_not_valid h .hfEncodeBuf _ _
  · exact checked_noTreeErr_of_not_valid h .hfDecode _ _
  · exact checked_noTreeErr_of_not_valid h .hfDecodeBuf _ _

end Sys2Proof.Machine
end

section
/-! The match finder: its candidates as matches, and what MF_FIND does (42_match_finder.md R253, R257, R258). -/

namespace Sys2Proof.Machine

/-! ## Runs of equal bytes -/

theorem le_commonPrefix_iff {as bs : List Byte} {n : Nat} :
    n ≤ commonPrefix as bs ↔ n ≤ as.length ∧ ∀ i < n, as[i]? = bs[i]? := by
  induction as generalizing bs n with
  | nil => cases n <;> simp [commonPrefix]
  | cons a as ih =>
    cases n with
    | zero => simp
    | succ n =>
      cases bs with
      | nil => simpa [commonPrefix] using fun _ => ⟨0, by simp⟩
      | cons b bs =>
        rw [Nat.forall_lt_succ_left]
        by_cases hab : a = b
        · simp [commonPrefix, hab, ih]
        · simp [commonPrefix, hab]

/-- Up to the run at displacement d, and no further, the bytes at p equal those d before (R258). -/
theorem Scan.le_run_iff {sc : Scan} {p d len : Nat} (hp : p ≤ sc.text.length) :
    len ≤ sc.run p d ↔ p + len ≤ sc.text.length ∧
      ∀ i < len, sc.virtual[sc.pre.length + p + i]? = sc.virtual[sc.pre.length + p - d + i]? := by
  simp only [run, le_commonPrefix_iff, List.length_drop, List.getElem?_drop, virtual, List.length_append]
  exact and_congr_left' (by omega)

/-! ## Candidates -/

theorem Scan.mem_disps_iff {sc : Scan} (hu : 0 < sc.u) {p d : Nat} :
    d ∈ sc.disps p ↔ 1 ≤ d ∧ d % sc.u = 0 ∧ d ≤ p + sc.pre.length := by
  simp only [disps, List.mem_map, List.mem_range, Nat.lt_iff_add_one_le, Nat.le_div_iff_mul_le hu]
  constructor
  · rintro ⟨j, hj, rfl⟩
    exact ⟨Nat.mul_pos hu j.succ_pos, Nat.mul_mod_right _ _, by rwa [Nat.mul_comm]⟩
  · rintro ⟨hpos, hmod, hle⟩
    obtain ⟨j, rfl⟩ := Nat.dvd_of_mod_eq_zero hmod
    obtain ⟨j, rfl⟩ := Nat.exists_eq_add_one_of_ne_zero (Nat.pos_of_mul_pos_left hpos).ne'
    exact ⟨j, by rwa [Nat.mul_comm], rfl⟩

theorem Scan.candidate_eq_some_iff {sc : Scan} {d r : Nat} {k : Nat × LimSlot} {c : Candidate} :
    sc.candidate d r k = some c ↔ k.2.admitsDisp d = true ∧ c.lo ≤ c.hi ∧
      c = ⟨k.1, d, sc.u * ((k.2.loLen + sc.u - 1) / sc.u), sc.u * (min k.2.hiLen r / sc.u)⟩ := by
  simp only [candidate, Option.ite_none_right_eq_some, Option.some.injEq]
  constructor <;> rintro ⟨hd, hle, rfl⟩ <;> exact ⟨hd, hle, rfl⟩


theorem Scan.candidate_disp_and_slot {sc : Scan} {d r : Nat} {k : Nat × LimSlot} {c : Candidate}
    (h : sc.candidate d r k = some c) : c.disp = d ∧ c.slot = k.1 := by
  obtain ⟨-, -, rfl⟩ := candidate_eq_some_iff.1 h
  exact ⟨rfl, rfl⟩

theorem Scan.mem_candidates_iff {sc : Scan} {p : Nat} {c : Candidate} :
    c ∈ sc.candidates p ↔ ∃ d ∈ sc.disps p, ∃ k ∈ sc.slots, sc.candidate d (sc.run p d) k = some c := by
  simp only [candidates, List.mem_flatMap, List.mem_filterMap]

/-- Rounding up to a multiple of u: which multiples of u lie above. -/
theorem mul_ceil_le_iff {u len : Nat} (hu : 0 < u) (hlen : len % u = 0) (a : Nat) :
    u * ((a + u - 1) / u) ≤ len ↔ a ≤ len := by
  obtain ⟨q, rfl⟩ := Nat.dvd_of_mod_eq_zero hlen
  rw [Nat.mul_le_mul_left_iff hu, ← Nat.ceilDiv_eq_add_pred_div, ceilDiv_le_iff_le_mul hu]

/-- Rounding down to a multiple of u: which multiples of u lie below. -/
theorem le_mul_floor_iff {u len : Nat} (hu : 0 < u) (hlen : len % u = 0) (a : Nat) :
    len ≤ u * (a / u) ↔ len ≤ a := by
  obtain ⟨q, rfl⟩ := Nat.dvd_of_mod_eq_zero hlen
  rw [Nat.mul_le_mul_left_iff hu, Nat.le_div_iff_mul_le hu, Nat.mul_comm]

theorem LimSlot.admitsDisp_eq_true_iff {l : LimSlot} {d : Nat} :
    l.admitsDisp d = true ↔ l.loDisp ≤ d ∧ d ≤ l.hiDisp := by
  simp [admitsDisp]

theorem LimSlot.one_le_loLen (l : LimSlot) : 1 ≤ l.loLen := by
  unfold loLen
  split <;> omega

/-- A slot's candidate at displacement d stands for the lengths that the slot admits and the run allows (R257, R258). -/
theorem Scan.exists_candidate_iff {sc : Scan} (hu : 0 < sc.u) {d r len : Nat} (hlen : len % sc.u = 0)
    (k : Nat × LimSlot) :
    (∃ c, sc.candidate d r k = some c ∧ c.lo ≤ len ∧ len ≤ c.hi) ↔
      len ≤ r ∧ k.2.loLen ≤ len ∧ len ≤ k.2.hiLen ∧ k.2.loDisp ≤ d ∧ d ≤ k.2.hiDisp := by
  simp only [candidate_eq_some_iff, LimSlot.admitsDisp_eq_true_iff]
  constructor
  · rintro ⟨c, ⟨hd, -, rfl⟩, hlo, hhi⟩
    obtain ⟨hmax, hrun⟩ := le_min_iff.1 ((le_mul_floor_iff hu hlen _).1 hhi)
    exact ⟨hrun, (mul_ceil_le_iff hu hlen _).1 hlo, hmax, hd⟩
  · rintro ⟨hrun, hmin, hmax, hd⟩
    have hlo := (mul_ceil_le_iff hu hlen _).2 hmin
    have hhi := (le_mul_floor_iff hu hlen _).2 (le_min hmax hrun)
    exact ⟨_, ⟨hd, hlo.trans hhi, rfl⟩, hlo, hhi⟩

/-- The five conditions of R253 by displacement, run and slot. -/
theorem Scan.legal_iff {sc : Scan} {p d len : Nat} (hu : 0 < sc.u) (hp : p ≤ sc.text.length) :
    sc.Legal p d len ↔ len % sc.u = 0 ∧ d ∈ sc.disps p ∧ ∃ k ∈ sc.slots,
      len ≤ sc.run p d ∧ k.2.loLen ≤ len ∧ len ≤ k.2.hiLen ∧ k.2.loDisp ≤ d ∧ d ≤ k.2.hiDisp := by
  simp only [Legal, mem_disps_iff hu, le_run_iff hp]
  constructor
  · rintro ⟨hd, -, hdu, hlen, hroom, hback, hbytes, k, hk, hadmits⟩
    exact ⟨hlen, ⟨hd, hdu, hback⟩, k, hk, ⟨hroom, hbytes⟩, hadmits⟩
  · rintro ⟨hlen, ⟨hd, hdu, hback⟩, k, hk, ⟨hroom, hbytes⟩, hadmits⟩
    exact ⟨hd, k.2.one_le_loLen.trans hadmits.1, hdu, hlen, hroom, hback, hbytes, k, hk, hadmits⟩

/-- The candidates at p stand for the legal matches there, every length of them (R257). -/
theorem Scan.legal_iff_exists_candidate {sc : Scan} {p d len : Nat} (hu : 0 < sc.u) (hp : p ≤ sc.text.length) :
    sc.Legal p d len ↔ ∃ c ∈ sc.candidates p, c.disp = d ∧ c.lo ≤ len ∧ len ≤ c.hi ∧ len % sc.u = 0 := by
  simp only [legal_iff hu hp, mem_candidates_iff]
  constructor
  · rintro ⟨hlen, hd, k, hk, hadmits⟩
    obtain ⟨c, hc, hlo, hhi⟩ := (exists_candidate_iff hu hlen k).2 hadmits
    exact ⟨c, ⟨d, hd, k, hk, hc⟩, (candidate_disp_and_slot hc).1, hlo, hhi, hlen⟩
  · rintro ⟨c, ⟨d', hd, k, hk, hc⟩, rfl, hlo, hhi, hlen⟩
    obtain rfl := (candidate_disp_and_slot hc).1
    exact ⟨hlen, hd, k, hk, (exists_candidate_iff hu hlen k).1 ⟨c, hc, hlo, hhi⟩⟩

/-! ## The order of the candidates -/

theorem Scan.pairwise_lt_disps {sc : Scan} (hu : 0 < sc.u) (p : Nat) : (sc.disps p).Pairwise (· < ·) :=
  List.pairwise_map.2 (List.pairwise_lt_range.imp fun h => Nat.mul_lt_mul_of_pos_left (Nat.succ_lt_succ h) hu)

/-- Displacement ascending, then slot ascending (R258). -/
theorem Scan.pairwise_candidates {sc : Scan} (hu : 0 < sc.u) (p : Nat)
    (hslots : sc.slots.Pairwise fun a b => a.1 < b.1) :
    (sc.candidates p).Pairwise fun a b => a.disp < b.disp ∨ (a.disp = b.disp ∧ a.slot < b.slot) := by
  refine List.pairwise_flatMap.2 ⟨fun d _ => ?_, (pairwise_lt_disps hu p).imp fun {d d'} hlt a ha b hb => ?_⟩
  · refine List.Pairwise.filterMap _ (fun k k' hlt a ha b hb => ?_) hslots
    obtain ⟨hda, hka⟩ := candidate_disp_and_slot ha
    obtain ⟨hdb, hkb⟩ := candidate_disp_and_slot hb
    exact .inr ⟨hda.trans hdb.symm, by rwa [hka, hkb]⟩
  · obtain ⟨k, -, ha⟩ := List.mem_filterMap.1 ha
    obtain ⟨k', -, hb⟩ := List.mem_filterMap.1 hb
    rw [(candidate_disp_and_slot ha).1, (candidate_disp_and_slot hb).1]
    exact .inl hlt

/-- Settles O36: the candidates as lengths of legal matches, and their order. -/
theorem candidatesAreLegalMatches : Obligations.CandidatesAreLegalMatches := by
  unfold Obligations.CandidatesAreLegalMatches
  rintro sc p ⟨hunit, -, -⟩ hp -
  have hu : 0 < sc.u := by omega
  exact ⟨fun _ _ => Scan.legal_iff_exists_candidate hu hp.le, Scan.pairwise_candidates hu p⟩

/-! ## MF_FIND -/

theorem exec_mfFind {s : State} (hready : s.FinderReady s.mf.candWindow) (hp : s.arg0.toNat < s.mf.inLen.toNat)
    (hu : s.arg0.toNat % s.mf.opt.unit.bytes = 0) :
    exec .mfFind s =
      if s.mf.candCap.toNat < (s.scan.candidates s.arg0.toNat).length then
        .next ((s.anyWindow s.mf.candWindow).anyResult.nextAny.raise (.outOfRangeWrite, s.mf.candCap))
      else
        .next ({ s with
          mem := s.mem.setWords s.mf.candBase.toNat ((s.scan.candidates s.arg0.toNat).flatMap Candidate.words)
          result := word (s.scan.candidates s.arg0.toNat).length } : State).complete := by
  refine checked_of_none ?_
  rw [firstErr_append_of_none (finderChecks_eq_none.2 hready)]
  simp only [firstErr_cons_eq_none, failIf_eq_none, decide_eq_false_iff_not, firstErr_nil, not_or, not_le, not_not]
  exact ⟨⟨hp, hu⟩, trivial⟩

/-- Settles O35: the body has a branch for each capacity, and the position check is the last of the start checks. -/
theorem mfFindListsCandidates : Obligations.MfFindListsCandidates := by
  unfold Obligations.MfFindListsCandidates
  intro s hready
  refine ⟨fun hp hu hroom => ?_, fun hp hu hfull => ?_, fun hbad => ?_⟩
  · refine ⟨s.mem.setWords s.mf.candBase.toNat ((s.scan.candidates s.arg0.toNat).flatMap Candidate.words), ?_,
      fun a ha => Memory.get_setWords_of_outside _ _ ?_, fun hwf => Memory.holdsWords_setWords hwf _ _⟩
    · rw [exec_mfFind hready hp hu, if_neg (by omega)]
      rfl
    · rw [Candidate.length_flatMap_words]
      omega
  · rw [exec_mfFind hready hp hu, if_pos hfull]
    exact ⟨_, _, rfl, fun a ha => Memory.get_havoc_of_outside _ _ ha⟩
  · refine checked_of_some (e := (.invalidRange, 0x018)) ?_
    rw [firstErr_append_of_none (finderChecks_eq_none.2 hready)]
    simp [failIf, hbad]

end Sys2Proof.Machine
end

section
/-! The parser's graph: the preferred edge, what a column holds, and the columns as nodes and the edges into them (43_parser.md R292 to R296). -/

namespace Sys2Proof.Machine

/-! ## The preferred edge -/

theorem Best.better_eq_true_iff {a b : Best} : a.better b = true ↔ ¬ b.AtLeast a := by
  simp only [better, AtLeast, Bool.or_eq_true, Bool.and_eq_true, beq_iff_eq, decide_eq_true_eq]
  omega

theorem Best.AtLeast.trans {a b c : Best} (hab : a.AtLeast b) (hbc : b.AtLeast c) : a.AtLeast c := by
  simp only [AtLeast] at *
  omega

theorem Best.atLeast_of_not {a b : Best} (h : ¬ a.AtLeast b) : b.AtLeast a := by
  simp only [AtLeast] at *
  omega

theorem Best.AtLeast.refl (a : Best) : a.AtLeast a := .inr ⟨rfl, .inr ⟨rfl, .inr ⟨rfl, le_rfl⟩⟩⟩

theorem Best.AtLeast.cost_le {a b : Best} (h : a.AtLeast b) : a.cost ≤ b.cost := by
  simp only [AtLeast] at h
  omega

theorem pickBest_eq_none_iff {bs : List Best} : pickBest bs = none ↔ bs = [] := by
  cases bs with
  | nil => simp [pickBest]
  | cons b bs =>
    simp only [pickBest, reduceCtorEq, iff_false]
    split
    · simp
    · split <;> simp

/-- The edge picked is one of the list and no worse than any of it (R296). -/
theorem pickBest_spec {bs : List Best} {b : Best} (h : pickBest bs = some b) : b ∈ bs ∧ ∀ e ∈ bs, b.AtLeast e := by
  induction bs generalizing b with
  | nil => simp [pickBest] at h
  | cons a bs ih =>
    rw [pickBest] at h
    split at h
    · next hrest =>
      obtain rfl := pickBest_eq_none_iff.1 hrest
      obtain rfl := Option.some.inj h
      simp [Best.AtLeast.refl]
    · next c hrest =>
      obtain ⟨hc, hleast⟩ := ih hrest
      simp only [List.forall_mem_cons]
      split at h
      · next hbetter =>
        obtain rfl := Option.some.inj h
        exact ⟨.tail _ hc, Best.atLeast_of_not (Best.better_eq_true_iff.1 hbetter), hleast⟩
      · next hbetter =>
        obtain rfl := Option.some.inj h
        rw [Best.better_eq_true_iff, not_not] at hbetter
        exact ⟨.head _, .refl _, fun e he => hbetter.trans (hleast e he)⟩

/-! ## Edges -/

/-- The edges into skip state t of position q from the columns before it, c the nearest one (R294). -/
def ParseInput.edgesFrom (x : ParseInput) (q t : Nat) (c : Column) (before : List Column) : List Best :=
  x.literalEdges (q - x.scan.u) c t ++ if t = x.skip then x.allMatchEdges q x.scan.u before else []

theorem ParseInput.best_nextColumn (x : ParseInput) (q : Nat) (c : Column) (before : List Column) {t : Nat}
    (ht : t ≤ x.skip) :
    (x.nextColumn q (c :: before)).best[t]? = some (pickBest (x.edgesFrom q t c (c :: before))) := by
  simp [nextColumn, edgesFrom, Nat.lt_succ_of_le ht]

theorem ParseInput.mem_literalEdges_iff {x : ParseInput} {p t : Nat} {c : Column} {e : Best} :
    e ∈ x.literalEdges p c t ↔ e.len = x.scan.u ∧ e.disp = 0 ∧ e.src ≤ x.skip ∧ t = e.src - 1 ∧
      ∃ k, c.cost e.src = some k ∧ e.cost = k + x.price (x.literalToken p) := by
  simp only [literalEdges, List.mem_filterMap, List.mem_filter, List.mem_range, Nat.lt_succ_iff, Option.map_eq_some_iff,
    decide_eq_true_eq]
  constructor
  · rintro ⟨s, ⟨hs, rfl⟩, k, hk, rfl⟩
    exact ⟨rfl, rfl, hs, rfl, k, hk, rfl⟩
  · obtain ⟨cost, len, disp, src⟩ := e
    rintro ⟨rfl, rfl, hs, rfl, k, hk, rfl⟩
    exact ⟨src, ⟨hs, rfl⟩, k, hk, rfl⟩

theorem Scan.mem_runs_iff {sc : Scan} {p d r : Nat} : (d, r) ∈ sc.runs p ↔ d ∈ sc.disps p ∧ r = sc.run p d := by
  simp only [runs, List.mem_map, Prod.mk.injEq]
  constructor
  · rintro ⟨d, hd, rfl, rfl⟩
    exact ⟨hd, rfl⟩
  · rintro ⟨hd, rfl⟩
    exact ⟨d, hd, rfl, rfl⟩

theorem LimSlot.admits_eq_true_iff {l : LimSlot} {d len : Nat} :
    l.admits d len = true ↔ l.loLen ≤ len ∧ len ≤ l.hiLen ∧ l.loDisp ≤ d ∧ d ≤ l.hiDisp := by
  simp [admits, admitsDisp_eq_true_iff, and_assoc]

/-- The runs at p and the slots give the legal matches there (R253, R294). -/
theorem Scan.legal_iff_exists_run {sc : Scan} {p d len : Nat} (hu : 0 < sc.u) (hp : p ≤ sc.text.length)
    (hlen : len % sc.u = 0) :
    sc.Legal p d len ↔ ∃ r, (d, r) ∈ sc.runs p ∧ len ≤ r ∧ sc.slots.any (fun k => k.2.admits d len) = true := by
  simp only [legal_iff hu hp, mem_runs_iff, List.any_eq_true, LimSlot.admits_eq_true_iff]
  constructor
  · rintro ⟨-, hd, k, hk, hrun, hadmits⟩
    exact ⟨_, ⟨hd, rfl⟩, hrun, k, hk, hadmits⟩
  · rintro ⟨_, ⟨hd, rfl⟩, hrun, k, hk, hadmits⟩
    exact ⟨hlen, hd, k, hk, hrun, hadmits⟩

theorem Scan.Legal.exists_units {sc : Scan} {p d len : Nat} (h : sc.Legal p d len) : ∃ j, len = (j + 1) * sc.u := by
  obtain ⟨-, hpos, -, hmod, -⟩ := h
  obtain ⟨m, rfl⟩ := Nat.dvd_of_mod_eq_zero hmod
  obtain ⟨j, rfl⟩ := Nat.exists_eq_add_one_of_ne_zero (Nat.pos_of_mul_pos_left hpos).ne'
  exact ⟨j, Nat.mul_comm _ _⟩

theorem ParseInput.mem_matchEdges_iff {x : ParseInput} {p len : Nat} {c : Column} {e : Best} :
    e ∈ x.matchEdges p len c ↔ e.len = len ∧ e.src = 0 ∧
      (∃ r, (e.disp, r) ∈ c.runs ∧ len ≤ r ∧ x.scan.slots.any (fun k => k.2.admits e.disp len) = true) ∧
      ∃ k, c.cost 0 = some k ∧ e.cost = k + x.price (x.matchToken p e.disp len) := by
  unfold matchEdges
  cases hc : c.cost 0 with
  | none => simp
  | some k =>
    simp only [List.mem_filterMap, Option.ite_none_right_eq_some, Option.some.injEq, Prod.exists]
    constructor
    · rintro ⟨d, r, hr, ⟨hle, hany⟩, rfl⟩
      exact ⟨rfl, rfl, ⟨r, hr, hle, hany⟩, k, rfl, rfl⟩
    · obtain ⟨cost, elen, disp, src⟩ := e
      rintro ⟨rfl, rfl, ⟨r, hr, hle, hany⟩, _, rfl, hcost⟩
      exact ⟨disp, r, hr, ⟨hle, hany⟩, by rw [← hcost]⟩

theorem ParseInput.mem_allMatchEdges_iff {x : ParseInput} {q k : Nat} {cols : List Column} {e : Best} :
    e ∈ x.allMatchEdges q (k * x.scan.u) cols ↔
      ∃ j c, cols[j]? = some c ∧ e ∈ x.matchEdges (q - (k + j) * x.scan.u) ((k + j) * x.scan.u) c := by
  induction cols generalizing k with
  | nil => simp [allMatchEdges]
  | cons c cols ih =>
    have hnext (j : Nat) : k + 1 + j = k + (j + 1) := by omega
    simp only [allMatchEdges, List.mem_append, ← Nat.succ_mul, ih, Nat.succ_eq_add_one, hnext]
    constructor
    · rintro (h | ⟨j, c', hj, h⟩)
      · exact ⟨0, c, rfl, h⟩
      · exact ⟨j + 1, c', hj, h⟩
    · rintro ⟨_ | j, c', hj, h⟩
      · obtain rfl : c = c' := by simpa using hj
        exact .inl h
      · exact .inr ⟨j, c', hj, h⟩

/-! ## Columns -/

/-- The column of position i·u. -/
def ParseInput.column (x : ParseInput) : Nat → Column
  | 0 => x.startColumn
  | i + 1 => x.nextColumn ((i + 1) * x.scan.u) (x.columns i)

theorem ParseInput.columns_succ (x : ParseInput) (i : Nat) : x.columns (i + 1) = x.column (i + 1) :: x.columns i := rfl

theorem ParseInput.columns_eq_cons (x : ParseInput) (i : Nat) : x.columns i = x.column i :: (x.columns i).tail := by
  cases i <;> rfl

theorem ParseInput.head?_columns (x : ParseInput) (i : Nat) : (x.columns i).head? = some (x.column i) := by
  rw [columns_eq_cons, List.head?_cons]

theorem ParseInput.drop_columns (x : ParseInput) {i j : Nat} (h : j ≤ i) :
    (x.columns i).drop j = x.columns (i - j) := by
  induction j generalizing i with
  | zero => rfl
  | succ j ih =>
    obtain ⟨i, rfl⟩ := Nat.exists_eq_add_one_of_ne_zero (Nat.ne_of_gt (Nat.lt_of_lt_of_le j.succ_pos h))
    rw [columns_succ, List.drop_succ_cons, ih (by omega), Nat.add_sub_add_right]

theorem ParseInput.length_columns (x : ParseInput) (i : Nat) : (x.columns i).length = i + 1 := by
  induction i with
  | zero => rfl
  | succ i ih => rw [columns_succ, List.length_cons, ih]

theorem ParseInput.getElem?_columns_eq_some_iff {x : ParseInput} {i j : Nat} {c : Column} :
    (x.columns i)[j]? = some c ↔ j ≤ i ∧ c = x.column (i - j) := by
  by_cases h : j ≤ i
  · simp [← List.head?_drop, drop_columns x h, head?_columns, h, eq_comm]
  · have hout : (x.columns i).length ≤ j := by rw [length_columns]; omega
    simp [List.getElem?_eq_none hout, h]

theorem ParseInput.runs_column (x : ParseInput) (i : Nat) : (x.column i).runs = x.scan.runs (i * x.scan.u) := by
  cases i with
  | zero => simp [column, startColumn]
  | succ i => rfl

/-! ## Nodes -/

theorem Scan.Aligned.unit_pos {sc : Scan} (h : sc.Aligned) : 0 < sc.u := by
  obtain ⟨hu, -, -⟩ := h
  omega

theorem Scan.Aligned.div_mul_unit {sc : Scan} (h : sc.Aligned) : sc.text.length / sc.u * sc.u = sc.text.length := by
  obtain ⟨-, htext, -⟩ := h
  exact Nat.div_mul_cancel (Nat.dvd_of_mod_eq_zero htext)

theorem ParseInput.chosen_mul {x : ParseInput} (hu : 0 < x.scan.u) (i t : Nat) :
    x.chosen (i * x.scan.u) t = ((x.column i).best[t]?).join := by
  rw [chosen, Nat.mul_div_cancel _ hu, head?_columns, Option.bind_some]

theorem ParseInput.costAt_mul {x : ParseInput} (hu : 0 < x.scan.u) (i t : Nat) :
    x.costAt (i * x.scan.u) t = (x.column i).cost t := by
  rw [costAt, chosen_mul hu, Column.cost]

/-- The only node at the start is (0, 0) (R292). -/
theorem ParseInput.chosen_zero (x : ParseInput) (t : Nat) :
    x.chosen 0 t = if t = 0 then some ⟨0, 0, 0, 0⟩ else none := by
  rw [chosen, Nat.zero_div, head?_columns]
  by_cases ht : t < x.skip + 1
  · simp [column, startColumn, ht]
  · have hne : t ≠ 0 := by omega
    simp [column, startColumn, ht, hne]

theorem ParseInput.costAt_zero (x : ParseInput) (t : Nat) : x.costAt 0 t = if t = 0 then some 0 else none := by
  rw [costAt, chosen_zero]
  split <;> rfl

theorem ParseInput.eq_zero_of_chosen_zero {x : ParseInput} {t : Nat} {b : Best} (h : x.chosen 0 t = some b) :
    t = 0 := by
  rw [chosen_zero, Option.ite_none_right_eq_some] at h
  exact h.1

theorem ParseInput.chosen_succ {x : ParseInput} (hu : 0 < x.scan.u) (i : Nat) {t : Nat} (ht : t ≤ x.skip) :
    x.chosen ((i + 1) * x.scan.u) t =
      pickBest (x.edgesFrom ((i + 1) * x.scan.u) t (x.column i) (x.columns i)) := by
  rw [chosen_mul hu, column, columns_eq_cons, best_nextColumn _ _ _ _ ht, Option.join_some]

theorem ParseInput.mem_allMatchEdges_columns_iff {x : ParseInput} {i : Nat} {e : Best} :
    e ∈ x.allMatchEdges ((i + 1) * x.scan.u) x.scan.u (x.columns i) ↔
      ∃ j ≤ i, e ∈ x.matchEdges ((i - j) * x.scan.u) ((j + 1) * x.scan.u) (x.column (i - j)) := by
  have h := mem_allMatchEdges_iff (x := x) (q := (i + 1) * x.scan.u) (k := 1) (cols := x.columns i) (e := e)
  simp only [Nat.one_mul, Nat.add_comm 1, ← Nat.sub_mul, Nat.add_sub_add_right, getElem?_columns_eq_some_iff] at h
  rw [h]
  constructor
  · rintro ⟨j, _, ⟨hj, rfl⟩, he⟩
    exact ⟨j, hj, he⟩
  · rintro ⟨j, hj, he⟩
    exact ⟨j, _, ⟨hj, rfl⟩, he⟩

/-- The match edges a column chooses from are the legal matches from skip state 0 of the positions before it (R294). -/
theorem ParseInput.mem_allMatchEdges_columns_iff_legal {x : ParseInput} (hu : 0 < x.scan.u) {i : Nat} {e : Best}
    (hi : (i + 1) * x.scan.u ≤ x.scan.text.length) :
    e ∈ x.allMatchEdges ((i + 1) * x.scan.u) x.scan.u (x.columns i) ↔
      e.src = 0 ∧ e.len ≤ (i + 1) * x.scan.u ∧ x.scan.Legal ((i + 1) * x.scan.u - e.len) e.disp e.len ∧
        ∃ c, x.costAt ((i + 1) * x.scan.u - e.len) 0 = some c ∧
          e.cost = c + x.price (x.matchToken ((i + 1) * x.scan.u - e.len) e.disp e.len) := by
  have hback (j : Nat) : (i + 1) * x.scan.u - (j + 1) * x.scan.u = (i - j) * x.scan.u := by
    rw [← Nat.sub_mul, Nat.add_sub_add_right]
  have hlegal (j d : Nat) := Scan.legal_iff_exists_run (sc := x.scan) (p := (i - j) * x.scan.u) (d := d) hu
    ((Nat.mul_le_mul_right _ (by omega)).trans hi) (Nat.mul_mod_left (j + 1) x.scan.u)
  simp only [mem_allMatchEdges_columns_iff, mem_matchEdges_iff, runs_column, ← hlegal, ← costAt_mul hu]
  constructor
  · rintro ⟨j, hj, hlen, hsrc, hleg, hcost⟩
    rw [hlen, hback]
    exact ⟨hsrc, Nat.mul_le_mul_right _ (by omega), hleg, hcost⟩
  · rintro ⟨hsrc, hle, hleg, hcost⟩
    obtain ⟨j, hlen⟩ := hleg.exists_units
    rw [hlen, hback] at hleg hcost
    have hj := Nat.le_of_mul_le_mul_right (hlen ▸ hle) hu
    exact ⟨j, Nat.le_of_succ_le_succ hj, hlen, hsrc, hleg, hcost⟩

/-- The edges a column chooses from are the edges into its node (R294). -/
theorem ParseInput.mem_edgesFrom_iff {x : ParseInput} (hu : 0 < x.scan.u) {i t : Nat} {e : Best}
    (hi : (i + 1) * x.scan.u ≤ x.scan.text.length) :
    e ∈ x.edgesFrom ((i + 1) * x.scan.u) t (x.column i) (x.columns i) ↔ x.EdgeInto ((i + 1) * x.scan.u) t e := by
  have hback : (i + 1) * x.scan.u - x.scan.u = i * x.scan.u := by rw [Nat.succ_mul, Nat.add_sub_cancel]
  have hle : x.scan.u ≤ (i + 1) * x.scan.u := Nat.le_mul_of_pos_left _ i.succ_pos
  rw [edgesFrom, List.mem_append, EdgeInto]
  refine or_congr ?_ ?_
  · simp only [mem_literalEdges_iff, hback, costAt_mul hu, hle, true_and]
  · rw [← mem_allMatchEdges_columns_iff_legal hu hi]
    split <;> simp [*]

/-- (q, s) is a node of the graph: a position of the scan string and a skip state (R292). -/
structure ParseInput.IsNode (x : ParseInput) (q s : Nat) : Prop where
  le_length : q ≤ x.scan.text.length
  aligned : q % x.scan.u = 0
  le_skip : s ≤ x.skip

theorem ParseInput.isNode_zero (x : ParseInput) {s : Nat} (h : s ≤ x.skip) : x.IsNode 0 s :=
  ⟨Nat.zero_le _, Nat.zero_mod _, h⟩

theorem ParseInput.isNode_end {x : ParseInput} (hx : x.scan.Aligned) {s : Nat} (h : s ≤ x.skip) :
    x.IsNode x.scan.text.length s := by
  obtain ⟨-, halign, -⟩ := hx
  exact ⟨le_rfl, halign, h⟩

/-- A node past the start records an edge exactly when there is one into it, and then one no worse than any other (R295, R296). -/
theorem ParseInput.chosen_isLeast {x : ParseInput} (hu : 0 < x.scan.u) {q t : Nat} (h : x.IsNode q t) (hq : 0 < q) :
    (x.chosen q t = none → ∀ e, ¬ x.EdgeInto q t e) ∧
    ∀ b, x.chosen q t = some b → x.EdgeInto q t b ∧ ∀ e, x.EdgeInto q t e → b.AtLeast e := by
  obtain ⟨hlen, halign, ht⟩ := h
  obtain ⟨m, rfl⟩ := Nat.dvd_of_mod_eq_zero halign
  obtain ⟨i, rfl⟩ := Nat.exists_eq_add_one_of_ne_zero (Nat.pos_of_mul_pos_left hq).ne'
  rw [Nat.mul_comm] at hlen ⊢
  simp only [chosen_succ hu i ht, ← mem_edgesFrom_iff hu hlen]
  exact ⟨fun hnone e => by simp [pickBest_eq_none_iff.1 hnone], fun b hb => pickBest_spec hb⟩

/-! ## The source of an edge -/

section
variable {x : ParseInput} {q t : Nat} {e : Best} (he : x.EdgeInto q t e)
include he

theorem ParseInput.EdgeInto.exists_units : ∃ j, e.len = (j + 1) * x.scan.u := by
  obtain ⟨hlen, -⟩ | ⟨-, -, -, hleg, -⟩ := he
  · exact ⟨0, by rw [hlen, Nat.zero_add, Nat.one_mul]⟩
  · exact hleg.exists_units

theorem ParseInput.EdgeInto.len_le : e.len ≤ q := by
  obtain ⟨hlen, -, hle, -⟩ | ⟨-, -, hle, -⟩ := he
  · exact hlen ▸ hle
  · exact hle

theorem ParseInput.EdgeInto.pos (hu : 0 < x.scan.u) : 0 < q := by
  obtain ⟨j, hj⟩ := he.exists_units
  exact (hj ▸ Nat.mul_pos j.succ_pos hu).trans_le he.len_le

theorem ParseInput.EdgeInto.isNode (h : x.IsNode q t) : x.IsNode (q - e.len) e.src := by
  refine ⟨(Nat.sub_le _ _).trans h.le_length, ?_, ?_⟩
  · obtain ⟨j, hj⟩ := he.exists_units
    rw [hj, Nat.mul_comm, Nat.sub_mul_mod (by rw [Nat.mul_comm, ← hj]; exact he.len_le), h.aligned]
  · obtain ⟨-, -, -, hs, -⟩ | ⟨-, hs, -⟩ := he
    · exact hs
    · exact hs ▸ Nat.zero_le _

/-- An edge costs its source and its token (R295). -/
theorem ParseInput.EdgeInto.cost_eq :
    ∃ c, x.costAt (q - e.len) e.src = some c ∧ e.cost = c + x.price (x.edgeToken q e) := by
  obtain ⟨hlen, hdisp, -, -, -, hcost⟩ | ⟨-, hsrc, -, ⟨hd, -⟩, hcost⟩ := he
  · rwa [edgeToken, if_pos hdisp, hlen]
  · rwa [edgeToken, if_neg (Nat.ne_of_gt hd), hsrc]

end

/-- An edge from a reachable node makes the node it enters reachable, at no more than the cost through it (R295). -/
theorem ParseInput.EdgeInto.costAt_le {x : ParseInput} (hu : 0 < x.scan.u) {q t : Nat} {e : Best}
    (he : x.EdgeInto q t e) (h : x.IsNode q t) : ∃ c ≤ e.cost, x.costAt q t = some c := by
  obtain ⟨hnone, hsome⟩ := chosen_isLeast hu h (he.pos hu)
  cases hb : x.chosen q t with
  | none => exact absurd he (hnone hb e)
  | some b => exact ⟨b.cost, ((hsome b hb).2 e he).cost_le, by rw [costAt, hb, Option.map_some]⟩

end Sys2Proof.Machine
end

section
/-! The parse: its goal, the way back from it, its validity and optimality, and what LZ_PARSE does (43_parser.md R295 to R301). -/

namespace Sys2Proof.Machine

/-! ## The goal -/

/-- What the goal of a column among the skip states below k is (R295). -/
def Column.IsGoal (c : Column) (k : Nat) : Option (Nat × Nat) → Prop
  | none => ∀ t < k, c.cost t = none
  | some (s, n) => s < k ∧ c.cost s = some n ∧ ∀ t < k, ∀ m, c.cost t = some m → n ≤ m ∧ (t < s → n < m)

theorem Column.isGoal_goal (c : Column) (k : Nat) : c.IsGoal (k + 1) (c.goal k) := by
  unfold goal
  induction k + 1 with
  | zero => simp [IsGoal]
  | succ k ih =>
    rw [List.range_succ, List.foldl_append, List.foldl_cons, List.foldl_nil]
    revert ih
    cases List.foldl _ none (List.range k) with
    | none =>
      intro hnone
      cases hk : c.cost k with
      | none => exact Nat.forall_lt_succ_right.2 ⟨hnone, hk⟩
      | some m => grind [IsGoal]
    | some a =>
      obtain ⟨s, n⟩ := a
      rintro ⟨hs, hn, hleast⟩
      cases hk : c.cost k with
      | none => grind [IsGoal]
      | some m => grind [IsGoal]

/-- Every position of the scan string is reached in skip state 0, by literals alone (R294). -/
theorem ParseInput.exists_costAt_zero {x : ParseInput} (hu : 0 < x.scan.u) {i : Nat}
    (hi : i * x.scan.u ≤ x.scan.text.length) : ∃ c, x.costAt (i * x.scan.u) 0 = some c := by
  induction i with
  | zero => exact ⟨0, by rw [Nat.zero_mul, costAt_zero, if_pos rfl]⟩
  | succ i ih =>
    have hq : (i + 1) * x.scan.u = i * x.scan.u + x.scan.u := Nat.succ_mul _ _
    obtain ⟨c, hc⟩ := ih (by omega)
    have he : x.EdgeInto ((i + 1) * x.scan.u) 0 ⟨c + x.price (x.literalToken (i * x.scan.u)), x.scan.u, 0, 0⟩ := by
      refine .inl ⟨rfl, rfl, by omega, Nat.zero_le _, rfl, c, ?_⟩
      simpa only [hq, Nat.add_sub_cancel, and_true] using hc
    obtain ⟨c', -, hc'⟩ := he.costAt_le hu ⟨hi, Nat.mul_mod_left _ _, Nat.zero_le _⟩
    exact ⟨c', hc'⟩

/-- s is the goal's skip state, and the goal costs what the parse costs (R295). -/
structure ParseInput.IsGoal (x : ParseInput) (s : Nat) : Prop where
  le_skip : s ≤ x.skip
  costAt_eq : x.costAt x.scan.text.length s = some x.parse.1
  least : ∀ t ≤ x.skip, ∀ c, x.costAt x.scan.text.length t = some c → x.parse.1 ≤ c ∧ (t < s → x.parse.1 < c)

/-- The parse's cost is that of the goal, and its tokens are those met on the way back from it (R295, R297). -/
theorem ParseInput.exists_goal {x : ParseInput} (hx : x.scan.Aligned) :
    ∃ s, x.IsGoal s ∧
      x.parse.2 = x.walkBack (x.scan.text.length / x.scan.u) (x.columns (x.scan.text.length / x.scan.u))
        x.scan.text.length s [] := by
  have hend := hx.div_mul_unit
  have hcost := costAt_mul hx.unit_pos (x.scan.text.length / x.scan.u)
  obtain ⟨c, hc⟩ := exists_costAt_zero hx.unit_pos hend.le
  rw [hcost] at hc
  rw [hend] at hcost
  have hgoal := (x.column (x.scan.text.length / x.scan.u)).isGoal_goal x.skip
  cases hg : (x.column (x.scan.text.length / x.scan.u)).goal x.skip with
  | none =>
    rw [hg] at hgoal
    exact absurd (hgoal 0 (Nat.succ_pos _)) (by simp [hc])
  | some a =>
    obtain ⟨s, n⟩ := a
    have hparse : x.parse = (n, x.walkBack (x.scan.text.length / x.scan.u)
        (x.columns (x.scan.text.length / x.scan.u)) x.scan.text.length s []) := by
      simp only [parse, head?_columns, Option.bind_some, hg, hend]
    simp only [hg, Column.IsGoal, Nat.lt_succ_iff, ← hcost] at hgoal
    obtain ⟨hs, hn, hleast⟩ := hgoal
    exact ⟨s, ⟨hs, hparse ▸ hn, hparse ▸ hleast⟩, by rw [hparse]⟩

/-! ## The way back -/

/-- The edge recorded at a node past the start comes from a reachable node at an earlier position (R294, R296). -/
theorem ParseInput.exists_source {x : ParseInput} (hu : 0 < x.scan.u) {i s : Nat} {b : Best} (hi : 0 < i)
    (h : x.IsNode (i * x.scan.u) s) (hb : x.chosen (i * x.scan.u) s = some b) :
    ∃ m < i, b.len = (i - m) * x.scan.u ∧ i * x.scan.u - b.len = m * x.scan.u ∧ x.IsNode (m * x.scan.u) b.src ∧
      ∃ b', x.chosen (m * x.scan.u) b.src = some b' := by
  obtain ⟨he, -⟩ := (chosen_isLeast hu h (Nat.mul_pos hi hu)).2 b hb
  obtain ⟨j, hlen⟩ := he.exists_units
  obtain ⟨c, hc, -⟩ := he.cost_eq
  obtain ⟨b', hb', -⟩ := Option.map_eq_some_iff.1 hc
  have hnode := he.isNode h
  have hj : j + 1 ≤ i := Nat.le_of_mul_le_mul_right (hlen ▸ he.len_le) hu
  have hback : i * x.scan.u - b.len = (i - (j + 1)) * x.scan.u := by rw [hlen, Nat.sub_mul]
  rw [hback] at hnode hb'
  exact ⟨i - (j + 1), by omega, by rw [hlen, Nat.sub_sub_self hj], hback, hnode, b', hb'⟩

theorem ParseInput.walkBack_of_chosen {x : ParseInput} (hu : 0 < x.scan.u) {fuel i m s : Nat} {b : Best}
    {acc : List Token} (hm : m < i) (hb : x.chosen (i * x.scan.u) s = some b) (hlen : b.len = (i - m) * x.scan.u) :
    x.walkBack (fuel + 1) (x.columns i) (i * x.scan.u) s acc =
      x.walkBack fuel (x.columns m) (i * x.scan.u - b.len) b.src (x.edgeToken (i * x.scan.u) b :: acc) := by
  have hq : i * x.scan.u ≠ 0 := (Nat.mul_pos (Nat.zero_lt_of_lt hm) hu).ne'
  have hdrop : (x.columns i).drop (b.len / x.scan.u) = x.columns m := by
    rw [hlen, Nat.mul_div_cancel _ hu, drop_columns x (Nat.sub_le _ _), Nat.sub_sub_self hm.le]
  rw [chosen_mul hu] at hb
  rw [walkBack, if_neg hq, head?_columns, Option.bind_some, hb]
  dsimp only
  rw [hdrop]

theorem ParseInput.backTokens_cons (x : ParseInput) (q : Nat) (b : Best) (bs : List Best) :
    x.backTokens q (b :: bs) = x.edgeToken q b :: x.backTokens (q - b.len) bs := rfl

/-- From a reachable node the walk back follows the chosen edges to (0, 0) (R297). -/
theorem ParseInput.walkBack_eq {x : ParseInput} (hu : 0 < x.scan.u) {fuel i s : Nat} {b : Best} {acc : List Token}
    (hfuel : i ≤ fuel) (h : x.IsNode (i * x.scan.u) s) (hb : x.chosen (i * x.scan.u) s = some b) :
    ∃ edges, x.ChosenBack (i * x.scan.u) s edges ∧
      x.walkBack fuel (x.columns i) (i * x.scan.u) s acc = (x.backTokens (i * x.scan.u) edges).reverse ++ acc := by
  induction fuel generalizing i s b acc with
  | zero =>
    obtain rfl := Nat.le_zero.1 hfuel
    rw [Nat.zero_mul] at hb ⊢
    exact ⟨[], ⟨rfl, eq_zero_of_chosen_zero hb⟩, rfl⟩
  | succ fuel ih =>
    rcases Nat.eq_zero_or_pos i with rfl | hi
    · rw [Nat.zero_mul] at hb ⊢
      exact ⟨[], ⟨rfl, eq_zero_of_chosen_zero hb⟩, rfl⟩
    · obtain ⟨m, hm, hlen, hback, hnode, b', hb'⟩ := exists_source hu hi h hb
      obtain ⟨edges, hedges, htoks⟩ := ih (acc := x.edgeToken (i * x.scan.u) b :: acc) (by omega) hnode hb'
      refine ⟨b :: edges, ⟨Nat.mul_pos hi hu, hb, by rwa [hback]⟩, ?_⟩
      rw [walkBack_of_chosen hu hm hb hlen, hback, htoks, backTokens_cons, hback, List.reverse_cons, List.append_assoc,
        List.singleton_append]

/-- The chosen edges followed back from the goal give the parse (R295, R297). -/
theorem ParseInput.exists_goal_chosenBack {x : ParseInput} (hx : x.scan.Aligned) :
    ∃ s edges, x.IsGoal s ∧ x.ChosenBack x.scan.text.length s edges ∧
      x.parse.2 = (x.backTokens x.scan.text.length edges).reverse := by
  obtain ⟨s, hgoal, htoks⟩ := exists_goal hx
  obtain ⟨b, hb, -⟩ := Option.map_eq_some_iff.1 hgoal.costAt_eq
  have hnode := isNode_end hx hgoal.le_skip
  rw [← hx.div_mul_unit] at hb hnode
  obtain ⟨edges, hback, hwalk⟩ := walkBack_eq hx.unit_pos (acc := []) le_rfl hnode hb
  rw [hx.div_mul_unit] at hback hwalk
  exact ⟨s, edges, hgoal, hback, by rw [htoks, hwalk, List.append_nil]⟩

/-- Settles O40: a column picks a least edge among the edges into its node, and the walk back starts at the goal. -/
theorem predecessorChoice : Obligations.PredecessorChoice := by
  unfold Obligations.PredecessorChoice
  refine ⟨fun x q t c before b ht hb => ?_,
    fun x hx => ⟨fun t _ => x.costAt_zero t, fun q t hq hlen halign ht => ?_, ?_⟩⟩
  · rw [ParseInput.best_nextColumn x q c before ht] at hb
    exact pickBest_spec (Option.some.inj hb)
  · exact ParseInput.chosen_isLeast hx.unit_pos ⟨hlen, halign, ht⟩ hq
  · obtain ⟨s, edges, hgoal, hback, htoks⟩ := ParseInput.exists_goal_chosenBack hx
    exact ⟨s, edges, hgoal.le_skip, hgoal.costAt_eq, hgoal.least, hback, htoks⟩

/-! ## Choices along the way back -/

/-- The choice an edge stands for (R293, R294). -/
def Best.choice (e : Best) : Choice := if e.disp = 0 then .lit else .copy e.disp e.len

section
variable {x : ParseInput} {q t : Nat} {e : Best} (he : x.EdgeInto q t e)
include he

/-- An edge prolongs a covering at the front by its choice (R293, R300). -/
theorem ParseInput.EdgeInto.covers_cons (hq : q ≤ x.scan.text.length) {cs : List Choice} (h : x.Covers q t cs) :
    x.Covers (q - e.len) e.src (e.choice :: cs) := by
  obtain ⟨hlen, hdisp, hle, -, rfl, -⟩ | ⟨rfl, hsrc, hle, hleg, -⟩ := he
  · rw [Best.choice, if_pos hdisp, Covers, hlen, Nat.sub_add_cancel hle]
    exact ⟨hq, h⟩
  · obtain ⟨hd, -⟩ := id hleg
    rw [Best.choice, if_neg (Nat.ne_of_gt hd), Covers, Nat.sub_add_cancel hle]
    exact ⟨hsrc, hleg, h⟩

theorem ParseInput.EdgeInto.tokensOf_cons (cs : List Choice) :
    x.tokensOf (q - e.len) (e.choice :: cs) = x.edgeToken q e :: x.tokensOf q cs := by
  have hle := he.len_le
  obtain ⟨hlen, hdisp, -⟩ | ⟨-, -, -, ⟨hd, -⟩, -⟩ := he
  · rw [Best.choice, if_pos hdisp, edgeToken, if_pos hdisp, tokensOf, ← hlen, Nat.sub_add_cancel hle]
  · have hne := Nat.ne_of_gt hd
    rw [Best.choice, if_neg hne, edgeToken, if_neg hne, tokensOf, Nat.sub_add_cancel hle]

end

/-- Chosen edges back to (0, 0) give a covering from the start, its tokens and its cost (R295, R297, R300). -/
theorem ParseInput.ChosenBack.covers {x : ParseInput} (hu : 0 < x.scan.u) {q s : Nat} {edges : List Best}
    (h : x.ChosenBack q s edges) (hnode : x.IsNode q s) {cs : List Choice} (hcs : x.Covers q s cs) :
    x.Covers 0 0 ((edges.map Best.choice).reverse ++ cs) ∧
    x.tokensOf 0 ((edges.map Best.choice).reverse ++ cs) = (x.backTokens q edges).reverse ++ x.tokensOf q cs ∧
    x.costAt q s = some (x.totalPrice (x.backTokens q edges)) := by
  induction edges generalizing q s cs with
  | nil =>
    obtain ⟨rfl, rfl⟩ := h
    exact ⟨hcs, rfl, x.costAt_zero 0⟩
  | cons e edges ih =>
    obtain ⟨hq, he, hback⟩ := h
    obtain ⟨hinto, -⟩ := (chosen_isLeast hu hnode hq).2 e he
    obtain ⟨hcov, htoks, hsrc⟩ := ih hback (hinto.isNode hnode) (hinto.covers_cons hnode.le_length hcs)
    obtain ⟨c, hc, hcost⟩ := hinto.cost_eq
    rw [List.map_cons, List.reverse_cons, List.append_assoc, List.singleton_append]
    refine ⟨hcov, ?_, ?_⟩
    · rw [htoks, hinto.tokensOf_cons, backTokens_cons, List.reverse_cons, List.append_assoc, List.singleton_append]
    · obtain rfl := Option.some.inj (hc.symm.trans hsrc)
      rw [costAt, he, Option.map_some, hcost, backTokens_cons, totalPrice, totalPrice, List.map_cons, List.sum_cons,
        Nat.add_comm]

/-- Settles O38: the chosen edges back from the goal are a covering of the scan string. -/
theorem parseIsValid : Obligations.ParseIsValid := by
  unfold Obligations.ParseIsValid
  intro x hx
  obtain ⟨s, edges, hgoal, hback, htoks⟩ := ParseInput.exists_goal_chosenBack hx
  obtain ⟨hcov, heq, htotal⟩ := hback.covers hx.unit_pos (ParseInput.isNode_end hx hgoal.le_skip) (cs := []) rfl
  refine ⟨_, hcov, ?_, ?_⟩
  · rw [htoks, heq, ParseInput.tokensOf, List.append_nil]
  · have hsame := Option.some.inj (hgoal.costAt_eq.symm.trans htotal)
    rw [hsame, htoks, ParseInput.totalPrice, ParseInput.totalPrice, List.map_reverse, List.sum_reverse]

/-! ## Every covering costs at least the parse -/

/-- The first choice of a covering from a reachable node is an edge, and the rest covers from the node it enters (R293, R294). -/
theorem ParseInput.Covers.exists_edge {x : ParseInput} {p k c : Nat} {a : Choice} {cs : List Choice}
    (h : x.Covers p k (a :: cs)) (hnode : x.IsNode p k) (hc : x.costAt p k = some c) :
    ∃ e t, x.EdgeInto (p + e.len) t e ∧ x.IsNode (p + e.len) t ∧ x.Covers (p + e.len) t cs ∧
      c + x.totalPrice (x.tokensOf p (a :: cs)) = e.cost + x.totalPrice (x.tokensOf (p + e.len) cs) := by
  obtain ⟨-, halign, hk⟩ := hnode
  cases a with
  | lit =>
    obtain ⟨hle, hrest⟩ := h
    refine ⟨⟨c + x.price (x.literalToken p), x.scan.u, 0, k⟩, k - 1,
      .inl ⟨rfl, rfl, Nat.le_add_left _ _, hk, rfl, c, ?_⟩, ⟨hle, ?_, by omega⟩, hrest, ?_⟩
    · simpa only [Nat.add_sub_cancel, and_true] using hc
    · rw [Nat.add_mod_right, halign]
    · simp only [tokensOf, totalPrice, List.map_cons, List.sum_cons, Nat.add_assoc]
  | copy d len =>
    obtain ⟨rfl, hleg, hrest⟩ := h
    obtain ⟨-, -, -, hlen, hle, -⟩ := id hleg
    refine ⟨⟨c + x.price (x.matchToken p d len), len, d, 0⟩, x.skip,
      .inr ⟨rfl, rfl, Nat.le_add_left _ _, ?_, c, ?_⟩, ⟨hle, ?_, le_rfl⟩, hrest, ?_⟩
    · simpa only [Nat.add_sub_cancel] using hleg
    · simpa only [Nat.add_sub_cancel, and_true] using hc
    · rw [Nat.add_mod, halign, hlen, Nat.zero_mod]
    · simp only [tokensOf, totalPrice, List.map_cons, List.sum_cons, Nat.add_assoc]

/-- From a node on, a covering's price and the node's cost are at least the parse's cost (R301). -/
theorem ParseInput.parse_le_of_covers {x : ParseInput} (hx : x.scan.Aligned) {p k c : Nat} {cs : List Choice}
    (h : x.Covers p k cs) (hnode : x.IsNode p k) (hc : x.costAt p k = some c) :
    x.parse.1 ≤ c + x.totalPrice (x.tokensOf p cs) := by
  induction cs generalizing p k c with
  | nil =>
    obtain rfl : p = x.scan.text.length := h
    obtain ⟨s, hgoal, -⟩ := exists_goal hx
    exact (hgoal.least k hnode.le_skip c hc).1
  | cons a cs ih =>
    obtain ⟨e, t, he, hnext, hrest, hprice⟩ := h.exists_edge hnode hc
    obtain ⟨c', hle, hc'⟩ := he.costAt_le hx.unit_pos hnext
    rw [hprice]
    exact (ih hrest hnext hc').trans (Nat.add_le_add_right hle _)

/-- Settles O39, from the start node, which costs 0. -/
theorem parseIsOptimal : Obligations.ParseIsOptimal := by
  unfold Obligations.ParseIsOptimal
  intro x cs hx hcs
  simpa using ParseInput.parse_le_of_covers hx hcs (x.isNode_zero (Nat.zero_le _)) (x.costAt_zero 0)

/-! ## LZ_PARSE -/

theorem exec_lzParse {s : State} (hready : s.FinderReady s.mf.tokWindow) :
    exec .lzParse s =
      if s.mf.tokCap.toNat < s.parseInput.parse.2.length then
        .next ((s.anyWindow s.mf.tokWindow).anyParse.nextAny.raise (.outOfRangeWrite, s.mf.tokCap))
      else
        .next ({ s with
          mem := s.mem.setWords s.mf.tokBase.toNat (s.parseInput.parse.2.flatMap Token.words)
          mf := { s.mf with
            tokCount := word s.parseInput.parse.2.length
            costLo := word s.parseInput.parse.1
            costHi := word (s.parseInput.parse.1 / 2 ^ 32) } } : State).complete :=
  checked_of_none (finderChecks_eq_none.2 hready)

/-- Settles O37: the body has a branch for each capacity. -/
theorem lzParseWritesTokens : Obligations.LzParseWritesTokens := by
  unfold Obligations.LzParseWritesTokens
  intro s hready
  refine ⟨fun hroom => ?_, fun hfull => ?_⟩
  · refine ⟨s.mem.setWords s.mf.tokBase.toNat (s.parseInput.parse.2.flatMap Token.words), ?_,
      fun a ha => Memory.get_setWords_of_outside _ _ ?_, fun hwf => Memory.holdsWords_setWords hwf _ _⟩
    · rw [exec_lzParse hready, if_neg (Nat.not_lt.2 hroom)]
      rfl
    · rw [Token.length_flatMap_words]
      omega
  · rw [exec_lzParse hready, if_pos hfull]
    exact ⟨_, _, _, _, rfl, fun a ha => Memory.get_havoc_of_outside _ _ ha⟩

end Sys2Proof.Machine
end

section
/-! Length limiting (44_huffman.md R338): the table over Kraft sums holds a cheapest vector for each sum, and every vector within the cap can be shortened to a complete one. -/

namespace Sys2Proof.Machine

/-! ## Kraft sums and weighted lengths -/

theorem kraftUnits_eq_sum (cap : Nat) (ls : List Nat) : kraftUnits cap ls = (ls.map fun l => 2 ^ (cap - l)).sum := by
  induction ls with
  | nil => rfl
  | cons l ls ih => rw [kraftUnits, ih, List.map_cons, List.sum_cons]

theorem weightedLength_eq_sum (fs ls : List Nat) : weightedLength fs ls = ((fs.zip ls).map fun x => x.1 * x.2).sum := by
  induction fs generalizing ls with
  | nil => cases ls <;> rfl
  | cons f fs ih =>
    cases ls with
    | nil => rfl
    | cons l ls => rw [weightedLength, ih, List.zip_cons_cons, List.map_cons, List.sum_cons]

theorem kraftUnits_append (cap : Nat) (as bs : List Nat) :
    kraftUnits cap (as ++ bs) = kraftUnits cap as + kraftUnits cap bs := by
  simp only [kraftUnits_eq_sum, List.map_append, List.sum_append]

/-- Shorter lengths weigh no more. -/
theorem weightedLength_le_of_forall₂ (fs : List Nat) {ms ns : List Nat} (h : List.Forall₂ (· ≤ ·) ms ns) :
    weightedLength fs ms ≤ weightedLength fs ns := by
  induction h generalizing fs with
  | nil => cases fs <;> exact le_rfl
  | cons hle _ ih =>
    cases fs with
    | nil => exact le_rfl
    | cons f fs => exact Nat.add_le_add (Nat.mul_le_mul_left f hle) (ih fs)

/-- A Kraft sum is a whole number of units of its longest length. -/
theorem two_pow_dvd_kraftUnits {cap top : Nat} {ns : List Nat} (h : ∀ n ∈ ns, n ≤ top) :
    2 ^ (cap - top) ∣ kraftUnits cap ns := by
  rw [kraftUnits_eq_sum]
  refine List.dvd_sum fun x hx => ?_
  obtain ⟨n, hn, rfl⟩ := List.mem_map.1 hx
  exact pow_dvd_pow 2 (Nat.sub_le_sub_left (h n hn) cap)

theorem add_le_of_dvd_of_lt {a b c : Nat} (hb : a ∣ b) (hc : a ∣ c) (h : b < c) : b + a ≤ c := by
  have := Nat.le_of_dvd (Nat.sub_pos_of_lt h) (Nat.dvd_sub hc hb)
  omega

/-- A length vector within the cap (R338). -/
def WithinCap (cap n : Nat) (ls : List Nat) : Prop := ls.length = n ∧ ∀ l ∈ ls, 1 ≤ l ∧ l ≤ cap

theorem lengthsFit_iff {cap : Nat} {freqs lens : List Nat} :
    lengthsFit cap freqs lens = true ↔ WithinCap cap freqs.length lens ∧ kraftUnits cap lens = 2 ^ cap := by
  simp [lengthsFit, WithinCap]

/-! ## Completing a length vector -/

/-- Where a Kraft sum below 1 leaves room, a longest length of a vector of at least two can be shortened by one. -/
theorem exists_shorter {cap n : Nat} (hn : 2 ≤ n) {ns : List Nat} (h : WithinCap cap n ns)
    (hlt : kraftUnits cap ns < 2 ^ cap) :
    ∃ ms, WithinCap cap n ms ∧ kraftUnits cap ms ≤ 2 ^ cap ∧ ms.sum < ns.sum ∧
      ∀ fs, weightedLength fs ms ≤ weightedLength fs ns := by
  obtain ⟨hlen, hbound⟩ := h
  have hne : ns.toFinset.Nonempty := List.toFinset_nonempty_iff _ |>.2 (List.ne_nil_of_length_pos (by omega))
  obtain ⟨l, hl, hmax⟩ := ns.toFinset.exists_max_image id hne
  rw [List.mem_toFinset] at hl
  replace hmax : ∀ x ∈ ns, x ≤ l := fun x hx => hmax x (List.mem_toFinset.2 hx)
  have hroom : kraftUnits cap ns + 2 ^ (cap - l) ≤ 2 ^ cap :=
    add_le_of_dvd_of_lt (two_pow_dvd_kraftUnits hmax) (pow_dvd_pow 2 (Nat.sub_le cap l)) hlt
  have htwo : 2 ≤ l := by
    by_contra hone
    have hall : ns = List.replicate n 1 :=
      List.eq_replicate_iff.2 ⟨hlen, fun x hx => by have := hmax x hx; have := (hbound x hx).1; omega⟩
    have hcap : 2 ^ cap = 2 * 2 ^ (cap - 1) := by
      rw [← Nat.pow_succ', Nat.succ_eq_add_one, Nat.sub_add_cancel ((hbound l hl).1.trans (hbound l hl).2)]
    have hle := Nat.mul_le_mul_right (2 ^ (cap - 1)) hn
    rw [hall, kraftUnits_eq_sum, List.map_replicate, List.sum_replicate, smul_eq_mul, hcap] at hlt
    omega
  obtain ⟨as, bs, rfl⟩ := List.append_of_mem hl
  have hdouble : 2 ^ (cap - (l - 1)) = 2 ^ (cap - l) + 2 ^ (cap - l) := by
    rw [← Nat.two_mul, ← Nat.pow_succ', show cap - (l - 1) = (cap - l).succ by have := (hbound l hl).2; omega]
  refine ⟨as ++ (l - 1) :: bs, ⟨by simpa using hlen, fun x hx => ?_⟩, ?_, ?_, fun fs => ?_⟩
  · obtain hx | hx | hx : x ∈ as ∨ x = l - 1 ∨ x ∈ bs := by simpa using hx
    · exact hbound x (by simp [hx])
    · have := hbound l hl
      omega
    · exact hbound x (by simp [hx])
  · simp only [kraftUnits_append, kraftUnits, hdouble] at hroom ⊢
    omega
  · simp only [List.sum_append, List.sum_cons]
    omega
  · exact weightedLength_le_of_forall₂ fs
      (List.rel_append (List.forall₂_refl as) (.cons (Nat.sub_le l 1) (List.forall₂_refl bs)))

/-- Lengths of at least two within the cap, their Kraft sum at most 1, can be shortened to complete ones (R338). -/
theorem exists_complete {cap n : Nat} (hn : 2 ≤ n) {ns : List Nat} (h : WithinCap cap n ns)
    (hle : kraftUnits cap ns ≤ 2 ^ cap) :
    ∃ ms, WithinCap cap n ms ∧ kraftUnits cap ms = 2 ^ cap ∧
      ∀ fs, weightedLength fs ms ≤ weightedLength fs ns := by
  induction hk : ns.sum using Nat.strong_induction_on generalizing ns with
  | _ k ih =>
    obtain heq | hlt := hle.eq_or_lt
    · exact ⟨ns, h, heq, fun _ => le_rfl⟩
    · obtain ⟨ms, hms, hmle, hsum, hshort⟩ := exists_shorter hn h hlt
      obtain ⟨ls, hls, hcomplete, hshort'⟩ := ih _ (hk ▸ hsum) hms hmle rfl
      exact ⟨ls, hls, hcomplete, fun fs => (hshort' fs).trans (hshort fs)⟩

/-! ## The table over Kraft sums -/

/-- A table has a choice of this Kraft sum that costs no more. -/
def Affords (table : List Partial) (units cost : Nat) : Prop := ∃ x ∈ table, x.units = units ∧ x.cost ≤ cost

theorem Affords.cons {table : List Partial} {u c : Nat} (h : Affords table u c) (x : Partial) :
    Affords (x :: table) u c := by
  obtain ⟨y, hy, h⟩ := h
  exact ⟨y, List.mem_cons_of_mem x hy, h⟩

theorem affords_cons_self (x : Partial) (table : List Partial) : Affords (x :: table) x.units x.cost :=
  ⟨x, List.mem_cons_self, rfl, le_rfl⟩

theorem mem_of_mem_keepCheapest {x y : Partial} {table : List Partial} (h : y ∈ keepCheapest x table) :
    y = x ∨ y ∈ table := by
  induction table with
  | nil => exact .inl (List.mem_singleton.1 h)
  | cons z zs ih =>
    rw [keepCheapest] at h
    split at h
    · split at h
      · obtain h | h := List.mem_cons.1 h
        · exact .inl h
        · exact .inr (List.mem_cons_of_mem z h)
      · exact .inr h
    · split at h
      · exact List.mem_cons.1 h
      · obtain h | h := List.mem_cons.1 h
        · exact .inr (h ▸ List.mem_cons_self)
        · exact (ih h).imp_right (List.mem_cons_of_mem z)

theorem affords_keepCheapest_self (x : Partial) (table : List Partial) :
    Affords (keepCheapest x table) x.units x.cost := by
  induction table with
  | nil => exact affords_cons_self x []
  | cons z zs ih =>
    rw [keepCheapest]
    split
    · next heq =>
      split
      · exact affords_cons_self x zs
      · exact ⟨z, List.mem_cons_self, heq.symm, by omega⟩
    · split
      · exact affords_cons_self x _
      · exact ih.cons z

theorem Affords.keepCheapest {table : List Partial} {u c : Nat} (h : Affords table u c) (x : Partial) :
    Affords (keepCheapest x table) u c := by
  induction table with
  | nil =>
    obtain ⟨y, hy, -⟩ := h
    cases hy
  | cons z zs ih =>
    obtain ⟨y, hy, hu, hc⟩ := h
    rw [Machine.keepCheapest]
    split
    · next heq =>
      split
      · obtain rfl | hy := List.mem_cons.1 hy
        · exact ⟨x, List.mem_cons_self, heq.trans hu, by omega⟩
        · exact ⟨y, List.mem_cons_of_mem x hy, hu, hc⟩
      · exact ⟨y, hy, hu, hc⟩
    · split
      · exact ⟨y, List.mem_cons_of_mem x hy, hu, hc⟩
      · obtain rfl | hy := List.mem_cons.1 hy
        · exact ⟨y, List.mem_cons_self, hu, hc⟩
        · exact (ih ⟨y, hy, hu, hc⟩).cons z

theorem pairwise_keepCheapest (x : Partial) {table : List Partial} (h : table.Pairwise (·.units < ·.units)) :
    (keepCheapest x table).Pairwise (·.units < ·.units) := by
  induction table with
  | nil => exact List.pairwise_singleton _ _
  | cons z zs ih =>
    obtain ⟨hz, hzs⟩ := List.pairwise_cons.1 h
    rw [keepCheapest]
    split
    · next heq =>
      split
      · exact List.pairwise_cons.2 ⟨fun y hy => heq ▸ hz y hy, hzs⟩
      · exact h
    · split
      · next hlt =>
        exact List.pairwise_cons.2 ⟨List.forall_mem_cons.2 ⟨hlt, fun y hy => hlt.trans (hz y hy)⟩, h⟩
      · next hne hge =>
        refine List.pairwise_cons.2 ⟨fun y hy => ?_, ih hzs⟩
        obtain rfl | hy := mem_of_mem_keepCheapest hy
        · omega
        · exact hz y hy

section
variable (choices : List Partial)

/-- The table of a list of choices: the cheapest of each Kraft sum. -/
def cheapestOf : List Partial := choices.foldl (fun acc y => keepCheapest y acc) []

theorem cheapestOf_concat (x : Partial) : cheapestOf (choices ++ [x]) = keepCheapest x (cheapestOf choices) := by
  simp [cheapestOf]

theorem pairwise_cheapestOf : (cheapestOf choices).Pairwise (·.units < ·.units) := by
  induction choices using List.reverseRecOn with
  | nil => exact .nil
  | append_singleton cs x ih =>
    rw [cheapestOf_concat]
    exact pairwise_keepCheapest x ih

theorem mem_of_mem_cheapestOf {y : Partial} (h : y ∈ cheapestOf choices) : y ∈ choices := by
  induction choices using List.reverseRecOn with
  | nil => exact h
  | append_singleton cs x ih =>
    rw [cheapestOf_concat] at h
    obtain rfl | h := mem_of_mem_keepCheapest h
    · exact List.mem_append_right _ (List.mem_singleton_self y)
    · exact List.mem_append_left _ (ih h)

theorem affords_cheapestOf {y : Partial} (h : y ∈ choices) : Affords (cheapestOf choices) y.units y.cost := by
  induction choices using List.reverseRecOn with
  | nil => cases h
  | append_singleton cs x ih =>
    rw [cheapestOf_concat]
    obtain h | h := List.mem_append.1 h
    · exact (ih h).keepCheapest x
    · rw [List.mem_singleton.1 h]
      exact affords_keepCheapest_self x _

end

/-- The choices of a length for one more frequency. -/
theorem mem_limitChoices_iff {cap f : Nat} {table : List Partial} {y : Partial} :
    (y ∈ table.flatMap fun x =>
      ((List.range cap).map fun i => (⟨x.units + 2 ^ (cap - (i + 1)), x.cost + f * (i + 1), (i + 1) :: x.lens⟩ : Partial)).filter
        fun y => y.units ≤ 2 ^ cap) ↔
    ∃ x ∈ table, ∃ l, 1 ≤ l ∧ l ≤ cap ∧ y = ⟨x.units + 2 ^ (cap - l), x.cost + f * l, l :: x.lens⟩ ∧ y.units ≤ 2 ^ cap := by
  simp only [List.mem_flatMap, List.mem_filter, List.mem_map, List.mem_range, decide_eq_true_eq]
  constructor
  · rintro ⟨x, hx, ⟨i, hi, rfl⟩, hle⟩
    exact ⟨x, hx, i + 1, by omega, hi, rfl, hle⟩
  · rintro ⟨x, hx, l, hl, hcap, rfl, hle⟩
    obtain ⟨i, rfl⟩ : ∃ i, l = i + 1 := ⟨l - 1, by omega⟩
    exact ⟨x, hx, ⟨i, hcap, rfl⟩, hle⟩

/-- What a choice of the table says of its lengths (R338). -/
structure Partial.Sound (cap : Nat) (freqs : List Nat) (x : Partial) : Prop where
  within : WithinCap cap freqs.length x.lens
  units : x.units = kraftUnits cap x.lens
  cost : x.cost = weightedLength freqs x.lens

theorem limitTable_sound {cap : Nat} {freqs : List Nat} {x : Partial} (h : x ∈ limitTable cap freqs) :
    x.Sound cap freqs := by
  induction freqs generalizing x with
  | nil =>
    obtain rfl := List.mem_singleton.1 h
    exact ⟨⟨rfl, nofun⟩, rfl, rfl⟩
  | cons f fs ih =>
    obtain ⟨y, hy, l, h1, hcap, rfl, -⟩ := mem_limitChoices_iff.1 (mem_of_mem_cheapestOf _ h)
    obtain ⟨⟨hlen, hbound⟩, hunits, hcost⟩ := ih hy
    refine ⟨⟨congrArg (· + 1) hlen, List.forall_mem_cons.2 ⟨⟨h1, hcap⟩, hbound⟩⟩, ?_, ?_⟩
    · simp only [kraftUnits, hunits]
      omega
    · simp only [weightedLength, hcost]
      omega

theorem limitTable_pairwise (cap : Nat) (freqs : List Nat) : (limitTable cap freqs).Pairwise (·.units < ·.units) := by
  cases freqs with
  | nil => exact List.pairwise_singleton _ _
  | cons f fs => exact pairwise_cheapestOf _

/-- The table has, for each vector within the cap, one of its Kraft sum that weighs no more (R338). -/
theorem limitTable_affords {cap : Nat} {freqs ns : List Nat} (h : WithinCap cap freqs.length ns)
    (hle : kraftUnits cap ns ≤ 2 ^ cap) :
    Affords (limitTable cap freqs) (kraftUnits cap ns) (weightedLength freqs ns) := by
  induction freqs generalizing ns with
  | nil =>
    rw [List.eq_nil_of_length_eq_zero h.1]
    exact affords_cons_self ⟨0, 0, []⟩ []
  | cons f fs ih =>
    obtain ⟨hlen, hbound⟩ := h
    obtain ⟨n, ns, rfl⟩ := List.exists_cons_of_length_eq_add_one hlen
    obtain ⟨⟨h1, hcap⟩, hbound⟩ := List.forall_mem_cons.1 hbound
    rw [kraftUnits] at hle ⊢
    obtain ⟨x, hx, hunits, hcost⟩ := ih ⟨Nat.succ.inj hlen, hbound⟩ (Nat.le_of_add_left_le hle)
    obtain ⟨y, hy, hyu, hyc⟩ := affords_cheapestOf _ (mem_limitChoices_iff (f := f).2
      ⟨x, hx, n, h1, hcap, rfl, show x.units + 2 ^ (cap - n) ≤ 2 ^ cap by omega⟩)
    dsimp only at hyu hyc
    exact ⟨y, hy, by omega, hyc.trans (by rw [weightedLength]; omega)⟩

/-! ## The limited lengths -/

/-- A complete vector is found, and none within the cap with a Kraft sum of at most 1 weighs less (R338). -/
theorem exists_cheapestComplete {cap : Nat} {freqs : List Nat} (h2 : 2 ≤ freqs.length) (hcap : freqs.length ≤ 2 ^ cap) :
    ∃ best, cheapestComplete cap freqs = some best ∧ best.Sound cap freqs ∧ best.units = 2 ^ cap ∧
      ∀ ns, WithinCap cap freqs.length ns → kraftUnits cap ns ≤ 2 ^ cap → best.cost ≤ weightedLength freqs ns := by
  have hafford (ns : List Nat) (hns : WithinCap cap freqs.length ns) (hle : kraftUnits cap ns ≤ 2 ^ cap) :
      Affords (limitTable cap freqs) (2 ^ cap) (weightedLength freqs ns) := by
    obtain ⟨ms, hms, hcomplete, hshort⟩ := exists_complete h2 hns hle
    obtain ⟨x, hx, hunits, hcost⟩ := limitTable_affords hms hcomplete.le
    exact ⟨x, hx, hunits.trans hcomplete, hcost.trans (hshort freqs)⟩
  have hcap1 : 1 ≤ cap := by
    by_contra h0
    rw [show cap = 0 by omega] at hcap
    omega
  have hlongest : kraftUnits cap (List.replicate freqs.length cap) ≤ 2 ^ cap := by
    rw [kraftUnits_eq_sum, List.map_replicate, List.sum_replicate]
    simpa using hcap
  obtain ⟨x, hx, hxu, -⟩ := hafford _ ⟨List.length_replicate, fun l hl => by
    rw [List.eq_of_mem_replicate hl]
    exact ⟨hcap1, le_rfl⟩⟩ hlongest
  obtain ⟨best, hbest⟩ : ∃ best, cheapestComplete cap freqs = some best :=
    Option.isSome_iff_exists.1 (List.find?_isSome.2 ⟨x, hx, by simpa using hxu⟩)
  have hmem := List.mem_of_find?_eq_some hbest
  have hunits : best.units = 2 ^ cap := by simpa using List.find?_some hbest
  refine ⟨best, hbest, limitTable_sound hmem, hunits, fun ns hns hle => ?_⟩
  obtain ⟨y, hy, hyu, hyc⟩ := hafford ns hns hle
  have hnodup : ((limitTable cap freqs).map Partial.units).Nodup :=
    (List.pairwise_map.2 (limitTable_pairwise cap freqs)).imp Nat.ne_of_lt
  rw [List.inj_on_of_nodup_map hnodup hmem hy (hunits.trans hyu.symm)]
  exact hyc

/-- The lengths used are a complete code within the cap, and none within it with a Kraft sum of at most 1 weighs less, whatever is proposed (R338). -/
theorem limitLengths_minimal (proposal : List Nat) {cap : Nat} {freqs : List Nat} (h2 : 2 ≤ freqs.length)
    (hcap : freqs.length ≤ 2 ^ cap) :
    WithinCap cap freqs.length (limitLengths proposal cap freqs) ∧
    kraftUnits cap (limitLengths proposal cap freqs) = 2 ^ cap ∧
    ∀ ns, WithinCap cap freqs.length ns → kraftUnits cap ns ≤ 2 ^ cap →
      weightedLength freqs (limitLengths proposal cap freqs) ≤ weightedLength freqs ns := by
  obtain ⟨best, hbest, ⟨hwithin, hunits, hcost⟩, hcomplete, hmin⟩ := exists_cheapestComplete h2 hcap
  unfold limitLengths
  simp only [hbest]
  split
  · next hprop =>
    obtain ⟨hfit, hsame⟩ := Bool.and_eq_true_iff.1 hprop
    obtain ⟨hpwithin, hpcomplete⟩ := lengthsFit_iff.1 hfit
    rw [beq_iff_eq.1 hsame]
    exact ⟨hpwithin, hpcomplete, hmin⟩
  · rw [← hcost, ← hunits]
    exact ⟨hwithin, hcomplete, hmin⟩

/-- Settles O48: the table's minimiser, read as sums. -/
theorem limitedLengthsMinimal : Obligations.LimitedLengthsMinimal := by
  unfold Obligations.LimitedLengthsMinimal
  intro proposal freqs cap h2 hcap
  obtain ⟨⟨hlen, hbound⟩, hcomplete, hmin⟩ := limitLengths_minimal proposal h2 hcap
  rw [kraftUnits_eq_sum] at hcomplete
  refine ⟨⟨hlen, hbound, hcomplete⟩, fun ns hns hnb hle => ?_⟩
  rw [← weightedLength_eq_sum, ← weightedLength_eq_sum]
  exact hmin ns ⟨hns, hnb⟩ (by rwa [kraftUnits_eq_sum])

end Sys2Proof.Machine
end

section
/-! Code trees and codebooks: what a walk of a tree that stands in an arena finds, the leaves `pathCoded` lists, and the entries of a codebook (44_huffman.md R340, R342, R350, R352). -/

namespace Sys2Proof.Machine

/-! ## Codes as bits -/

/-- The bits of a number formed from bits are those bits (R203, R340). -/
theorem valueBits_bitsValue_msbFirst (bs : List Bool) : valueBits .msbFirst bs.length (bitsValue .msbFirst bs) = bs := by
  have hlt (bs : List Bool) : bitsValue .msbFirst bs < 2 ^ bs.length := by
    induction bs with
    | nil => exact Nat.one_pos
    | cons b bs ih =>
      rw [bitsValue, List.foldl_cons, foldl_bits_eq, List.length_cons, Nat.pow_succ]
      cases b <;> simp <;> omega
  induction bs with
  | nil => rfl
  | cons b bs ih =>
    have hcons : bitsValue .msbFirst (b :: bs) = 2 ^ bs.length * b.toNat + bitsValue .msbFirst bs := by
      rw [bitsValue, List.foldl_cons, foldl_bits_eq]
      ring
    rw [List.length_cons, valueBits_msbFirst_succ, hcons]
    congr 1
    · rw [Nat.testBit_two_pow_mul_add _ (hlt bs), if_neg (lt_irrefl _), Nat.sub_self]
      cases b <;> rfl
    · refine (valueBits_congr fun i hi => ?_).trans ih
      rw [Nat.testBit_two_pow_mul_add _ (hlt bs), if_pos hi]

theorem bitsValue_msbFirst_lt (bs : List Bool) : bitsValue .msbFirst bs < 2 ^ bs.length := by
  have h := bitsValue_valueBits .msbFirst bs.length (bitsValue .msbFirst bs)
  rw [valueBits_bitsValue_msbFirst] at h
  exact h ▸ Nat.mod_lt _ (Nat.two_pow_pos _)

theorem Code.bits_eq_valueBits (c : Code) : c.bits = valueBits .msbFirst c.len c.code.toNat := by
  simp [bits, valueBits, BitVec.getLsbD]

@[simp] theorem Code.length_bits (c : Code) : c.bits.length = c.len := by simp [bits]

/-- The code a leaf with its path gets in the codebook (R342). -/
def CodedLeaf.toCode (l : CodedLeaf) : Code := ⟨BitVec.ofNat 64 l.code, l.len⟩

/-- Up to 64 bits, an entry's bits are the leaf's path (R153, R340). -/
theorem CodedLeaf.bits_toCode {l : CodedLeaf} (h : l.len ≤ 64) : l.toCode.bits = valueBits .msbFirst l.len l.code := by
  rw [Code.bits_eq_valueBits, toCode, BitVec.toNat_ofNat, valueBits_mod_two_pow _ h]

/-! ## Codebooks -/

/-- Whether a leaf is the one that gives symbol s its code (R342). -/
abbrev CodedLeaf.Names (l : CodedLeaf) (s : Nat) : Prop := l.node.synth = false ∧ l.node.sym.toNat = s

/-- The leaf that gives symbol s its code, if any (R342). -/
def leafNaming (ls : List CodedLeaf) (s : Nat) : Option CodedLeaf :=
  ls.find? fun l => !l.node.synth && l.node.sym.toNat == s

theorem leafNaming_eq_some {ls : List CodedLeaf} {s : Nat} {l : CodedLeaf} (h : leafNaming ls s = some l) :
    l ∈ ls ∧ l.Names s :=
  ⟨List.mem_of_find?_eq_some h, by
    have hp := @List.find?_some _ (fun l : CodedLeaf => !l.node.synth && l.node.sym.toNat == s) _ _ h
    simpa using hp⟩

theorem leafNaming_eq_none_iff {ls : List CodedLeaf} {s : Nat} : leafNaming ls s = none ↔ ∀ l ∈ ls, ¬ l.Names s := by
  simp [leafNaming, List.find?_eq_none]

theorem codebook_eq_filterMap (a : Nat) (ls : List CodedLeaf) :
    codebook a ls = (List.range a).filterMap fun s => (leafNaming ls s).map fun l => (s, l.toCode) := rfl

/-- The entries of a codebook are codes of real leaves (R342). -/
theorem mem_codebook {a : Nat} {ls : List CodedLeaf} {e : Nat × Code} (h : e ∈ codebook a ls) :
    e.1 < a ∧ ∃ l ∈ ls, l.Names e.1 ∧ e.2 = l.toCode := by
  rw [codebook_eq_filterMap] at h
  obtain ⟨s, hs, he⟩ := List.mem_filterMap.1 h
  obtain ⟨l, hl, rfl⟩ := Option.map_eq_some_iff.1 he
  obtain ⟨hmem, hname⟩ := leafNaming_eq_some hl
  exact ⟨List.mem_range.1 hs, l, hmem, hname, rfl⟩

theorem find?_codebook (a : Nat) (ls : List CodedLeaf) (s : Nat) :
    (codebook a ls).find? (fun e => e.1 == s) = if s < a then (leafNaming ls s).map fun l => (s, l.toCode) else none := by
  induction a with
  | zero => rfl
  | succ a ih =>
    have hlast : codebook (a + 1) ls =
        codebook a ls ++ ((leafNaming ls a).map fun l => (a, l.toCode)).toList := by
      rw [codebook_eq_filterMap, List.range_succ, List.filterMap_append]
      cases h : leafNaming ls a <;> simp [h, codebook_eq_filterMap]
    rw [hlast, List.find?_append, ih]
    by_cases hs : s = a
    · rw [hs, if_neg (lt_irrefl a), if_pos (Nat.lt_succ_self a), Option.none_or]
      cases leafNaming ls a <;> simp
    · have hrest : ((leafNaming ls a).map fun l => (a, l.toCode)).toList.find? (fun e => e.1 == s) = none := by
        cases leafNaming ls a <;> simp [Ne.symm hs]
      rw [hrest, Option.or_none]
      exact if_congr (by omega) rfl rfl

theorem bookEntry_codebook_eq (a : Nat) (ls : List CodedLeaf) (s : Nat) :
    bookEntry (codebook a ls) s = if s < a then (leafNaming ls s).elim ⟨0, 0⟩ CodedLeaf.toCode else ⟨0, 0⟩ := by
  rw [bookEntry, find?_codebook]
  split_ifs
  · cases leafNaming ls s <;> rfl
  · rfl

/-- A symbol without a real leaf has no code (R83, R342). -/
theorem bookEntry_codebook_of_none {a : Nat} {ls : List CodedLeaf} {s : Nat} (h : ∀ l ∈ ls, ¬ l.Names s) :
    bookEntry (codebook a ls) s = ⟨0, 0⟩ := by
  rw [bookEntry_codebook_eq, leafNaming_eq_none_iff.2 h, Option.elim_none, ite_self]

/-- The entry of a symbol is that of one of its real leaves, or none. -/
theorem bookEntry_codebook_cases (a : Nat) (ls : List CodedLeaf) (s : Nat) :
    bookEntry (codebook a ls) s = ⟨0, 0⟩ ∨ ∃ l ∈ ls, l.Names s ∧ bookEntry (codebook a ls) s = l.toCode := by
  rw [bookEntry_codebook_eq]
  split_ifs
  · cases hl : leafNaming ls s with
    | none => exact .inl rfl
    | some l => exact .inr ⟨l, (leafNaming_eq_some hl).1, (leafNaming_eq_some hl).2, rfl⟩
  · exact .inl rfl

/-- A symbol with one real leaf has the code of that leaf (R342). -/
theorem bookEntry_codebook {a : Nat} {ls : List CodedLeaf} {l : CodedLeaf} {s : Nat} (hs : s < a) (hl : l ∈ ls)
    (hname : l.Names s) (huniq : ∀ l' ∈ ls, l'.Names s → l' = l) : bookEntry (codebook a ls) s = l.toCode := by
  rw [bookEntry_codebook_eq, if_pos hs]
  cases hl' : leafNaming ls s with
  | none => exact absurd hname (leafNaming_eq_none_iff.1 hl' l hl)
  | some l' =>
    obtain ⟨hmem, hname'⟩ := leafNaming_eq_some hl'
    rw [huniq l' hmem hname', Option.elim_some]

/-- The largest code length of coded leaves, by its upper bounds (R343). -/
theorem foldl_max_len_le_iff {ls : List CodedLeaf} {m x : Nat} :
    ls.foldl (fun m l => max m l.len) m ≤ x ↔ m ≤ x ∧ ∀ l ∈ ls, l.len ≤ x := by
  induction ls generalizing m with
  | nil => simp
  | cons l ls ih =>
    rw [List.foldl_cons, ih, List.forall_mem_cons, max_le_iff, and_assoc]

/-- The largest code length is one of them. -/
theorem exists_len_eq_foldl_max {ls : List CodedLeaf} (h : ls ≠ []) :
    ∃ l ∈ ls, l.len = ls.foldl (fun m l => max m l.len) 0 := by
  obtain ⟨l, hl, hmax⟩ := ls.toFinset.exists_max_image CodedLeaf.len (List.toFinset_nonempty_iff _ |>.2 h)
  rw [List.mem_toFinset] at hl
  refine ⟨l, hl, le_antisymm ((foldl_max_len_le_iff.1 le_rfl).2 l hl) (foldl_max_len_le_iff.2 ⟨Nat.zero_le _, fun x hx => ?_⟩)⟩
  exact hmax x (List.mem_toFinset.2 hx)

/-! ## Walks -/

/-- The code of a coded leaf leads from the root to its node, and is from 1 to 64 bits long (R352). -/
structure CodedLeaf.ReadIn (tree : List Node) (root : Nat) (l : CodedLeaf) : Prop where
  pos : 1 ≤ l.len
  short : l.len ≤ 64
  code : l.code < 2 ^ l.len
  walk : ∀ rest, walkBits tree root (valueBits .msbFirst l.len l.code ++ rest) = some (l.node, rest)

/-- A codebook of leaves that a tree leads to is read back by it (R356). -/
theorem Huffman.readsBack_of_codebook {h : Huffman} {a : Nat} {ls : List CodedLeaf} (hbook : h.book = codebook a ls)
    (hread : ∀ l ∈ ls, l.ReadIn h.tree h.root.toNat) : h.ReadsBack := by
  intro e he
  rw [hbook] at he
  obtain ⟨-, l, hl, ⟨hsynth, hsym⟩, hcode⟩ := mem_codebook he
  have hr := hread l hl
  rw [hcode, CodedLeaf.bits_toCode hr.short]
  exact ⟨hr.pos, fun rest => ⟨l.node, hr.walk rest, hsynth, hsym⟩⟩

/-- Of the codes a tree reads back none begins another: where one did, the same walk ends at both leaves (R356, law 1). -/
theorem Huffman.ReadsBack.prefixFree {h : Huffman} (hread : h.ReadsBack) : PrefixFree h.book := by
  rintro a ha b hb hne ⟨rest, hrest⟩
  obtain ⟨-, hwalka⟩ := hread a ha
  obtain ⟨-, hwalkb⟩ := hread b hb
  obtain ⟨n, hn, -, hna⟩ := hwalka rest
  obtain ⟨m, hm, -, hmb⟩ := hwalkb []
  rw [List.append_nil, ← hrest, hn, Option.some.injEq, Prod.mk.injEq] at hm
  exact hne (hna.symm.trans ((congrArg (fun x : Node => x.sym.toNat) hm.1).trans hmb))

theorem walkBits_of_leaf {tree : List Node} {i : Nat} {n : Node} (hn : tree[i]? = some n) (hleaf : n.leaf = true)
    (bs : List Bool) : walkBits tree i bs = some (n, bs) := by
  cases bs <;> simp [walkBits, hn, hleaf]

theorem walkBits_of_inner {tree : List Node} {i : Nat} {n : Node} (hn : tree[i]? = some n) (hinner : n.leaf = false)
    (b : Bool) (bs : List Bool) :
    walkBits tree i (b :: bs) = walkBits tree (if b then n.right.toNat else n.left.toNat) bs := by
  simp [walkBits, hn, hinner]

/-! ## Trees in an arena -/

namespace CodeTree

/-- The leaves in preorder, each as its arena index and its path (R340). -/
def paths : CodeTree → List (Nat × List Bool)
  | .leaf i _ _ => [(i, [])]
  | .node _ l r => l.paths.map (fun c => (c.1, false :: c.2)) ++ r.paths.map (fun c => (c.1, true :: c.2))

/-- The tree stands in an arena of nodes (R352). -/
def Stands (arena : List Node) : CodeTree → Prop
  | .leaf i synth sym => ∃ n, arena[i]? = some n ∧ n.leaf = true ∧ n.synth = synth ∧ n.sym.toNat = sym
  | .node i l r => ∃ n, arena[i]? = some n ∧ n.leaf = false ∧ n.left.toNat = l.idx ∧ n.right.toNat = r.idx ∧
      l.Stands arena ∧ r.Stands arena

/-- A tagged path goes one edge down into one of two lists of tagged paths. -/
theorem mem_map_cons_append_iff {xs ys : List (Nat × List Bool)} {k : Nat} {p : List Bool} :
    (k, p) ∈ xs.map (fun c => (c.1, false :: c.2)) ++ ys.map (fun c => (c.1, true :: c.2)) ↔
      (∃ q, (k, q) ∈ xs ∧ p = false :: q) ∨ ∃ q, (k, q) ∈ ys ∧ p = true :: q := by
  simp only [List.mem_append, List.mem_map, Prod.mk.injEq]
  constructor
  · rintro (⟨⟨k, q⟩, hq, rfl, rfl⟩ | ⟨⟨k, q⟩, hq, rfl, rfl⟩)
    · exact .inl ⟨q, hq, rfl⟩
    · exact .inr ⟨q, hq, rfl⟩
  · rintro (⟨q, hq, rfl⟩ | ⟨q, hq, rfl⟩)
    · exact .inl ⟨(k, q), hq, rfl, rfl⟩
    · exact .inr ⟨(k, q), hq, rfl, rfl⟩

theorem mem_paths_node {i j : Nat} {l r : CodeTree} {p : List Bool} :
    (j, p) ∈ (node i l r).paths ↔
      (∃ q, (j, q) ∈ l.paths ∧ p = false :: q) ∨ ∃ q, (j, q) ∈ r.paths ∧ p = true :: q :=
  mem_map_cons_append_iff

theorem mem_codes_node {i sym : Nat} {l r : CodeTree} {p : List Bool} :
    (sym, p) ∈ (node i l r).codes ↔
      (∃ q, (sym, q) ∈ l.codes ∧ p = false :: q) ∨ ∃ q, (sym, q) ∈ r.codes ∧ p = true :: q :=
  mem_map_cons_append_iff

/-- Following a leaf's path from the top node ends at the leaf (R352). -/
theorem Stands.walk {arena : List Node} {t : CodeTree} (h : t.Stands arena) {i : Nat} {p : List Bool}
    (hp : (i, p) ∈ t.paths) :
    ∃ n, arena[i]? = some n ∧ n.leaf = true ∧ ∀ rest, walkBits arena t.idx (p ++ rest) = some (n, rest) := by
  induction t generalizing p with
  | leaf j synth sym =>
    obtain ⟨rfl, rfl⟩ : i = j ∧ p = [] := by simpa [paths] using hp
    obtain ⟨n, hn, hleaf, -⟩ := h
    exact ⟨n, hn, hleaf, fun rest => walkBits_of_leaf hn hleaf rest⟩
  | node j l r ihl ihr =>
    obtain ⟨n, hn, hinner, hleft, hright, hl, hr⟩ := h
    obtain ⟨q, hq, rfl⟩ | ⟨q, hq, rfl⟩ := mem_paths_node.1 hp
    · obtain ⟨m, hm, hleaf, hwalk⟩ := ihl hl hq
      refine ⟨m, hm, hleaf, fun rest => ?_⟩
      rw [List.cons_append, idx, walkBits_of_inner hn hinner, if_neg Bool.false_ne_true, hleft, hwalk]
    · obtain ⟨m, hm, hleaf, hwalk⟩ := ihr hr hq
      refine ⟨m, hm, hleaf, fun rest => ?_⟩
      rw [List.cons_append, idx, walkBits_of_inner hn hinner, if_pos rfl, hright, hwalk]

/-- A path leads to one node. -/
theorem Stands.node_unique {arena : List Node} {t : CodeTree} (h : t.Stands arena) {i j : Nat} {p : List Bool} {n m : Node}
    (hi : (i, p) ∈ t.paths) (hj : (j, p) ∈ t.paths) (hn : arena[i]? = some n) (hm : arena[j]? = some m) : n = m := by
  obtain ⟨n', hn', -, hwalk⟩ := h.walk hi
  obtain ⟨m', hm', -, hwalk'⟩ := h.walk hj
  obtain rfl := Option.some.inj (hn.symm.trans hn')
  obtain rfl := Option.some.inj (hm.symm.trans hm')
  exact (Prod.mk.inj (Option.some.inj ((hwalk []).symm.trans (hwalk' [])))).1

/-- `leafPaths` lists the tree's leaves with their paths (R340). -/
theorem Stands.leafPaths_eq {arena : List Node} {t : CodeTree} (h : t.Stands arena) {fuel : Nat} (hfuel : t.depth < fuel)
    (code len : Nat) :
    leafPaths arena fuel t.idx code len =
      t.paths.map fun p => ⟨p.1, p.2.foldl (fun v b => 2 * v + b.toNat) code, len + p.2.length⟩ := by
  induction t generalizing fuel code len with
  | leaf j synth sym =>
    obtain ⟨n, hn, hleaf, -⟩ := h
    obtain ⟨fuel, rfl⟩ : ∃ k, fuel = k + 1 := ⟨fuel - 1, by omega⟩
    simp [leafPaths, idx, hn, hleaf, paths]
  | node j l r ihl ihr =>
    obtain ⟨n, hn, hinner, hleft, hright, hl, hr⟩ := h
    obtain ⟨fuel, rfl⟩ : ∃ k, fuel = k + 1 := ⟨fuel - 1, by omega⟩
    rw [depth] at hfuel
    rw [leafPaths, idx, hn]
    dsimp only
    rw [if_neg (ne_true_of_eq_false hinner), hleft, hright, ihl hl (by omega), ihr hr (by omega)]
    simp [paths, Function.comp_def, Nat.add_assoc, Nat.add_comm 1]

theorem depth_le_iff {t : CodeTree} {x : Nat} : t.depth ≤ x ↔ ∀ p ∈ t.paths, p.2.length ≤ x := by
  induction t generalizing x with
  | leaf j synth sym => simp [depth, paths]
  | node j l r ihl ihr =>
    have hmem (t : CodeTree) (P : Nat × List Bool → Prop) (b : Bool) :
        (∀ p ∈ t.paths.map (fun c => (c.1, b :: c.2)), P p) ↔ ∀ p ∈ t.paths, P (p.1, b :: p.2) := List.forall_mem_map
    have hnonempty (t : CodeTree) : ∃ p, p ∈ t.paths := by
      induction t with
      | leaf j synth sym => exact ⟨_, List.mem_singleton_self _⟩
      | node j l r ihl _ =>
        obtain ⟨p, hp⟩ := ihl
        exact ⟨_, List.mem_append_left _ (List.mem_map_of_mem hp)⟩
    simp only [depth, paths, List.forall_mem_append, hmem, List.length_cons]
    cases x with
    | zero =>
      obtain ⟨p, hp⟩ := hnonempty l
      exact ⟨fun h => absurd h (Nat.not_succ_le_zero _), fun h => absurd (h.1 p hp) (Nat.not_succ_le_zero _)⟩
    | succ x => simp only [Nat.add_le_add_iff_right, max_le_iff, ihl, ihr]

/-- In a tree of more than one node every path has an edge. -/
theorem length_pos_of_mem_paths {t : CodeTree} (ht : 1 ≤ t.depth) {p : Nat × List Bool} (hp : p ∈ t.paths) :
    1 ≤ p.2.length := by
  cases t with
  | leaf j synth sym => exact absurd ht (Nat.not_succ_le_self 0)
  | node j l r =>
    obtain ⟨i, p⟩ := p
    obtain ⟨q, -, rfl⟩ | ⟨q, -, rfl⟩ := mem_paths_node.1 hp <;> exact Nat.succ_pos _

theorem depth_lt_length_indexes (t : CodeTree) : t.depth < t.indexes.length := by
  induction t with
  | leaf j synth sym => exact Nat.one_pos
  | node j l r ihl ihr =>
    simp only [depth, indexes, List.length_cons, List.length_append]
    omega

theorem Stands.lt_length {arena : List Node} {t : CodeTree} (h : t.Stands arena) {i : Nat} (hi : i ∈ t.indexes) :
    i < arena.length := by
  induction t with
  | leaf j synth sym =>
    obtain ⟨n, hn, -⟩ := h
    rw [List.mem_singleton.1 hi]
    exact (List.getElem?_eq_some_iff.1 hn).1
  | node j l r ihl ihr =>
    obtain ⟨n, hn, -, -, -, hl, hr⟩ := h
    obtain rfl | hi := List.mem_cons.1 hi
    · exact (List.getElem?_eq_some_iff.1 hn).1
    · exact (List.mem_append.1 hi).elim (ihl hl) (ihr hr)

/-- A tree that shares no node is no deeper than the arena is long. -/
theorem Stands.depth_lt {arena : List Node} {t : CodeTree} (h : t.Stands arena) (hnodup : t.indexes.Nodup) :
    t.depth < arena.length :=
  calc t.depth < t.indexes.length := t.depth_lt_length_indexes
    _ ≤ (List.range arena.length).length :=
      (List.subperm_of_subset hnodup fun _ hi => List.mem_range.2 (h.lt_length hi)).length_le
    _ = arena.length := List.length_range

theorem paths_sublist_indexes (t : CodeTree) : (t.paths.map Prod.fst).Sublist t.indexes := by
  induction t with
  | leaf j synth sym => exact .refl _
  | node j l r ihl ihr =>
    simp only [paths, List.map_append, List.map_map, Function.comp_def, indexes]
    exact (ihl.append ihr).cons j

/-- The symbols of a tree's codes are those of its real leaves (R340). -/
theorem Stands.mem_codes_iff {arena : List Node} {t : CodeTree} (h : t.Stands arena) {sym : Nat} {p : List Bool} :
    (sym, p) ∈ t.codes ↔
      ∃ i n, (i, p) ∈ t.paths ∧ arena[i]? = some n ∧ n.synth = false ∧ n.sym.toNat = sym := by
  induction t generalizing p with
  | leaf j synth s =>
    obtain ⟨n, hn, -, hsynth, hsym⟩ := h
    simp only [codes, paths, List.mem_singleton, Prod.mk.injEq]
    constructor
    · intro hmem
      cases synth with
      | true => cases hmem
      | false =>
        obtain ⟨rfl, rfl⟩ : sym = s ∧ p = [] := by simpa using hmem
        exact ⟨j, n, ⟨rfl, rfl⟩, hn, hsynth, hsym⟩
    · rintro ⟨i, m, ⟨rfl, rfl⟩, hm, hms, rfl⟩
      obtain rfl := Option.some.inj (hn.symm.trans hm)
      rw [← hsynth, hms, ← hsym]
      exact List.mem_singleton_self _
  | node j l r ihl ihr =>
    obtain ⟨n, hn, hinner, hleft, hright, hl, hr⟩ := h
    simp only [mem_codes_node, ihl hl, ihr hr, mem_paths_node]
    constructor
    · rintro (⟨q, ⟨i, m, hq, hm⟩, rfl⟩ | ⟨q, ⟨i, m, hq, hm⟩, rfl⟩)
      · exact ⟨i, m, .inl ⟨q, hq, rfl⟩, hm⟩
      · exact ⟨i, m, .inr ⟨q, hq, rfl⟩, hm⟩
    · rintro ⟨i, m, ⟨q, hq, rfl⟩ | ⟨q, hq, rfl⟩, hm⟩
      · exact .inl ⟨q, ⟨i, m, hq, hm⟩, rfl⟩
      · exact .inr ⟨q, ⟨i, m, hq, hm⟩, rfl⟩

/-- The coded leaf of a leaf's node and path. -/
def coded (n : Node) (p : List Bool) : CodedLeaf := ⟨n, bitsValue .msbFirst p, p.length⟩

/-- The leaves `pathCoded` lists are the tree's, each with its path as its code (R340). -/
theorem Stands.mem_pathCoded_iff {arena : List Node} {t : CodeTree} (h : t.Stands arena) (hnodup : t.indexes.Nodup)
    {c : CodedLeaf} :
    c ∈ pathCoded arena t.idx ↔ ∃ i p n, (i, p) ∈ t.paths ∧ arena[i]? = some n ∧ c = coded n p := by
  have hpaths := h.leafPaths_eq (Nat.lt_succ_of_lt (h.depth_lt hnodup)) 0 0
  have hinj : (t.paths.map Prod.fst).Nodup := (paths_sublist_indexes t).nodup hnodup
  have hfind {i : Nat} {p : List Bool} (hp : (i, p) ∈ t.paths) :
      (leafPaths arena (arena.length + 1) t.idx 0 0).find? (fun l => l.idx == i) =
        some ⟨i, bitsValue .msbFirst p, p.length⟩ := by
    rw [hpaths, List.find?_map]
    obtain ⟨⟨j, q⟩, hq⟩ : ∃ x, t.paths.find? ((fun l : Leaf => l.idx == i) ∘ fun p =>
        ⟨p.1, p.2.foldl (fun v b => 2 * v + b.toNat) 0, 0 + p.2.length⟩) = some x :=
      Option.isSome_iff_exists.1 (List.find?_isSome.2 ⟨(i, p), hp, by simp⟩)
    have hj : j = i := by simpa using List.find?_some hq
    rw [hq, List.inj_on_of_nodup_map hinj (List.mem_of_find?_eq_some hq) hp hj, Option.map_some, Nat.zero_add]
    rfl
  simp only [pathCoded, List.mem_filterMap, Option.map_eq_some_iff]
  constructor
  · rintro ⟨⟨n, i⟩, hn, l, hl, rfl⟩
    have hmem := List.mem_of_find?_eq_some hl
    rw [hpaths] at hmem
    obtain ⟨⟨j, p⟩, hp, rfl⟩ := List.mem_map.1 hmem
    obtain rfl : j = i := by simpa using List.find?_some hl
    exact ⟨j, p, n, hp, List.mem_zipIdx_iff_getElem?.1 hn, by rw [coded, Nat.zero_add]; rfl⟩
  · rintro ⟨i, p, n, hp, hn, rfl⟩
    exact ⟨(n, i), List.mem_zipIdx_iff_getElem?.2 hn, _, hfind hp, rfl⟩

/-- Every leaf `pathCoded` lists is read by its code, in a tree of 1 to 64 levels (R352). -/
theorem Stands.readIn {arena : List Node} {t : CodeTree} (h : t.Stands arena) (hnodup : t.indexes.Nodup)
    (hlo : 1 ≤ t.depth) (hhi : t.depth ≤ 64) {c : CodedLeaf} (hc : c ∈ pathCoded arena t.idx) :
    c.ReadIn arena t.idx := by
  obtain ⟨i, p, n, hp, hn, rfl⟩ := (h.mem_pathCoded_iff hnodup).1 hc
  obtain ⟨m, hm, -, hwalk⟩ := h.walk hp
  obtain rfl := Option.some.inj (hn.symm.trans hm)
  refine ⟨length_pos_of_mem_paths hlo hp, depth_le_iff.1 hhi _ hp, bitsValue_msbFirst_lt p, fun rest => ?_⟩
  rw [coded, valueBits_bitsValue_msbFirst, hwalk]

/-- The largest code length is the tree's depth. -/
theorem Stands.maxLen_pathCoded {arena : List Node} {t : CodeTree} (h : t.Stands arena) (hnodup : t.indexes.Nodup) :
    (pathCoded arena t.idx).foldl (fun m l => max m l.len) 0 = t.depth := by
  refine eq_of_forall_ge_iff fun x => ?_
  rw [foldl_max_len_le_iff, depth_le_iff, and_iff_right (Nat.zero_le x)]
  constructor
  · rintro hx ⟨i, p⟩ hp
    obtain ⟨n, hn, -, -⟩ := h.walk hp
    exact hx _ ((h.mem_pathCoded_iff hnodup).2 ⟨i, p, n, hp, hn, rfl⟩)
  · intro hx c hc
    obtain ⟨i, p, n, hp, -, rfl⟩ := (h.mem_pathCoded_iff hnodup).1 hc
    exact hx _ hp

end CodeTree

end Sys2Proof.Machine
end

section
/-! HF_LOAD: the preorder visit takes exactly the code trees (44_huffman.md R344). -/

namespace Sys2Proof.Machine

/-! ## Descriptors -/

/-- Word 0 of a descriptor is its fields (30_encoding.md R152). -/
theorem word0_eq (w : Word) :
    w.toNat = w.field 0 8 + (w.getLsbD 8).toNat * 2 ^ 8 + (w.getLsbD 9).toNat * 2 ^ 9 + w.field 10 22 * 2 ^ 10 := by
  have hbit (i : Nat) : (w.getLsbD i).toNat = w.toNat / 2 ^ i % 2 := Nat.toNat_testBit w.toNat i
  have hlt := w.isLt
  rw [hbit, hbit, Word.field, Word.field]
  omega

/-- The node holds a leaf in the layout HF_LOAD reads (R152, R344). -/
structure RawNode.IsLeaf (n : RawNode) (alphabet : Nat) (synth : Bool) (sym : Nat) : Prop where
  word0 : n.word0.toNat = sym + 2 ^ 8 + (if synth then 2 ^ 9 else 0)
  sym_lt : sym < alphabet
  left : n.left = noChild
  right : n.right = noChild

/-- The fields of a leaf's word 0. -/
theorem RawNode.IsLeaf.fields {n : RawNode} {a sym : Nat} {synth : Bool} (h : n.IsLeaf a synth sym) (ha : a ≤ 256) :
    n.word0.field 0 8 = sym ∧ n.word0.getLsbD 8 = true ∧ n.word0.getLsbD 9 = synth ∧ n.word0.field 10 22 = 0 := by
  have hw := h.word0
  have hlt := h.sym_lt
  have heq := word0_eq n.word0
  have hf : n.word0.field 0 8 < 2 ^ 8 := Nat.mod_lt _ (Nat.two_pow_pos 8)
  have hsynth : (if synth then 2 ^ 9 else 0) = synth.toNat * 2 ^ 9 := by cases synth <;> rfl
  have h8 := (n.word0.getLsbD 8).toNat_le
  have h9 := (n.word0.getLsbD 9).toNat_le
  have hs := synth.toNat_le
  have hsame : (n.word0.getLsbD 9).toNat = synth.toNat := by omega
  have hsynth : n.word0.getLsbD 9 = synth := by
    rw [Bool.eq_iff_iff, ← Bool.toNat_eq_one, ← Bool.toNat_eq_one, hsame]
  exact ⟨by omega, Bool.toNat_eq_one.1 (by omega), hsynth, by omega⟩

/-- A word 0 of only the LEAF bit, a SYNTH bit and a symbol. -/
theorem RawNode.isLeaf_of_fields {n : RawNode} {a : Nat} (h8 : n.word0.getLsbD 8 = true) (hpad : n.word0.field 10 22 = 0)
    (hsym : n.word0.field 0 8 < a) (hleft : n.left = noChild) (hright : n.right = noChild) :
    n.IsLeaf a (n.word0.getLsbD 9) (n.word0.field 0 8) where
  word0 := by
    have heq := word0_eq n.word0
    rw [h8, hpad] at heq
    rw [heq]
    cases n.word0.getLsbD 9 <;> simp
  sym_lt := hsym
  left := hleft
  right := hright

theorem RawNode.word0_eq_zero_iff {n : RawNode} :
    n.word0 = 0 ↔ n.word0.getLsbD 8 = false ∧ n.word0.getLsbD 9 = false ∧ n.word0.field 0 8 = 0 ∧
      n.word0.field 10 22 = 0 := by
  constructor
  · intro h
    rw [h]
    exact ⟨rfl, rfl, rfl, rfl⟩
  · rintro ⟨h8, h9, hsym, hpad⟩
    have heq := word0_eq n.word0
    rw [h8, h9, hsym, hpad] at heq
    exact BitVec.eq_of_toNat_eq heq

theorem RawNode.badLeaf_eq_false_iff {n : RawNode} {a t : Nat} {syms : List Nat} :
    n.badLeaf a t syms = false ↔ 1 ≤ t ∧ t ≤ 64 ∧ n.left = noChild ∧ n.right = noChild ∧ n.word0.field 0 8 < a ∧
      (n.word0.getLsbD 9 = false → n.word0.field 0 8 ∉ syms) := by
  simp only [badLeaf, Bool.or_eq_false_iff, beq_eq_false_iff_ne, decide_eq_false_iff_not, bne_eq_false_iff_eq,
    Bool.and_eq_false_iff, Bool.not_eq_false', List.contains_eq_mem, and_assoc, not_lt, not_le,
    ← Nat.one_le_iff_ne_zero]
  cases n.word0.getLsbD 9 <;> simp

theorem RawNode.badInner_eq_false_iff {n : RawNode} {c : Nat} :
    n.badInner c = false ↔ n.word0.getLsbD 9 = false ∧ n.word0.field 0 8 = 0 ∧ n.left.toNat < c ∧ n.right.toNat < c := by
  simp only [badInner, Bool.or_eq_false_iff, decide_eq_false_iff_not, bne_eq_false_iff_eq, and_assoc, not_le]

/-! ## The visit -/

/-- What the visit has seen after a tree. -/
def Seen.after (seen : Seen) (tree : CodeTree) : Seen :=
  ⟨tree.indexes.reverse ++ seen.nodes, (tree.codes.map Prod.fst).reverse ++ seen.syms⟩

/-- No node was visited twice, and no symbol stands at two real leaves. -/
def Seen.Distinct (seen : Seen) : Prop := seen.nodes.Nodup ∧ seen.syms.Nodup

theorem Seen.after_leaf (seen : Seen) (i : Nat) (synth : Bool) (sym : Nat) :
    seen.after (.leaf i synth sym) = ⟨i :: seen.nodes, if synth then seen.syms else sym :: seen.syms⟩ := by
  cases synth <;> simp [after, CodeTree.indexes, CodeTree.codes]

theorem Seen.after_node (seen : Seen) (i : Nat) (l r : CodeTree) :
    seen.after (.node i l r) = ((⟨i :: seen.nodes, seen.syms⟩ : Seen).after l).after r := by
  simp [after, CodeTree.indexes, CodeTree.codes, Function.comp_def]

theorem Seen.Distinct.of_after {seen : Seen} {tree : CodeTree} (h : (seen.after tree).Distinct) : seen.Distinct :=
  ⟨h.1.of_append_right, h.2.of_append_right⟩

theorem Seen.distinct_after_nil {tree : CodeTree} :
    ((⟨[], []⟩ : Seen).after tree).Distinct ↔ tree.indexes.Nodup ∧ (tree.codes.map Prod.fst).Nodup := by
  simp [Distinct, after]

/-- One node of the visit: not seen before, and either a leaf the checks admit or an inner node whose children are visited in turn (R344). -/
theorem visit_succ_eq_ok_iff {arena : List RawNode} {a fuel i t : Nat} {seen seen' : Seen} (ha : a ≤ 256) :
    visit arena a (fuel + 1) i t seen = .ok seen' ↔ i ∉ seen.nodes ∧ ∃ n, arena[i]? = some n ∧
      ((∃ synth sym, n.IsLeaf a synth sym ∧ 1 ≤ t ∧ t ≤ 64 ∧ (synth = false → sym ∉ seen.syms) ∧
          seen' = seen.after (.leaf i synth sym)) ∨
        (n.word0 = 0 ∧ n.left.toNat < arena.length ∧ n.right.toNat < arena.length ∧
          ∃ seen1, visit arena a fuel n.left.toNat (t + 1) ⟨i :: seen.nodes, seen.syms⟩ = .ok seen1 ∧
            visit arena a fuel n.right.toNat (t + 1) seen1 = .ok seen')) := by
  rw [visit]
  by_cases hi : i ∈ seen.nodes
  · simp [hi]
  rw [if_neg (by simpa using hi)]
  cases hn : arena[i]? with
  | none => simp
  | some n =>
    simp only [hi, not_false_eq_true, true_and, Option.some.injEq, exists_eq_left']
    cases h8 : n.word0.getLsbD 8 with
    | true =>
      have hinner : n.word0 ≠ 0 := fun h0 => by simp [h0] at h8
      simp only [hinner, false_and, or_false, if_true]
      constructor
      · intro h
        split at h
        · cases h
        · next hpad =>
          split at h
          · cases h
          · next hbad =>
            obtain ⟨h1, h64, hleft, hright, hsym, hnew⟩ := RawNode.badLeaf_eq_false_iff.1 (Bool.eq_false_iff.2 hbad)
            refine ⟨_, _, RawNode.isLeaf_of_fields h8 (not_not.1 hpad) hsym hleft hright, h1, h64, hnew, ?_⟩
            rw [Seen.after_leaf]
            cases h9 : n.word0.getLsbD 9 <;> simp only [h9, if_true, if_false, Bool.false_eq_true] at h ⊢ <;>
              exact (Except.ok.inj h).symm
      · rintro ⟨synth, sym, hleaf, h1, h64, hnew, rfl⟩
        obtain ⟨hsym, -, h9, hpad⟩ := hleaf.fields ha
        have hgood : n.badLeaf a t seen.syms = false := by
          rw [RawNode.badLeaf_eq_false_iff, hsym, h9]
          exact ⟨h1, h64, hleaf.left, hleaf.right, hleaf.sym_lt, hnew⟩
        rw [if_neg (not_not.2 hpad), hgood, if_neg Bool.false_ne_true, Seen.after_leaf, hsym, h9]
        cases synth <;> rfl
    | false =>
      have hleaf : ¬ ∃ synth sym, n.IsLeaf a synth sym ∧ 1 ≤ t ∧ t ≤ 64 ∧ (synth = false → sym ∉ seen.syms) ∧
          seen' = seen.after (.leaf i synth sym) := by
        rintro ⟨synth, sym, hleaf, -⟩
        exact Bool.false_ne_true (h8.symm.trans (hleaf.fields ha).2.1)
      rw [or_iff_right hleaf, RawNode.word0_eq_zero_iff, if_neg Bool.false_ne_true]
      constructor
      · intro h
        split at h
        · cases h
        · next hpad =>
          split at h
          · cases h
          · next hbad =>
            obtain ⟨h9, hsym, hleft, hright⟩ := RawNode.badInner_eq_false_iff.1 (Bool.eq_false_iff.2 hbad)
            refine ⟨⟨h8, h9, hsym, not_not.1 hpad⟩, hleft, hright, ?_⟩
            split at h
            · cases h
            · next seen1 hl => exact ⟨seen1, hl, h⟩
      · rintro ⟨⟨-, h9, hsym, hpad⟩, hleft, hright, seen1, hl, hr⟩
        have hgood : n.badInner arena.length = false := RawNode.badInner_eq_false_iff.2 ⟨h9, hsym, hleft, hright⟩
        rw [if_neg (not_not.2 hpad), hgood, if_neg Bool.false_ne_true, hl]
        exact hr

/-- What a visit takes is a code tree, no node shared, its symbols distinct, its leaves at depths from 1 to 64 (R344). -/
theorem visit_sound {arena : List RawNode} {a fuel i t : Nat} {seen seen' : Seen} (ha : a ≤ 256)
    (hseen : seen.Distinct) (h : visit arena a fuel i t seen = .ok seen') :
    ∃ tree : CodeTree, tree.idx = i ∧ tree.StoredIn arena a ∧ seen' = seen.after tree ∧ seen'.Distinct ∧
      1 ≤ t + tree.depth ∧ t + tree.depth ≤ 64 := by
  induction fuel generalizing i t seen seen' with
  | zero => cases h
  | succ fuel ih =>
    obtain ⟨hi, n, hn, ⟨synth, sym, hleaf, h1, h64, hnew, rfl⟩ | ⟨h0, -, -, seen1, hl, hr⟩⟩ := (visit_succ_eq_ok_iff ha).1 h
    · refine ⟨.leaf i synth sym, rfl, ⟨n, hn, hleaf.word0, hleaf.sym_lt, hleaf.left, hleaf.right⟩, rfl, ?_, h1, h64⟩
      rw [Seen.after_leaf]
      refine ⟨List.nodup_cons.2 ⟨hi, hseen.1⟩, ?_⟩
      cases synth with
      | true => exact hseen.2
      | false => exact List.nodup_cons.2 ⟨hnew rfl, hseen.2⟩
    · obtain ⟨tl, htl, hsl, rfl, hdl, -, hhl⟩ :=
        ih (seen := ⟨i :: seen.nodes, seen.syms⟩) ⟨List.nodup_cons.2 ⟨hi, hseen.1⟩, hseen.2⟩ hl
      obtain ⟨tr, htr, hsr, rfl, hdr, -, hhr⟩ := ih hdl hr
      refine ⟨.node i tl tr, rfl, ⟨n, hn, h0, htl.symm, htr.symm, hsl, hsr⟩, (Seen.after_node _ _ _ _).symm, hdr, ?_, ?_⟩
      · rw [CodeTree.depth]
        omega
      · rw [CodeTree.depth]
        omega

theorem CodeTree.StoredIn.idx_lt {arena : List RawNode} {a : Nat} {tree : CodeTree} (h : tree.StoredIn arena a) :
    tree.idx < arena.length := by
  cases tree with
  | leaf i synth sym =>
    obtain ⟨n, hn, -⟩ := h
    exact (List.getElem?_eq_some_iff.1 hn).1
  | node i l r =>
    obtain ⟨n, hn, -⟩ := h
    exact (List.getElem?_eq_some_iff.1 hn).1

theorem CodeTree.StoredIn.sym_lt {arena : List RawNode} {a sym : Nat} {p : List Bool} {tree : CodeTree}
    (h : tree.StoredIn arena a) (hc : (sym, p) ∈ tree.codes) : sym < a := by
  induction tree generalizing p with
  | leaf i synth x =>
    obtain ⟨-, -, -, hx, -⟩ := h
    cases synth with
    | true => cases hc
    | false =>
      obtain ⟨rfl, -⟩ : sym = x ∧ p = [] := by simpa [CodeTree.codes] using hc
      exact hx
  | node i l r ihl ihr =>
    obtain ⟨-, -, -, -, -, hl, hr⟩ := h
    obtain ⟨q, hq, -⟩ | ⟨q, hq, -⟩ := CodeTree.mem_codes_node.1 hc
    · exact ihl hl hq
    · exact ihr hr hq

/-- Every such code tree is taken (R344). -/
theorem visit_complete {arena : List RawNode} {a fuel t : Nat} {seen : Seen} {tree : CodeTree} (ha : a ≤ 256)
    (hstored : tree.StoredIn arena a) (hdistinct : (seen.after tree).Distinct) (hfuel : tree.depth < fuel)
    (hlo : 1 ≤ t + tree.depth) (hhi : t + tree.depth ≤ 64) :
    visit arena a fuel tree.idx t seen = .ok (seen.after tree) := by
  induction tree generalizing fuel t seen with
  | leaf i synth sym =>
    obtain ⟨fuel, rfl⟩ : ∃ k, fuel = k + 1 := ⟨fuel - 1, by omega⟩
    obtain ⟨n, hn, hw, hsym, hleft, hright⟩ := hstored
    rw [Seen.after_leaf] at hdistinct
    refine (visit_succ_eq_ok_iff ha).2
      ⟨(List.nodup_cons.1 hdistinct.1).1, n, hn, .inl ⟨synth, sym, ⟨hw, hsym, hleft, hright⟩, hlo, hhi, ?_, rfl⟩⟩
    rintro rfl
    exact (List.nodup_cons.1 hdistinct.2).1
  | node i l r ihl ihr =>
    obtain ⟨fuel, rfl⟩ : ∃ k, fuel = k + 1 := ⟨fuel - 1, by omega⟩
    obtain ⟨n, hn, h0, hleft, hright, hl, hr⟩ := hstored
    rw [Seen.after_node] at hdistinct
    rw [CodeTree.depth] at hfuel hlo hhi
    have hdl := hdistinct.of_after
    rw [CodeTree.idx, Seen.after_node]
    refine (visit_succ_eq_ok_iff ha).2 ⟨(List.nodup_cons.1 hdl.of_after.1).1, n, hn, .inr ⟨h0, ?_, ?_, (⟨i :: seen.nodes, seen.syms⟩ : Seen).after l, ?_, ?_⟩⟩
    · exact hleft ▸ hl.idx_lt
    · exact hright ▸ hr.idx_lt
    · rw [hleft]
      exact ihl hl hdl (by omega) (by omega) (by omega)
    · rw [hright]
      exact ihr hr hdistinct (by omega) (by omega) (by omega)

/-! ## The loaded tree -/

/-- A stored tree stands in the arena of the nodes its descriptors stand for (R152). -/
theorem CodeTree.StoredIn.stands {arena : List RawNode} {a : Nat} (ha : a ≤ 256) {tree : CodeTree}
    (h : tree.StoredIn arena a) : tree.Stands (arena.map RawNode.node) := by
  induction tree with
  | leaf i synth sym =>
    obtain ⟨n, hn, hw, hsym, hleft, hright⟩ := h
    obtain ⟨hf, h8, h9, -⟩ := RawNode.IsLeaf.fields ⟨hw, hsym, hleft, hright⟩ ha
    refine ⟨n.node, by rw [List.getElem?_map, hn]; rfl, h8, h9, ?_⟩
    rw [← hf, RawNode.node, BitVec.extractLsb'_toNat, Nat.shiftRight_eq_div_pow, Word.field]
  | node i l r ihl ihr =>
    obtain ⟨n, hn, h0, hleft, hright, hl, hr⟩ := h
    refine ⟨n.node, by rw [List.getElem?_map, hn]; rfl, ?_, hleft, hright, ihl hl, ihr hr⟩
    rw [RawNode.node, h0]
    rfl

/-- A tree HF_LOAD takes (R344). -/
structure CodeTree.Loadable (s : State) (tree : CodeTree) : Prop where
  root : tree.idx = s.arg0.toNat
  stored : tree.StoredIn (s.loadArena s.arg1.toNat) s.hf.cfg.width.alphabet
  nodup : tree.indexes.Nodup
  syms : (tree.codes.map Prod.fst).Nodup
  depth_pos : 1 ≤ tree.depth
  depth_le : tree.depth ≤ 64

theorem SymWidth.alphabet_le (w : SymWidth) : w.alphabet ≤ 256 := by cases w <;> decide

@[simp] theorem State.length_loadArena (s : State) (c : Nat) : (s.loadArena c).length = c := by simp [loadArena]

namespace CodeTree.Loadable

variable {s : State} {tree : CodeTree}

theorem stands (h : tree.Loadable s) : tree.Stands ((s.loadArena s.arg1.toNat).map RawNode.node) :=
  h.stored.stands s.hf.cfg.width.alphabet_le

theorem visit_eq (h : tree.Loadable s) :
    visit (s.loadArena s.arg1.toNat) s.hf.cfg.width.alphabet (s.arg1.toNat + 1) s.arg0.toNat 0 ⟨[], []⟩ =
      .ok ((⟨[], []⟩ : Seen).after tree) := by
  have hdepth := h.stands.depth_lt h.nodup
  rw [List.length_map, State.length_loadArena] at hdepth
  have hpos := h.depth_pos
  have hle := h.depth_le
  rw [← h.root]
  exact visit_complete s.hf.cfg.width.alphabet_le h.stored (Seen.distinct_after_nil.2 ⟨h.nodup, h.syms⟩)
    (by omega) (by omega) (by omega)

end CodeTree.Loadable

/-- A visit from a fresh start takes a loadable tree. -/
theorem exists_loadable_of_visit {s : State} {seen : Seen}
    (h : visit (s.loadArena s.arg1.toNat) s.hf.cfg.width.alphabet (s.arg1.toNat + 1) s.arg0.toNat 0 ⟨[], []⟩ = .ok seen) :
    ∃ tree : CodeTree, tree.Loadable s := by
  obtain ⟨tree, hroot, hstored, rfl, hdistinct, hpos, hle⟩ :=
    visit_sound s.hf.cfg.width.alphabet_le ⟨List.nodup_nil, List.nodup_nil⟩ h
  obtain ⟨hnodes, hsyms⟩ := Seen.distinct_after_nil.1 hdistinct
  exact ⟨tree, hroot, hstored, hnodes, hsyms, by omega, by omega⟩

/-- The state after HF_LOAD (R344). -/
def State.loaded (s : State) : State :=
  { s with
    hf := { s.hf with
      tree := (s.loadArena s.arg1.toNat).map RawNode.node
      book := codebook s.hf.cfg.width.alphabet
        (pathCoded ((s.loadArena s.arg1.toNat).map RawNode.node) s.arg0.toNat)
      root := s.arg0, nodes := s.arg1
      state := { valid := true, limited := false
                 maxLen := BitVec.ofNat 7 ((pathCoded ((s.loadArena s.arg1.toNat).map RawNode.node) s.arg0.toNat).foldl
                  (fun m l => max m l.len) 0) } }
    status := s.status.ended }

/-- The checks of HF_LOAD before its visit pass (R344). -/
structure State.LoadReady (s : State) : Prop where
  count_pos : 1 ≤ s.arg1.toNat
  count_le : s.arg1.toNat ≤ s.hf.cfg.width.maxNodes
  root_lt : s.arg0.toNat < s.arg1.toNat
  window : (s.hf.loadWindow s.arg1.toNat).Inside s.params.memSize

theorem loadChecks_eq_none {s : State} :
    firstErr [failIf (s.arg1.toNat = 0 ∨ s.hf.cfg.width.maxNodes < s.arg1.toNat) .invalidRange 0x01C,
      failIf (s.arg1.toNat ≤ s.arg0.toNat) .invalidRange 0x018,
      windowErr s.params.memSize (s.hf.loadWindow s.arg1.toNat)] = none ↔ s.LoadReady := by
  simp only [firstErr_cons_eq_none, failIf_eq_none, windowErr_eq_none, firstErr_nil, and_true, decide_eq_false_iff_not]
  exact ⟨fun ⟨h1, h2, h3⟩ => ⟨by omega, by omega, by omega, h3⟩, fun h => ⟨by have := h.1; have := h.2; omega,
    by have := h.3; omega, h.4⟩⟩

theorem exec_hfLoad {s : State} (h : s.LoadReady) :
    exec .hfLoad s =
      match visit (s.loadArena s.arg1.toNat) s.hf.cfg.width.alphabet (s.arg1.toNat + 1) s.arg0.toNat 0 ⟨[], []⟩ with
      | .error i => .next (s.raise (.malformedToken, word i))
      | .ok _ => .next s.loaded := by
  exact checked_of_none (loadChecks_eq_none.2 h)

/-- HF_LOAD takes every loadable tree. -/
theorem exec_hfLoad_of_loadable {s : State} (h : s.LoadReady) {tree : CodeTree} (ht : tree.Loadable s) :
    exec .hfLoad s = .next s.loaded := by
  rw [exec_hfLoad h, ht.visit_eq]

/-- An HF_LOAD that ends without an error has taken a loadable tree. -/
theorem exists_loadable {s t : State} (h : exec .hfLoad s = .next t) (herr : t.status.err = false) :
    s.LoadReady ∧ t = s.loaded ∧ ∃ tree : CodeTree, tree.Loadable s := by
  by_cases hready : s.LoadReady
  · rw [exec_hfLoad hready] at h
    split at h
    · obtain rfl := Host.Outcome.next.inj h
      exact absurd herr Bool.noConfusion
    · next seen hv => exact ⟨hready, (Host.Outcome.next.inj h).symm, exists_loadable_of_visit hv⟩
  · obtain ⟨e, he⟩ := Option.ne_none_iff_exists'.1 (mt loadChecks_eq_none.1 hready)
    obtain rfl := Host.Outcome.next.inj ((checked_of_some he).symm.trans h)
    exact absurd herr Bool.noConfusion

namespace CodeTree.Loadable

variable {s : State} {tree : CodeTree} (h : tree.Loadable s)
include h

theorem readIn {c : CodedLeaf} (hc : c ∈ pathCoded ((s.loadArena s.arg1.toNat).map RawNode.node) s.arg0.toNat) :
    c.ReadIn ((s.loadArena s.arg1.toNat).map RawNode.node) s.arg0.toNat := by
  rw [← h.root] at hc ⊢
  exact h.stands.readIn h.nodup h.depth_pos h.depth_le hc

/-- The codebook of a loaded tree holds its path codes (R340). -/
theorem bookEntry_loaded {sym : Nat} {p : List Bool} (hc : (sym, p) ∈ tree.codes) :
    (bookEntry s.loaded.hf.book sym).bits = p ∧ (bookEntry s.loaded.hf.book sym).len = p.length := by
  have hiff {c : CodedLeaf} := h.stands.mem_pathCoded_iff h.nodup (c := c)
  obtain ⟨i, n, hp, hn, hsynth, hsym⟩ := h.stands.mem_codes_iff.1 hc
  have hlt := h.stored.sym_lt hc
  have hentry : bookEntry s.loaded.hf.book sym = (coded n p).toCode := by
    refine bookEntry_codebook hlt (h.root ▸ hiff.2 ⟨i, p, n, hp, hn, rfl⟩) ⟨hsynth, hsym⟩ fun c hc' hname => ?_
    rw [← h.root] at hc'
    obtain ⟨j, q, m, hq, hm, rfl⟩ := hiff.1 hc'
    have hcodes : (sym, q) ∈ tree.codes := h.stands.mem_codes_iff.2 ⟨j, m, hq, hm, hname⟩
    obtain ⟨-, rfl⟩ := Prod.mk.inj (List.inj_on_of_nodup_map h.syms hcodes hc rfl)
    rw [h.stands.node_unique hq hp hm hn]
  rw [hentry]
  refine ⟨?_, rfl⟩
  rw [CodedLeaf.bits_toCode (depth_le_iff.1 h.depth_le (i, p) hp), coded, valueBits_bitsValue_msbFirst]

/-- A symbol that is at no real leaf has no code. -/
theorem bookEntry_loaded_of_not_mem {sym : Nat} (hsym : sym ∉ tree.codes.map Prod.fst) :
    (bookEntry s.loaded.hf.book sym).len = 0 := by
  refine congrArg Code.len (bookEntry_codebook_of_none fun c hc hname => hsym ?_)
  rw [← h.root] at hc
  obtain ⟨j, q, m, hq, hm, rfl⟩ := (h.stands.mem_pathCoded_iff h.nodup).1 hc
  exact List.mem_map.2 ⟨(sym, q), h.stands.mem_codes_iff.2 ⟨j, m, hq, hm, hname⟩, rfl⟩

theorem maxLen_loaded :
    (pathCoded ((s.loadArena s.arg1.toNat).map RawNode.node) s.arg0.toNat).foldl (fun m l => max m l.len) 0 =
      tree.depth := by
  rw [← h.root]
  exact h.stands.maxLen_pathCoded h.nodup

end CodeTree.Loadable

/-- Settles O49: the visit takes the tree, and its leaves' paths are the codebook's codes. -/
theorem hfLoadTakesCodeTree : Obligations.HfLoadTakesCodeTree := by
  unfold Obligations.HfLoadTakesCodeTree
  intro s tree hpos hle hroot hwin hidx hstored hnodup hsyms hdepth hdepth64
  have h : tree.Loadable s := ⟨hidx, hstored, hnodup, hsyms, hdepth, hdepth64⟩
  refine ⟨s.loaded.hf.book, ?_, fun c hc => h.bookEntry_loaded hc, fun sym hsym => h.bookEntry_loaded_of_not_mem hsym⟩
  rw [exec_hfLoad_of_loadable ⟨hpos, hle, hroot, hwin⟩ h, State.loaded, h.maxLen_loaded]

/-- A root that is a leaf is refused: its depth is 0 (R344). -/
theorem visit_leaf_root {s : State} (hr : s.arg0.toNat < s.arg1.toNat)
    (hleaf : (s.mem.getWord (s.hf.treeBase.toNat + 16 * s.arg0.toNat)).getLsbD 8 = true) (a fuel : Nat) :
    visit (s.loadArena s.arg1.toNat) a (fuel + 1) s.arg0.toNat 0 ⟨[], []⟩ = .error s.arg0.toNat := by
  have hn : (s.loadArena s.arg1.toNat)[s.arg0.toNat]? = some (s.mem.rawNode s.hf.treeBase.toNat s.arg0.toNat) := by
    simp [State.loadArena, hr]
  replace hleaf : (s.mem.rawNode s.hf.treeBase.toNat s.arg0.toNat).word0.getLsbD 8 = true := hleaf
  have hbad (n : RawNode) : n.badLeaf a 0 [] = true := by simp [RawNode.badLeaf]
  rw [visit, hn]
  dsimp only
  rw [if_neg (by simp), hbad, if_pos rfl, if_pos hleaf, ite_self]

/-- Settles O50: what the visit has taken, and the check or the visit that refuses each other case. -/
theorem hfLoadTakesOnlyCodeTrees : Obligations.HfLoadTakesOnlyCodeTrees := by
  unfold Obligations.HfLoadTakesOnlyCodeTrees
  intro s
  refine ⟨fun t _ hexec herr => ?_, fun hc => ?_, fun hpos hle hr => ?_, fun hpos hle hr hwin hleaf => ?_⟩
  · obtain ⟨hready, -, tree, h⟩ := exists_loadable hexec herr
    exact ⟨hready.count_pos, hready.count_le, hready.root_lt,
      tree, h.root, h.stored, h.nodup, h.syms, h.depth_pos, h.depth_le⟩
  · exact checked_of_some (e := (.invalidRange, 0x01C)) (by simp [failIf, hc])
  · refine checked_of_some (e := (.invalidRange, 0x018)) ?_
    have hc : ¬ (s.arg1.toNat = 0 ∨ s.hf.cfg.width.maxNodes < s.arg1.toNat) := by omega
    simp [failIf, hc, hr]
  · rw [exec_hfLoad ⟨hpos, hle, hr, hwin⟩, visit_leaf_root hr hleaf]
    dsimp only
    rw [word_toNat]
    rfl

end Sys2Proof.Machine
end

section
/-! Counting and encoding: what HF_COUNT, HF_ENCODE and HF_ENCODE_BUF do, and the empty tree's codes (44_huffman.md R331, R332, R350 to R353). -/

namespace Sys2Proof.Machine

/-! ## Counting -/

theorem countSym_eq_count (syms : List Nat) (s : Nat) : countSym syms s = syms.count s := by
  have h (n : Nat) : syms.foldl (fun n x => if x = s then n + 1 else n) n = n + syms.count s := by
    induction syms generalizing n with
    | nil => rfl
    | cons x xs ih =>
      rw [List.foldl_cons, ih, List.count_cons]
      by_cases hx : x = s
      · simp only [hx, if_true, beq_self_eq_true]
        omega
      · simp [hx]
  exact (h 0).trans (Nat.zero_add _)

/-- Settles O42: the stored frequency words read back, and the last check refuses a source that is too long. -/
theorem hfCountCounts : Obligations.HfCountCounts := by
  unfold Obligations.HfCountCounts
  intro s hsrc hfreq hapart
  refine ⟨fun hlt => ?_, fun hge => checked_of_some (e := (.invalidRange, 0x148)) ?_⟩
  · refine ⟨s.mem.setWords s.hf.freqBase.toNat
      ((frequencies s.hf.cfg.width.alphabet s.sourceSymbols).map word), ?_, ?_, fun hwf sym hsym => ?_⟩
    · refine checked_of_none ?_
      simp only [firstErr_cons_eq_none, failIf_eq_none, windowErr_eq_none, overlapErr_eq_none,
        decide_eq_false_iff_not, firstErr_nil, not_le]
      exact ⟨hsrc, hfreq, hapart, hlt, trivial⟩
    · intro a ha
      refine Memory.get_setWords_of_outside _ _ ?_
      simpa [frequencies] using ha
    · refine Memory.holdsWords_setWords hwf _ _ sym _ ?_
      simp [frequencies, hsym, countSym_eq_count]
  · rw [windowErr_eq_none.2 hsrc, windowErr_eq_none.2 hfreq, overlapErr_eq_none.2 hapart]
    rw [decide_eq_true hge]
    rfl

/-! ## Encoding symbols -/

/-- Appending bits through the writer changes memory and the writer, and nothing else. -/
theorem WritesInto.eq_of_appends {s t : State} {bs : List Bool} (h : WritesInto s t) (happ : Appends s t bs) :
    t = { s with mem := t.mem, bw := t.bw } := by
  obtain ⟨m, p, b, f, k, rfl, -, -⟩ := h
  have hk : k = s.anyCount := happ.anyCount
  rw [hk]

/-- The writer after the appended bits, counted from the old one (R211). -/
theorem Appends.bw_eq {s t : State} {bs : List Bool} (h : Appends s t bs) :
    t.bw = { s.bw with
      pos := word (s.bw.posAfter bs.length)
      bits := BitVec.ofNat 5 ((s.bw.bits.toNat + bs.length) % s.bw.cfg.unit.bits)
      buf := t.bw.buf } := by
  rw [← h.pos, ← h.bits, word_toNat, bitCount_toNat]
  exact h.config

/-- The written bits from the old position on are the pending ones and those appended. -/
theorem Appends.writtenBits_pos {s t : State} {bs : List Bool} (h : Appends s t bs) (hwf : s.mem.wf = true) :
    t.writtenBits s.bw.pos.toNat = s.bw.pendingBits ++ bs := by
  rw [h.written hwf s.bw.pos.toNat 0 rfl, State.writtenBits, Nat.sub_self]
  rfl

theorem emitCode_ok {s : State} (hs : s.bw.Sound) {sym : Nat} (hfit : s.bw.Fits (bookEntry s.hf.book sym).bits.length) :
    ∃ t, emitCode s sym = .ok t ∧ t = { s with mem := t.mem, bw := t.bw } ∧
      Appends s t (bookEntry s.hf.book sym).bits := by
  obtain ⟨t, hput, happ⟩ := putBits_ok hs hfit
  exact ⟨t, hput, ((putBits_writesInto _ s).2 t hput).eq_of_appends happ, happ⟩

/-- The codewords of a symbol sequence (R353). -/
def Huffman.codeBits (h : Huffman) (syms : List Nat) : List Bool := syms.flatMap fun x => (bookEntry h.book x).bits

theorem Huffman.codeBits_cons (h : Huffman) (x : Nat) (xs : List Nat) :
    h.codeBits (x :: xs) = (bookEntry h.book x).bits ++ h.codeBits xs := rfl

/-- Symbols with codes that fit are encoded in order (R353). -/
theorem encodeSymbols_ok {s : State} (hs : s.bw.Sound) {syms : List Nat} (j : Nat)
    (hcode : ∀ x ∈ syms, (bookEntry s.hf.book x).len ≠ 0) (hfit : s.bw.Fits (s.hf.codeBits syms).length) :
    ∃ t, encodeSymbols s j syms = .ok t ∧ t = { s with mem := t.mem, bw := t.bw } ∧ Appends s t (s.hf.codeBits syms) := by
  induction syms generalizing s j with
  | nil => exact ⟨s, rfl, rfl, .refl hs⟩
  | cons x xs ih =>
    obtain ⟨hx, hxs⟩ := List.forall_mem_cons.1 hcode
    rw [Huffman.codeBits_cons, List.length_append] at hfit
    have hfit1 := hfit.mono (Nat.le_add_right _ _)
    obtain ⟨s1, hemit, hstate, h1⟩ := emitCode_ok hs hfit1
    have hhf : s1.hf = s.hf := by rw [hstate]
    obtain ⟨t, henc, ht, h2⟩ := ih h1.sound (j + 1) (by rwa [hhf]) (by rwa [hhf, h1.fits_iff hfit1])
    refine ⟨t, ?_, ?_, ?_⟩
    · rw [encodeSymbols, if_neg hx, hemit]
      exact henc
    · rw [ht, hstate]
    · rw [hhf] at h2
      exact h1.trans h2

/-- Encoding that succeeds met only codes that fit, and appended them. -/
theorem appends_of_encodeSymbols {s t : State} (hs : s.bw.Sound) {syms : List Nat} {j : Nat}
    (h : encodeSymbols s j syms = .ok t) :
    (∀ x ∈ syms, (bookEntry s.hf.book x).len ≠ 0) ∧ Appends s t (s.hf.codeBits syms) := by
  induction syms generalizing s j with
  | nil =>
    obtain rfl := Except.ok.inj h
    exact ⟨nofun, .refl hs⟩
  | cons x xs ih =>
    rw [encodeSymbols] at h
    split at h
    · cases h
    · next hx =>
      by_cases hfit : s.bw.Fits (bookEntry s.hf.book x).bits.length
      · obtain ⟨s1, hemit, hstate, h1⟩ := emitCode_ok hs hfit
        have hhf : s1.hf = s.hf := by rw [hstate]
        rw [hemit] at h
        obtain ⟨hxs, h2⟩ := ih h1.sound h
        rw [hhf] at hxs h2
        exact ⟨List.forall_mem_cons.2 ⟨hx, hxs⟩, h1.trans h2⟩
      · obtain ⟨f, hput, -⟩ := putBits_error hs hfit
        rw [emitCode, hput] at h
        cases h

/-- Encoding one sequence after another. -/
theorem encodeSymbols_append_of_ok {s t : State} {as : List Nat} {j : Nat} (h : encodeSymbols s j as = .ok t)
    (bs : List Nat) : encodeSymbols s j (as ++ bs) = encodeSymbols t (j + as.length) bs := by
  induction as generalizing s j with
  | nil =>
    obtain rfl := Except.ok.inj h
    rfl
  | cons x xs ih =>
    rw [encodeSymbols] at h
    rw [List.cons_append, encodeSymbols]
    split at h
    · cases h
    · next hx =>
      rw [if_neg hx]
      split at h
      · cases h
      · rw [ih h, List.length_cons, Nat.add_right_comm, Nat.add_assoc]

/-! ## HF_ENCODE -/

theorem exec_hfEncode {s : State} (hv : s.hf.state.valid = true) (hw : s.WriterReady) :
    exec .hfEncode s =
      if s.hf.cfg.width.alphabet ≤ s.arg0.toNat ∨ (bookEntry s.hf.book s.arg0.toNat).len = 0 then
        .next ((s.anyWindow s.bw.window).anyWriter.nextAny.raise (.malformedToken, 0))
      else
        match emitCode s s.arg0.toNat with
        | .error f => .next (((s.countFrom f).anyWindowWritten f).nextAny.raise (.outOfRangeWrite, f.bw.pos))
        | .ok s1 => .next s1.complete := by
  refine checked_of_none ?_
  simp only [State.noTreeErr, firstErr_cons_eq_none, failIf_eq_none, windowErr_eq_none, firstErr_nil, hv]
  exact ⟨rfl, hw, trivial⟩

/-- The writer's error leaves every byte outside the window alone, whatever the unit width (R424). -/
theorem anyWindowWritten_eq (s f : State) :
    ∃ m p b u, (s.countFrom f).anyWindowWritten f =
        ({ s with mem := m, bw := { s.bw with pos := p, bits := b, buf := u }, anyCount := f.anyCount } : State) ∧
      s.mem.SameOutside m s.bw.base.toNat s.bw.cap.toNat := by
  unfold State.anyWindowWritten
  rw [State.countFrom_bw]
  cases s.bw.cfg.unit with
  | bits8 => exact ⟨_, _, _, _, rfl, fun a ha => Memory.get_havoc_of_outside _ _ ha⟩
  | bits16 =>
    refine ⟨_, _, _, _, rfl, fun a ha => Memory.get_havoc_of_outside _ _ ?_⟩
    simp only [State.countFrom_bw]
    omega

/-- Settles O52: the branches of the command for a symbol without a code and for a codeword with and without room. -/
theorem hfEncodeWritesCode : Obligations.HfEncodeWritesCode := by
  unfold Obligations.HfEncodeWritesCode
  intro s hv hw
  refine ⟨fun hsym hlen hs hfit hwf => ?_, fun hbad => ?_, fun hsym hlen hs hfit => ?_⟩
  · have hgood : ¬ (s.hf.cfg.width.alphabet ≤ s.arg0.toNat ∨ (bookEntry s.hf.book s.arg0.toNat).len = 0) := by omega
    obtain ⟨t, hemit, hstate, happ⟩ := emitCode_ok hs (sym := s.arg0.toNat) (by rwa [Code.length_bits])
    have hbw := happ.bw_eq
    have hout := happ.outside
    rw [Code.length_bits] at hbw hout
    refine ⟨t.mem, t.bw.buf, ?_, hout, ?_⟩
    · rw [exec_hfEncode hv hw, if_neg hgood, hemit, ← hbw]
      exact congrArg (fun u : State => Host.Outcome.next u.complete) hstate
    · rw [← hbw]
      exact happ.writtenBits_pos hwf
  · rw [exec_hfEncode hv hw, if_pos hbad]
    exact ⟨_, _, _, _, rfl, fun a ha => Memory.get_havoc_of_outside _ _ ha⟩
  · have hgood : ¬ (s.hf.cfg.width.alphabet ≤ s.arg0.toNat ∨ (bookEntry s.hf.book s.arg0.toNat).len = 0) := by omega
    obtain ⟨f, hput, hpos, hcount⟩ := putBits_error hs (bs := (bookEntry s.hf.book s.arg0.toNat).bits) (by
      rwa [Code.length_bits])
    obtain ⟨m, p, b, u, hany, hout⟩ := anyWindowWritten_eq s f
    rw [exec_hfEncode hv hw, if_neg hgood, emitCode, hput]
    dsimp only
    rw [hany, ← hpos, word_toNat, ← hcount]
    exact ⟨m, p, b, u, rfl, hout⟩

/-! ## HF_ENCODE_BUF -/

/-- The start checks of HF_ENCODE_BUF pass (R353). -/
structure State.EncodeReady (s : State) : Prop where
  valid : s.hf.state.valid = true
  source : s.hf.srcWindow.Inside s.params.memSize
  writer : s.WriterReady
  apart : s.bw.window.Apart s.hf.srcWindow

theorem encodeChecks_eq_none {s : State} :
    firstErr [s.noTreeErr .hfEncodeBuf, windowErr s.params.memSize s.hf.srcWindow,
      windowErr s.params.memSize s.bw.window, overlapErr s.bw.window s.hf.srcWindow] = none ↔ s.EncodeReady := by
  simp only [State.noTreeErr, firstErr_cons_eq_none, failIf_eq_none, windowErr_eq_none, overlapErr_eq_none, firstErr_nil,
    and_true, Bool.not_eq_false']
  exact ⟨fun ⟨h1, h2, h3, h4⟩ => ⟨h1, h2, h3, h4⟩, fun ⟨h1, h2, h3, h4⟩ => ⟨h1, h2, h3, h4⟩⟩

theorem exec_hfEncodeBuf {s : State} (h : s.EncodeReady) :
    exec .hfEncodeBuf s = match encodeSymbols s 0 s.sourceSymbols with
      | .error (e, f) => .next (((s.countFrom f).anyWritten s.bw.pos.toNat f).nextAny.raise e)
      | .ok s1 => .next s1.complete :=
  checked_of_none (encodeChecks_eq_none.2 h)

/-- An HF_ENCODE_BUF that leaves ERR 0 has appended the codewords of its source (R353). -/
theorem appends_of_hfEncodeBuf {s t : State} (hs : s.bw.Sound) (h : exec .hfEncodeBuf s = .next t)
    (herr : t.status.err = false) :
    s.EncodeReady ∧ (∀ x ∈ s.sourceSymbols, (bookEntry s.hf.book x).len ≠ 0) ∧
      Appends s t (s.hf.codeBits s.sourceSymbols) := by
  by_cases hready : s.EncodeReady
  · rw [exec_hfEncodeBuf hready] at h
    split at h
    · obtain rfl := Host.Outcome.next.inj h
      exact absurd herr Bool.noConfusion
    · next s1 henc =>
      obtain rfl := Host.Outcome.next.inj h
      obtain ⟨hcode, happ⟩ := appends_of_encodeSymbols hs henc
      exact ⟨hready, hcode, happ.complete⟩
  · obtain ⟨e, he⟩ := Option.ne_none_iff_exists'.1 (mt encodeChecks_eq_none.1 hready)
    obtain rfl := Host.Outcome.next.inj ((checked_of_some he).symm.trans h)
    exact absurd herr Bool.noConfusion

/-- Settles O53: the source as a whole, or up to the symbol that fails. -/
theorem hfEncodeBufWritesCodes : Obligations.HfEncodeBufWritesCodes := by
  unfold Obligations.HfEncodeBufWritesCodes
  intro s hv hsrc hw hapart hs
  have hready : s.EncodeReady := ⟨hv, hsrc, hw, hapart⟩
  refine ⟨fun hcode hfit hwf => ?_, fun before x after hsplit hcode hx hfit => ?_,
    fun before x after hsplit hcode hfit hfull => ?_⟩
  · obtain ⟨t, henc, hstate, happ⟩ := encodeSymbols_ok hs 0 hcode hfit
    refine ⟨t.mem, t.bw.buf, ?_, happ.outside, ?_, ?_⟩
    · have hbw := happ.bw_eq
      unfold Huffman.codeBits at hbw
      rw [exec_hfEncodeBuf hready, henc, ← hbw]
      exact congrArg (fun u : State => Host.Outcome.next u.complete) hstate
    · have hbw := happ.bw_eq
      unfold Huffman.codeBits at hbw
      rw [← hbw]
      exact happ.writtenBits_pos hwf
    · simp [List.length_flatMap]
  · obtain ⟨t, henc, hstate, happ⟩ := encodeSymbols_ok hs 0 hcode hfit
    have hhf : t.hf = s.hf := by rw [hstate]
    have hfail : encodeSymbols s 0 s.sourceSymbols = .error ((.malformedToken, t.symbolPos before.length), t) := by
      rw [hsplit, encodeSymbols_append_of_ok henc, encodeSymbols, hhf, if_pos hx, Nat.zero_add]
    rw [exec_hfEncodeBuf hready, hfail, ← happ.anyCount]
    refine ⟨_, _, _, _, t.symbolPos before.length, rfl, fun hlt => ?_, fun a ha => Memory.get_havoc_of_outside _ _ ?_⟩
    · rw [symbolPos_of_lt t hlt]
      exact Nat.mod_eq_of_lt hlt
    · simp only [State.countFrom_bw]
      omega
  · obtain ⟨hbefore, hx⟩ : (∀ y ∈ before, (bookEntry s.hf.book y).len ≠ 0) ∧ (bookEntry s.hf.book x).len ≠ 0 := by
      simpa [or_imp, forall_and] using hcode
    obtain ⟨t, henc, hstate, happ⟩ := encodeSymbols_ok hs 0 hbefore hfit
    have hhf : t.hf = s.hf := by rw [hstate]
    have hfull' : ¬ t.bw.Fits (bookEntry t.hf.book x).bits.length := by
      rw [hhf, happ.fits_iff hfit]
      simpa [Huffman.codeBits, List.flatMap_append] using hfull
    obtain ⟨f, hput, hpos, hcount⟩ := putBits_error happ.sound hfull'
    have hend : f.bw.pos = word s.bw.fullPos := by rw [← happ.fullPos_eq hfit, ← hpos, word_toNat]
    have hfail : encodeSymbols s 0 s.sourceSymbols = .error ((.outOfRangeWrite, f.bw.pos), f) := by
      rw [hsplit, encodeSymbols_append_of_ok henc, encodeSymbols, hhf, if_neg hx, emitCode, hput]
    rw [exec_hfEncodeBuf hready, hfail, ← hend, ← happ.anyCount, ← hcount]
    refine ⟨_, _, _, _, rfl, fun a ha => Memory.get_havoc_of_outside _ _ ?_⟩
    rw [happ.fullPos_eq hfit] at hpos
    simp only [State.countFrom_bw]
    omega

end Sys2Proof.Machine
end

section
/-! Decoding: what HF_DECODE and HF_DECODE_BUF do, and the round trip of encoding and decoding (44_huffman.md R331, R352, R354 to R356). -/

namespace Sys2Proof.Machine

/-! ## Packing -/

theorem byteIndex_of_bits8 {c : HfCfg} (h : c.width = .bits8) (k : Nat) : c.byteIndex k = k := by
  rw [HfCfg.byteIndex, h]

theorem byteIndex_of_bits4 {c : HfCfg} (h : c.width = .bits4) (k : Nat) : c.byteIndex k = k / 2 := by
  rw [HfCfg.byteIndex, h]

theorem byteIndex_zero (c : HfCfg) : c.byteIndex 0 = 0 := by
  unfold HfCfg.byteIndex
  cases c.width <;> rfl

theorem packSymbol_of_bits8 {c : HfCfg} (h : c.width = .bits8) (k : Nat) (old sym : Byte) :
    packSymbol c k old sym = sym := by
  rw [packSymbol, h]

/-- A symbol's place in its byte depends on whether its index is even (R355). -/
theorem packSymbol_of_even (c : HfCfg) {k : Nat} (h : k % 2 = 0) (old sym : Byte) :
    packSymbol c k old sym = packSymbol c 0 0 sym := by
  rw [packSymbol, packSymbol, h]
  cases c.width <;> rfl

theorem packSymbol_of_odd (c : HfCfg) {k : Nat} (h : k % 2 = 1) (old sym : Byte) :
    packSymbol c k old sym = packSymbol c 1 old sym := by
  rw [packSymbol, packSymbol, h]

theorem packSymbols_of_bits8 {c : HfCfg} (h : c.width = .bits8) (syms : List Byte) : packSymbols c syms = syms := by
  fun_induction packSymbols c syms with
  | case1 => rfl
  | case2 x => rw [packSymbol_of_bits8 h]
  | case3 x y rest hw ih => rw [ih]
  | case4 x y rest hw ih => exact absurd (h.symm.trans hw) (by decide)

theorem packSymbols_cons_cons_of_bits4 {c : HfCfg} (h : c.width = .bits4) (x y : Byte) (rest : List Byte) :
    packSymbols c (x :: y :: rest) = packSymbol c 1 (packSymbol c 0 0 x) y :: packSymbols c rest := by
  rw [packSymbols, h]

/-- The nibbles of a byte pack into the byte (R331). -/
theorem packSymbol_nibbles (o : NibbleOrder) (b : Byte) :
    ∃ x y, nibbles o b = [x, y] ∧ ∀ c : HfCfg, c.width = .bits4 → c.nibbleOrder = o →
      packSymbol c 1 (packSymbol c 0 0 (BitVec.ofNat 8 x)) (BitVec.ofNat 8 y) = b := by
  have hlow : ∀ b : Byte, BitVec.ofNat 8 (b.toNat % 16) ||| (BitVec.ofNat 8 (b.toNat / 16) <<< 4) = b := by decide
  have hhigh : ∀ b : Byte, (BitVec.ofNat 8 (b.toNat / 16) <<< 4) ||| BitVec.ofNat 8 (b.toNat % 16) = b := by decide
  cases o with
  | lowFirst =>
    refine ⟨_, _, rfl, fun c hw ho => ?_⟩
    simp only [packSymbol, hw, ho]
    exact hlow b
  | highFirst =>
    refine ⟨_, _, rfl, fun c hw ho => ?_⟩
    simp only [packSymbol, hw, ho]
    exact hhigh b

/-- Settles O43, a byte at a time. -/
theorem packingInvertsSymbols : Obligations.PackingInvertsSymbols := by
  unfold Obligations.PackingInvertsSymbols
  intro c bs
  cases hw : c.width with
  | bits8 =>
    rw [packSymbols_of_bits8 hw, symbolsOf, hw]
    simp [Function.comp_def]
  | bits4 =>
    rw [symbolsOf, hw]
    dsimp only
    induction bs with
    | nil => rfl
    | cons b bs ih =>
      obtain ⟨x, y, hxy, hpack⟩ := packSymbol_nibbles c.nibbleOrder b
      rw [List.flatMap_cons, hxy, List.map_append, List.map_cons, List.map_singleton, List.cons_append,
        List.singleton_append, packSymbols_cons_cons_of_bits4 hw, hpack c hw rfl, ih]

theorem length_packSymbols (c : HfCfg) (syms : List Byte) :
    (packSymbols c syms).length = if syms = [] then 0 else c.byteIndex (syms.length - 1) + 1 := by
  cases hw : c.width with
  | bits8 =>
    rw [packSymbols_of_bits8 hw, byteIndex_of_bits8 hw]
    cases syms <;> simp
  | bits4 =>
    rw [byteIndex_of_bits4 hw]
    fun_induction packSymbols c syms with
    | case1 => rfl
    | case2 x => simp
    | case3 x y rest h8 ih => exact absurd (hw.symm.trans h8) (by decide)
    | case4 x y rest h4 ih =>
      rw [List.length_cons, ih]
      cases rest with
      | nil => simp
      | cons z zs =>
        simp only [reduceCtorEq, if_false, List.length_cons]
        omega

/-- Storing symbols from index k on, each in its place of its byte (R355). -/
def storeSymbols (c : HfCfg) (base : Nat) : Nat → List Byte → Memory → Memory
  | _, [], m => m
  | k, x :: xs, m =>
    storeSymbols c base (k + 1) xs
      (m.set (base + c.byteIndex k) (packSymbol c k (m.get (base + c.byteIndex k)) x))

theorem byteIndex_mono (c : HfCfg) {j k : Nat} (h : j ≤ k) : c.byteIndex j ≤ c.byteIndex k := by
  unfold HfCfg.byteIndex
  cases c.width
  · exact h
  · exact Nat.div_le_div_right h

/-- Storing leaves every byte below its first and above its last alone. -/
theorem get_storeSymbols_of_outside (c : HfCfg) (base k : Nat) (xs : List Byte) (m : Memory) {a : Nat}
    (h : a < base + c.byteIndex k ∨ ∀ j, k ≤ j → j < k + xs.length → base + c.byteIndex j < a) :
    (storeSymbols c base k xs m).get a = m.get a := by
  induction xs generalizing k m with
  | nil => rfl
  | cons x xs ih =>
    have hmono := byteIndex_mono c (Nat.le_add_right k 1)
    have hk : a ≠ base + c.byteIndex k := by
      obtain h | h := h
      · omega
      · have := h k le_rfl (by simp)
        omega
    rw [storeSymbols, ih, Memory.get_set_ne _ _ hk]
    refine h.imp (by omega) fun h j hj hlt => h j (by omega) ?_
    rw [List.length_cons]
    omega

/-- Storing leaves everything but the bytes the symbols pack into alone (R355). -/
theorem sameOutside_storeSymbols (c : HfCfg) (base : Nat) (xs : List Byte) (m : Memory) :
    m.SameOutside (storeSymbols c base 0 xs m) base (packSymbols c xs).length := by
  intro a ha
  have hzero := byteIndex_zero c
  refine get_storeSymbols_of_outside c base 0 xs m (ha.imp (by omega) fun h j _ hj => ?_)
  have hmono := byteIndex_mono c (show j ≤ xs.length - 1 by omega)
  rw [length_packSymbols, if_neg (List.ne_nil_of_length_pos (by omega))] at h
  omega

/-- The bytes stored are those the symbols pack into (R355). -/
theorem getBytes_storeSymbols (c : HfCfg) (base k : Nat) (xs : List Byte) {m : Memory} (hm : m.wf = true)
    (hk : c.width = .bits4 → k % 2 = 0) :
    (storeSymbols c base k xs m).getBytes (base + c.byteIndex k) (packSymbols c xs).length = packSymbols c xs := by
  have hstep (b : Byte) {k : Nat} {n : Nat} {m' : Memory} {bs : List Byte} (hb : m'.get (base + k) = b)
      (h : m'.getBytes (base + (k + 1)) n = bs) : m'.getBytes (base + k) (n + 1) = b :: bs := by
    rw [Memory.getBytes_succ, hb, Nat.add_assoc, h]
  cases hw : c.width with
  | bits8 =>
    rw [packSymbols_of_bits8 hw, byteIndex_of_bits8 hw]
    clear hk
    induction xs generalizing k m with
    | nil => rfl
    | cons x xs ih =>
      rw [storeSymbols, byteIndex_of_bits8 hw, packSymbol_of_bits8 hw]
      refine hstep x ?_ (ih (k + 1) (Memory.wf_set hm _ _))
      rw [get_storeSymbols_of_outside, Memory.get_set_self hm]
      exact .inl (by rw [byteIndex_of_bits8 hw]; omega)
  | bits4 =>
    replace hk := hk hw
    rw [byteIndex_of_bits4 hw]
    induction xs using packSymbols.induct c generalizing k m with
    | case1 => rfl
    | case2 x =>
      rw [packSymbols, storeSymbols, storeSymbols, byteIndex_of_bits4 hw]
      refine hstep _ ?_ rfl
      rw [Memory.get_set_self hm, packSymbol_of_even c hk]
    | case3 x y rest h8 ih => exact absurd (hw.symm.trans h8) (by decide)
    | case4 x y rest h4 ih =>
      have hnext : (k + 1) / 2 = k / 2 := by omega
      have hafter : (k + 1 + 1) / 2 = k / 2 + 1 := by omega
      rw [packSymbols_cons_cons_of_bits4 hw, storeSymbols, storeSymbols, byteIndex_of_bits4 hw, byteIndex_of_bits4 hw,
        hnext, Memory.get_set_self hm, packSymbol_of_even c hk, packSymbol_of_odd c (show (k + 1) % 2 = 1 by omega)]
      refine hstep _ ?_ ?_
      · rw [get_storeSymbols_of_outside, Memory.get_set_self (Memory.wf_set hm _ _)]
        exact .inl (by rw [byteIndex_of_bits4 hw]; omega)
      · have := ih (k + 1 + 1) (Memory.wf_set (Memory.wf_set hm (base + k / 2) (packSymbol c 0 0 x)) (base + k / 2)
          (packSymbol c 1 (packSymbol c 0 0 x) y)) (by omega)
        rwa [hafter] at this

/-! ## Walking the held tree -/

/-- What reading from the stream does: only the reader's stream state changes, no free value is drawn, and these bits are left. -/
structure Reads (s t : State) (rest : List Bool) : Prop where
  state : t = { s with br := { s.br with pos := t.br.pos, bits := t.br.bits, buf := t.br.buf } }
  sound : t.br.Sound
  unread : t.unreadBits = rest
  endPos : t.br.endPos = s.br.endPos

theorem Reads.refl {s : State} (hs : s.br.Sound) : Reads s s s.unreadBits := ⟨rfl, hs, rfl, rfl⟩

theorem Reads.trans {s t u : State} {bs rest : List Bool} (h : Reads s t bs) (h' : Reads t u rest) : Reads s u rest where
  state := by rw [h'.state, h.state]
  sound := h'.sound
  unread := h'.unread
  endPos := h'.endPos.trans h.endPos

theorem Reads.hf_eq {s t : State} {rest : List Bool} (h : Reads s t rest) : t.hf = s.hf := by rw [h.state]
theorem Reads.anyCount_eq {s t : State} {rest : List Bool} (h : Reads s t rest) : t.anyCount = s.anyCount := by
  rw [h.state]

/-- One bit read (R202). -/
theorem readBit_reads {s : State} (hs : s.br.Sound) {b : Bool} {bs : List Bool} (h : s.unreadBits = b :: bs) :
    ∃ t, readBit s = .ok (b, t) ∧ Reads s t bs := by
  have hne : s.unreadBits ≠ [] := by simp [h]
  obtain ⟨b', hread, hbits⟩ := readBit_ok hs hne
  obtain ⟨rfl, hrest⟩ := List.cons.inj (hbits.symm.trans h)
  exact ⟨_, hread, rfl, readerAfter_sound hs 1, hrest, endPos_readerAfter_one hne⟩

/-- The walk of the unread bits finds the leaf `walkBits` finds (R352). -/
theorem walkTree_ok (k : Word) {fuel i : Nat} {s : State} {n : Node} {rest : List Bool} (hs : s.br.Sound)
    (hfuel : s.unreadBits.length < fuel) (h : walkBits s.hf.tree i s.unreadBits = some (n, rest)) :
    ∃ t, walkTree k fuel i s = .ok (n, t) ∧ Reads s t rest := by
  induction fuel generalizing i s with
  | zero => exact absurd hfuel (Nat.not_lt_zero _)
  | succ fuel ih =>
    rw [walkTree]
    cases hi : s.hf.tree[i]? with
    | none =>
      unfold walkBits at h
      simp [hi] at h
    | some m =>
      dsimp only
      cases hleaf : m.leaf with
      | true =>
        rw [walkBits_of_leaf hi hleaf] at h
        obtain ⟨rfl, rfl⟩ := Prod.mk.inj (Option.some.inj h)
        exact ⟨s, rfl, .refl hs⟩
      | false =>
        cases hbits : s.unreadBits with
        | nil =>
          rw [hbits] at h
          simp [walkBits, hi, hleaf] at h
        | cons b bs =>
          obtain ⟨t, hread, ht⟩ := readBit_reads hs hbits
          rw [hbits, walkBits_of_inner hi hleaf] at h
          rw [hbits, List.length_cons] at hfuel
          rw [if_neg Bool.false_ne_true, hread]
          obtain ⟨u, hwalk, hu⟩ := ih (s := t) ht.sound (by rw [ht.unread]; omega) (by rwa [ht.unread, ht.hf_eq])
          exact ⟨u, hwalk, ht.trans hu⟩

/-- Where every child index names a node, a walk that finds no leaf runs out of bits, at the missing unit (R352). -/
theorem walkTree_error (k : Word) {fuel i : Nat} {s : State} (hs : s.br.Sound) (hfuel : s.unreadBits.length < fuel)
    (hi : i < s.hf.tree.length)
    (hclosed : ∀ n ∈ s.hf.tree, n.leaf = false → n.left.toNat < s.hf.tree.length ∧ n.right.toNat < s.hf.tree.length)
    (h : walkBits s.hf.tree i s.unreadBits = none) :
    ∃ f, walkTree k fuel i s = .error ((.truncatedInput, word s.br.endPos), f) ∧ f.anyCount = s.anyCount := by
  induction fuel generalizing i s with
  | zero => exact absurd hfuel (Nat.not_lt_zero _)
  | succ fuel ih =>
    obtain ⟨m, hm⟩ : ∃ m, s.hf.tree[i]? = some m := ⟨_, List.getElem?_eq_getElem hi⟩
    rw [walkTree, hm]
    dsimp only
    cases hleaf : m.leaf with
    | true =>
      rw [walkBits_of_leaf hm hleaf] at h
      cases h
    | false =>
      rw [if_neg Bool.false_ne_true]
      cases hbits : s.unreadBits with
      | nil =>
        obtain ⟨hread, hpos⟩ := readBit_error hs hbits
        rw [hread, hpos, word_toNat]
        exact ⟨s, rfl, rfl⟩
      | cons b bs =>
        obtain ⟨t, hread, ht⟩ := readBit_reads hs hbits
        rw [hbits, walkBits_of_inner hm hleaf] at h
        rw [hbits, List.length_cons] at hfuel
        obtain ⟨hleft, hright⟩ := hclosed m (List.mem_of_getElem? hm) hleaf
        obtain ⟨f, hwalk, hcount⟩ := ih (s := t) (i := if b then m.right.toNat else m.left.toNat) ht.sound
          (by rw [ht.unread]; omega) (by rw [ht.hf_eq]; cases b <;> assumption) (by rwa [ht.hf_eq])
          (by rwa [ht.unread, ht.hf_eq])
        rw [hread]
        dsimp only
        rw [hwalk, ht.endPos]
        exact ⟨f, rfl, hcount.trans ht.anyCount_eq⟩

/-- A walk's fuel exceeds the bits left. -/
theorem length_unreadBits_lt {s : State} (hs : s.br.Sound) : s.unreadBits.length < s.br.bitsLeft + 1 := by
  rw [length_unreadBits hs, Reader.bitsLeft]
  cases s.br.cfg.unit <;> simp only [UnitWidth.bits, UnitWidth.bytes] <;> omega

section
variable (k : Word) {s : State} (hs : s.br.Sound) (hn : s.hf.nodes ≠ 0)
include hs hn

theorem decodeSymbol_ok {n : Node} {rest : List Bool}
    (h : walkBits s.hf.tree s.hf.root.toNat s.unreadBits = some (n, rest)) (hsynth : n.synth = false) :
    ∃ t, decodeSymbol k s = .ok (n.sym, t) ∧ Reads s t rest := by
  obtain ⟨t, hwalk, ht⟩ := walkTree_ok k hs (length_unreadBits_lt hs) h
  refine ⟨t, ?_, ht⟩
  rw [decodeSymbol, if_neg hn, hwalk]
  dsimp only
  rw [if_neg (ne_true_of_eq_false hsynth)]

theorem decodeSymbol_synth {n : Node} {rest : List Bool}
    (h : walkBits s.hf.tree s.hf.root.toNat s.unreadBits = some (n, rest)) (hsynth : n.synth = true) :
    ∃ f, decodeSymbol k s = .error ((.malformedToken, k), f) ∧ f.anyCount = s.anyCount := by
  obtain ⟨t, hwalk, ht⟩ := walkTree_ok k hs (length_unreadBits_lt hs) h
  refine ⟨t, ?_, ht.anyCount_eq⟩
  rw [decodeSymbol, if_neg hn, hwalk]
  dsimp only
  rw [if_pos hsynth]

theorem decodeSymbol_truncated (hroot : s.hf.root.toNat < s.hf.tree.length)
    (hclosed : ∀ n ∈ s.hf.tree, n.leaf = false → n.left.toNat < s.hf.tree.length ∧ n.right.toNat < s.hf.tree.length)
    (h : walkBits s.hf.tree s.hf.root.toNat s.unreadBits = none) :
    ∃ f, decodeSymbol k s = .error ((.truncatedInput, word s.br.endPos), f) ∧ f.anyCount = s.anyCount := by
  obtain ⟨f, hwalk, hcount⟩ := walkTree_error k hs (length_unreadBits_lt hs) hroot hclosed h
  refine ⟨f, ?_, hcount⟩
  rw [decodeSymbol, if_neg hn, hwalk]

end

/-! ## HF_DECODE -/

theorem exec_hfDecode {s : State} (hv : s.hf.state.valid = true) (hw : s.ReaderReady) :
    exec .hfDecode s = match decodeSymbol 0 s with
      | .error (e, f) => .next ((s.countFrom f).anyResult.anyReader.nextAny.raise e)
      | .ok (sym, s1) => .next ({ s1 with result := sym.setWidth 32 } : State).complete := by
  refine checked_of_none ?_
  simp only [State.noTreeErr, firstErr_cons_eq_none, failIf_eq_none, windowErr_eq_none, firstErr_nil, hv]
  exact ⟨rfl, hw, trivial⟩

/-- A symbol that is not decoded ends HF_DECODE with the error, the reader and RESULT at any value. -/
theorem exec_hfDecode_error {s f : State} (hv : s.hf.state.valid = true) (hw : s.ReaderReady) {e : ErrKind} {p : Word}
    (h : decodeSymbol 0 s = .error ((e, p), f)) (hcount : f.anyCount = s.anyCount) :
    ∃ v q b u, exec .hfDecode s = .next (({ s with
      result := v, br := { s.br with pos := q, bits := b, buf := u }, anyCount := s.anyCount + 1 } : State).failed e p) := by
  rw [exec_hfDecode hv hw, h, ← hcount]
  exact ⟨_, _, _, _, rfl⟩

/-- Settles O54: a walk that ends at a leaf of either kind, and one that does not end. -/
theorem hfDecodeReadsSymbol : Obligations.HfDecodeReadsSymbol := by
  unfold Obligations.HfDecodeReadsSymbol
  intro s hv hw hs hn
  refine ⟨fun n rest hwalk hsynth => ?_, fun n rest hwalk hsynth => ?_, fun hwalk hroot hclosed => ?_⟩
  · obtain ⟨t, hdec, ht⟩ := decodeSymbol_ok 0 hs hn hwalk hsynth
    refine ⟨t.br.pos, t.br.bits, t.br.buf, ?_, ?_⟩
    · rw [exec_hfDecode hv hw, hdec]
      exact congrArg (fun u : State => Host.Outcome.next ({ u with result := n.sym.setWidth 32 } : State).complete) ht.state
    · exact (congrArg State.unreadBits ht.state).symm.trans ht.unread
  · obtain ⟨f, hdec, hcount⟩ := decodeSymbol_synth 0 hs hn hwalk hsynth
    exact exec_hfDecode_error hv hw hdec hcount
  · obtain ⟨f, hdec, hcount⟩ := decodeSymbol_truncated 0 hs hn hroot hclosed hwalk
    exact exec_hfDecode_error hv hw hdec hcount

/-! ## HF_DECODE_BUF -/

/-- The state after symbol k, just decoded, has been put in the output window (R355). -/
def State.storeSymbol (s : State) (k : Nat) (sym : Byte) : State :=
  { s with
    mem := storeSymbols s.hf.cfg s.hf.dstBase.toNat k [sym] s.mem
    hf := { s.hf with dstPos := word (s.hf.cfg.byteIndex k + 1) } }

/-- One symbol decoded and stored, and then the others (R355). -/
theorem decodeSymbols_succ_of_ok {count k : Nat} {s t : State} {sym : Byte}
    (hroom : s.hf.cfg.byteIndex k < s.hf.dstCap.toNat) (hdec : decodeSymbol (word k) s = .ok (sym, t)) (hhf : t.hf = s.hf) :
    decodeSymbols (count + 1) k s = decodeSymbols count (k + 1) (t.storeSymbol k sym) := by
  rw [decodeSymbols]
  dsimp only
  rw [if_neg (Nat.not_le.2 hroom), hdec, ← hhf]
  rfl

theorem decodeSymbols_succ_of_error {count k : Nat} {s f : State} {e : Err}
    (hroom : s.hf.cfg.byteIndex k < s.hf.dstCap.toNat) (hdec : decodeSymbol (word k) s = .error (e, f)) :
    decodeSymbols (count + 1) k s = .error (e, f) := by
  rw [decodeSymbols]
  dsimp only
  rw [if_neg (Nat.not_le.2 hroom), hdec]

/-- A symbol the window has no byte for (R355). -/
theorem decodeSymbols_succ_of_full {count k : Nat} {s : State} (hfull : s.hf.dstCap.toNat ≤ s.hf.cfg.byteIndex k) :
    decodeSymbols (count + 1) k s = .error ((.outOfRangeWrite, word k), s) := by
  rw [decodeSymbols]
  exact if_pos hfull

/-- What decoding symbols from index k into the output window does (R355). -/
structure Decodes (s t : State) (k : Nat) (syms : List Byte) (rest : List Bool) : Prop where
  state : t = { s with
    mem := storeSymbols s.hf.cfg s.hf.dstBase.toNat k syms s.mem
    br := { s.br with pos := t.br.pos, bits := t.br.bits, buf := t.br.buf }
    hf := { s.hf with
      dstPos := if syms = [] then s.hf.dstPos else word (s.hf.cfg.byteIndex (k + syms.length - 1) + 1) } }
  sound : t.br.Sound
  unread : t.unreadBits = rest
  endPos : t.br.endPos = s.br.endPos

/-- A change of memory outside the reader's window leaves the unread bits alone. -/
theorem unreadBits_congr {s t : State} (hbr : t.br = s.br)
    (hmem : ∀ a, s.br.window.Holds a → t.mem.get a = s.mem.get a) : t.unreadBits = s.unreadBits := by
  rw [State.unreadBits, State.unreadBits, hbr]
  congr 2
  refine Memory.getBytes_congr fun a hlo hhi => hmem a ?_
  simp only [Reader.window, Window.Holds]
  omega

/-- A symbol put in a window apart from the reader's leaves the unread bits alone (R104). -/
theorem Reads.storeSymbol {s t : State} {bs : List Bool} (h : Reads s t bs)
    (hapart : s.hf.dstWindow.Apart s.br.window) {k : Nat} (hroom : s.hf.cfg.byteIndex k < s.hf.dstCap.toNat) (sym : Byte) :
    Decodes s (t.storeSymbol k sym) k [sym] bs where
  state := by
    conv_lhs => rw [h.state]
    rfl
  sound := h.sound
  unread := by
    rw [← h.unread]
    refine unreadBits_congr rfl fun a ha => Memory.get_set_ne _ _ ?_
    rw [h.state] at ha ⊢
    simp only [Window.Apart, Window.Holds, Huffman.dstWindow, Reader.window] at hapart ha ⊢
    omega
  endPos := h.endPos

theorem Decodes.cons {s t u : State} {k : Nat} {x : Byte} {xs : List Byte} {bs rest : List Bool}
    (h : Decodes s t k [x] bs) (h' : Decodes t u (k + 1) xs rest) : Decodes s u k (x :: xs) rest where
  state := by
    refine h'.state.trans ?_
    rw [h.state]
    cases xs with
    | nil => rfl
    | cons y ys => simp [storeSymbols, Nat.add_right_comm k 1]
  sound := h'.sound
  unread := h'.unread
  endPos := h'.endPos.trans h.endPos

theorem Decodes.hf_eq {s t : State} {k : Nat} {syms : List Byte} {rest : List Bool} (h : Decodes s t k syms rest) :
    t.hf = { s.hf with dstPos := t.hf.dstPos } := by rw [h.state]

/-- Symbols whose walks reach real leaves, and that fit, are decoded (R355). -/
theorem decodeSymbols_ok {count k : Nat} {s : State} {syms : List Byte} {rest : List Bool} (hs : s.br.Sound)
    (hn : 0 < count → s.hf.nodes ≠ 0) (hapart : s.hf.dstWindow.Apart s.br.window)
    (hroom : ∀ j, k ≤ j → j < k + count → s.hf.cfg.byteIndex j < s.hf.dstCap.toNat)
    (h : walkMany s.hf.tree s.hf.root.toNat count s.unreadBits = some (syms, rest)) :
    ∃ t, decodeSymbols count k s = .ok t ∧ Decodes s t k syms rest := by
  induction count generalizing k s syms with
  | zero =>
    obtain ⟨rfl, rfl⟩ := Prod.mk.inj (Option.some.inj h)
    exact ⟨s, rfl, rfl, hs, rfl, rfl⟩
  | succ count ih =>
    rw [walkMany] at h
    split at h
    · cases h
    · next n bs hwalk =>
      split at h
      · cases h
      · next hsynth =>
        obtain ⟨⟨syms, rest⟩, hmany, heq⟩ := Option.map_eq_some_iff.1 h
        obtain ⟨rfl, rfl⟩ := Prod.mk.inj heq
        have hk := hroom k le_rfl (by omega)
        have hnodes := hn (Nat.succ_pos count)
        obtain ⟨t, hdec, ht⟩ := decodeSymbol_ok (word k) hs hnodes hwalk (Bool.eq_false_iff.2 hsynth)
        have h1 := ht.storeSymbol hapart hk n.sym
        have hhf := h1.hf_eq
        obtain ⟨u, hrest, hu⟩ := ih (s := t.storeSymbol k n.sym) (k := k + 1) (syms := syms) h1.sound
          (fun _ => by rwa [hhf]) (by rw [h1.state]; exact hapart)
          (fun j hj hlt => by rw [hhf]; exact hroom j (by omega) (by omega))
          (by rw [h1.unread, hhf]; exact hmany)
        exact ⟨u, (decodeSymbols_succ_of_ok hk hdec ht.hf_eq).trans hrest, h1.cons hu⟩

/-- Decoding n symbols and then more. -/
theorem decodeSymbols_add_of_ok {n k : Nat} {s t : State} (h : decodeSymbols n k s = .ok t) (m : Nat) :
    decodeSymbols (n + m) k s = decodeSymbols m (k + n) t := by
  induction n generalizing k s with
  | zero =>
    obtain rfl := Except.ok.inj h
    rw [Nat.zero_add]
    rfl
  | succ n ih =>
    rw [Nat.succ_add_eq_add_succ, Nat.add_succ, decodeSymbols]
    rw [decodeSymbols] at h
    dsimp only at h ⊢
    split at h
    · cases h
    · next hroom =>
      rw [if_neg hroom]
      split at h
      · cases h
      · rw [ih h, Nat.add_assoc, Nat.add_comm 1]

/-- The start checks of HF_DECODE_BUF pass (R355). -/
structure State.DecodeReady (s : State) : Prop where
  valid : s.hf.state.valid = true
  reader : s.ReaderReady
  output : s.hf.dstWindow.Inside s.params.memSize
  apart : s.hf.dstWindow.Apart s.br.window

/-- HF_DST_POS starts at 0 (R355). -/
def State.atDstStart (s : State) : State := { s with hf := { s.hf with dstPos := 0 } }

theorem exec_hfDecodeBuf {s : State} (h : s.DecodeReady) :
    exec .hfDecodeBuf s = match decodeSymbols s.arg0.toNat 0 s.atDstStart with
      | .error (e, f) => .next (((s.countFrom f).anyWindow s.hf.dstWindow).anyReader.anyDstPos.nextAny.raise e)
      | .ok s1 => .next s1.complete := by
  refine checked_of_none ?_
  simp only [State.noTreeErr, firstErr_cons_eq_none, failIf_eq_none, windowErr_eq_none, overlapErr_eq_none, firstErr_nil,
    Bool.not_eq_false']
  exact ⟨h.valid, h.reader, h.output, h.apart, trivial⟩

theorem length_of_walkMany {tree : List Node} {root count : Nat} {bs rest : List Bool} {syms : List Byte}
    (h : walkMany tree root count bs = some (syms, rest)) : syms.length = count := by
  induction count generalizing bs syms with
  | zero =>
    obtain ⟨rfl, -⟩ := Prod.mk.inj (Option.some.inj h)
    rfl
  | succ count ih =>
    rw [walkMany] at h
    split at h
    · cases h
    · split at h
      · cases h
      · obtain ⟨⟨syms, left⟩, hmany, heq⟩ := Option.map_eq_some_iff.1 h
        obtain ⟨rfl, rfl⟩ := Prod.mk.inj heq
        rw [List.length_cons, ih hmany]

/-- HF_DECODE_BUF of symbols that decode and fit (R355). -/
theorem exec_hfDecodeBuf_ok {s : State} (h : s.DecodeReady) (hs : s.br.Sound) (hn : 0 < s.arg0.toNat → s.hf.nodes ≠ 0)
    (hwf : s.mem.wf = true) {syms : List Byte} {rest : List Bool}
    (hwalk : walkMany s.hf.tree s.hf.root.toNat s.arg0.toNat s.unreadBits = some (syms, rest))
    (hroom : (packSymbols s.hf.cfg syms).length ≤ s.hf.dstCap.toNat) :
    ∃ m p b f, exec .hfDecodeBuf s = .next { s with
        mem := m, br := { s.br with pos := p, bits := b, buf := f }
        hf := { s.hf with dstPos := word (packSymbols s.hf.cfg syms).length }
        status := s.status.ended } ∧
      s.mem.SameOutside m s.hf.dstBase.toNat (packSymbols s.hf.cfg syms).length ∧
      m.getBytes s.hf.dstBase.toNat (packSymbols s.hf.cfg syms).length = packSymbols s.hf.cfg syms ∧
      ({ s with br := { s.br with pos := p, bits := b, buf := f } } : State).unreadBits = rest := by
  have hlen := length_of_walkMany hwalk
  have hpacked := length_packSymbols s.hf.cfg syms
  obtain ⟨t, hdec, ht⟩ := decodeSymbols_ok (s := s.atDstStart) (k := 0) hs hn h.apart (fun j _ hj => by
    have hmono := byteIndex_mono s.hf.cfg (show j ≤ syms.length - 1 by omega)
    rw [if_neg (List.ne_nil_of_length_pos (by omega))] at hpacked
    exact (Nat.lt_succ_of_le hmono).trans_le (hpacked.symm.trans_le hroom)) hwalk
  have hpos : (if syms = [] then 0 else word (s.hf.cfg.byteIndex (0 + syms.length - 1) + 1)) =
      word (packSymbols s.hf.cfg syms).length := by
    rw [hpacked, Nat.zero_add]
    split_ifs <;> rfl
  have hout := sameOutside_storeSymbols s.hf.cfg s.hf.dstBase.toNat syms s.mem
  refine ⟨_, t.br.pos, t.br.bits, t.br.buf, ?_, hout, ?_, ?_⟩
  · rw [exec_hfDecodeBuf h, hdec, ← hpos]
    exact congrArg (fun u : State => Host.Outcome.next u.complete) ht.state
  · have hbytes := getBytes_storeSymbols s.hf.cfg s.hf.dstBase.toNat 0 syms hwf (fun _ => rfl)
    rwa [byteIndex_zero] at hbytes
  · rw [← ht.unread]
    refine (unreadBits_congr (by rw [ht.state]; rfl) fun a ha => ?_).symm
    have hapart := h.apart
    rw [ht.state]
    refine hout a ?_
    simp only [Window.Apart, Window.Holds, Huffman.dstWindow, Reader.window] at hapart ha ⊢
    omega

/-- A symbol that is not decoded ends HF_DECODE_BUF with the error, only the output window, HF_DST_POS and the reader at any value (R355). -/
theorem exec_hfDecodeBuf_error {s f : State} (h : s.DecodeReady) {e : ErrKind} {pos : Word}
    (hdec : decodeSymbols s.arg0.toNat 0 s.atDstStart = .error ((e, pos), f)) (hcount : f.anyCount = s.anyCount) :
    ∃ m p b u d, exec .hfDecodeBuf s = .next (({ s with
        mem := m, br := { s.br with pos := p, bits := b, buf := u }, hf := { s.hf with dstPos := d }
        anyCount := s.anyCount + 1 } : State).failed e pos) ∧
      s.mem.SameOutside m s.hf.dstBase.toNat s.hf.dstCap.toNat := by
  rw [exec_hfDecodeBuf h, hdec, ← hcount]
  exact ⟨_, _, _, _, _, rfl, fun a ha => Memory.get_havoc_of_outside _ _ ha⟩

/-- The first k symbols decode and fit, and so HF_DECODE_BUF comes to symbol k. -/
theorem exists_decodes_prefix {s : State} (h : s.DecodeReady) (hs : s.br.Sound) (hn : s.hf.nodes ≠ 0) {k : Nat}
    {syms : List Byte} {rest : List Bool} (hk : k < s.arg0.toNat)
    (hwalk : walkMany s.hf.tree s.hf.root.toNat k s.unreadBits = some (syms, rest))
    (hroom : ∀ j < k, s.hf.cfg.byteIndex j < s.hf.dstCap.toNat) :
    ∃ t, Decodes s.atDstStart t 0 syms rest ∧
      decodeSymbols s.arg0.toNat 0 s.atDstStart = decodeSymbols (s.arg0.toNat - k - 1 + 1) k t := by
  obtain ⟨t, hdec, ht⟩ := decodeSymbols_ok (s := s.atDstStart) (k := 0) hs (fun _ => hn) h.apart
    (fun j _ hj => hroom j (by omega)) hwalk
  refine ⟨t, ht, ?_⟩
  have hsum := decodeSymbols_add_of_ok hdec (s.arg0.toNat - k - 1 + 1)
  rwa [Nat.zero_add, show k + (s.arg0.toNat - k - 1 + 1) = s.arg0.toNat by omega] at hsum

/-- Settles O55: the whole output, or up to the symbol that fails. -/
theorem hfDecodeBufFillsOutput : Obligations.HfDecodeBufFillsOutput := by
  unfold Obligations.HfDecodeBufFillsOutput
  intro s hv hr hout hapart hs hn hwf
  have h : s.DecodeReady := ⟨hv, hr, hout, hapart⟩
  refine ⟨fun syms rest hwalk hroom => exec_hfDecodeBuf_ok h hs (fun _ => hn) hwf hwalk hroom,
    fun k syms rest hk hwalk hroom hfull => ?_, fun k syms rest hk hwalk hroom => ?_⟩
  · obtain ⟨t, ht, hdec⟩ := exists_decodes_prefix h hs hn hk hwalk hroom
    have hhf := ht.hf_eq
    refine exec_hfDecodeBuf_error h (hdec.trans (decodeSymbols_succ_of_full ?_)) (by rw [ht.state]; rfl)
    rw [hhf]
    exact hfull
  · obtain ⟨t, ht, hdec⟩ := exists_decodes_prefix h hs hn hk hwalk fun j hj => hroom j hj.le
    have hhf := ht.hf_eq
    have hcount : t.anyCount = s.anyCount := by rw [ht.state]; rfl
    have hroom' : t.hf.cfg.byteIndex k < t.hf.dstCap.toNat := by
      rw [hhf]
      exact hroom k le_rfl
    have hn' : t.hf.nodes ≠ 0 := by
      rw [hhf]
      exact hn
    refine ⟨fun n left hnext hsynth => ?_, fun hnext hroot hclosed => ?_⟩
    · obtain ⟨f, hfail, hf⟩ := decodeSymbol_synth (word k) ht.sound hn' (by rw [ht.unread, hhf]; exact hnext) hsynth
      exact exec_hfDecodeBuf_error h (hdec.trans (decodeSymbols_succ_of_error hroom' hfail)) (hf.trans hcount)
    · obtain ⟨f, hfail, hf⟩ := decodeSymbol_truncated (word k) ht.sound hn' (by rw [hhf]; exact hroot)
        (by rw [hhf]; exact hclosed) (by rw [ht.unread, hhf]; exact hnext)
      rw [ht.endPos] at hfail
      exact exec_hfDecodeBuf_error h (hdec.trans (decodeSymbols_succ_of_error hroom' hfail)) (hf.trans hcount)

/-! ## The round trip -/

theorem exists_mem_of_bookEntry_len {book : List (Nat × Code)} {s : Nat} (h : (bookEntry book s).len ≠ 0) :
    ∃ e ∈ book, e.1 = s ∧ e.2 = bookEntry book s := by
  unfold bookEntry at h ⊢
  cases he : book.find? fun e => e.1 == s with
  | none =>
    rw [he] at h
    exact absurd rfl h
  | some e => exact ⟨e, List.mem_of_find?_eq_some he, by simpa using List.find?_some he, rfl⟩

/-- A tree that reads its codes back walks the codewords of a sequence to its symbols (R356). -/
theorem Huffman.ReadsBack.walkMany_codeBits {h : Huffman} (hread : h.ReadsBack) {syms : List Nat}
    (hcode : ∀ x ∈ syms, (bookEntry h.book x).len ≠ 0) (rest : List Bool) :
    walkMany h.tree h.root.toNat syms.length (h.codeBits syms ++ rest) =
      some (syms.map (BitVec.ofNat 8), rest) := by
  induction syms with
  | nil => rfl
  | cons x xs ih =>
    obtain ⟨hx, hxs⟩ := List.forall_mem_cons.1 hcode
    obtain ⟨e, he, rfl, hentry⟩ := exists_mem_of_bookEntry_len hx
    obtain ⟨-, hwalk⟩ := hread e he
    obtain ⟨n, hn, hsynth, hsym⟩ := hwalk (h.codeBits xs ++ rest)
    rw [List.length_cons, walkMany, Huffman.codeBits_cons, List.append_assoc, ← hentry, hn]
    dsimp only
    rw [if_neg (ne_true_of_eq_false hsynth), ih hxs, Option.map_some, List.map_cons, ← hsym, BitVec.ofNat_toNat,
      BitVec.setWidth_eq]

theorem nodes_ne_zero_of_walkMany {h : Huffman} (hnodes : h.nodes.toNat = h.tree.length) {count : Nat}
    {bs rest : List Bool} {syms : List Byte} (hwalk : walkMany h.tree h.root.toNat count bs = some (syms, rest))
    (hcount : 0 < count) : h.nodes ≠ 0 := by
  intro hzero
  obtain ⟨count, rfl⟩ : ∃ k, count = k + 1 := ⟨count - 1, by omega⟩
  rw [hzero] at hnodes
  have hnil : h.tree = [] := List.eq_nil_of_length_eq_zero hnodes.symm
  rw [walkMany, hnil] at hwalk
  unfold walkBits at hwalk
  simp at hwalk

/-- Neither encoding nor flushing touches the Huffman registers or the held tree (R36). -/
theorem hf_eq_of_writer {i : Instr} (hi : i = .hfEncodeBuf ∨ i = .bwFlush) {s t : State} (h : exec i s = .next t) :
    t.hf = s.hf := by
  obtain ⟨-, -, -, -, -, -, -, hhf, hdst⟩ := commandFrame i s t h
  have hne : i ≠ .hfBuild ∧ i ≠ .hfLoad ∧ i ≠ .hfDecodeBuf := by obtain rfl | rfl := hi <;> decide
  rw [hhf hne.1 hne.2.1, hdst hne.2.2]

/-- From a fresh writer, HF_ENCODE_BUF and BW_FLUSH leave the codewords and a padding in whole units at the window's start (R353, R356). -/
theorem streamBits_of_encode_flush {s t u : State} (hwf : s.mem.wf = true) (hpos : s.bw.pos = 0) (hbits : s.bw.bits = 0)
    (hbuf : s.bw.buf = 0) (henc : exec .hfEncodeBuf s = .next t) (herr : t.status.err = false)
    (hflush : exec .bwFlush t = .next u) (herr' : u.status.err = false) :
    s.EncodeReady ∧ (∀ x ∈ s.sourceSymbols, (bookEntry s.hf.book x).len ≠ 0) ∧ ∃ pad,
      Appends s u (s.hf.codeBits s.sourceSymbols ++ pad) ∧
      streamBits s.bw.cfg (u.mem.getBytes s.bw.base.toNat u.bw.pos.toNat) = s.hf.codeBits s.sourceSymbols ++ pad := by
  have hzero := toNat_bitCount_zero hbits
  have hstart : s.bw.pos.toNat = 0 := by rw [hpos]; rfl
  have hs : s.bw.Sound := by
    rw [Writer.Sound, hzero]
    exact s.bw.cfg.unit.bits_pos
  obtain ⟨hready, hcode, happ⟩ := appends_of_hfEncodeBuf hs henc herr
  have hpad := bwFlush_appends (happ.ready hready.writer) happ.sound (happ.clean (Writer.clean_of_buf_eq_zero hbuf))
    hflush herr'
  have hall := happ.trans hpad
  have hlast := hall.bits
  rw [List.length_append, List.length_replicate, happ.cfg, happ.bits, hzero, Nat.zero_add, Nat.zero_add, padding_eq,
    add_padding, Nat.mul_mod_right] at hlast
  have hnone : u.bw.pendingBits = [] := by
    rw [Writer.pendingBits, hlast]
    rfl
  have hfresh : s.writtenBits 0 = [] := by
    rw [State.writtenBits, hstart, Writer.pendingBits, hzero]
    rfl
  have hwritten := hall.written hwf 0 0 hstart
  rw [hfresh, State.writtenBits, hnone, List.append_nil, hall.cfg, hall.base] at hwritten
  exact ⟨hready, hcode, _, hall, hwritten⟩

/-- Settles O56: the flushed output is the codewords and a padding, which the walks of the decoder read back as the symbols, and these pack into the source. -/
theorem huffmanRoundTrip : Obligations.HuffmanRoundTrip := by
  unfold Obligations.HuffmanRoundTrip
  intro s s1 s2 s3 hwf _ hv hread hnodes hreset henc herr2 hflush herr3 hlen e hdst hapart hcap
  obtain rfl := Host.Outcome.next.inj hreset
  obtain ⟨hready, hcode, pad, happ, hout⟩ := 
    streamBits_of_encode_flush (s := ({ s with bw := s.bw.restart } : State).complete) hwf rfl rfl rfl henc herr2 hflush herr3
  have hhf2 := hf_eq_of_writer (.inl rfl) henc
  have hhf : s3.hf = s.hf := (hf_eq_of_writer (.inr rfl) hflush).trans hhf2
  have hparams : s3.params = s.params := happ.params
  have hcount : e.arg0.toNat = s.sourceSymbols.length := Nat.mod_eq_of_lt hlen
  have hunread : e.unreadBits = s.hf.codeBits s.sourceSymbols ++ pad := by
    refine Eq.trans ?_ hout
    rw [State.unreadBits, Reader.heldBits_of_bits_eq_zero rfl]
    rfl
  have hwalk : walkMany e.hf.tree e.hf.root.toNat e.arg0.toNat e.unreadBits =
      some (s.sourceSymbols.map (BitVec.ofNat 8), pad) := by
    rw [hunread, hcount, show e.hf = s.hf from hhf]
    exact hread.walkMany_codeBits hcode pad
  have hpack : packSymbols e.hf.cfg (s.sourceSymbols.map (BitVec.ofNat 8)) =
      s.mem.getBytes s.hf.srcBase.toNat s.hf.srcLen.toNat := by
    rw [show e.hf = s.hf from hhf]
    exact packingInvertsSymbols s.hf.cfg _
  have hreader : e.ReaderReady := by
    have hwin : s.bw.cap.toNat = 0 ∨ s.bw.base.toNat + s.bw.cap.toNat ≤ s.params.memSize := hready.writer
    have hroom : s3.bw.pos.toNat ≤ s.bw.cap.toNat := happ.room (Nat.zero_le _)
    change s3.bw.pos.toNat = 0 ∨ s.bw.base.toNat + s3.bw.pos.toNat ≤ s3.params.memSize
    rw [hparams]
    omega
  have hdecode : e.DecodeReady := by
    refine ⟨?_, hreader, ?_, hapart⟩
    · rw [show e.hf = s.hf from hhf]
      exact hv
    · rwa [show e.params = s.params from hparams]
  have hn : 0 < e.arg0.toNat → e.hf.nodes ≠ 0 :=
    nodes_ne_zero_of_walkMany (by rw [show e.hf = s.hf from hhf]; exact hnodes) hwalk
  obtain ⟨m, p, b, f, hexec, -, hbytes, -⟩ := exec_hfDecodeBuf_ok hdecode (Nat.zero_le _) hn (happ.wf hwf) hwalk (by
    rw [hpack, Memory.length_getBytes, show e.hf = s.hf from hhf]
    exact hcap)
  rw [hpack, Memory.length_getBytes] at hexec hbytes
  refine ⟨_, hexec, herr3, word_toNat _, ?_⟩
  rw [show e.hf = s.hf from hhf] at hbytes
  exact hbytes

/-! ## The empty tree -/

theorem realLeaves_eq_nil {sym : Nat} {freqs : List Nat} (h : ∀ f ∈ freqs, f = 0) : realLeaves sym freqs = [] := by
  induction freqs generalizing sym with
  | nil => rfl
  | cons f fs ih =>
    obtain ⟨hf, hfs⟩ := List.forall_mem_cons.1 h
    rw [realLeaves, if_pos hf, ih hfs]

/-- Settles O47: no leaf, no code; and without a node no symbol. -/
theorem emptyTree : Obligations.EmptyTree := by
  unfold Obligations.EmptyTree
  refine ⟨fun c l freqs hzero => ?_, fun s hv hnodes hbook => ⟨fun hw => ?_, fun hr => ?_, fun hr hdst hapart harg hcap => ?_⟩⟩
  · have hempty : naturalArena freqs = [] := by
      simp [naturalArena, naturalLeaves, realLeaves_eq_nil hzero, mergeNodes]
    rw [buildTree, hempty]
    exact if_pos rfl
  · have hnone : (bookEntry s.hf.book s.arg0.toNat).len = 0 := by rw [hbook]; rfl
    rw [exec_hfEncode hv hw, if_pos (.inr hnone)]
    exact ⟨_, rfl, rfl, rfl, rfl⟩
  · have hdec : decodeSymbol 0 s = .error ((.malformedToken, 0), s) := if_pos hnodes
    obtain ⟨v, q, b, u, hexec⟩ := exec_hfDecode_error hv hr hdec rfl
    exact ⟨_, hexec, rfl, rfl, rfl⟩
  · have hdec : decodeSymbol (word 0) s.atDstStart = .error ((.malformedToken, 0), s.atDstStart) := if_pos hnodes
    have hpos : 0 < s.hf.dstCap.toNat := Nat.pos_of_ne_zero fun h => hcap (BitVec.eq_of_toNat_eq h)
    have hcount : s.arg0.toNat - 1 + 1 = s.arg0.toNat :=
      Nat.sub_add_cancel (Nat.pos_of_ne_zero fun h => harg (BitVec.eq_of_toNat_eq h))
    have hroom : s.hf.cfg.byteIndex 0 < s.hf.dstCap.toNat := by rwa [byteIndex_zero]
    have hfail := decodeSymbols_succ_of_error (count := s.arg0.toNat - 1) (s := s.atDstStart) hroom hdec
    rw [hcount] at hfail
    obtain ⟨m, p, b, u, d, hexec, -⟩ := exec_hfDecodeBuf_error ⟨hv, hr, hdst, hapart⟩ hfail rfl
    exact ⟨_, hexec, rfl, rfl, rfl⟩

end Sys2Proof.Machine
end

section
/-! Merging (44_huffman.md R333 to R336): the leaves of a frequency table, the heap, and what the arena and the waiting trees are at every merge. -/

namespace Sys2Proof.Machine

/-! ## Leaves -/

/-- The real leaves, written as the table's nonzero entries with their symbols (R333). -/
theorem realLeaves_eq (sym : Nat) (freqs : List Nat) :
    realLeaves sym freqs = ((freqs.zipIdx sym).filter fun x => x.1 ≠ 0).map fun x => leafOf x.2 x.1 := by
  induction freqs generalizing sym with
  | nil => rfl
  | cons f fs ih =>
    rw [realLeaves, List.zipIdx_cons, List.filter_cons, ih]
    by_cases hf : f = 0
    · simp [hf]
    · simp only [hf, if_false, ne_eq, not_false_eq_true, decide_true, if_true, List.map_cons]
      rfl

theorem mem_realLeaves_iff {freqs : List Nat} {n : Node} :
    n ∈ realLeaves 0 freqs ↔ ∃ sym f, freqs[sym]? = some f ∧ f ≠ 0 ∧ n = leafOf sym f := by
  simp only [realLeaves_eq, List.mem_map, List.mem_filter, Prod.exists, List.mem_zipIdx_iff_getElem?, decide_eq_true_eq]
  exact ⟨fun ⟨f, s, ⟨hs, hf⟩, h⟩ => ⟨s, f, hs, hf, h.symm⟩, fun ⟨s, f, hs, hf, h⟩ => ⟨f, s, ⟨hs, hf⟩, h.symm⟩⟩

theorem length_realLeaves (sym : Nat) (freqs : List Nat) :
    (realLeaves sym freqs).length = (freqs.filter (· ≠ 0)).length := by
  induction freqs generalizing sym with
  | nil => rfl
  | cons f fs ih =>
    rw [realLeaves, List.filter_cons]
    by_cases hf : f = 0
    · simpa [hf] using ih (sym + 1)
    · simpa [hf] using ih (sym + 1)

theorem map_freq_realLeaves (sym : Nat) {freqs : List Nat} (h : freqs.sum < 2 ^ 32) :
    (realLeaves sym freqs).map (fun n => n.freq.toNat) = freqs.filter (· ≠ 0) := by
  induction freqs generalizing sym with
  | nil => rfl
  | cons f fs ih =>
    rw [List.sum_cons] at h
    have hword : (word f).toNat = f := Nat.mod_eq_of_lt (by omega)
    rw [realLeaves, List.filter_cons]
    by_cases hf : f = 0
    · simpa [hf] using ih (sym + 1) (by omega)
    · simpa [hf, leafNode, hword] using ih (sym + 1) (by omega)

theorem toNat_sym_leafOf {sym : Nat} (h : sym < 256) (f : Nat) : (leafOf sym f).sym.toNat = sym := Nat.mod_eq_of_lt h

/-- Symbols ascend along the real leaves (R333). -/
theorem pairwise_realLeaves {sym : Nat} {freqs : List Nat} (h : sym + freqs.length ≤ 256) :
    (realLeaves sym freqs).Pairwise fun a b => a.sym.toNat < b.sym.toNat := by
  induction freqs generalizing sym with
  | nil => exact .nil
  | cons f fs ih =>
    rw [List.length_cons] at h
    rw [realLeaves]
    split
    · exact ih (by omega)
    · refine List.pairwise_cons.2 ⟨fun n hn => ?_, ih (by omega)⟩
      rw [realLeaves_eq] at hn
      obtain ⟨⟨g, s⟩, hs, rfl⟩ := List.mem_map.1 hn
      obtain ⟨hlo, hhi, -⟩ := List.mem_zipIdx (List.mem_filter.1 hs).1
      rw [toNat_sym_leafOf (by omega)]
      exact (toNat_sym_leafOf (show sym < 256 by omega) f).trans_lt hlo

/-- The synthesized sibling of a lone leaf (R335). -/
def siblingOf (l : Node) : Node := leafNode true (if l.sym = 0 then 1 else 0) 0

/-- The leaves are the real ones, but for a lone one's sibling (R335). -/
theorem naturalLeaves_cases (freqs : List Nat) :
    ((realLeaves 0 freqs).length ≠ 1 ∧ naturalLeaves freqs = realLeaves 0 freqs) ∨
    ∃ l, realLeaves 0 freqs = [l] ∧ naturalLeaves freqs = [l, siblingOf l] := by
  rw [naturalLeaves]
  split
  · next l h => exact .inr ⟨l, h, rfl⟩
  · next hne => exact .inl ⟨fun h => by obtain ⟨l, hl⟩ := List.length_eq_one_iff.1 h; exact hne l hl, rfl⟩

/-- The model's leaves are those of R333 and R335. -/
theorem naturalLeaves_eq_leavesOf {freqs : List Nat} (h : freqs.length ≤ 256) : naturalLeaves freqs = leavesOf freqs := by
  rw [leavesOf, ← realLeaves_eq]
  obtain ⟨hne, heq⟩ | ⟨l, hl, heq⟩ := naturalLeaves_cases freqs
  · rw [if_neg hne, heq]
  · rw [hl, if_pos List.length_singleton, heq]
    obtain ⟨sym, f, hf, hf0, rfl⟩ := mem_realLeaves_iff.1 (hl ▸ List.mem_singleton_self l)
    have hlt : sym < freqs.length := (List.getElem?_eq_some_iff.1 hf).1
    have hsym : (leafOf sym f).sym = 0 ↔ sym = 0 := by
      rw [← BitVec.toNat_inj, toNat_sym_leafOf (by omega)]
      rfl
    have hhead : freqs.headD 0 = 0 ↔ sym ≠ 0 := by
      cases freqs with
      | nil => simp at hlt
      | cons g gs =>
        rw [List.headD_cons]
        constructor
        · rintro rfl rfl
          simp only [List.getElem?_cons_zero, Option.some.injEq] at hf
          exact hf0 hf.symm
        · intro hs
          by_contra hg
          have hmem : leafOf 0 g ∈ realLeaves 0 (g :: gs) := mem_realLeaves_iff.2 ⟨0, g, rfl, hg, rfl⟩
          rw [hl, List.mem_singleton] at hmem
          have := congrArg (fun n : Node => n.sym.toNat) hmem
          rw [toNat_sym_leafOf (by omega), toNat_sym_leafOf (by omega)] at this
          exact hs this.symm
    by_cases hs : sym = 0
    · rw [siblingOf, if_pos (hsym.2 hs), if_neg (fun h => hhead.1 h hs)]
      rfl
    · rw [siblingOf, if_neg (mt hsym.1 hs), if_pos (hhead.2 hs)]
      rfl

/-! ## The heap -/

/-- The order of the heap (R334). -/
def HeapEntry.Before (a b : HeapEntry) : Prop := a.1 < b.1 ∨ (a.1 = b.1 ∧ a.2 < b.2)

theorem HeapEntry.before_iff {a b : HeapEntry} : HeapEntry.before a b = true ↔ HeapEntry.Before a b := by
  simp [before, Before]

theorem HeapEntry.Before.fst_le {a b : HeapEntry} (h : HeapEntry.Before a b) : a.1 ≤ b.1 := by
  obtain h | ⟨h, -⟩ := h <;> omega

theorem heapInsert_perm (x : HeapEntry) (h : List HeapEntry) : (heapInsert x h).Perm (x :: h) := by
  induction h with
  | nil => exact .refl _
  | cons y ys ih =>
    rw [heapInsert]
    split
    · exact .refl _
    · exact (ih.cons y).trans (.swap x y ys)

theorem pairwise_heapInsert {x : HeapEntry} {h : List HeapEntry} (hs : h.Pairwise HeapEntry.Before)
    (hx : ∀ y ∈ h, y.2 ≠ x.2) : (heapInsert x h).Pairwise HeapEntry.Before := by
  induction h with
  | nil => exact List.pairwise_singleton _ _
  | cons y ys ih =>
    obtain ⟨hy, hys⟩ := List.pairwise_cons.1 hs
    obtain ⟨hxy, hxs⟩ := List.forall_mem_cons.1 hx
    rw [heapInsert]
    split
    · next hb =>
      have hb := HeapEntry.before_iff.1 hb
      refine List.pairwise_cons.2 ⟨List.forall_mem_cons.2 ⟨hb, fun z hz => ?_⟩, hs⟩
      have hyz := hy z hz
      simp only [HeapEntry.Before] at hb hyz ⊢
      omega
    · next hb =>
      have hb := mt HeapEntry.before_iff.2 hb
      refine List.pairwise_cons.2 ⟨fun z hz => ?_, ih hys hxs⟩
      obtain rfl | hz := List.mem_cons.1 ((heapInsert_perm x ys).mem_iff.1 hz)
      · simp only [HeapEntry.Before] at hb ⊢
        omega
      · exact hy z hz

theorem initialHeap_concat (leaves : List Node) (l : Node) :
    initialHeap (leaves ++ [l]) = heapInsert (l.freq.toNat, leaves.length) (initialHeap leaves) := by
  simp [initialHeap, List.zipIdx_append]

theorem initialHeap_perm (leaves : List Node) :
    (initialHeap leaves).Perm (leaves.zipIdx.map fun l => (l.1.freq.toNat, l.2)) := by
  induction leaves using List.reverseRecOn with
  | nil => exact .refl _
  | append_singleton ls l ih =>
    rw [initialHeap_concat, List.zipIdx_append, List.map_append]
    refine ((heapInsert_perm _ _).trans (ih.cons _)).trans ?_
    simpa using (List.perm_append_singleton _ _).symm

theorem mem_initialHeap_iff {leaves : List Node} {f i : Nat} :
    (f, i) ∈ initialHeap leaves ↔ ∃ n, leaves[i]? = some n ∧ n.freq.toNat = f := by
  rw [(initialHeap_perm leaves).mem_iff, List.mem_map]
  simp only [Prod.exists, List.mem_zipIdx_iff_getElem?, Prod.mk.injEq]
  exact ⟨fun ⟨n, j, hn, hf, hj⟩ => ⟨n, hj ▸ hn, hf⟩, fun ⟨n, hn, hf⟩ => ⟨n, i, hn, hf, rfl⟩⟩

theorem pairwise_initialHeap (leaves : List Node) : (initialHeap leaves).Pairwise HeapEntry.Before := by
  induction leaves using List.reverseRecOn with
  | nil => exact .nil
  | append_singleton ls l ih =>
    rw [initialHeap_concat]
    refine pairwise_heapInsert ih fun y hy => ?_
    obtain ⟨n, hn, -⟩ := mem_initialHeap_iff.1 (show (y.1, y.2) ∈ initialHeap ls from hy)
    exact (List.getElem?_eq_some_iff.1 hn).1.ne

/-- What holds of the heap and the arena at the start and is kept by every merge holds when one node is left (R334). -/
theorem mergeNodes_induction {P : List HeapEntry → List Node → Prop}
    (step : ∀ x y rest arena, P (x :: y :: rest) arena →
      P (heapInsert (x.1 + y.1, arena.length) rest) (arena ++ [innerNode (x.1 + y.1) x.2 y.2]))
    {fuel : Nat} {heap : List HeapEntry} {arena : List Node} (h : P heap arena) (hne : heap ≠ [])
    (hfuel : heap.length ≤ fuel + 1) : ∃ e, P [e] (mergeNodes fuel heap arena) := by
  induction fuel generalizing heap arena with
  | zero =>
    obtain ⟨e, rfl⟩ := List.length_eq_one_iff.1 (le_antisymm hfuel (List.length_pos_iff.2 hne))
    exact ⟨e, h⟩
  | succ fuel ih =>
    match heap, hne with
    | [e], _ => exact ⟨e, h⟩
    | x :: y :: rest, _ =>
      have hlen := length_heapInsert (x.1 + y.1, arena.length) rest
      refine ih (step x y rest arena h) (List.ne_nil_of_length_pos (by omega)) ?_
      rw [hlen]
      simpa using hfuel

/-! ## The arena while it grows -/

theorem freqAt_append {arena : List Node} {i : Nat} (h : i < arena.length) (ns : List Node) :
    freqAt (arena ++ ns) i = freqAt arena i := by
  rw [freqAt, List.getElem?_append_left h, freqAt]

theorem freqAt_of_getElem? {arena : List Node} {i : Nat} {n : Node} (h : arena[i]? = some n) :
    freqAt arena i = n.freq.toNat := by
  rw [freqAt, h]
  rfl

theorem freqAt_concat_length (arena : List Node) (n : Node) : freqAt (arena ++ [n]) arena.length = n.freq.toNat :=
  freqAt_of_getElem? (by simp)

theorem waits_append_iff {arena : List Node} {k i : Nat} (hk : k ≤ arena.length) (ns : List Node) :
    Waits (arena ++ ns) k i ↔ Waits arena k i := by
  rw [Waits, List.take_append_of_le_length hk, Waits]

/-- Node k was formed of the two smallest nodes that waited, the smallest on the LEFT (R334). -/
def MergedAt (arena : List Node) (k : Nat) : Prop :=
  ∃ x y, Waits arena k x ∧ Waits arena k y ∧ HeapBefore arena x y ∧
    (∀ i, Waits arena k i → i ≠ x → i ≠ y → HeapBefore arena y i) ∧
    arena[k]? = some { leaf := false, synth := false, sym := 0
                       freq := word (freqAt arena x + freqAt arena y), left := word x, right := word y }

/-- A node once formed stays so as the arena grows. -/
theorem MergedAt.append {arena : List Node} {k : Nat} (h : MergedAt arena k) (hk : k < arena.length) (ns : List Node) :
    MergedAt (arena ++ ns) k := by
  obtain ⟨x, y, hx, hy, hxy, hmin, hn⟩ := h
  have hfreq {i : Nat} (hi : Waits arena k i) : freqAt (arena ++ ns) i = freqAt arena i := freqAt_append (hi.1.trans hk) ns
  have hwaits {i : Nat} : Waits (arena ++ ns) k i ↔ Waits arena k i := waits_append_iff hk.le ns
  refine ⟨x, y, hwaits.2 hx, hwaits.2 hy, ?_, fun i hi hix hiy => ?_, ?_⟩
  · rw [HeapBefore, hfreq hx, hfreq hy]
    exact hxy
  · rw [HeapBefore, hfreq hy, hfreq (hwaits.1 hi)]
    exact hmin i (hwaits.1 hi) hix hiy
  · rw [List.getElem?_append_left hk, hn, hfreq hx, hfreq hy]

/-- The heap and the arena at every merge (R334): the heap holds, in order, the nodes that wait, and every node formed so far was formed of the two smallest. -/
structure Merging (leaves : List Node) (heap : List HeapEntry) (arena : List Node) : Prop where
  leaves_prefix : leaves <+: arena
  count : arena.length + heap.length = 2 * leaves.length
  sorted : heap.Pairwise HeapEntry.Before
  freq : ∀ e ∈ heap, e.1 = freqAt arena e.2
  waits : ∀ i, (∃ f, (f, i) ∈ heap) ↔ Waits arena arena.length i
  sum_lt : (heap.map Prod.fst).sum < 2 ^ 32
  closed : ∀ n ∈ arena, n.leaf = false → n.left.toNat < arena.length ∧ n.right.toNat < arena.length
  merged : ∀ k, leaves.length ≤ k → k < arena.length → MergedAt arena k
  root : ∀ e, heap = [e] → e.2 + 1 = arena.length

/-- Where merging starts: every leaf waits. -/
theorem merging_initial {leaves : List Node} (hleaf : ∀ n ∈ leaves, n.leaf = true)
    (hsum : (leaves.map fun n => n.freq.toNat).sum < 2 ^ 32) : Merging leaves (initialHeap leaves) leaves where
  leaves_prefix := List.prefix_rfl
  count := by rw [length_initialHeap]; omega
  sorted := pairwise_initialHeap leaves
  freq e he := by
    obtain ⟨n, hn, hf⟩ := mem_initialHeap_iff.1 (show (e.1, e.2) ∈ initialHeap leaves from he)
    rw [freqAt_of_getElem? hn, hf]
  waits i := by
    simp only [mem_initialHeap_iff]
    constructor
    · rintro ⟨f, n, hn, -⟩
      refine ⟨(List.getElem?_eq_some_iff.1 hn).1, fun m hm hinner => ?_⟩
      rw [hleaf m (List.mem_of_mem_take hm)] at hinner
      cases hinner
    · rintro ⟨hi, -⟩
      exact ⟨_, _, List.getElem?_eq_getElem hi, rfl⟩
  sum_lt := by
    rw [((initialHeap_perm leaves).map Prod.fst).sum_eq, List.map_map]
    have h : leaves.zipIdx.map (Prod.fst ∘ fun l : Node × Nat => (l.1.freq.toNat, l.2)) =
        (leaves.zipIdx.map Prod.fst).map fun n => n.freq.toNat := by rw [List.map_map]; rfl
    rwa [h, List.zipIdx_map_fst]
  closed n hn hinner := by
    rw [hleaf n hn] at hinner
    cases hinner
  merged k hlo hhi := absurd hhi (Nat.not_lt.2 hlo)
  root e he := by
    have hlen := length_initialHeap leaves
    obtain ⟨n, hn, -⟩ := mem_initialHeap_iff.1 (show (e.1, e.2) ∈ initialHeap leaves by rw [he]; exact List.mem_singleton_self _)
    have hlt := (List.getElem?_eq_some_iff.1 hn).1
    rw [he, List.length_singleton] at hlen
    omega

section
variable {leaves : List Node} {x y : HeapEntry} {rest : List HeapEntry} {arena : List Node}

theorem Merging.lt_length {heap : List HeapEntry} (h : Merging leaves heap arena) {e : HeapEntry} (he : e ∈ heap) :
    e.2 < arena.length :=
  ((h.waits e.2).1 ⟨e.1, he⟩).1

/-- The node a merge forms (R334). -/
def mergedNode (x y : HeapEntry) : Node := innerNode (x.1 + y.1) x.2 y.2

variable (h : Merging leaves (x :: y :: rest) arena)
include h

theorem Merging.fst_add_lt : x.1 + y.1 < 2 ^ 32 := by
  have := h.sum_lt
  simp only [List.map_cons, List.sum_cons] at this
  omega

theorem Merging.freqAt_merged : freqAt (arena ++ [mergedNode x y]) arena.length = x.1 + y.1 :=
  (freqAt_concat_length _ _).trans (Nat.mod_eq_of_lt h.fst_add_lt)

theorem Merging.children_lt : x.2 < arena.length ∧ y.2 < arena.length :=
  ⟨h.lt_length List.mem_cons_self, h.lt_length (List.mem_cons_of_mem _ List.mem_cons_self)⟩

/-- The merged node's children, as indexes. -/
theorem Merging.children (hsize : 2 * leaves.length < 2 ^ 32) :
    (mergedNode x y).left.toNat = x.2 ∧ (mergedNode x y).right.toNat = y.2 := by
  have hlt := h.children_lt
  have hcount := h.count
  exact ⟨Nat.mod_eq_of_lt (by omega), Nat.mod_eq_of_lt (by omega)⟩

theorem Merging.snd_ne : x.2 ≠ y.2 ∧ ∀ e ∈ rest, e.2 ≠ x.2 ∧ e.2 ≠ y.2 := by
  have hne {a b : HeapEntry} (ha : a ∈ x :: y :: rest) (hb : b ∈ x :: y :: rest) (hab : HeapEntry.Before a b) :
      a.2 ≠ b.2 := by
    intro heq
    have hf : a.1 = b.1 := by rw [h.freq a ha, h.freq b hb, heq]
    simp only [HeapEntry.Before] at hab
    omega
  have hx := h.sorted
  obtain ⟨hx, hrest⟩ := List.pairwise_cons.1 hx
  obtain ⟨hy, -⟩ := List.pairwise_cons.1 hrest
  refine ⟨hne (by simp) (by simp) (hx y (by simp)), fun e he => ⟨?_, ?_⟩⟩
  · exact (hne (by simp) (by simp [he]) (hx e (by simp [he]))).symm
  · exact (hne (by simp) (by simp [he]) (hy e he)).symm

/-- After the merge, the same nodes wait but for the two children, and the new node. -/
theorem Merging.waits_merged (hsize : 2 * leaves.length < 2 ^ 32) (i : Nat) :
    Waits (arena ++ [mergedNode x y]) (arena ++ [mergedNode x y]).length i ↔
      (∃ f, (f, i) ∈ rest) ∨ i = arena.length := by
  obtain ⟨hleft, hright⟩ := h.children hsize
  obtain ⟨hxlt, hylt⟩ := h.children_lt
  obtain ⟨-, hne⟩ := h.snd_ne
  have hold : (∃ f, (f, i) ∈ rest) ↔ Waits arena arena.length i ∧ i ≠ x.2 ∧ i ≠ y.2 := by
    rw [← h.waits]
    constructor
    · rintro ⟨f, hf⟩
      exact ⟨⟨f, by simp [hf]⟩, hne _ hf⟩
    · rintro ⟨⟨f, hf⟩, hix, hiy⟩
      obtain rfl | hf := List.mem_cons.1 hf
      · exact absurd rfl hix
      · obtain rfl | hf := List.mem_cons.1 hf
        · exact absurd rfl hiy
        · exact ⟨f, hf⟩
  rw [hold, Waits, Waits, List.take_length, List.take_length, List.length_append, List.length_singleton]
  simp only [List.forall_mem_append, List.forall_mem_singleton, hleft, hright]
  constructor
  · rintro ⟨hi, hnot, hnew⟩
    obtain ⟨hx, hy⟩ := hnew rfl
    by_cases hlast : i = arena.length
    · exact .inr hlast
    · exact .inl ⟨⟨by omega, hnot⟩, hx.symm, hy.symm⟩
  · rintro (⟨⟨hi, hnot⟩, hx, hy⟩ | rfl)
    · exact ⟨by omega, hnot, fun _ => ⟨hx.symm, hy.symm⟩⟩
    · refine ⟨by omega, fun n hn hinner => ?_, fun _ => ⟨hxlt.ne, hylt.ne⟩⟩
      obtain ⟨h1, h2⟩ := h.closed n hn hinner
      exact ⟨h1.ne, h2.ne⟩

/-- The merge forms the next node of the two smallest that wait (R334). -/
theorem Merging.mergedAt : MergedAt (arena ++ [mergedNode x y]) arena.length := by
  obtain ⟨hxlt, hylt⟩ := h.children_lt
  have hx := (h.waits x.2).1 ⟨x.1, List.mem_cons_self⟩
  have hy := (h.waits y.2).1 ⟨y.1, List.mem_cons_of_mem _ List.mem_cons_self⟩
  have hfx := h.freq x List.mem_cons_self
  have hfy := h.freq y (List.mem_cons_of_mem _ List.mem_cons_self)
  obtain ⟨hbx, hrest⟩ := List.pairwise_cons.1 h.sorted
  obtain ⟨hby, -⟩ := List.pairwise_cons.1 hrest
  refine ⟨x.2, y.2, (waits_append_iff le_rfl _).2 hx, (waits_append_iff le_rfl _).2 hy, ?_, fun i hi hix hiy => ?_, ?_⟩
  · rw [HeapBefore, freqAt_append hxlt, freqAt_append hylt, ← hfx, ← hfy]
    exact hbx y List.mem_cons_self
  · replace hi := (waits_append_iff le_rfl _).1 hi
    obtain ⟨f, hf⟩ := (h.waits i).2 hi
    have hff := h.freq _ hf
    obtain rfl | hf := List.mem_cons.1 hf
    · exact absurd rfl hix
    obtain rfl | hf := List.mem_cons.1 hf
    · exact absurd rfl hiy
    rw [HeapBefore, freqAt_append hylt, freqAt_append hi.1, ← hfy, ← hff]
    exact hby _ hf
  · rw [freqAt_append hxlt, freqAt_append hylt, ← hfx, ← hfy]
    simp [mergedNode, innerNode]

/-- Every merge keeps it (R334). -/
theorem Merging.step (hsize : 2 * leaves.length < 2 ^ 32) :
    Merging leaves (heapInsert (x.1 + y.1, arena.length) rest) (arena ++ [mergedNode x y]) where
  leaves_prefix := h.leaves_prefix.trans (List.prefix_append _ _)
  count := by
    have := h.count
    rw [length_heapInsert, List.length_append]
    simp only [List.length_cons, List.length_nil] at this ⊢
    omega
  sorted := by
    refine pairwise_heapInsert ?_ fun e he => (h.lt_length (by simp [he])).ne
    exact (List.pairwise_cons.1 (List.pairwise_cons.1 h.sorted).2).2
  freq e he := by
    obtain rfl | he := List.mem_cons.1 ((heapInsert_perm _ _).mem_iff.1 he)
    · exact h.freqAt_merged.symm
    · rw [freqAt_append (h.lt_length (by simp [he]))]
      exact h.freq e (by simp [he])
  waits i := by
    rw [h.waits_merged hsize]
    simp only [(heapInsert_perm _ _).mem_iff, List.mem_cons, Prod.mk.injEq, exists_or, exists_eq_left, or_comm]
  sum_lt := by
    have := h.sum_lt
    rw [((heapInsert_perm _ _).map _).sum_eq]
    simp only [List.map_cons, List.sum_cons] at this ⊢
    omega
  closed n hn hinner := by
    rw [List.length_append, List.length_singleton]
    obtain hn | hn := List.mem_append.1 hn
    · have := h.closed n hn hinner
      omega
    · obtain ⟨hleft, hright⟩ := h.children hsize
      have := h.children_lt
      rw [List.mem_singleton.1 hn, hleft, hright]
      omega
  merged k hlo hhi := by
    rw [List.length_append, List.length_singleton] at hhi
    obtain hk | rfl : k < arena.length ∨ k = arena.length := by omega
    · exact (h.merged k hlo hk).append hk _
    · exact h.mergedAt
  root e he := by
    have hlen := length_heapInsert (x.1 + y.1, arena.length) rest
    rw [he, List.length_singleton] at hlen
    obtain rfl : rest = [] := List.eq_nil_of_length_eq_zero (by omega)
    rw [← List.singleton_inj.1 he, List.length_append]
    rfl

end

end Sys2Proof.Machine
end

section
/-! The natural tree (44_huffman.md R333 to R337): the trees that wait in the heap stand in the arena, are at most 64 levels deep, and cost no more than any code lengths (R356, law 3). -/

namespace Sys2Proof.Machine

/-! ## Trees as the arena grows -/

namespace CodeTree

theorem Stands.append {arena : List Node} {t : CodeTree} (h : t.Stands arena) (ns : List Node) : t.Stands (arena ++ ns) := by
  induction t with
  | leaf i synth sym =>
    obtain ⟨n, hn, hrest⟩ := h
    exact ⟨n, by rw [List.getElem?_append_left (List.getElem?_eq_some_iff.1 hn).1, hn], hrest⟩
  | node i l r ihl ihr =>
    obtain ⟨n, hn, hinner, hleft, hright, hl, hr⟩ := h
    exact ⟨n, by rw [List.getElem?_append_left (List.getElem?_eq_some_iff.1 hn).1, hn], hinner, hleft, hright, ihl hl, ihr hr⟩

theorem idx_mem_indexes (t : CodeTree) : t.idx ∈ t.indexes := by cases t <;> exact List.mem_cons_self

theorem mem_indexes_of_mem_paths {t : CodeTree} {p : Nat × List Bool} (hp : p ∈ t.paths) : p.1 ∈ t.indexes :=
  (paths_sublist_indexes t).subset (List.mem_map_of_mem hp)

/-- The frequencies of the leaves, each as often as its path has edges: Σ f·length (R356). -/
def cost (w : Nat → Nat) (t : CodeTree) : Nat := (t.paths.map fun p => w p.1 * p.2.length).sum

/-- The frequencies of the leaves. -/
def leafSum (w : Nat → Nat) (t : CodeTree) : Nat := (t.paths.map fun p => w p.1).sum

theorem leafSum_node (w : Nat → Nat) (i : Nat) (l r : CodeTree) : (node i l r).leafSum w = l.leafSum w + r.leafSum w := by
  simp [leafSum, paths, Function.comp_def]

/-- Two trees joined cost one more edge for every leaf. -/
theorem cost_node (w : Nat → Nat) (i : Nat) (l r : CodeTree) :
    (node i l r).cost w = l.cost w + l.leafSum w + (r.cost w + r.leafSum w) := by
  simp [cost, leafSum, paths, Function.comp_def, Nat.mul_add, List.sum_map_add]

theorem Stands.cost_congr {arena : List Node} {t : CodeTree} (h : t.Stands arena) {v w : Nat → Nat}
    (hvw : ∀ i < arena.length, v i = w i) : t.cost v = t.cost w ∧ t.leafSum v = t.leafSum w := by
  have hp : ∀ p ∈ t.paths, v p.1 = w p.1 := fun p hp => hvw _ (h.lt_length (mem_indexes_of_mem_paths hp))
  constructor
  · exact congrArg List.sum (List.map_congr_left fun p hp' => by rw [hp p hp'])
  · exact congrArg List.sum (List.map_congr_left hp)

/-- The paths of a tree form a complete code: their Kraft sum is 1 (R338). -/
theorem kraft_paths {t : CodeTree} {top : Nat} (h : t.depth ≤ top) :
    (t.paths.map fun p => 2 ^ (top - p.2.length)).sum = 2 ^ top := by
  induction t generalizing top with
  | leaf i synth sym => simp [paths]
  | node i l r ihl ihr =>
    rw [depth] at h
    obtain ⟨top, rfl⟩ : ∃ k, top = k + 1 := ⟨top - 1, by omega⟩
    have hl := ihl (top := top) (by omega)
    have hr := ihr (top := top) (by omega)
    simp only [paths, List.map_append, List.map_map, Function.comp_def, List.length_cons, Nat.add_sub_add_right,
      List.sum_append, hl, hr, Nat.pow_succ]
    omega

end CodeTree

/-! ## Code lengths for the nodes that wait -/

/-- A length of at most `top` for each of these weights, the Kraft sum at most 1 (R338). -/
structure Assigns (top : Nat) (ws : List Nat) (as : List (Nat × Nat)) : Prop where
  weights : (as.map Prod.fst).Perm ws
  bound : ∀ l ∈ as.map Prod.snd, l ≤ top
  kraft : kraftUnits top (as.map Prod.snd) ≤ 2 ^ top

/-- Σ weight·length. -/
def assignedCost (as : List (Nat × Nat)) : Nat := (as.map fun a => a.1 * a.2).sum

@[simp] theorem assignedCost_cons (a : Nat × Nat) (as : List (Nat × Nat)) :
    assignedCost (a :: as) = a.1 * a.2 + assignedCost as := by simp [assignedCost]

theorem kraftUnits_perm {top : Nat} {ls ms : List Nat} (h : ls.Perm ms) : kraftUnits top ls = kraftUnits top ms := by
  rw [kraftUnits_eq_sum, kraftUnits_eq_sum, (h.map _).sum_eq]

theorem exists_perm_cons_of_map_perm {α β : Type} {f : α → β} {l : List α} {x : β} {xs : List β}
    (h : (l.map f).Perm (x :: xs)) : ∃ a l', l.Perm (a :: l') ∧ f a = x ∧ (l'.map f).Perm xs := by
  obtain ⟨a, ha, hax⟩ := List.mem_map.1 (h.mem_iff.2 List.mem_cons_self)
  obtain ⟨s, t, rfl⟩ := List.append_of_mem ha
  refine ⟨a, s ++ t, List.perm_middle, hax, ?_⟩
  refine (List.perm_cons x).1 (.trans ?_ h)
  simpa [hax] using (List.perm_middle (a := x) (l₁ := s.map f) (l₂ := t.map f)).symm

theorem assignedCost_perm {as bs : List (Nat × Nat)} (h : as.Perm bs) : assignedCost as = assignedCost bs :=
  (h.map _).sum_eq

/-- The smallest weight can be given the largest length: swapping lengths with a heavier one costs no more. -/
theorem exists_longest_first {x a : Nat} {as : List (Nat × Nat)} (hx : ∀ b ∈ as, x ≤ b.1) :
    ∃ a' as', as'.map Prod.fst = as.map Prod.fst ∧ (a' :: as'.map Prod.snd).Perm (a :: as.map Prod.snd) ∧
      (∀ b ∈ as', b.2 ≤ a') ∧ assignedCost ((x, a') :: as') ≤ assignedCost ((x, a) :: as) := by
  induction as with
  | nil => exact ⟨a, [], rfl, .refl _, nofun, le_rfl⟩
  | cons b bs ih =>
    obtain ⟨w, c⟩ := b
    obtain ⟨hw, hbs⟩ := List.forall_mem_cons.1 hx
    obtain ⟨a', as', hfst, hsnd, hmax, hcost⟩ := ih hbs
    simp only [assignedCost_cons] at hcost
    by_cases hc : c ≤ a'
    · refine ⟨a', (w, c) :: as', by simp [hfst], ?_, List.forall_mem_cons.2 ⟨hc, hmax⟩, ?_⟩
      · exact ((List.Perm.swap c a' _).trans (hsnd.cons c)).trans (.swap a c _)
      · simp only [assignedCost_cons]
        omega
    · refine ⟨c, (w, a') :: as', by simp [hfst], ?_, List.forall_mem_cons.2 ⟨by omega, fun b hb => ?_⟩, ?_⟩
      · exact (hsnd.cons c).trans (.swap a c _)
      · exact (hmax b hb).trans (by omega)
      · have hswap : x * c + w * a' ≤ x * a' + w * c := by
          obtain ⟨d, rfl⟩ := Nat.exists_eq_add_of_le hw
          obtain ⟨e, rfl⟩ := Nat.exists_eq_add_of_le (show a' ≤ c by omega)
          have : x * (a' + e) + (x + d) * a' + d * e = x * a' + (x + d) * (a' + e) := by ring
          omega
        simp only [assignedCost_cons]
        omega

/-- The two smallest weights can be given the two largest lengths. -/
theorem Assigns.exists_longest_two {top x y : Nat} {ws : List Nat} {as : List (Nat × Nat)}
    (h : Assigns top (x :: y :: ws) as) (hxy : x ≤ y) (hy : ∀ w ∈ ws, y ≤ w) :
    ∃ a b cs, Assigns top (x :: y :: ws) ((x, a) :: (y, b) :: cs) ∧ b ≤ a ∧ (∀ c ∈ cs, c.2 ≤ b) ∧
      assignedCost ((x, a) :: (y, b) :: cs) ≤ assignedCost as := by
  obtain ⟨⟨x', a⟩, as1, hperm, rfl, hws⟩ := exists_perm_cons_of_map_perm h.weights
  have hmin1 : ∀ c ∈ as1, x' ≤ c.1 := fun c hc => by
    obtain hc | hc := List.mem_cons.1 (hws.mem_iff.1 (List.mem_map_of_mem hc))
    · exact hxy.trans_eq hc.symm
    · exact hxy.trans (hy _ hc)
  obtain ⟨a', as2, hfst, hsnd, hmax, hcost⟩ := exists_longest_first (a := a) hmin1
  rw [← hfst] at hws
  obtain ⟨⟨y', b⟩, as3, hperm2, rfl, hws2⟩ := exists_perm_cons_of_map_perm hws
  obtain ⟨b', as4, hfst2, hsnd2, hmax2, hcost2⟩ := exists_longest_first (x := y') (a := b) (as := as3)
    fun c hc => hy _ (hws2.mem_iff.1 (List.mem_map_of_mem hc))
  have hlens : (as.map Prod.snd).Perm (a' :: b' :: as4.map Prod.snd) :=
    calc as.map Prod.snd
      _ |>.Perm (a :: as1.map Prod.snd) := hperm.map Prod.snd
      _ |>.Perm (a' :: as2.map Prod.snd) := hsnd.symm
      _ |>.Perm (a' :: b :: as3.map Prod.snd) := (hperm2.map Prod.snd).cons a'
      _ |>.Perm (a' :: b' :: as4.map Prod.snd) := hsnd2.symm.cons a'
  have hb : b' ≤ a' := by
    obtain ⟨c, hc, hcb⟩ : ∃ c ∈ as2, c.2 = b' := by
      have hmem : b' ∈ as2.map Prod.snd :=
        ((hperm2.map Prod.snd).trans hsnd2.symm).mem_iff.2 List.mem_cons_self
      exact List.mem_map.1 hmem
    exact hcb ▸ hmax c hc
  refine ⟨a', b', as4, ⟨?_, fun l hl => h.bound l (hlens.mem_iff.2 hl), (kraftUnits_perm hlens).symm.trans_le h.kraft⟩,
    hb, hmax2, ?_⟩
  · exact ((hfst2 ▸ hws2).cons y').cons x'
  · rw [assignedCost_perm hperm]
    rw [assignedCost_cons, assignedCost_perm hperm2] at hcost
    rw [assignedCost_cons]
    exact (Nat.add_le_add_left hcost2 _).trans hcost

/-- Lengths for the weights before a merge give lengths after it that cost less by the merged weight (R334, R356). -/
theorem Assigns.merge {top x y : Nat} {ws : List Nat} {as : List (Nat × Nat)} (h : Assigns top (x :: y :: ws) as)
    (hxy : x ≤ y) (hy : ∀ w ∈ ws, y ≤ w) :
    ∃ bs, Assigns top ((x + y) :: ws) bs ∧ assignedCost bs + (x + y) ≤ assignedCost as := by
  obtain ⟨a, b, cs, ⟨hweights, hbound, hkraft⟩, hba, hmax, hcost⟩ := h.exists_longest_two hxy hy
  simp only [List.map_cons, List.forall_mem_cons, kraftUnits] at hbound hkraft
  obtain ⟨-, hb, hcs⟩ := hbound
  have hpos : 0 < 2 ^ (top - a) := Nat.two_pow_pos _
  have hlt : 2 ^ (top - b) + kraftUnits top (cs.map Prod.snd) < 2 ^ top := by omega
  have hroom := add_le_of_dvd_of_lt (a := 2 ^ (top - b))
    ((Nat.dvd_refl _).add (two_pow_dvd_kraftUnits (List.forall_mem_map.2 hmax))) (pow_dvd_pow 2 (Nat.sub_le top b)) hlt
  have hb1 : 1 ≤ b := by
    by_contra h0
    rw [show b = 0 by omega, Nat.sub_zero] at hlt
    omega
  have hdouble : 2 ^ (top - (b - 1)) = 2 ^ (top - b) + 2 ^ (top - b) := by
    rw [← Nat.two_mul, ← Nat.pow_succ', show top - (b - 1) = (top - b).succ by omega]
  refine ⟨(x + y, b - 1) :: cs, ⟨?_, ?_, ?_⟩, le_trans ?_ hcost⟩
  · exact ((hweights.cons_inv).cons_inv).cons (x + y)
  · exact List.forall_mem_cons.2 ⟨(Nat.sub_le b 1).trans hb, hcs⟩
  · simp only [List.map_cons, kraftUnits, hdouble]
    omega
  · obtain ⟨c, rfl⟩ : ∃ c, b = c + 1 := ⟨b - 1, by omega⟩
    have := Nat.mul_le_mul_left x hba
    simp only [assignedCost_cons, Nat.add_sub_cancel]
    have hexpand : (x + y) * c + (x + y) = x * (c + 1) + y * (c + 1) := by ring
    omega

/-! ## The trees that wait -/

/-- The heap entry of a tree: its top node's FREQ and index (R334). -/
def CodeTree.entry (arena : List Node) (t : CodeTree) : HeapEntry := (freqAt arena t.idx, t.idx)

/-- The trees that wait in the heap: they stand in the arena, share no node and cover it, the top node's FREQ is the sum of the leaves'. -/
structure Forest (heap : List HeapEntry) (arena : List Node) (trees : List CodeTree) : Prop where
  entries : (trees.map (CodeTree.entry arena)).Perm heap
  stands : ∀ t ∈ trees, t.Stands arena
  covers : (trees.flatMap CodeTree.indexes).Perm (List.range arena.length)
  sums : ∀ t ∈ trees, t.leafSum (freqAt arena) = freqAt arena t.idx

/-- The order of the trees does not matter. -/
theorem Forest.perm {heap : List HeapEntry} {arena : List Node} {trees trees' : List CodeTree}
    (h : Forest heap arena trees) (hp : trees.Perm trees') : Forest heap arena trees' where
  entries := (hp.map _).symm.trans h.entries
  stands t ht := h.stands t (hp.mem_iff.2 ht)
  covers := (hp.flatMap_right _).symm.trans h.covers
  sums t ht := h.sums t (hp.mem_iff.2 ht)

/-- The trees at the start are the leaves. -/
def leafTrees (leaves : List Node) : List CodeTree := leaves.zipIdx.map fun l => .leaf l.2 l.1.synth l.1.sym.toNat

theorem mem_leafTrees_iff {leaves : List Node} {t : CodeTree} :
    t ∈ leafTrees leaves ↔ ∃ i n, leaves[i]? = some n ∧ t = .leaf i n.synth n.sym.toNat := by
  simp only [leafTrees, List.mem_map, Prod.exists, List.mem_zipIdx_iff_getElem?]
  exact ⟨fun ⟨n, i, hn, h⟩ => ⟨i, n, hn, h.symm⟩, fun ⟨i, n, hn, h⟩ => ⟨n, i, hn, h.symm⟩⟩

theorem forest_initial {leaves : List Node} (hleaf : ∀ n ∈ leaves, n.leaf = true) :
    Forest (initialHeap leaves) leaves (leafTrees leaves) where
  entries := by
    refine List.Perm.trans (.of_eq ?_) (initialHeap_perm leaves).symm
    rw [leafTrees, List.map_map]
    refine List.map_congr_left fun ⟨n, i⟩ hn => ?_
    rw [Function.comp, CodeTree.entry, CodeTree.idx, freqAt_of_getElem? (List.mem_zipIdx_iff_getElem?.1 hn)]
  stands t ht := by
    obtain ⟨i, n, hn, rfl⟩ := mem_leafTrees_iff.1 ht
    exact ⟨n, hn, hleaf n (List.mem_of_getElem? hn), rfl, rfl⟩
  covers := by
    refine .of_eq ?_
    rw [leafTrees, List.flatMap_map]
    simp only [CodeTree.indexes]
    rw [← List.map_eq_flatMap, List.zipIdx_map_snd, List.range'_eq_map_range]
    simp
  sums t ht := by
    obtain ⟨i, n, hn, rfl⟩ := mem_leafTrees_iff.1 ht
    simp [CodeTree.leafSum, CodeTree.paths, CodeTree.idx]

section
variable {leaves : List Node} {x y : HeapEntry} {rest : List HeapEntry} {arena : List Node}

/-- The two smallest entries are those of two of the trees. -/
theorem Forest.exists_smallest {trees : List CodeTree} (h : Forest (x :: y :: rest) arena trees) :
    ∃ tx ty ts, trees.Perm (tx :: ty :: ts) ∧ tx.entry arena = x ∧ ty.entry arena = y := by
  obtain ⟨tx, ts1, hp1, hx, hrest⟩ := exists_perm_cons_of_map_perm h.entries
  obtain ⟨ty, ts, hp2, hy, -⟩ := exists_perm_cons_of_map_perm hrest
  exact ⟨tx, ty, ts, hp1.trans (hp2.cons tx), hx, hy⟩

/-- A merge joins the two trees under a new top node (R334). -/
theorem Forest.step (hm : Merging leaves (x :: y :: rest) arena) (hsize : 2 * leaves.length < 2 ^ 32)
    {tx ty : CodeTree} {ts : List CodeTree} (h : Forest (x :: y :: rest) arena (tx :: ty :: ts))
    (hx : tx.entry arena = x) (hy : ty.entry arena = y) :
    Forest (heapInsert (x.1 + y.1, arena.length) rest) (arena ++ [mergedNode x y]) (.node arena.length tx ty :: ts) := by
  obtain ⟨hleft, hright⟩ := hm.children hsize
  have hsx := h.stands tx (by simp)
  have hsy := h.stands ty (by simp)
  have hkeep (t : CodeTree) (ht : t.Stands arena) : freqAt (arena ++ [mergedNode x y]) t.idx = freqAt arena t.idx ∧
      t.leafSum (freqAt (arena ++ [mergedNode x y])) = t.leafSum (freqAt arena) :=
    ⟨freqAt_append (ht.lt_length t.idx_mem_indexes) _, (ht.cost_congr fun i hi => freqAt_append hi _).2⟩
  have hxf : freqAt arena tx.idx = x.1 := congrArg Prod.fst hx
  have hyf : freqAt arena ty.idx = y.1 := congrArg Prod.fst hy
  refine ⟨?_, List.forall_mem_cons.2 ⟨⟨mergedNode x y, by simp, rfl, ?_, ?_, hsx.append _, hsy.append _⟩, fun t ht => ?_⟩,
    ?_, List.forall_mem_cons.2 ⟨?_, fun t ht => ?_⟩⟩
  · have hold : ts.map (CodeTree.entry (arena ++ [mergedNode x y])) = ts.map (CodeTree.entry arena) :=
      List.map_congr_left fun t ht => by rw [CodeTree.entry, (hkeep t (h.stands t (by simp [ht]))).1, CodeTree.entry]
    have hrest : (ts.map (CodeTree.entry arena)).Perm rest := by
      have := h.entries
      rw [List.map_cons, List.map_cons, hx, hy] at this
      exact this.cons_inv.cons_inv
    rw [List.map_cons, hold, CodeTree.entry, CodeTree.idx, hm.freqAt_merged]
    exact (hrest.cons _).trans (heapInsert_perm _ _).symm
  · exact hleft.trans (congrArg Prod.snd hx).symm
  · exact hright.trans (congrArg Prod.snd hy).symm
  · exact (h.stands t (by simp [ht])).append _
  · have := h.covers
    rw [List.length_append, List.length_singleton, List.range_succ]
    simp only [List.flatMap_cons, CodeTree.indexes, List.cons_append, List.append_assoc] at this ⊢
    exact (this.cons _).trans (List.perm_append_singleton _ _).symm
  · rw [CodeTree.leafSum_node, (hkeep tx hsx).2, (hkeep ty hsy).2, h.sums tx (by simp), h.sums ty (by simp), CodeTree.idx,
      hm.freqAt_merged, hxf, hyf]
  · rw [(hkeep t (h.stands t (by simp [ht]))).1, (hkeep t (h.stands t (by simp [ht]))).2, h.sums t (by simp [ht])]

end

/-! ## Depth -/

/-- Every waiting tree is heavy for its depth, and no node that waits is lighter than a child of a formed one: the bound that keeps Huffman codes of 32-bit frequency sums short. -/
structure Balanced (heap : List HeapEntry) (arena : List Node) (trees : List CodeTree) : Prop where
  heavy : ∀ t ∈ trees, Nat.fib (t.depth + 2) ≤ freqAt arena t.idx
  above : ∃ low, (∀ e ∈ heap, low ≤ e.1) ∧ ∀ t ∈ trees, 1 ≤ t.depth → Nat.fib (t.depth + 1) ≤ low

theorem balanced_initial {leaves : List Node} (hpos : ∀ n ∈ leaves, 1 ≤ n.freq.toNat) :
    Balanced (initialHeap leaves) leaves (leafTrees leaves) where
  heavy t ht := by
    obtain ⟨i, n, hn, rfl⟩ := mem_leafTrees_iff.1 ht
    rw [CodeTree.idx, freqAt_of_getElem? hn]
    exact hpos n (List.mem_of_getElem? hn)
  above := by
    refine ⟨0, fun _ _ => Nat.zero_le _, fun t ht hdepth => ?_⟩
    obtain ⟨i, n, -, rfl⟩ := mem_leafTrees_iff.1 ht
    exact absurd hdepth (Nat.not_succ_le_zero 0)

theorem Balanced.perm {heap : List HeapEntry} {arena : List Node} {trees trees' : List CodeTree}
    (h : Balanced heap arena trees) (hp : trees.Perm trees') : Balanced heap arena trees' where
  heavy t ht := h.heavy t (hp.mem_iff.2 ht)
  above := by
    obtain ⟨low, hlow, htrees⟩ := h.above
    exact ⟨low, hlow, fun t ht => htrees t (hp.mem_iff.2 ht)⟩

/-- A tree of two others is as heavy as the Fibonacci numbers ask, when the lighter is no lighter than a child of the other. -/
theorem fib_le_add {d e wd we low : Nat} (hde : e ≤ d) (hd : Nat.fib (d + 2) ≤ wd) (he : 1 ≤ we) (hlow : low ≤ we)
    (habove : 1 ≤ d → Nat.fib (d + 1) ≤ low) : Nat.fib (max d e + 1 + 2) ≤ wd + we := by
  rw [max_eq_left hde, show d + 1 + 2 = d + 1 + 1 + 1 by omega, Nat.fib_add_two, Nat.add_comm]
  refine Nat.add_le_add hd ?_
  cases d with
  | zero => exact he
  | succ d => exact (habove (Nat.succ_pos d)).trans hlow

theorem Balanced.step {leaves : List Node} {x y : HeapEntry} {rest : List HeapEntry} {arena : List Node}
    (hm : Merging leaves (x :: y :: rest) arena) {tx ty : CodeTree} {ts : List CodeTree}
    (hf : Forest (x :: y :: rest) arena (tx :: ty :: ts)) (h : Balanced (x :: y :: rest) arena (tx :: ty :: ts))
    (hx : tx.entry arena = x) (hy : ty.entry arena = y) :
    Balanced (heapInsert (x.1 + y.1, arena.length) rest) (arena ++ [mergedNode x y]) (.node arena.length tx ty :: ts) := by
  obtain ⟨hheavy, low, hlow, habove⟩ := h
  have hxf : freqAt arena tx.idx = x.1 := congrArg Prod.fst hx
  have hyf : freqAt arena ty.idx = y.1 := congrArg Prod.fst hy
  have hhx := hxf ▸ hheavy tx (by simp)
  have hhy := hyf ▸ hheavy ty (by simp)
  have hone {d w : Nat} (hw : Nat.fib (d + 2) ≤ w) : 1 ≤ w := (Nat.fib_pos.2 (Nat.succ_pos _)).trans_le hw
  obtain ⟨hbx, hsorted⟩ := List.pairwise_cons.1 hm.sorted
  obtain ⟨hby, -⟩ := List.pairwise_cons.1 hsorted
  have hxy : x.1 ≤ y.1 := (hbx y (by simp)).fst_le
  refine ⟨List.forall_mem_cons.2 ⟨?_, fun t ht => ?_⟩, y.1, fun e he => ?_, List.forall_mem_cons.2 ⟨fun _ => ?_, fun t ht hd => ?_⟩⟩
  · rw [CodeTree.idx, hm.freqAt_merged, CodeTree.depth]
    obtain hd | hd := le_total ty.depth tx.depth
    · exact fib_le_add hd hhx (hone hhy) (hlow y (by simp)) (habove tx (by simp))
    · rw [max_comm, Nat.add_comm x.1]
      exact fib_le_add hd hhy (hone hhx) (hlow x (by simp)) (habove ty (by simp))
  · rw [freqAt_append ((hf.stands t (by simp [ht])).lt_length t.idx_mem_indexes)]
    exact hheavy t (by simp [ht])
  · obtain rfl | he := List.mem_cons.1 ((heapInsert_perm _ _).mem_iff.1 he)
    · exact Nat.le_add_left _ _
    · exact (hby e he).fst_le
  · rw [CodeTree.depth]
    obtain hd | hd := le_total ty.depth tx.depth
    · rw [max_eq_left hd]
      exact hhx.trans hxy
    · rw [max_eq_right hd]
      exact hhy
  · exact (habove t (by simp [ht]) hd).trans (hlow y (by simp))

/-- A tree whose weight is below 2^32 and that is heavy for its depth has at most 64 levels. -/
theorem depth_le_of_fib_le {d w : Nat} (h : Nat.fib (d + 2) ≤ w) (hw : w < 2 ^ 32) : d ≤ 64 := by
  by_contra hd
  have hmono : Nat.fib 67 ≤ Nat.fib (d + 2) := Nat.fib_mono (by omega)
  have hbig : 2 ^ 32 ≤ Nat.fib 67 := by norm_num
  omega

/-! ## Optimality -/

/-- Whatever lengths the leaves could be given, the waiting nodes can be given lengths so that these and the edges already formed cost no more. -/
def Optimal (ws : List Nat) (heap : List HeapEntry) (arena : List Node) (trees : List CodeTree) : Prop :=
  ∀ top as, Assigns top ws as → ∃ bs, Assigns top (heap.map Prod.fst) bs ∧
    (trees.map (CodeTree.cost (freqAt arena))).sum + assignedCost bs ≤ assignedCost as

theorem optimal_initial {leaves : List Node} :
    Optimal ((initialHeap leaves).map Prod.fst) (initialHeap leaves) leaves (leafTrees leaves) := by
  intro top as h
  refine ⟨as, h, ?_⟩
  have hzero : ((leafTrees leaves).map (CodeTree.cost (freqAt leaves))).sum = 0 := by
    refine List.sum_eq_zero fun c hc => ?_
    obtain ⟨t, ht, rfl⟩ := List.mem_map.1 hc
    obtain ⟨i, n, -, rfl⟩ := mem_leafTrees_iff.1 ht
    simp [CodeTree.cost, CodeTree.paths]
  omega

theorem Optimal.perm {ws : List Nat} {heap : List HeapEntry} {arena : List Node} {trees trees' : List CodeTree}
    (h : Optimal ws heap arena trees) (hp : trees.Perm trees') : Optimal ws heap arena trees' := by
  intro top as has
  rw [← (hp.map _).sum_eq]
  exact h top as has

theorem Optimal.step {ws : List Nat} {leaves : List Node} {x y : HeapEntry} {rest : List HeapEntry} {arena : List Node}
    (hm : Merging leaves (x :: y :: rest) arena) {tx ty : CodeTree} {ts : List CodeTree}
    (hf : Forest (x :: y :: rest) arena (tx :: ty :: ts)) (h : Optimal ws (x :: y :: rest) arena (tx :: ty :: ts))
    (hx : tx.entry arena = x) (hy : ty.entry arena = y) :
    Optimal ws (heapInsert (x.1 + y.1, arena.length) rest) (arena ++ [mergedNode x y]) (.node arena.length tx ty :: ts) := by
  intro top as has
  obtain ⟨bs, hbs, hcost⟩ := h top as has
  obtain ⟨hbx, hsorted⟩ := List.pairwise_cons.1 hm.sorted
  obtain ⟨hby, -⟩ := List.pairwise_cons.1 hsorted
  obtain ⟨cs, ⟨hweights, hbound, hkraft⟩, hle⟩ := hbs.merge (hbx y (by simp)).fst_le
    (List.forall_mem_map.2 fun e he => (hby e he).fst_le)
  refine ⟨cs, ⟨hweights.trans ((heapInsert_perm (x.1 + y.1, arena.length) rest).map Prod.fst).symm, hbound, hkraft⟩, ?_⟩
  have hkeep (t : CodeTree) (ht : t.Stands arena) := ht.cost_congr fun i hi => freqAt_append hi [mergedNode x y]
  have hold : ts.map (CodeTree.cost (freqAt (arena ++ [mergedNode x y]))) = ts.map (CodeTree.cost (freqAt arena)) :=
    List.map_congr_left fun t ht => (hkeep t (hf.stands t (by simp [ht]))).1
  obtain ⟨hcx, hsx⟩ := hkeep tx (hf.stands tx (by simp))
  obtain ⟨hcy, hsy⟩ := hkeep ty (hf.stands ty (by simp))
  have hxf : freqAt arena tx.idx = x.1 := congrArg Prod.fst hx
  have hyf : freqAt arena ty.idx = y.1 := congrArg Prod.fst hy
  rw [List.map_cons, List.sum_cons, hold, CodeTree.cost_node, hcx, hsx, hcy, hsy, hf.sums tx (by simp),
    hf.sums ty (by simp), hxf, hyf]
  simp only [List.map_cons, List.sum_cons] at hcost
  omega

/-! ## The natural arena -/

/-- The leaves merging starts from. -/
structure LeavesOk (leaves : List Node) : Prop where
  leaf : ∀ n ∈ leaves, n.leaf = true
  sum_lt : (leaves.map fun n => n.freq.toNat).sum < 2 ^ 32
  size : 2 * leaves.length < 2 ^ 32

theorem length_naturalLeaves_ne_one (freqs : List Nat) : (naturalLeaves freqs).length ≠ 1 := by
  obtain ⟨hne, heq⟩ | ⟨l, -, heq⟩ := naturalLeaves_cases freqs
  · rwa [heq]
  · rw [heq]
    simp

/-- The natural leaves carry the table's frequencies; a synthesized sibling adds none (R333, R335). -/
theorem leavesOk_naturalLeaves {freqs : List Nat} (hlen : freqs.length ≤ 256) (hsum : freqs.sum < 2 ^ 32) :
    LeavesOk (naturalLeaves freqs) := by
  have hreal : ∀ n ∈ realLeaves 0 freqs, n.leaf = true := fun n hn => by
    obtain ⟨sym, f, -, -, rfl⟩ := mem_realLeaves_iff.1 hn
    rfl
  have hfreq : ((realLeaves 0 freqs).map fun n => n.freq.toNat).sum < 2 ^ 32 := by
    rw [map_freq_realLeaves 0 hsum]
    exact (List.filter_sublist.sum_le_sum fun _ _ => Nat.zero_le _).trans_lt hsum
  have hsize := length_naturalLeaves_le freqs
  refine ⟨?_, ?_, by omega⟩
  · obtain ⟨-, heq⟩ | ⟨l, hl, heq⟩ := naturalLeaves_cases freqs
    · rwa [heq]
    · rw [hl] at hreal
      rw [heq]
      exact List.forall_mem_cons.2 ⟨hreal l (by simp), List.forall_mem_singleton.2 rfl⟩
  · obtain ⟨-, heq⟩ | ⟨l, hl, heq⟩ := naturalLeaves_cases freqs
    · rwa [heq]
    · rw [hl] at hfreq
      have hzero : (siblingOf l).freq.toNat = 0 := rfl
      rw [heq]
      simpa [hzero] using hfreq

/-- The tree merging ends with: it stands on the whole arena, its top node last, and costs no more than any lengths of the leaves. -/
structure MergedTree (leaves arena : List Node) (t : CodeTree) : Prop where
  merging : ∀ k, leaves.length ≤ k → k < arena.length → MergedAt arena k
  leaves_prefix : leaves <+: arena
  size : arena.length + 1 = 2 * leaves.length
  idx : t.idx + 1 = arena.length
  stands : t.Stands arena
  covers : t.indexes.Perm (List.range arena.length)
  optimal : ∀ top as, Assigns top (leaves.map fun n => n.freq.toNat) as → t.cost (freqAt arena) ≤ assignedCost as
  balanced : (∀ n ∈ leaves, 1 ≤ n.freq.toNat) → t.depth ≤ 64

theorem exists_mergedTree {leaves : List Node} (h : LeavesOk leaves) (hne : leaves ≠ []) :
    ∃ t, MergedTree leaves (mergeNodes leaves.length (initialHeap leaves) leaves) t := by
  have hlen := length_initialHeap leaves
  have hws : ((initialHeap leaves).map Prod.fst).Perm (leaves.map fun n => n.freq.toNat) := by
    refine ((initialHeap_perm leaves).map Prod.fst).trans (.of_eq ?_)
    rw [List.map_map]
    conv_rhs => rw [← List.zipIdx_map_fst 0 leaves, List.map_map]
    rfl
  obtain ⟨e, hm, trees, hf, ho, hb⟩ := mergeNodes_induction
    (P := fun heap arena => Merging leaves heap arena ∧ ∃ trees, Forest heap arena trees ∧
      Optimal ((initialHeap leaves).map Prod.fst) heap arena trees ∧
      ((∀ n ∈ leaves, 1 ≤ n.freq.toNat) → Balanced heap arena trees))
    (fun x y rest arena ⟨hm, trees, hf, ho, hb⟩ => by
      obtain ⟨tx, ty, ts, hp, hx, hy⟩ := hf.exists_smallest
      have hf := hf.perm hp
      exact ⟨hm.step h.size, _, hf.step hm h.size hx hy, (ho.perm hp).step hm hf hx hy,
        fun hpos => ((hb hpos).perm hp).step hm hf hx hy⟩)
    ⟨merging_initial h.leaf h.sum_lt, _, forest_initial h.leaf, optimal_initial, balanced_initial⟩
    (heap := initialHeap leaves) (fuel := leaves.length)
    (List.ne_nil_of_length_pos (by rw [hlen]; exact List.length_pos_iff.2 hne)) (by omega)
  obtain ⟨t, rfl⟩ : ∃ t, trees = [t] := by
    have := hf.entries.length_eq
    rw [List.length_map] at this
    exact List.length_eq_one_iff.1 this
  have hentry : t.entry _ = e := List.singleton_perm_singleton.1 hf.entries
  refine ⟨t, hm.merged, hm.leaves_prefix, hm.count, ?_, hf.stands t (by simp), by simpa using hf.covers,
    fun top as has => ?_, fun hpos => ?_⟩
  · rw [← hm.root e rfl, ← hentry]
    rfl
  · obtain ⟨bs, -, hcost⟩ := ho top as ⟨has.weights.trans hws.symm, has.bound, has.kraft⟩
    simp only [List.map_cons, List.map_nil, List.sum_cons, List.sum_nil] at hcost
    omega
  · refine depth_le_of_fib_le ((hb hpos).heavy t (by simp)) ?_
    have := hm.sum_lt
    rw [← hentry] at this
    simpa [CodeTree.entry] using this

theorem naturalArena_eq_nil_iff {freqs : List Nat} : naturalArena freqs = [] ↔ naturalLeaves freqs = [] := by
  obtain ⟨inner, heq, -, hlen⟩ := naturalArena_eq_append freqs
  rw [heq, List.append_eq_nil_iff]
  refine ⟨And.left, fun h => ⟨h, ?_⟩⟩
  rw [h] at hlen
  exact List.eq_nil_of_length_eq_zero (Nat.le_zero.1 hlen)

/-- The natural tree of a table in which a symbol occurs (R333 to R337). -/
structure NaturalTree (freqs : List Nat) (t : CodeTree) : Prop extends MergedTree (naturalLeaves freqs) (naturalArena freqs) t where
  depth_pos : 1 ≤ t.depth
  depth_le : t.depth ≤ 64

theorem exists_naturalTree {freqs : List Nat} (hlen : freqs.length ≤ 256) (hsum : freqs.sum < 2 ^ 32)
    (hne : naturalArena freqs ≠ []) : ∃ t, NaturalTree freqs t := by
  have hleaves := mt naturalArena_eq_nil_iff.2 hne
  have hone := length_naturalLeaves_ne_one freqs
  have hpos := List.length_pos_iff.2 hleaves
  obtain ⟨t, ht⟩ : ∃ t, MergedTree (naturalLeaves freqs) (naturalArena freqs) t :=
    exists_mergedTree (leavesOk_naturalLeaves hlen hsum) hleaves
  have hsize := ht.size
  refine ⟨t, ht, ?_, ?_⟩
  · have hcount := ht.covers.length_eq
    rw [List.length_range] at hcount
    cases t with
    | leaf i synth sym =>
      rw [CodeTree.indexes, List.length_singleton] at hcount
      omega
    | node i l r => exact Nat.succ_pos _
  · obtain ⟨-, heq⟩ | ⟨l, -, heq⟩ := naturalLeaves_cases freqs
    · refine ht.balanced fun n hn => ?_
      rw [heq] at hn
      have hmem := List.mem_map_of_mem (f := fun n : Node => n.freq.toNat) hn
      rw [map_freq_realLeaves 0 hsum] at hmem
      exact Nat.one_le_iff_ne_zero.2 (by simpa using (List.mem_filter.1 hmem).2)
    · have hdepth := ht.stands.depth_lt (ht.covers.nodup_iff.2 List.nodup_range)
      rw [heq, List.length_cons, List.length_singleton] at hsize
      omega

/-- The natural arena is that of the rules (R333 to R336, R341). -/
theorem naturalArena_spec {freqs : List Nat} (hlen : freqs.length ≤ 256) (hsum : freqs.sum < 2 ^ 32) :
    NaturalArena freqs (naturalArena freqs) := by
  have heq := naturalLeaves_eq_leavesOf hlen
  by_cases hne : naturalArena freqs = []
  · rw [naturalArena_eq_nil_iff, heq] at hne
    have harena : naturalArena freqs = [] := naturalArena_eq_nil_iff.2 (heq.trans hne)
    refine ⟨?_, ?_, fun k _ hk => ?_⟩
    · rw [harena, hne]
      rfl
    · rw [harena, hne]
      rfl
    · rw [harena] at hk
      exact absurd hk (Nat.not_lt_zero k)
  · obtain ⟨t, ht, -, -⟩ := exists_naturalTree hlen hsum hne
    have hsize := ht.size
    rw [heq] at ht hsize
    exact ⟨List.prefix_iff_eq_take.1 ht.leaves_prefix |>.symm, by omega, ht.merging⟩

end Sys2Proof.Machine
end

section
/-! HF_BUILD: its branches, what it writes, and the errors it stops with (44_huffman.md R335, R338, R342, R343). -/

namespace Sys2Proof.Machine

/-! ## Coded leaves of a tree -/

namespace CodeTree

/-- Every leaf of the tree has a path. -/
theorem Stands.exists_path {arena : List Node} {t : CodeTree} (h : t.Stands arena) {i : Nat} {n : Node}
    (hi : i ∈ t.indexes) (hn : arena[i]? = some n) (hleaf : n.leaf = true) : ∃ p, (i, p) ∈ t.paths := by
  induction t with
  | leaf j synth sym =>
    rw [List.mem_singleton.1 hi]
    exact ⟨[], List.mem_singleton_self _⟩
  | node j l r ihl ihr =>
    obtain ⟨m, hm, hinner, -, -, hl, hr⟩ := h
    obtain rfl | hi := List.mem_cons.1 hi
    · rw [Option.some.inj (hn.symm.trans hm), hinner] at hleaf
      cases hleaf
    · obtain hi | hi := List.mem_append.1 hi
      · obtain ⟨p, hp⟩ := ihl hl hi
        exact ⟨false :: p, mem_paths_node.2 (.inl ⟨p, hp, rfl⟩)⟩
      · obtain ⟨p, hp⟩ := ihr hr hi
        exact ⟨true :: p, mem_paths_node.2 (.inr ⟨p, hp, rfl⟩)⟩

/-- No two leaves have the same path. -/
theorem nodup_snd_paths (t : CodeTree) : (t.paths.map Prod.snd).Nodup := by
  induction t with
  | leaf j synth sym => exact List.nodup_singleton _
  | node j l r ihl ihr =>
    have hmap (b : Bool) (t : CodeTree) : (t.paths.map fun c => (c.1, b :: c.2)).map Prod.snd =
        (t.paths.map Prod.snd).map (b :: ·) := by simp
    rw [paths, List.map_append, hmap, hmap]
    refine (ihl.map (List.cons_injective)).append (ihr.map (List.cons_injective)) fun p hp hq => ?_
    obtain ⟨a, -, rfl⟩ := List.mem_map.1 hp
    obtain ⟨b, -, hb⟩ := List.mem_map.1 hq
    cases hb

theorem path_eq_of_coded_eq {n m : Node} {p q : List Bool} (h : coded n p = coded m q) : p = q := by
  have hcode := congrArg (fun c : CodedLeaf => valueBits .msbFirst c.len c.code) h
  simpa only [coded, valueBits_bitsValue_msbFirst] using hcode

/-- The coded leaf a path of the arena ends at. -/
def codedAt (arena : List Node) (p : Nat × List Bool) : CodedLeaf :=
  coded (arena[p.1]?.getD (leafNode false 0 0)) p.2

theorem freq_codedAt (arena : List Node) (p : Nat × List Bool) :
    (codedAt arena p).node.freq.toNat = freqAt arena p.1 := by
  rw [codedAt, coded, freqAt]
  cases arena[p.1]? <;> rfl

/-- The leaves `pathCoded` lists are the tree's, in another order. -/
theorem Stands.pathCoded_perm {arena : List Node} {t : CodeTree} (h : t.Stands arena) (hnodup : t.indexes.Nodup) :
    (pathCoded arena t.idx).Perm (t.paths.map (codedAt arena)) := by
  have hpaths := h.leafPaths_eq (Nat.lt_succ_of_lt (h.depth_lt hnodup)) 0 0
  have hright : (t.paths.map (codedAt arena)).Nodup := by
    refine List.Nodup.of_map (fun c => valueBits .msbFirst c.len c.code) ?_
    rw [List.map_map]
    convert t.nodup_snd_paths using 2
    exact funext fun p => valueBits_bitsValue_msbFirst p.2
  have hleft : (pathCoded arena t.idx).Nodup := by
    have hfound {i : Nat} {n : Node} {c : CodedLeaf} (hc : c ∈ ((leafPaths arena (arena.length + 1) t.idx 0 0).find?
        fun l => l.idx == i).map fun l => (⟨n, l.code, l.len⟩ : CodedLeaf)) : ∃ p, (i, p) ∈ t.paths ∧ c = coded n p := by
      obtain ⟨l, hl, rfl⟩ := Option.map_eq_some_iff.1 hc
      have hmem := List.mem_of_find?_eq_some hl
      rw [hpaths] at hmem
      obtain ⟨⟨j, p⟩, hp, rfl⟩ := List.mem_map.1 hmem
      obtain rfl : j = i := by simpa using List.find?_some hl
      exact ⟨p, hp, by rw [coded, Nat.zero_add]; rfl⟩
    refine List.Nodup.filterMap (fun x y c hx hy => ?_) (List.Nodup.of_map Prod.snd (by
      rw [List.zipIdx_map_snd]
      exact List.nodup_range'))
    obtain ⟨p, hp, rfl⟩ := hfound hx
    obtain ⟨q, hq, hcode⟩ := hfound hy
    obtain rfl := path_eq_of_coded_eq hcode
    have hidx := List.inj_on_of_nodup_map t.nodup_snd_paths hp hq rfl
    exact Prod.ext (congrArg CodedLeaf.node hcode) (congrArg Prod.fst hidx)
  refine (List.perm_ext_iff_of_nodup hleft hright).2 fun c => ?_
  rw [h.mem_pathCoded_iff hnodup, List.mem_map]
  constructor
  · rintro ⟨i, p, n, hp, hn, rfl⟩
    exact ⟨(i, p), hp, by rw [codedAt, hn]; rfl⟩
  · rintro ⟨⟨i, p⟩, hp, rfl⟩
    obtain ⟨n, hn, -⟩ := h.walk hp
    exact ⟨i, p, n, hp, hn, by rw [codedAt, hn]; rfl⟩

/-- A sum over the coded leaves is one over the paths. -/
theorem Stands.sum_pathCoded {arena : List Node} {t : CodeTree} (h : t.Stands arena) (hnodup : t.indexes.Nodup)
    (g : Nat → Nat → Nat) : ((pathCoded arena t.idx).map fun c => g c.node.freq.toNat c.len).sum =
      (t.paths.map fun p => g (freqAt arena p.1) p.2.length).sum := by
  rw [((h.pathCoded_perm hnodup).map _).sum_eq, List.map_map]
  refine congrArg List.sum (List.map_congr_left fun p _ => ?_)
  rw [Function.comp, freq_codedAt]
  rfl

/-- A tree on the whole arena has its leaves, in arena order. -/
theorem Stands.map_node_pathCoded {arena : List Node} {t : CodeTree} (h : t.Stands arena)
    (hcovers : t.indexes.Perm (List.range arena.length)) :
    (pathCoded arena t.idx).map CodedLeaf.node = arena.filter Node.leaf := by
  have hnodup := hcovers.nodup_iff.2 List.nodup_range
  have hpaths := h.leafPaths_eq (Nat.lt_succ_of_lt (h.depth_lt hnodup)) 0 0
  conv_rhs => rw [← List.zipIdx_map_fst 0 arena, ← List.filterMap_eq_filter, List.filterMap_map]
  rw [pathCoded, List.map_filterMap]
  refine List.filterMap_congr fun ⟨n, i⟩ hn => ?_
  replace hn := List.mem_zipIdx_iff_getElem?.1 hn
  rw [Option.map_map]
  cases hleaf : n.leaf with
  | true =>
    obtain ⟨p, hp⟩ := h.exists_path (hcovers.mem_iff.2 (List.mem_range.2 (List.getElem?_eq_some_iff.1 hn).1)) hn hleaf
    obtain ⟨l, hl⟩ := Option.isSome_iff_exists.1 (List.find?_isSome (p := fun l : Leaf => l.idx == i).2
      ⟨_, hpaths ▸ List.mem_map_of_mem hp, beq_self_eq_true i⟩)
    simp [hl, hleaf, Option.guard]
  | false =>
    have hnone : (leafPaths arena (arena.length + 1) t.idx 0 0).find? (fun l => l.idx == i) = none := by
      refine List.find?_eq_none.2 fun l hl hi => ?_
      obtain ⟨m, hm, hmleaf⟩ := leaf_of_mem_leafPaths hl
      rw [beq_iff_eq.1 hi, hn] at hm
      rw [← Option.some.inj hm, hleaf] at hmleaf
      cases hmleaf
    simp [hnone, hleaf, Option.guard]

end CodeTree

/-! ## The leaves of the natural tree -/

/-- The leaves of the natural tree with their paths (R337, R340). -/
def naturalCoded (freqs : List Nat) : List CodedLeaf :=
  pathCoded (naturalArena freqs) ((naturalArena freqs).length - 1)

theorem leaf_of_mem_naturalLeaves {freqs : List Nat} {n : Node} (h : n ∈ naturalLeaves freqs) : n.leaf = true := by
  have hreal : ∀ n ∈ realLeaves 0 freqs, n.leaf = true := fun n hn => by
    obtain ⟨sym, f, -, -, rfl⟩ := mem_realLeaves_iff.1 hn
    rfl
  obtain ⟨-, heq⟩ | ⟨l, hl, heq⟩ := naturalLeaves_cases freqs
  · exact hreal n (heq ▸ h)
  · rw [heq] at h
    obtain rfl | h := List.mem_cons.1 h
    · exact hreal n (hl ▸ List.mem_singleton_self n)
    · rw [List.mem_singleton.1 h]
      rfl

theorem filter_leaf_naturalArena (freqs : List Nat) : (naturalArena freqs).filter Node.leaf = naturalLeaves freqs := by
  obtain ⟨inner, heq, hinner, -⟩ := naturalArena_eq_append freqs
  rw [heq, List.filter_append, List.filter_eq_self.2 fun n hn => leaf_of_mem_naturalLeaves hn,
    List.filter_eq_nil_iff.2 fun n hn => by simp [hinner n hn], List.append_nil]

section
variable {freqs : List Nat} {t : CodeTree} (h : NaturalTree freqs t)
include h

theorem NaturalTree.root : t.idx = (naturalArena freqs).length - 1 := by
  have := h.idx
  omega

theorem NaturalTree.nodup : t.indexes.Nodup := h.covers.nodup_iff.2 List.nodup_range

theorem NaturalTree.naturalCoded_eq : naturalCoded freqs = pathCoded (naturalArena freqs) t.idx := by
  rw [naturalCoded, h.root]

theorem NaturalTree.map_node_naturalCoded : (naturalCoded freqs).map CodedLeaf.node = naturalLeaves freqs := by
  rw [h.naturalCoded_eq, h.stands.map_node_pathCoded h.covers, filter_leaf_naturalArena]

theorem NaturalTree.maxLen_naturalCoded : (naturalCoded freqs).foldl (fun m l => max m l.len) 0 = t.depth := by
  rw [h.naturalCoded_eq, h.stands.maxLen_pathCoded h.nodup]

theorem NaturalTree.naturalDepth_eq : naturalDepth freqs = t.depth := by
  have hmax (ls : List Leaf) (m x : Nat) : ls.foldl (fun m l => max m l.len) m ≤ x ↔ m ≤ x ∧ ∀ l ∈ ls, l.len ≤ x := by
    induction ls generalizing m with
    | nil => simp
    | cons l ls ih => rw [List.foldl_cons, ih, List.forall_mem_cons, max_le_iff, and_assoc]
  rw [naturalDepth, ← h.root, h.stands.leafPaths_eq (Nat.lt_succ_of_lt (h.stands.depth_lt h.nodup)), maxDepth]
  refine eq_of_forall_ge_iff fun x => ?_
  rw [hmax, CodeTree.depth_le_iff, List.forall_mem_map]
  simp

end

/-! ## The branches of building -/

/-- The leaves of the natural tree with the limited lengths (R338). -/
def limitedCoded (cfg : HfCfg) (limiter : Limiter) (freqs : List Nat) : List CodedLeaf :=
  withLengths (naturalCoded freqs)
    (limitLengths (limiter.proposal freqs cfg.cap.toNat) cfg.cap.toNat (freqs.filter (· ≠ 0)))

theorem naturalDepth_of_empty {freqs : List Nat} (h : naturalArena freqs = []) : naturalDepth freqs = 0 := by
  simp [naturalDepth, h, leafPaths, maxDepth]

section
variable {cfg : HfCfg} {limiter : Limiter} {freqs : List Nat}

theorem buildTree_of_empty (h : naturalArena freqs = []) :
    buildTree cfg limiter freqs = .ok { tree := [], root := 0, book := [], limited := false, maxLen := 0 } := by
  rw [buildTree, if_pos h]

variable (hlen : freqs.length ≤ 256) (hsum : freqs.sum < 2 ^ 32) (hne : naturalArena freqs ≠ [])
include hlen hsum hne

theorem maxLen_naturalCoded_eq : (naturalCoded freqs).foldl (fun m l => max m l.len) 0 = naturalDepth freqs := by
  obtain ⟨t, ht⟩ := exists_naturalTree hlen hsum hne
  rw [ht.maxLen_naturalCoded, ht.naturalDepth_eq]

/-- The cap is met (R338). -/
theorem buildTree_of_capMet (hcap : cfg.cap.toNat = 0 ∨ naturalDepth freqs ≤ cfg.cap.toNat) :
    buildTree cfg limiter freqs = .ok (if cfg.canon then buildCanonical cfg.width.alphabet false (naturalCoded freqs)
      else buildNatural cfg.width.alphabet (naturalArena freqs)) := by
  rw [← maxLen_naturalCoded_eq hlen hsum hne] at hcap
  rw [buildTree, if_neg hne, ← naturalCoded, if_pos hcap, apply_ite Except.ok]

variable (hcap : cfg.cap.toNat ≠ 0) (hdepth : cfg.cap.toNat < naturalDepth freqs)
include hcap hdepth

/-- The lengths are limited (R338). -/
theorem buildTree_of_limited (hlim : cfg.limitEn = true) (hlive : (freqs.filter (· ≠ 0)).length ≤ 2 ^ cfg.cap.toNat) :
    buildTree cfg limiter freqs = .ok (buildCanonical cfg.width.alphabet true (limitedCoded cfg limiter freqs)) := by
  have hmax := maxLen_naturalCoded_eq hlen hsum hne
  rw [buildTree, if_neg hne, ← naturalCoded, hmax, if_neg (by omega), hlim, if_neg (by decide), if_neg (by omega),
    limitedCoded]

/-- The cap cannot be met (R338). -/
theorem buildTree_of_capExceeded (h : cfg.limitEn = false ∨ 2 ^ cfg.cap.toNat < (freqs.filter (· ≠ 0)).length) :
    buildTree cfg limiter freqs = .error (naturalDepth freqs) := by
  have hmax := maxLen_naturalCoded_eq hlen hsum hne
  rw [buildTree, if_neg hne, ← naturalCoded, hmax, if_neg (by omega)]
  obtain hlim | hlive := h
  · rw [hlim, if_pos (by decide)]
  · rw [if_pos hlive, ite_self]

end

/-! ## The command -/

/-- The windows of HF_BUILD are valid and share no byte (R104, R343). -/
structure State.BuildReady (s : State) : Prop where
  freq : s.hf.freqWindow.Inside s.params.memSize
  tree : s.hf.treeWindow.Inside s.params.memSize
  book : s.hf.bookWindow.Inside s.params.memSize
  treeFreq : s.hf.treeWindow.Apart s.hf.freqWindow
  treeBook : s.hf.treeWindow.Apart s.hf.bookWindow
  bookFreq : s.hf.bookWindow.Apart s.hf.freqWindow

/-- The memory after HF_BUILD: the nodes, then the codebook (R341, R342). -/
def State.builtMem (s : State) (b : Built) : Memory :=
  (s.mem.setWords s.hf.treeBase.toNat (b.tree.flatMap Node.words)).setBook s.hf.bookBase.toNat b.book 0 s.hf.cfg.width.alphabet

/-- The state after HF_BUILD (R343). -/
def State.built (s : State) (b : Built) : State :=
  { s with
    mem := s.builtMem b
    hf := { s.hf with
      tree := b.tree, book := b.book, nodes := word b.tree.length, root := word b.root
      state := { valid := true, limited := b.limited, maxLen := BitVec.ofNat 7 b.maxLen } }
    status := s.status.ended }

/-- The checks of HF_BUILD before its frequency sum (R343). -/
def State.buildWindowChecks (s : State) : List (Option Err) :=
  [windowErr s.params.memSize s.hf.freqWindow, windowErr s.params.memSize s.hf.treeWindow,
   windowErr s.params.memSize s.hf.bookWindow, overlapErr s.hf.treeWindow s.hf.freqWindow,
   failIf (s.hf.treeWindow.overlaps s.hf.bookWindow) .invalidRange treeBookOverlapReg,
   overlapErr s.hf.bookWindow s.hf.freqWindow]

theorem buildWindowChecks_eq_none {s : State} : firstErr s.buildWindowChecks = none ↔ s.BuildReady := by
  simp only [State.buildWindowChecks, firstErr_cons_eq_none, windowErr_eq_none, overlapErr_eq_none, failIf_eq_none,
    Window.overlaps_eq_false_iff_apart, firstErr_nil, and_true]
  exact ⟨fun ⟨h1, h2, h3, h4, h5, h6⟩ => ⟨h1, h2, h3, h4, h5, h6⟩, fun ⟨h1, h2, h3, h4, h5, h6⟩ => ⟨h1, h2, h3, h4, h5, h6⟩⟩

theorem execHfBuild_eq (s : State) : exec .hfBuild s =
    s.checked (s.buildWindowChecks ++ [failIf (2 ^ 32 ≤ s.frequencyWords.sum) .invalidRange 0x14C])
      (match buildTree s.hf.cfg s.params.limiter s.frequencyWords with
        | .error depth => .next (s.raise (.huffmanCapExceeded, word depth))
        | .ok b => .next (s.built b)) := by
  change execHfBuild s = _
  rw [execHfBuild]
  rfl

theorem exec_hfBuild {s : State} (h : s.BuildReady) (hsum : s.frequencyWords.sum < 2 ^ 32) :
    exec .hfBuild s =
      match buildTree s.hf.cfg s.params.limiter s.frequencyWords with
      | .error depth => .next (s.raise (.huffmanCapExceeded, word depth))
      | .ok b => .next (s.built b) := by
  rw [execHfBuild_eq]
  refine checked_of_none ?_
  rw [firstErr_append_of_none (buildWindowChecks_eq_none.2 h),
    failIf_eq_none.2 (decide_eq_false (Nat.not_le.2 hsum)), firstErr_cons_none, firstErr_nil]

/-- An HF_BUILD that ends without an error has built a tree. -/
theorem exists_built {s t : State} (h : exec .hfBuild s = .next t) (herr : t.status.err = false) :
    s.frequencyWords.sum < 2 ^ 32 ∧
      ∃ b, buildTree s.hf.cfg s.params.limiter s.frequencyWords = .ok b ∧ t = s.built b := by
  rw [execHfBuild_eq] at h
  obtain ⟨e, -, heq⟩ | ⟨hchecks, heq⟩ := checked_cases s (s.buildWindowChecks ++
      [failIf (2 ^ 32 ≤ s.frequencyWords.sum) .invalidRange 0x14C])
    (match buildTree s.hf.cfg s.params.limiter s.frequencyWords with
      | .error depth => .next (s.raise (.huffmanCapExceeded, word depth))
      | .ok b => .next (s.built b))
  · obtain rfl := Host.Outcome.next.inj (heq.symm.trans h)
    exact absurd herr Bool.noConfusion
  · have hsum := firstErr_eq_none.1 hchecks (failIf (2 ^ 32 ≤ s.frequencyWords.sum) .invalidRange 0x14C) (by simp)
    rw [failIf_eq_none, decide_eq_false_iff_not, Nat.not_le] at hsum
    rw [heq] at h
    split at h
    · obtain rfl := Host.Outcome.next.inj h
      exact absurd herr Bool.noConfusion
    · next b hb => exact ⟨hsum, b, hb, (Host.Outcome.next.inj h).symm⟩

theorem State.length_frequencyWords (s : State) : s.frequencyWords.length = s.hf.cfg.width.alphabet := by
  simp [State.frequencyWords]

theorem State.length_frequencyWords_le (s : State) : s.frequencyWords.length ≤ 256 :=
  s.length_frequencyWords.trans_le s.hf.cfg.width.alphabet_le

/-! ## The exports -/

/-- The exported codebook reads back, entry by entry (R153, R342). -/
theorem Memory.getBytes_setBook {m : Memory} (hm : m.wf = true) {base s n : Nat} (book : List (Nat × Code)) {sym : Nat}
    (hlo : s ≤ sym) (hhi : sym < s + n) : (m.setBook base book s n).getBytes (base + 16 * sym) 16 = (bookEntry book sym).bytes := by
  induction n generalizing m s with
  | zero => omega
  | succ n ih =>
    rw [setBook]
    obtain rfl | hlt := hlo.eq_or_lt
    · have hkept : ((m.setBytes (base + 16 * s) (bookEntry book s).bytes).setBook base book (s + 1) n).getBytes
          (base + 16 * s) 16 = (m.setBytes (base + 16 * s) (bookEntry book s).bytes).getBytes (base + 16 * s) 16 :=
        getBytes_congr fun x _ hx => get_setBook_of_outside _ _ (by omega)
      have hself := getBytes_setBytes_self hm (base + 16 * s) (bookEntry book s).bytes
      rw [length_codeBytes] at hself
      rw [hkept, hself]
    · exact ih (wf_setBytes hm _ _) hlt (by omega)

section
variable {s : State} {b : Built} (h : s.BuildReady) (hb : b.tree.length ≤ s.hf.cfg.width.maxNodes)

/-- HF_BUILD writes only its nodes and its book window (R343). -/
theorem State.get_builtMem_of_outside {a : Nat}
    (htree : a < s.hf.treeBase.toNat ∨ s.hf.treeBase.toNat + 16 * b.tree.length ≤ a) (hbook : ¬ s.hf.bookWindow.Holds a) :
    (s.builtMem b).get a = s.mem.get a := by
  have hout : a < s.hf.bookBase.toNat + 16 * 0 ∨ s.hf.bookBase.toNat + 16 * (0 + s.hf.cfg.width.alphabet) ≤ a := by
    simp only [Window.Holds, Huffman.bookWindow] at hbook
    omega
  rw [builtMem, Memory.get_setBook_of_outside _ _ hout, Memory.get_setWords_of_outside]
  rw [Node.length_flatMap_words]
  omega

include h hb

/-- The book does not overwrite the nodes (R104). -/
theorem State.holdsWords_builtMem (hm : s.mem.wf = true) :
    (s.builtMem b).HoldsWords s.hf.treeBase.toNat (b.tree.flatMap Node.words) := by
  intro i v hi
  have hlt := (List.getElem?_eq_some_iff.1 hi).1
  rw [Node.length_flatMap_words] at hlt
  have hapart := h.treeBook
  simp only [Window.Apart, Huffman.treeWindow, Huffman.bookWindow] at hapart
  have hkept : (s.builtMem b).getBytes (s.hf.treeBase.toNat + 4 * i) 4 =
      (s.mem.setWords s.hf.treeBase.toNat (b.tree.flatMap Node.words)).getBytes (s.hf.treeBase.toNat + 4 * i) 4 :=
    Memory.getBytes_congr fun x _ hx => Memory.get_setBook_of_outside _ _ (by omega)
  exact (congrArg (fun bs => word (bytesValue .le bs)) hkept).trans (Memory.holdsWords_setWords hm _ _ i v hi)

end

/-- Settles O44: building succeeds in each branch that meets the cap, and the exports read back. -/
theorem hfBuildBuilds : Obligations.HfBuildBuilds := by
  unfold Obligations.HfBuildBuilds
  intro s hfreq htree hbook htf htb hbf hsum hcap
  have h : s.BuildReady := ⟨hfreq, htree, hbook, htf, htb, hbf⟩
  have hlen := s.length_frequencyWords_le
  obtain ⟨b, hb⟩ : ∃ b, buildTree s.hf.cfg s.params.limiter s.frequencyWords = .ok b := by
    by_cases hne : naturalArena s.frequencyWords = []
    · exact ⟨_, buildTree_of_empty hne⟩
    by_cases hmet : s.hf.cfg.cap.toNat = 0 ∨ naturalDepth s.frequencyWords ≤ s.hf.cfg.cap.toNat
    · exact ⟨_, buildTree_of_capMet hlen hsum hne hmet⟩
    · obtain ⟨hcap0, hdepth⟩ := not_or.1 hmet
      obtain hcap | hcap | ⟨hlim, hlive⟩ := hcap
      · exact absurd (congrArg BitVec.toNat hcap) hcap0
      · exact absurd hcap hdepth
      · exact ⟨_, buildTree_of_limited hlen hsum hne hcap0 (Nat.not_le.1 hdepth) hlim hlive⟩
  have hsize := length_tree_le_maxNodes hb
  refine ⟨b, s.builtMem b, hb, ?_, fun a => State.get_builtMem_of_outside, fun hm => ⟨State.holdsWords_builtMem h hsize hm, fun sym hsym => ?_⟩⟩
  · rw [exec_hfBuild h hsum, hb]
    rfl
  · exact Memory.getBytes_setBook (Memory.wf_setWords hm _ _) _ (Nat.zero_le sym) (by omega)

/-- Settles O45: the last check of the command, and the two branches of building that refuse. -/
theorem hfBuildStops : Obligations.HfBuildStops := by
  unfold Obligations.HfBuildStops
  intro s hfreq htree hbook htf htb hbf
  have h : s.BuildReady := ⟨hfreq, htree, hbook, htf, htb, hbf⟩
  refine ⟨fun hsum => ?_, fun hsum hcap hdepth hstop => ?_⟩
  · rw [execHfBuild_eq]
    refine checked_of_some (e := (.invalidRange, 0x14C)) ?_
    rw [firstErr_append_of_none (buildWindowChecks_eq_none.2 h), failIf, if_pos (decide_eq_true hsum),
      firstErr_cons_some]
  · have hne : naturalArena s.frequencyWords ≠ [] := fun hnil => by
      rw [naturalDepth_of_empty hnil] at hdepth
      exact absurd hdepth (Nat.not_lt_zero _)
    have hcap0 : s.hf.cfg.cap.toNat ≠ 0 := fun h0 => hcap (BitVec.eq_of_toNat_eq h0)
    rw [exec_hfBuild h hsum, buildTree_of_capExceeded s.length_frequencyWords_le hsum hne hcap0 hdepth hstop]
    rfl

end Sys2Proof.Machine
end

section
/-! The tree of a lone symbol (44_huffman.md R335, R339, R341). -/

namespace Sys2Proof.Machine

/-- Symbols that do not occur have no leaf (R333). -/
theorem realLeaves_replicate_append (sym k : Nat) (fs : List Nat) :
    realLeaves sym (List.replicate k 0 ++ fs) = realLeaves (sym + k) fs := by
  induction k generalizing sym with
  | zero => rfl
  | succ k ih =>
    rw [List.replicate_succ, List.cons_append, realLeaves, if_pos rfl, ih, Nat.add_right_comm, Nat.add_assoc]

/-- The frequency table in which only symbol r occurs, f times. -/
def loneFreqs (r f k : Nat) : List Nat := List.replicate r 0 ++ f :: List.replicate k 0

/-- The top node of a lone symbol's tree (R335). -/
def loneRoot (f : Nat) : Node := innerNode f 1 0

section
variable {r f : Nat} (hf : f ≠ 0) (k : Nat)
include hf

theorem realLeaves_loneFreqs : realLeaves 0 (loneFreqs r f k) = [leafNode false r f] := by
  have hnone : realLeaves (0 + r + 1) (List.replicate k 0) = [] := by
    simpa [realLeaves] using realLeaves_replicate_append (0 + r + 1) k []
  rw [loneFreqs, realLeaves_replicate_append, realLeaves, if_neg hf, hnone, Nat.zero_add]

theorem naturalLeaves_loneFreqs :
    naturalLeaves (loneFreqs r f k) = [leafNode false r f, siblingOf (leafNode false r f)] := by
  rw [naturalLeaves, realLeaves_loneFreqs hf]
  rfl

/-- The sibling, of frequency 0, is taken first (R334, R335). -/
theorem naturalArena_loneFreqs (hlt : f < 2 ^ 32) :
    naturalArena (loneFreqs r f k) = [leafNode false r f, siblingOf (leafNode false r f), loneRoot f] := by
  have hword : (leafNode false r f).freq.toNat = f := Nat.mod_eq_of_lt hlt
  have hzero : (siblingOf (leafNode false r f)).freq.toNat = 0 := rfl
  have hheap : initialHeap [leafNode false r f, siblingOf (leafNode false r f)] = [(0, 1), (f, 0)] := by
    simp [initialHeap, heapInsert, HeapEntry.before, hword, hzero, Nat.pos_of_ne_zero hf]
  rw [naturalArena, naturalLeaves_loneFreqs hf, hheap]
  simp [mergeNodes, heapInsert, loneRoot]

end

/-- The two leaves below the root, the real one on the right (R335, R340). -/
theorem pathCoded_lone {l m : Node} (hl : l.leaf = true) (hm : m.leaf = true) (f : Nat) :
    pathCoded [l, m, loneRoot f] 2 = [⟨l, 1, 1⟩, ⟨m, 0, 1⟩] := by
  have hroot : (loneRoot f).leaf = false := rfl
  have hleft : (loneRoot f).left.toNat = 1 := rfl
  have hright : (loneRoot f).right.toNat = 0 := rfl
  have hpaths : leafPaths [l, m, loneRoot f] 4 2 0 0 = [⟨1, 0, 1⟩, ⟨0, 1, 1⟩] := by
    simp [leafPaths, hl, hm, hroot, hleft, hright]
  simp [pathCoded, hpaths, List.zipIdx_cons]

/-- A codebook in which one leaf names a symbol (R342). -/
theorem codebook_eq_singleton {a r : Nat} {ls : List CodedLeaf} {l : CodedLeaf} (hr : r < a)
    (h : ∀ s, leafNaming ls s = if s = r then some l else none) : codebook a ls = [(r, l.toCode)] := by
  have hcount : (List.range a).filter (· = r) = [r] := by
    rw [List.filter_eq, List.count_eq_one_of_mem List.nodup_range (List.mem_range.2 hr)]
    rfl
  have hmap : codebook a ls = ((List.range a).filterMap (Option.guard (· = r))).map fun s => (s, l.toCode) := by
    rw [codebook_eq_filterMap, List.map_filterMap]
    refine List.filterMap_congr fun s _ => ?_
    rw [h, Option.guard]
    by_cases hs : s = r <;> simp [hs]
  rw [hmap, List.filterMap_eq_filter, hcount]
  rfl

/-- Only the real leaf names a symbol. -/
theorem leafNaming_pair {l m : CodedLeaf} (hl : l.node.synth = false) (hm : m.node.synth = true) (s : Nat) :
    leafNaming [l, m] s = (if s = l.node.sym.toNat then some l else none) ∧
    leafNaming [m, l] s = if s = l.node.sym.toNat then some l else none := by
  by_cases hs : s = l.node.sym.toNat
  · simp [leafNaming, hl, hm, hs]
  · simp [leafNaming, hl, hm, hs, Ne.symm hs]

/-- Two leaves of one edge get the codes 0 and 1, by symbol (R339). -/
theorem assignCanonical_pair {l m : CodedLeaf} (hl : l.len = 1) (hm : m.len = 1) :
    assignCanonical [l, m] =
      if l.node.sym.toNat < m.node.sym.toNat then [{ l with code := 0 }, { m with code := 1 }]
      else [{ m with code := 0 }, { l with code := 1 }] := by
  have hbefore : l.before m = decide (l.node.sym.toNat < m.node.sym.toNat) := by simp [CodedLeaf.before, hl, hm]
  by_cases hlt : l.node.sym.toNat < m.node.sym.toNat <;>
    simp [assignCanonical, sortCanonical, insertCanonical, hbefore, hlt, assignAfter, hl, hm]

/-- The breadth-first arena of two leaves of one edge (R341). -/
theorem canonicalArena_pair (l m : Node) : canonicalArena [⟨l, 0, 1⟩, ⟨m, 1, 1⟩] =
    [innerNode (l.freq.toNat + m.freq.toNat) 1 2, l, m] := by
  simp [canonicalArena, breadthFirst, prefixFreq]

/-- Settles O46: the natural tree of the leaf and its sibling, and its two leaves in canonical order. -/
theorem singleSymbolTree : Obligations.SingleSymbolTree := by
  unfold Obligations.SingleSymbolTree
  intro c l r f hr hf hlt
  have ha := c.width.alphabet_le
  change (c.canon = false → buildTree c l (loneFreqs r f (c.width.alphabet - 1 - r)) = _) ∧
    (c.canon = true → buildTree c l (loneFreqs r f (c.width.alphabet - 1 - r)) = _)
  generalize hk : c.width.alphabet - 1 - r = k
  have hlen : (loneFreqs r f k).length ≤ 256 := by
    simp only [loneFreqs, List.length_append, List.length_cons, List.length_replicate]
    omega
  have hsum : (loneFreqs r f k).sum < 2 ^ 32 := by simpa [loneFreqs] using hlt
  have harena := naturalArena_loneFreqs (r := r) hf k hlt
  have hne : naturalArena (loneFreqs r f k) ≠ [] := by rw [harena]; exact List.cons_ne_nil _ _
  have hcoded : naturalCoded (loneFreqs r f k) = [⟨leafNode false r f, 1, 1⟩, ⟨siblingOf (leafNode false r f), 0, 1⟩] := by
    rw [naturalCoded, harena]
    exact pathCoded_lone rfl rfl f
  have hdepth : naturalDepth (loneFreqs r f k) = 1 := by
    rw [← maxLen_naturalCoded_eq hlen hsum hne, hcoded]
    rfl
  have hsym : (leafNode false r f).sym.toNat = r := toNat_sym_leafOf (by omega) f
  have hzero : (leafNode false r f).sym = 0 ↔ r = 0 := by
    rw [← BitVec.toNat_inj, hsym]
    rfl
  have hsibling : siblingOf (leafNode false r f) =
      { leaf := true, synth := true, sym := if r = 0 then 1 else 0, freq := 0, left := 0xFFFFFFFF, right := 0xFFFFFFFF } := by
    rw [siblingOf]
    by_cases hr0 : r = 0
    · rw [if_pos (hzero.2 hr0), if_pos hr0]
      rfl
    · rw [if_neg (mt hzero.1 hr0), if_neg hr0]
      rfl
  rw [buildTree_of_capMet hlen hsum hne (by omega)]
  constructor
  · intro hcanon
    have hbook := codebook_eq_singleton (l := ⟨leafNode false r f, 1, 1⟩) hr fun s =>
      hsym ▸ (leafNaming_pair (l := ⟨leafNode false r f, 1, 1⟩) (m := ⟨siblingOf (leafNode false r f), 0, 1⟩) rfl rfl s).1
    rw [hcanon, if_neg Bool.false_ne_true, buildNatural, ← naturalCoded, hcoded, hbook, harena, hsibling]
    rfl
  · intro hcanon
    have hfreq : (leafNode false r f).freq.toNat = f := Nat.mod_eq_of_lt hlt
    have hnone : (siblingOf (leafNode false r f)).freq.toNat = 0 := rfl
    have horder : (leafNode false r f).sym.toNat < (siblingOf (leafNode false r f)).sym.toNat ↔ r = 0 := by
      rw [hsym, hsibling]
      by_cases hr0 : r = 0 <;> simp [hr0]
    rw [hcanon, if_pos rfl, buildCanonical, hcoded, assignCanonical_pair rfl rfl, if_congr horder rfl rfl]
    by_cases hr0 : r = 0
    · have hbook := codebook_eq_singleton (l := ⟨leafNode false r f, 0, 1⟩) hr fun s =>
        hsym ▸ (leafNaming_pair (l := ⟨leafNode false r f, 0, 1⟩) (m := ⟨siblingOf (leafNode false r f), 1, 1⟩) rfl rfl s).1
      simp only [if_pos hr0, hbook, canonicalArena_pair, hfreq, hnone, Nat.add_zero]
      rw [hsibling, if_pos hr0]
      rfl
    · have hbook := codebook_eq_singleton (l := ⟨leafNode false r f, 1, 1⟩) hr fun s =>
        hsym ▸ (leafNaming_pair (l := ⟨leafNode false r f, 1, 1⟩) (m := ⟨siblingOf (leafNode false r f), 0, 1⟩) rfl rfl s).2
      simp only [if_neg hr0, hbook, canonicalArena_pair, hfreq, hnone, Nat.zero_add]
      rw [hsibling, if_neg hr0]
      rfl

end Sys2Proof.Machine
end

section
/-! The codes of a built tree: which leaf gives a symbol its code, and that the code lengths weigh the least (44_huffman.md R338, R342, R356). -/

namespace Sys2Proof.Machine

/-! ## Codes of coded natural leaves -/

theorem filter_real_naturalLeaves (freqs : List Nat) :
    (naturalLeaves freqs).filter (fun n => !n.synth) = realLeaves 0 freqs := by
  have hreal : ∀ n ∈ realLeaves 0 freqs, n.synth = false := fun n hn => by
    obtain ⟨sym, f, -, -, rfl⟩ := mem_realLeaves_iff.1 hn
    rfl
  obtain ⟨-, heq⟩ | ⟨l, hl, heq⟩ := naturalLeaves_cases freqs
  · rw [heq, List.filter_eq_self.2 fun n hn => by simp [hreal n hn]]
  · have hsynth : (siblingOf l).synth = true := rfl
    rw [heq, hl]
    simp [hreal l (hl ▸ List.mem_singleton_self l), hsynth]

theorem freq_eq_zero_of_synth {freqs : List Nat} {n : Node} (hn : n ∈ naturalLeaves freqs) (hsynth : n.synth = true) :
    n.freq = 0 := by
  have hnot : n ∉ realLeaves 0 freqs := fun h => by
    rw [← filter_real_naturalLeaves, List.mem_filter, hsynth] at h
    exact Bool.false_ne_true h.2
  obtain ⟨-, heq⟩ | ⟨l, hl, heq⟩ := naturalLeaves_cases freqs
  · exact absurd (heq ▸ hn) hnot
  · rw [heq] at hn
    obtain rfl | hn := List.mem_cons.1 hn
    · exact absurd (hl ▸ List.mem_singleton_self n) hnot
    · rw [List.mem_singleton.1 hn]
      rfl

section
variable {freqs : List Nat} {ls : List CodedLeaf} (hls : (ls.map CodedLeaf.node).Perm (naturalLeaves freqs))
include hls

/-- The real ones of coded natural leaves. -/
theorem filter_real_perm : ((ls.filter fun l => !l.node.synth).map CodedLeaf.node).Perm (realLeaves 0 freqs) := by
  rw [← filter_real_naturalLeaves]
  have h := hls.filter fun n => !n.synth
  rwa [List.filter_map] at h

variable (hlen : freqs.length ≤ 256)
include hlen

/-- The leaves that name a symbol are those of its frequency, if it occurs (R333). -/
theorem names_iff {l : CodedLeaf} (hl : l ∈ ls) {sym : Nat} :
    l.Names sym ↔ ∃ f, freqs[sym]? = some f ∧ f ≠ 0 ∧ l.node = leafOf sym f := by
  constructor
  · rintro ⟨hsynth, rfl⟩
    have hmem : l.node ∈ realLeaves 0 freqs := by
      rw [← (filter_real_perm hls).mem_iff]
      exact List.mem_map_of_mem (List.mem_filter.2 ⟨hl, by simp [hsynth]⟩)
    obtain ⟨sym, f, hf, hf0, heq⟩ := mem_realLeaves_iff.1 hmem
    have hlt := (List.getElem?_eq_some_iff.1 hf).1
    have hsym : l.node.sym.toNat = sym := by rw [heq, toNat_sym_leafOf (by omega)]
    exact ⟨f, hsym ▸ hf, hf0, hsym ▸ heq⟩
  · rintro ⟨f, hf, -, heq⟩
    have hlt := (List.getElem?_eq_some_iff.1 hf).1
    rw [CodedLeaf.Names, heq]
    exact ⟨rfl, toNat_sym_leafOf (by omega) f⟩

/-- One leaf names a symbol. -/
theorem eq_of_names {l m : CodedLeaf} (hl : l ∈ ls) (hm : m ∈ ls) {sym : Nat} (hlname : l.Names sym) (hmname : m.Names sym) :
    l = m := by
  have hnodup : ((ls.filter fun l => !l.node.synth).map fun l => l.node.sym.toNat).Nodup := by
    have h := (filter_real_perm hls).map fun n => n.sym.toNat
    rw [List.map_map] at h
    exact h.nodup_iff.2 ((List.pairwise_map.2 (pairwise_realLeaves (by omega))).imp Nat.ne_of_lt)
  refine List.inj_on_of_nodup_map hnodup (List.mem_filter.2 ⟨hl, ?_⟩) (List.mem_filter.2 ⟨hm, ?_⟩)
    (hlname.2.trans hmname.2.symm)
  · simp [hlname.1]
  · simp [hmname.1]

/-- The entry of a leaf's symbol is the leaf's code (R342). -/
theorem bookEntry_of_names {l : CodedLeaf} (hl : l ∈ ls) {sym : Nat} (hname : l.Names sym) :
    bookEntry (codebook freqs.length ls) sym = l.toCode := by
  obtain ⟨f, hf, -⟩ := (names_iff hls hlen hl).1 hname
  exact bookEntry_codebook (List.getElem?_eq_some_iff.1 hf).1 hl hname fun m hm hmname =>
    eq_of_names hls hlen hm hl hmname hname

/-- A symbol that occurs has the code of its leaf (R342). -/
theorem exists_bookEntry {sym f : Nat} (hf : freqs[sym]? = some f) (hf0 : f ≠ 0) :
    ∃ l ∈ ls, l.node = leafOf sym f ∧ bookEntry (codebook freqs.length ls) sym = l.toCode := by
  have hmem := mem_realLeaves_iff.2 ⟨sym, f, hf, hf0, rfl⟩
  rw [← (filter_real_perm hls).mem_iff] at hmem
  obtain ⟨l, hl, hnode⟩ := List.mem_map.1 hmem
  replace hl := (List.mem_filter.1 hl).1
  exact ⟨l, hl, hnode, bookEntry_of_names hls hlen hl ((names_iff hls hlen hl).2 ⟨f, hf, hf0, hnode⟩)⟩

/-- A symbol that does not occur has none (R342). -/
theorem bookEntry_of_not_occurs {sym : Nat} (h : freqs.getD sym 0 = 0) :
    bookEntry (codebook freqs.length ls) sym = ⟨0, 0⟩ := by
  refine bookEntry_codebook_of_none fun l hl hname => ?_
  obtain ⟨f, hf, hf0, -⟩ := (names_iff hls hlen hl).1 hname
  rw [List.getD_eq_getElem?_getD, hf] at h
  exact hf0 h

/-- Σ f·len of the codebook, over the leaves (R356). -/
theorem codedLength_codebook (hsum : freqs.sum < 2 ^ 32) :
    codedLength freqs (codebook freqs.length ls) = (ls.map fun l => l.node.freq.toNat * l.len).sum := by
  have hfreq {f : Nat} (hf : f ∈ freqs) : (word f).toNat = f :=
    Nat.mod_eq_of_lt ((List.le_sum_of_mem hf).trans_lt hsum)
  have hentries : codedLength freqs (codebook freqs.length ls) =
      ((realLeaves 0 freqs).map fun n => n.freq.toNat * (bookEntry (codebook freqs.length ls) n.sym.toNat).len).sum := by
    rw [codedLength, realLeaves_eq, List.map_map]
    have hdrop (xs : List (Nat × Nat)) (g : Nat → Nat) :
        (xs.map fun x => x.1 * g x.2).sum = ((xs.filter fun x => x.1 ≠ 0).map fun x => x.1 * g x.2).sum := by
      induction xs with
      | nil => rfl
      | cons x xs ih => by_cases hx : x.1 = 0 <;> simp [hx, ih]
    rw [hdrop freqs.zipIdx fun s => (bookEntry (codebook freqs.length ls) s).len]
    refine congrArg List.sum (List.map_congr_left fun ⟨f, s⟩ hx => ?_)
    have hs := List.mem_zipIdx_iff_getElem?.1 (List.mem_filter.1 hx).1
    have hlt := (List.getElem?_eq_some_iff.1 hs).1
    rw [Function.comp, toNat_sym_leafOf (by omega)]
    exact congrArg (· * _) (hfreq (List.mem_of_getElem? hs)).symm
  have hsynth (ms : List CodedLeaf) (h : ∀ l ∈ ms, l.node.synth = true → l.node.freq = 0) :
      (ms.map fun l => l.node.freq.toNat * l.len).sum =
        ((ms.filter fun l => !l.node.synth).map fun l => l.node.freq.toNat * l.len).sum := by
    induction ms with
    | nil => rfl
    | cons l ms ih =>
      obtain ⟨hl, hms⟩ := List.forall_mem_cons.1 h
      cases hs : l.node.synth with
      | true => simp [hs, hl hs, ih hms]
      | false => simp [hs, ih hms]
  rw [hentries, hsynth ls fun l hl => freq_eq_zero_of_synth (hls.mem_iff.1 (List.mem_map_of_mem hl)),
    ← ((filter_real_perm hls).map _).sum_eq, List.map_map]
  refine congrArg List.sum (List.map_congr_left fun l hl => ?_)
  obtain ⟨hl, hs⟩ := List.mem_filter.1 hl
  rw [Function.comp, bookEntry_of_names hls hlen hl ⟨by simpa using hs, rfl⟩]
  rfl

end

/-! ## Canonical assignment keeps nodes and lengths -/

theorem insertCanonical_perm (x : CodedLeaf) (ls : List CodedLeaf) : (insertCanonical x ls).Perm (x :: ls) := by
  induction ls with
  | nil => exact .refl _
  | cons y ys ih =>
    rw [insertCanonical]
    split
    · exact .refl _
    · exact (ih.cons y).trans (.swap x y ys)

theorem sortCanonical_perm (ls : List CodedLeaf) : (sortCanonical ls).Perm ls := by
  induction ls with
  | nil => exact .refl _
  | cons l ls ih => exact (insertCanonical_perm l _).trans (ih.cons l)

/-- A leaf's node and code length. -/
def CodedLeaf.shape (l : CodedLeaf) : Node × Nat := (l.node, l.len)

theorem map_shape_assignAfter (code len : Nat) (ls : List CodedLeaf) :
    (assignAfter code len ls).map CodedLeaf.shape = ls.map CodedLeaf.shape := by
  induction ls generalizing code len with
  | nil => rfl
  | cons l ls ih =>
    rw [assignAfter, List.map_cons, List.map_cons, ih]
    rfl

theorem map_shape_assignCanonical (ls : List CodedLeaf) :
    (assignCanonical ls).map CodedLeaf.shape = (sortCanonical ls).map CodedLeaf.shape := by
  rw [assignCanonical]
  cases sortCanonical ls with
  | nil => rfl
  | cons l rest => exact congrArg (l.shape :: ·) (map_shape_assignAfter 0 l.len rest)

theorem assignCanonical_perm (ls : List CodedLeaf) :
    ((assignCanonical ls).map CodedLeaf.shape).Perm (ls.map CodedLeaf.shape) := by
  rw [map_shape_assignCanonical]
  exact (sortCanonical_perm ls).map _

theorem map_node_perm_of_shape {ls ms : List CodedLeaf} (h : (ls.map CodedLeaf.shape).Perm (ms.map CodedLeaf.shape)) :
    (ls.map CodedLeaf.node).Perm (ms.map CodedLeaf.node) := by
  have hmap := h.map Prod.fst
  rw [List.map_map, List.map_map] at hmap
  exact hmap

theorem map_len_perm_of_shape {ls ms : List CodedLeaf} (h : (ls.map CodedLeaf.shape).Perm (ms.map CodedLeaf.shape)) :
    (ls.map CodedLeaf.len).Perm (ms.map CodedLeaf.len) := by
  have hmap := h.map Prod.snd
  rw [List.map_map, List.map_map] at hmap
  exact hmap

theorem sum_mul_of_shape {ls ms : List CodedLeaf} (h : (ls.map CodedLeaf.shape).Perm (ms.map CodedLeaf.shape)) :
    (ls.map fun l => l.node.freq.toNat * l.len).sum = (ms.map fun l => l.node.freq.toNat * l.len).sum := by
  have hmap := (h.map fun x => x.1.freq.toNat * x.2).sum_eq
  rw [List.map_map, List.map_map] at hmap
  exact hmap

/-! ## Leaves with other lengths -/

theorem map_node_withLengths {ls : List CodedLeaf} {ns : List Nat} (h : ns.length = ls.length) :
    (withLengths ls ns).map CodedLeaf.node = ls.map CodedLeaf.node := by
  induction ls generalizing ns with
  | nil => rfl
  | cons l ls ih =>
    obtain ⟨n, ns, rfl⟩ := List.exists_cons_of_length_eq_add_one h
    simp [withLengths, ih (Nat.succ.inj h)]

theorem map_len_withLengths {ls : List CodedLeaf} {ns : List Nat} (h : ns.length = ls.length) :
    (withLengths ls ns).map CodedLeaf.len = ns := by
  induction ls generalizing ns with
  | nil => exact (List.eq_nil_of_length_eq_zero h).symm
  | cons l ls ih =>
    obtain ⟨n, ns, rfl⟩ := List.exists_cons_of_length_eq_add_one h
    simp [withLengths, ih (Nat.succ.inj h)]

theorem sum_mul_eq_weightedLength (ls : List CodedLeaf) :
    (ls.map fun l => l.node.freq.toNat * l.len).sum =
      weightedLength (ls.map fun l => l.node.freq.toNat) (ls.map CodedLeaf.len) := by
  induction ls with
  | nil => rfl
  | cons l ls ih => simp [weightedLength, ih]

/-! ## Limited lengths of the natural leaves -/

theorem CodeTree.depth_lt_length_paths (t : CodeTree) : t.depth < t.paths.length := by
  induction t with
  | leaf j synth sym => exact Nat.one_pos
  | node j l r ihl ihr =>
    simp only [depth, paths, List.length_append, List.length_map]
    omega

/-- A natural tree has more leaves than levels. -/
theorem NaturalTree.depth_lt_length {freqs : List Nat} {t : CodeTree} (h : NaturalTree freqs t) :
    t.depth < (naturalLeaves freqs).length := by
  have hcoded := congrArg List.length h.map_node_naturalCoded
  rw [List.length_map, h.naturalCoded_eq, (h.stands.pathCoded_perm h.nodup).length_eq, List.length_map] at hcoded
  exact hcoded ▸ t.depth_lt_length_paths

/-- The lengths are limited: the natural tree is deeper than a nonzero cap that leaves room for the symbols (R338). -/
structure Limits (cap : Nat) (freqs : List Nat) (t : CodeTree) : Prop where
  natural : NaturalTree freqs t
  cap_pos : cap ≠ 0
  depth : cap < t.depth
  room : (freqs.filter (· ≠ 0)).length ≤ 2 ^ cap

section
variable {cfg : HfCfg} {limiter : Limiter} {freqs : List Nat} {t : CodeTree} (h : Limits cfg.cap.toNat freqs t)
include h

/-- The natural leaves are then one for each symbol that occurs. -/
theorem Limits.naturalLeaves_eq : naturalLeaves freqs = realLeaves 0 freqs := by
  have hlt := h.natural.depth_lt_length
  have hdepth := h.depth
  have hcap := h.cap_pos
  obtain ⟨-, heq⟩ | ⟨l, -, heq⟩ := naturalLeaves_cases freqs
  · exact heq
  · rw [heq, List.length_cons, List.length_singleton] at hlt
    omega

theorem Limits.length_live : (naturalCoded freqs).length = (freqs.filter (· ≠ 0)).length := by
  rw [← length_realLeaves 0, ← h.naturalLeaves_eq, ← h.natural.map_node_naturalCoded, List.length_map]

theorem Limits.two_le_live : 2 ≤ (freqs.filter (· ≠ 0)).length := by
  have hlt := h.natural.depth_lt_length
  have hdepth := h.depth
  have hcap := h.cap_pos
  rw [h.naturalLeaves_eq, length_realLeaves] at hlt
  omega

/-- The limited lengths are within the cap, complete, and weigh the least (R338). -/
theorem Limits.minimal : WithinCap cfg.cap.toNat (freqs.filter (· ≠ 0)).length ((limitedCoded cfg limiter freqs).map CodedLeaf.len) ∧
    kraftUnits cfg.cap.toNat ((limitedCoded cfg limiter freqs).map CodedLeaf.len) = 2 ^ cfg.cap.toNat ∧
    ∀ ns, WithinCap cfg.cap.toNat (freqs.filter (· ≠ 0)).length ns → kraftUnits cfg.cap.toNat ns ≤ 2 ^ cfg.cap.toNat →
      weightedLength (freqs.filter (· ≠ 0)) ((limitedCoded cfg limiter freqs).map CodedLeaf.len) ≤
        weightedLength (freqs.filter (· ≠ 0)) ns := by
  have hmin := limitLengths_minimal (limiter.proposal freqs cfg.cap.toNat) h.two_le_live h.room
  rwa [limitedCoded, map_len_withLengths (hmin.1.1.trans h.length_live.symm)]

theorem Limits.map_node : (limitedCoded cfg limiter freqs).map CodedLeaf.node = naturalLeaves freqs := by
  have hmin := limitLengths_minimal (limiter.proposal freqs cfg.cap.toNat) h.two_le_live h.room
  rw [limitedCoded, map_node_withLengths (hmin.1.1.trans h.length_live.symm), h.natural.map_node_naturalCoded]

end

/-! ## The outcomes of building -/

/-- What building can end with (R336, R338, R340, R341). -/
inductive BuildOutcome (cfg : HfCfg) (limiter : Limiter) (freqs : List Nat) : Built → Prop
  | empty (h : naturalArena freqs = []) :
    BuildOutcome cfg limiter freqs { tree := [], root := 0, book := [], limited := false, maxLen := 0 }
  | natural {t : CodeTree} (h : NaturalTree freqs t) (hcap : cfg.cap.toNat = 0 ∨ t.depth ≤ cfg.cap.toNat)
    (hcanon : cfg.canon = false) : BuildOutcome cfg limiter freqs (buildNatural cfg.width.alphabet (naturalArena freqs))
  | canonical {t : CodeTree} (h : NaturalTree freqs t) (hcap : cfg.cap.toNat = 0 ∨ t.depth ≤ cfg.cap.toNat)
    (hcanon : cfg.canon = true) :
    BuildOutcome cfg limiter freqs (buildCanonical cfg.width.alphabet false (naturalCoded freqs))
  | limited {t : CodeTree} (h : Limits cfg.cap.toNat freqs t) :
    BuildOutcome cfg limiter freqs (buildCanonical cfg.width.alphabet true (limitedCoded cfg limiter freqs))

theorem buildOutcome {cfg : HfCfg} {limiter : Limiter} {freqs : List Nat} {b : Built} (hlen : freqs.length ≤ 256)
    (hsum : freqs.sum < 2 ^ 32) (h : buildTree cfg limiter freqs = .ok b) : BuildOutcome cfg limiter freqs b := by
  by_cases hne : naturalArena freqs = []
  · rw [buildTree_of_empty hne] at h
    exact Except.ok.inj h ▸ .empty hne
  obtain ⟨t, ht⟩ := exists_naturalTree hlen hsum hne
  have hdepth := ht.naturalDepth_eq
  by_cases hcap : cfg.cap.toNat = 0 ∨ naturalDepth freqs ≤ cfg.cap.toNat
  · rw [buildTree_of_capMet hlen hsum hne hcap] at h
    rw [hdepth] at hcap
    cases hcanon : cfg.canon with
    | false =>
      rw [hcanon, if_neg Bool.false_ne_true] at h
      exact Except.ok.inj h ▸ .natural ht hcap hcanon
    | true =>
      rw [hcanon, if_pos rfl] at h
      exact Except.ok.inj h ▸ .canonical ht hcap hcanon
  · obtain ⟨hcap0, hcap⟩ := not_or.1 hcap
    by_cases hstop : cfg.limitEn = false ∨ 2 ^ cfg.cap.toNat < (freqs.filter (· ≠ 0)).length
    · rw [buildTree_of_capExceeded hlen hsum hne hcap0 (Nat.not_le.1 hcap) hstop] at h
      cases h
    · obtain ⟨hlim, hlive⟩ := not_or.1 hstop
      rw [buildTree_of_limited hlen hsum hne hcap0 (Nat.not_le.1 hcap) (Bool.eq_true_of_not_eq_false hlim)
        (Nat.not_lt.1 hlive)] at h
      exact Except.ok.inj h ▸ .limited ⟨ht, hcap0, hdepth ▸ Nat.not_le.1 hcap, Nat.not_lt.1 hlive⟩

/-! ## Optimality (R356, law 3) -/

/-- The lengths of the symbols that occur, each with its frequency. -/
def liveLengths (freqs lens : List Nat) : List (Nat × Nat) := (freqs.zip lens).filter fun x => x.1 ≠ 0

theorem assignedCost_liveLengths (freqs lens : List Nat) :
    assignedCost (liveLengths freqs lens) = ((freqs.zip lens).map fun x => x.1 * x.2).sum := by
  rw [liveLengths]
  induction freqs.zip lens with
  | nil => rfl
  | cons x xs ih => by_cases hx : x.1 = 0 <;> simpa [hx] using ih

section
variable {freqs lens : List Nat} {top : Nat} (h : CodeLengths freqs lens top)
include h

theorem CodeLengths.map_fst : (liveLengths freqs lens).map Prod.fst = freqs.filter (· ≠ 0) := by
  have hzip : (freqs.zip lens).map Prod.fst = freqs := List.map_fst_zip h.count.ge
  conv_rhs => rw [← hzip, List.filter_map]
  rfl

theorem CodeLengths.bounds {l : Nat} (hl : l ∈ (liveLengths freqs lens).map Prod.snd) : 1 ≤ l ∧ l ≤ top := by
  obtain ⟨x, hx, rfl⟩ := List.mem_map.1 hl
  obtain ⟨hmem, hne⟩ := List.mem_filter.1 hx
  exact h.bound x hmem (by simpa using hne)

theorem CodeLengths.assigns : Assigns top (freqs.filter (· ≠ 0)) (liveLengths freqs lens) where
  weights := .of_eq h.map_fst
  bound l hl := (h.bounds hl).2
  kraft := by
    rw [kraftUnits_eq_sum, List.map_map]
    exact h.kraft

theorem CodeLengths.withinCap {cap : Nat} (hcap : top ≤ cap) :
    WithinCap cap (freqs.filter (· ≠ 0)).length ((liveLengths freqs lens).map Prod.snd) := by
  refine ⟨?_, fun l hl => ⟨(h.bounds hl).1, (h.bounds hl).2.trans hcap⟩⟩
  rw [← h.map_fst, List.length_map, List.length_map]

/-- The Kraft sum in smaller units. -/
theorem CodeLengths.kraft_le {cap : Nat} (hcap : top ≤ cap) :
    kraftUnits cap ((liveLengths freqs lens).map Prod.snd) ≤ 2 ^ cap := by
  obtain ⟨d, rfl⟩ := Nat.exists_eq_add_of_le hcap
  have hscale : kraftUnits (top + d) ((liveLengths freqs lens).map Prod.snd) =
      2 ^ d * kraftUnits top ((liveLengths freqs lens).map Prod.snd) := by
    rw [kraftUnits_eq_sum, kraftUnits_eq_sum, ← List.sum_map_mul_left]
    refine congrArg List.sum (List.map_congr_left fun l hl => ?_)
    rw [← Nat.pow_add, show top + d - l = d + (top - l) by have := h.bounds hl; omega]
  rw [hscale, Nat.pow_add, Nat.mul_comm]
  exact Nat.mul_le_mul_right _ h.assigns.kraft

end

/-- The natural tree costs no more than any code lengths (R356). -/
theorem NaturalTree.cost_le {freqs : List Nat} {t : CodeTree} (ht : NaturalTree freqs t) (hsum : freqs.sum < 2 ^ 32)
    {lens : List Nat} {top : Nat} (h : CodeLengths freqs lens top) :
    t.cost (freqAt (naturalArena freqs)) ≤ assignedCost (liveLengths freqs lens) := by
  have hreal := map_freq_realLeaves 0 hsum
  obtain ⟨-, heq⟩ | ⟨l, hl, heq⟩ := naturalLeaves_cases freqs
  · refine ht.optimal top _ ?_
    rw [heq, hreal]
    exact h.assigns
  · rw [hl, List.map_singleton, ← h.map_fst] at hreal
    obtain ⟨⟨f, n⟩, hlive⟩ : ∃ x, liveLengths freqs lens = [x] :=
      List.length_eq_one_iff.1 (by simpa using (congrArg List.length hreal).symm)
    have hn : 1 ≤ n := (h.bounds (by simp [hlive])).1
    have hf : l.freq.toNat = f := by simpa [hlive] using hreal
    have hzero : (siblingOf l).freq.toNat = 0 := rfl
    have hpair : Assigns 1 ((naturalLeaves freqs).map fun n => n.freq.toNat) [(f, 1), (0, 1)] := by
      exact ⟨.of_eq (by simp [heq, hf, hzero]), by simp, by simp [kraftUnits]⟩
    refine (ht.optimal 1 _ hpair).trans ?_
    rw [hlive]
    simpa [assignedCost] using Nat.le_mul_of_pos_right f hn

/-- The coded natural leaves weigh no more than any code lengths (R356). -/
theorem NaturalTree.sum_mul_le {freqs : List Nat} {t : CodeTree} (ht : NaturalTree freqs t) (hsum : freqs.sum < 2 ^ 32)
    {lens : List Nat} {top : Nat} (h : CodeLengths freqs lens top) :
    ((naturalCoded freqs).map fun l => l.node.freq.toNat * l.len).sum ≤ assignedCost (liveLengths freqs lens) := by
  rw [ht.naturalCoded_eq, ht.stands.sum_pathCoded ht.nodup fun f n => f * n]
  exact ht.cost_le hsum h

/-- The limited leaves weigh no more than any code lengths within the cap (R338, R356). -/
theorem Limits.sum_mul_le {cfg : HfCfg} {limiter : Limiter} {freqs : List Nat} {t : CodeTree}
    (h : Limits cfg.cap.toNat freqs t) (hsum : freqs.sum < 2 ^ 32) {lens : List Nat} {top : Nat}
    (hlens : CodeLengths freqs lens top) (htop : top ≤ cfg.cap.toNat) :
    ((limitedCoded cfg limiter freqs).map fun l => l.node.freq.toNat * l.len).sum ≤
      assignedCost (liveLengths freqs lens) := by
  obtain ⟨-, -, hmin⟩ := h.minimal (limiter := limiter)
  have hfreqs : ((limitedCoded cfg limiter freqs).map fun l => l.node.freq.toNat) = freqs.filter (· ≠ 0) := by
    have hnodes := congrArg (List.map fun n : Node => n.freq.toNat) (h.map_node (limiter := limiter))
    rwa [List.map_map, h.naturalLeaves_eq, map_freq_realLeaves 0 hsum] at hnodes
  have hcost : assignedCost (liveLengths freqs lens) =
      weightedLength (freqs.filter (· ≠ 0)) ((liveLengths freqs lens).map Prod.snd) := by
    rw [weightedLength_eq_sum, ← hlens.map_fst, List.zip_map', assignedCost, List.map_map]
    rfl
  rw [sum_mul_eq_weightedLength, hfreqs, hcost]
  exact hmin _ (hlens.withinCap htop) (hlens.kraft_le htop)

/-- Settles O60: the natural tree by merging, the limited lengths by the table of R338. -/
theorem codeLengthsMinimal : Obligations.CodeLengthsMinimal := by
  unfold Obligations.CodeLengthsMinimal
  intro s t _ hexec herr
  obtain ⟨hsum, b, hb, rfl⟩ := exists_built hexec herr
  have hlen := s.length_frequencyWords_le
  have halph := s.length_frequencyWords
  have hweigh {ls : List CodedLeaf} (hls : (ls.map CodedLeaf.node).Perm (naturalLeaves s.frequencyWords)) :=
    codedLength_codebook hls hlen hsum
  rw [halph] at hweigh
  change (b.limited = true → ∀ sym, (bookEntry b.book sym).len ≤ _) ∧ ∀ lens top, _ → (b.limited = true → _) →
    codedLength _ b.book ≤ _
  simp only [← assignedCost_liveLengths]
  cases buildOutcome hlen hsum hb with
  | empty h =>
    refine ⟨fun hlim => absurd hlim Bool.false_ne_true, fun lens top _ _ => ?_⟩
    have hzero : codedLength s.frequencyWords [] = 0 := List.sum_eq_zero (by simp [bookEntry])
    exact hzero.trans_le (Nat.zero_le _)
  | natural ht hcap hcanon =>
    refine ⟨fun hlim => absurd hlim Bool.false_ne_true, fun lens top hlens _ => ?_⟩
    rw [buildNatural, ← naturalCoded, hweigh (.of_eq ht.map_node_naturalCoded)]
    exact ht.sum_mul_le hsum hlens
  | canonical ht hcap hcanon =>
    refine ⟨fun hlim => absurd hlim Bool.false_ne_true, fun lens top hlens _ => ?_⟩
    have hperm := assignCanonical_perm (naturalCoded s.frequencyWords)
    rw [buildCanonical, hweigh ((map_node_perm_of_shape hperm).trans (.of_eq ht.map_node_naturalCoded)),
      sum_mul_of_shape hperm]
    exact ht.sum_mul_le hsum hlens
  | limited h =>
    have hperm := assignCanonical_perm (limitedCoded s.hf.cfg s.params.limiter s.frequencyWords)
    refine ⟨fun _ sym => ?_, fun lens top hlens htop => ?_⟩
    · obtain ⟨⟨-, hbound⟩, -, -⟩ := h.minimal (limiter := s.params.limiter)
      obtain hnone | ⟨l, hl, -, heq⟩ := bookEntry_codebook_cases s.hf.cfg.width.alphabet
        (assignCanonical (limitedCoded s.hf.cfg s.params.limiter s.frequencyWords)) sym
      · rw [buildCanonical, hnone]
        exact Nat.zero_le _
      · rw [buildCanonical, heq]
        exact (hbound _ ((map_len_perm_of_shape hperm).mem_iff.1 (List.mem_map_of_mem hl))).2
    · rw [buildCanonical, hweigh ((map_node_perm_of_shape hperm).trans (.of_eq h.map_node)), sum_mul_of_shape hperm]
      exact h.sum_mul_le hsum hlens (htop rfl)

end Sys2Proof.Machine
end

section
/-! Canonical codes and the breadth-first arena (44_huffman.md R339, R341): the codes of complete lengths tile the code space, and the arena formed from a queue of prefixes reads them back. -/

namespace Sys2Proof.Machine

/-! ## Canonical order and codes -/

/-- The order of canonical assignment (R339). -/
def CodedLeaf.Before (a b : CodedLeaf) : Prop :=
  a.len < b.len ∨ (a.len = b.len ∧ a.node.sym.toNat < b.node.sym.toNat)

theorem CodedLeaf.before_iff {a b : CodedLeaf} : a.before b = true ↔ a.Before b := by simp [before, Before]

theorem CodedLeaf.Before.len_le {a b : CodedLeaf} (h : a.Before b) : a.len ≤ b.len := by
  obtain h | ⟨h, -⟩ := h <;> omega

theorem pairwise_insertCanonical {x : CodedLeaf} {ls : List CodedLeaf} (hs : ls.Pairwise CodedLeaf.Before)
    (hx : ∀ y ∈ ls, x.node.sym.toNat ≠ y.node.sym.toNat) : (insertCanonical x ls).Pairwise CodedLeaf.Before := by
  induction ls with
  | nil => exact List.pairwise_singleton _ _
  | cons y ys ih =>
    obtain ⟨hy, hys⟩ := List.pairwise_cons.1 hs
    obtain ⟨hxy, hxs⟩ := List.forall_mem_cons.1 hx
    rw [insertCanonical]
    split
    · next hb =>
      have hb := CodedLeaf.before_iff.1 hb
      refine List.pairwise_cons.2 ⟨List.forall_mem_cons.2 ⟨hb, fun z hz => ?_⟩, hs⟩
      have hyz := hy z hz
      simp only [CodedLeaf.Before] at hb hyz ⊢
      omega
    · next hb =>
      have hb := mt CodedLeaf.before_iff.2 hb
      refine List.pairwise_cons.2 ⟨fun z hz => ?_, ih hys hxs⟩
      obtain rfl | hz := List.mem_cons.1 ((insertCanonical_perm x ys).mem_iff.1 hz)
      · simp only [CodedLeaf.Before] at hb ⊢
        omega
      · exact hy z hz

theorem pairwise_sortCanonical {ls : List CodedLeaf} (h : (ls.map fun l => l.node.sym.toNat).Nodup) :
    (sortCanonical ls).Pairwise CodedLeaf.Before := by
  induction ls with
  | nil => exact .nil
  | cons l ls ih =>
    obtain ⟨hl, hls⟩ := List.nodup_cons.1 h
    refine pairwise_insertCanonical (ih hls) fun y hy heq => hl ?_
    exact List.mem_map.2 ⟨y, (sortCanonical_perm ls).mem_iff.1 hy, heq.symm⟩

/-- Assignment keeps the order. -/
theorem pairwise_assignCanonical {ls : List CodedLeaf} (h : (ls.map fun l => l.node.sym.toNat).Nodup) :
    (assignCanonical ls).Pairwise CodedLeaf.Before := by
  have hshape (ms : List CodedLeaf) : ms.Pairwise CodedLeaf.Before ↔ (ms.map CodedLeaf.shape).Pairwise fun x y =>
      x.2 < y.2 ∨ (x.2 = y.2 ∧ x.1.sym.toNat < y.1.sym.toNat) := by
    rw [List.pairwise_map]
    rfl
  rw [hshape, map_shape_assignCanonical, ← hshape]
  exact pairwise_sortCanonical h

/-- Each code after a leaf's follows from the code before it (R339). -/
theorem next_assignAfter (p : CodedLeaf) (ls : List CodedLeaf) {i : Nat} {a b : CodedLeaf}
    (ha : (p :: assignAfter p.code p.len ls)[i]? = some a) (hb : (p :: assignAfter p.code p.len ls)[i + 1]? = some b) :
    b.code = (a.code + 1) * 2 ^ (b.len - a.len) := by
  induction ls generalizing p i with
  | nil => simp [assignAfter] at hb
  | cons l ls ih =>
    cases i with
    | zero =>
      obtain rfl : p = a := by simpa using ha
      obtain rfl : { l with code := (p.code + 1) * 2 ^ (l.len - p.len) } = b := by simpa [assignAfter] using hb
      rfl
    | succ i => exact ih { l with code := (p.code + 1) * 2 ^ (l.len - p.len) } ha hb

/-- The codes assigned are canonical (R339). -/
theorem canonicalCodes_assignCanonical {ls : List CodedLeaf} (h : (ls.map fun l => l.node.sym.toNat).Nodup) :
    CanonicalCodes (assignCanonical ls) := by
  refine ⟨pairwise_assignCanonical h, fun l hl => ?_, fun i a b ha hb => ?_⟩
  · rw [assignCanonical] at hl
    cases hs : sortCanonical ls with
    | nil => simp [hs] at hl
    | cons m ms =>
      obtain rfl : { m with code := 0 } = l := by simpa [hs] using hl
      rfl
  · rw [assignCanonical] at ha hb
    cases hs : sortCanonical ls with
    | nil => simp [hs] at ha
    | cons m ms =>
      rw [hs] at ha hb
      exact next_assignAfter { m with code := 0 } ms ha hb

/-! ## Complete codes -/

/-- The codes, each as the numbers of `top` bits that begin with it, follow one another from `s` up to all numbers of `top` bits. -/
def Tiles (top : Nat) : Nat → List CodedLeaf → Prop
  | s, [] => s = 2 ^ top
  | s, l :: ls => l.len ≤ top ∧ l.code * 2 ^ (top - l.len) = s ∧ Tiles top (s + 2 ^ (top - l.len)) ls

theorem tiles_assignAfter {top code len : Nat} {ls : List CodedLeaf} (hlen : ∀ l ∈ ls, len ≤ l.len ∧ l.len ≤ top)
    (hsorted : ls.Pairwise (·.len ≤ ·.len))
    (hkraft : (code + 1) * 2 ^ (top - len) + kraftUnits top (ls.map CodedLeaf.len) = 2 ^ top) :
    Tiles top ((code + 1) * 2 ^ (top - len)) (assignAfter code len ls) := by
  induction ls generalizing code len with
  | nil => exact hkraft
  | cons l ls ih =>
    obtain ⟨⟨hlo, hhi⟩, hls⟩ := List.forall_mem_cons.1 hlen
    obtain ⟨hl, hsorted⟩ := List.pairwise_cons.1 hsorted
    have hstart : (code + 1) * 2 ^ (l.len - len) * 2 ^ (top - l.len) = (code + 1) * 2 ^ (top - len) := by
      rw [Nat.mul_assoc, ← Nat.pow_add, show l.len - len + (top - l.len) = top - len by omega]
    have hend : (code + 1) * 2 ^ (top - len) + 2 ^ (top - l.len) =
        ((code + 1) * 2 ^ (l.len - len) + 1) * 2 ^ (top - l.len) := by
      rw [Nat.add_mul ((code + 1) * 2 ^ (l.len - len)), hstart, Nat.one_mul]
    refine ⟨hhi, hstart, ?_⟩
    dsimp only
    rw [hend]
    refine ih (fun m hm => ⟨hl m hm, (hls m hm).2⟩) hsorted ?_
    rw [← hend, Nat.add_assoc, ← hkraft]
    rfl

/-- Canonical codes of complete lengths tile the code space (R338, R339). -/
theorem tiles_assignCanonical {top : Nat} {ls : List CodedLeaf} (hsyms : (ls.map fun l => l.node.sym.toNat).Nodup)
    (hlen : ∀ l ∈ ls, l.len ≤ top) (hkraft : kraftUnits top (ls.map CodedLeaf.len) = 2 ^ top) :
    Tiles top 0 (assignCanonical ls) := by
  have hperm := sortCanonical_perm ls
  have hsorted := pairwise_sortCanonical hsyms
  rw [← kraftUnits_perm (hperm.map _)] at hkraft
  replace hlen : ∀ l ∈ sortCanonical ls, l.len ≤ top := fun l hl => hlen l (hperm.mem_iff.1 hl)
  rw [assignCanonical]
  cases hs : sortCanonical ls with
  | nil =>
    rw [hs] at hkraft
    exact absurd hkraft (Nat.two_pow_pos top).ne
  | cons l rest =>
    rw [hs] at hkraft hsorted hlen
    obtain ⟨hl, hrest⟩ := List.forall_mem_cons.1 hlen
    obtain ⟨hbefore, hsorted⟩ := List.pairwise_cons.1 hsorted
    refine ⟨hl, Nat.zero_mul _, ?_⟩
    have htiles := tiles_assignAfter (code := 0) (len := l.len) (fun m hm => ⟨(hbefore m hm).len_le, hrest m hm⟩)
      (hsorted.imp CodedLeaf.Before.len_le) (by rwa [Nat.zero_add, Nat.one_mul])
    rw [Nat.zero_add, Nat.one_mul] at htiles
    rw [Nat.zero_add]
    exact htiles

/-- The number of `top` bits begins with the leaf's code. -/
def CodedLeaf.Holds (top x : Nat) (l : CodedLeaf) : Prop := x / 2 ^ (top - l.len) = l.code

theorem CodedLeaf.holds_iff {top x : Nat} {l : CodedLeaf} :
    l.Holds top x ↔ l.code * 2 ^ (top - l.len) ≤ x ∧ x < l.code * 2 ^ (top - l.len) + 2 ^ (top - l.len) := by
  rw [Holds, Nat.div_eq_iff (Nat.two_pow_pos _)]
  have := Nat.two_pow_pos (top - l.len)
  constructor <;> intro h <;> constructor <;> omega

/-- Every number of `top` bits begins with the code of one leaf. -/
structure CompleteCode (top : Nat) (ls : List CodedLeaf) : Prop where
  len_le : ∀ l ∈ ls, l.len ≤ top
  code_lt : ∀ l ∈ ls, l.code < 2 ^ l.len
  cover : ∀ x < 2 ^ top, ∃ l ∈ ls, l.Holds top x
  unique : ∀ l ∈ ls, ∀ m ∈ ls, ∀ x, l.Holds top x → m.Holds top x → l = m
  nodup : ls.Nodup

section
variable {top s : Nat} {ls : List CodedLeaf}

theorem Tiles.bounds (h : Tiles top s ls) : s ≤ 2 ^ top ∧
    ∀ l ∈ ls, l.len ≤ top ∧ s ≤ l.code * 2 ^ (top - l.len) ∧ l.code * 2 ^ (top - l.len) + 2 ^ (top - l.len) ≤ 2 ^ top := by
  induction ls generalizing s with
  | nil => exact ⟨Nat.le_of_eq h, nofun⟩
  | cons l ls ih =>
    obtain ⟨hlen, hstart, hrest⟩ := h
    obtain ⟨hle, hls⟩ := ih hrest
    refine ⟨Nat.le_of_add_right_le hle, List.forall_mem_cons.2 ⟨⟨hlen, hstart.ge, hstart ▸ hle⟩, fun m hm => ?_⟩⟩
    obtain ⟨hm, hlo, hhi⟩ := hls m hm
    exact ⟨hm, (Nat.le_add_right _ _).trans hlo, hhi⟩

theorem Tiles.cover (h : Tiles top s ls) {x : Nat} (hs : s ≤ x) (hx : x < 2 ^ top) : ∃ l ∈ ls, l.Holds top x := by
  induction ls generalizing s with
  | nil =>
    have : s = 2 ^ top := h
    omega
  | cons l ls ih =>
    obtain ⟨-, hstart, hrest⟩ := h
    by_cases hlt : x < s + 2 ^ (top - l.len)
    · exact ⟨l, List.mem_cons_self, CodedLeaf.holds_iff.2 (by omega)⟩
    · obtain ⟨m, hm, hholds⟩ := ih hrest (Nat.not_lt.1 hlt)
      exact ⟨m, List.mem_cons_of_mem l hm, hholds⟩

/-- Earlier tiles end before later ones begin. -/
theorem Tiles.pairwise (h : Tiles top s ls) :
    ls.Pairwise fun l m => l.code * 2 ^ (top - l.len) + 2 ^ (top - l.len) ≤ m.code * 2 ^ (top - m.len) := by
  induction ls generalizing s with
  | nil => exact .nil
  | cons l ls ih =>
    obtain ⟨-, hstart, hrest⟩ := h
    exact List.pairwise_cons.2 ⟨fun m hm => hstart ▸ (hrest.bounds.2 m hm).2.1, ih hrest⟩

theorem Tiles.completeCode (h : Tiles top 0 ls) : CompleteCode top ls where
  len_le l hl := (h.bounds.2 l hl).1
  code_lt l hl := by
    obtain ⟨hlen, -, hend⟩ := h.bounds.2 l hl
    have hsplit : 2 ^ top = 2 ^ l.len * 2 ^ (top - l.len) := by rw [← Nat.pow_add, Nat.add_sub_cancel' hlen]
    rw [hsplit, ← Nat.succ_mul] at hend
    exact Nat.le_of_mul_le_mul_right hend (Nat.two_pow_pos _)
  cover x hx := h.cover (Nat.zero_le x) hx
  unique l hl m hm x hlx hmx := by
    by_contra hne
    have hsymm : Std.Symm fun l m : CodedLeaf => ¬ (l.Holds top x ∧ m.Holds top x) := ⟨fun _ _ h => mt And.symm h⟩
    have hapart : ls.Pairwise fun l m => ¬ (l.Holds top x ∧ m.Holds top x) := h.pairwise.imp fun hlm ⟨hl, hm⟩ => by
      rw [CodedLeaf.holds_iff] at hl hm
      omega
    exact hapart.forall hl hm hne ⟨hlx, hmx⟩
  nodup := h.pairwise.imp fun {l m} hlm heq => by
    have := Nat.two_pow_pos (top - l.len)
    rw [heq] at hlm this
    omega

end

/-! ## Prefixes -/

/-- The leaf's code begins with these bits (R341). -/
def CodedLeaf.under (code len : Nat) (l : CodedLeaf) : Bool := len ≤ l.len && l.code / 2 ^ (l.len - len) == code

theorem CodedLeaf.under_iff {code len : Nat} {l : CodedLeaf} :
    l.under code len = true ↔ len ≤ l.len ∧ l.code / 2 ^ (l.len - len) = code := by simp [under]

theorem CodedLeaf.under_self (l : CodedLeaf) : l.under l.code l.len = true := by simp [under]

/-- The leaves whose codes begin with these bits. -/
def leavesBelow (ls : List CodedLeaf) (code len : Nat) : List CodedLeaf := ls.filter (CodedLeaf.under code len)

theorem prefixFreq_eq_sum (ls : List CodedLeaf) (code len : Nat) :
    prefixFreq ls code len = ((leavesBelow ls code len).map fun l => l.node.freq.toNat).sum := by
  have hfold (ms : List CodedLeaf) (f : Nat) :
      ms.foldl (fun f l => f + l.node.freq.toNat) f = f + (ms.map fun l => l.node.freq.toNat).sum := by
    induction ms generalizing f with
    | nil => rfl
    | cons l ms ih => rw [List.foldl_cons, ih, List.map_cons, List.sum_cons, Nat.add_assoc]
  exact (hfold _ 0).trans (Nat.zero_add _)

/-- No leaf has this code. -/
def NotLeaf (ls : List CodedLeaf) (code len : Nat) : Prop := ∀ l ∈ ls, ¬ (l.len = len ∧ l.code = code)

/-- Where no leaf's code ends, every code goes on. -/
theorem NotLeaf.lt_of_under {ls : List CodedLeaf} {code len : Nat} (h : NotLeaf ls code len) {l : CodedLeaf} (hl : l ∈ ls)
    (hu : l.under code len = true) : len < l.len := by
  obtain ⟨hle, hcode⟩ := CodedLeaf.under_iff.1 hu
  refine hle.lt_of_ne fun heq => h l hl ⟨heq.symm, ?_⟩
  rwa [heq, Nat.sub_self, Nat.pow_zero, Nat.div_one] at hcode

/-- A longer code goes on with one of the two bits. -/
theorem CodedLeaf.under_iff_child {code len : Nat} {l : CodedLeaf} (h : len < l.len) :
    (l.under code len = true ↔ l.under (2 * code) (len + 1) = true ∨ l.under (2 * code + 1) (len + 1) = true) ∧
    ¬ (l.under (2 * code) (len + 1) = true ∧ l.under (2 * code + 1) (len + 1) = true) := by
  have hhalf : l.code / 2 ^ (l.len - len) = l.code / 2 ^ (l.len - (len + 1)) / 2 := by
    rw [Nat.div_div_eq_div_mul, ← Nat.pow_succ, show l.len - len = (l.len - (len + 1)).succ by omega]
  simp only [under_iff, hhalf]
  omega

theorem filter_perm_append {α : Type} {P Q R : α → Bool} {xs : List α}
    (h : ∀ x ∈ xs, (P x = true ↔ Q x = true ∨ R x = true) ∧ ¬ (Q x = true ∧ R x = true)) :
    (xs.filter P).Perm (xs.filter Q ++ xs.filter R) := by
  induction xs with
  | nil => exact .nil
  | cons x xs ih =>
    obtain ⟨⟨hiff, hnot⟩, hxs⟩ := List.forall_mem_cons.1 h
    have ih := ih hxs
    cases hq : Q x with
    | true =>
      have hr : R x = false := Bool.eq_false_iff.2 fun hr => hnot ⟨hq, hr⟩
      rw [List.filter_cons_of_pos (hiff.2 (.inl hq)), List.filter_cons_of_pos hq, List.filter_cons_of_neg (by simp [hr])]
      exact ih.cons x
    | false =>
      rw [List.filter_cons_of_neg (p := Q) (by simp [hq])]
      cases hr : R x with
      | true =>
        rw [List.filter_cons_of_pos (hiff.2 (.inr hr)), List.filter_cons_of_pos hr]
        exact (ih.cons x).trans List.perm_middle.symm
      | false =>
        have hp : ¬ P x = true := fun hp => by
          have := hiff.1 hp
          simp [hq, hr] at this
        rwa [List.filter_cons_of_neg hp, List.filter_cons_of_neg (by simp [hr])]

/-- Where no leaf's code ends, the leaves below are those below the two children. -/
theorem NotLeaf.leavesBelow_perm {ls : List CodedLeaf} {code len : Nat} (h : NotLeaf ls code len) :
    (leavesBelow ls code len).Perm (leavesBelow ls (2 * code) (len + 1) ++ leavesBelow ls (2 * code + 1) (len + 1)) := by
  refine filter_perm_append fun l hl => ?_
  by_cases hlt : len < l.len
  · exact CodedLeaf.under_iff_child hlt
  · have hchild (c : Nat) : ¬ l.under c (len + 1) = true := fun hu => hlt (CodedLeaf.under_iff.1 hu).1
    simp [mt (h.lt_of_under hl) hlt, hchild]

/-- First bits of codes: no leaf's code ends before them. -/
structure LivePrefix (ls : List CodedLeaf) (top code len : Nat) : Prop where
  len_le : len ≤ top
  code_lt : code < 2 ^ len
  not_past : ∀ l ∈ ls, l.len < len → code / 2 ^ (len - l.len) ≠ l.code

/-- The first bits of a code followed by zeros. -/
theorem mul_two_pow_div {top a b : Nat} (c : Nat) (hab : a ≤ b) (hb : b ≤ top) :
    c * 2 ^ (top - b) / 2 ^ (top - a) = c / 2 ^ (b - a) := by
  rw [show top - a = b - a + (top - b) by omega, Nat.pow_add, Nat.mul_div_mul_right _ _ (Nat.two_pow_pos _)]

section
variable {top : Nat} {ls : List CodedLeaf} (hc : CompleteCode top ls) {code len : Nat}
include hc

/-- Some code begins with live bits: the one that these bits and zeros begin with. -/
theorem CompleteCode.exists_under (hp : LivePrefix ls top code len) : ∃ l ∈ ls, l.under code len = true := by
  have hx : code * 2 ^ (top - len) < 2 ^ top := by
    rw [← Nat.add_sub_cancel' hp.len_le, Nat.pow_add, Nat.add_sub_cancel_left]
    exact Nat.mul_lt_mul_of_pos_right hp.code_lt (Nat.two_pow_pos _)
  obtain ⟨l, hl, hholds⟩ := hc.cover _ hx
  have hlen := hc.len_le l hl
  have hle : len ≤ l.len := by
    by_contra hlt
    refine hp.not_past l hl (Nat.not_le.1 hlt) ?_
    rw [← mul_two_pow_div code (Nat.not_le.1 hlt).le hp.len_le]
    exact hholds
  refine ⟨l, hl, CodedLeaf.under_iff.2 ⟨hle, ?_⟩⟩
  rw [← hholds, Nat.div_div_eq_div_mul, ← Nat.pow_add, show top - l.len + (l.len - len) = top - len by omega,
    Nat.mul_div_cancel _ (Nat.two_pow_pos _)]

/-- Only the leaf is below its code. -/
theorem CompleteCode.eq_of_under {l m : CodedLeaf} (hl : l ∈ ls) (hm : m ∈ ls) (hu : m.under l.code l.len = true) : m = l := by
  obtain ⟨hle, hcode⟩ := CodedLeaf.under_iff.1 hu
  refine hc.unique m hm l hl (m.code * 2 ^ (top - m.len)) (Nat.mul_div_cancel _ (Nat.two_pow_pos _)) ?_
  rw [CodedLeaf.Holds, mul_two_pow_div m.code hle (hc.len_le m hm), hcode]

theorem CompleteCode.leavesBelow_leaf {l : CodedLeaf} (hl : l ∈ ls) : leavesBelow ls l.code l.len = [l] := by
  refine List.perm_singleton.1 ((List.perm_ext_iff_of_nodup (hc.nodup.filter _) (List.nodup_singleton l)).2 fun m => ?_)
  rw [List.mem_filter, List.mem_singleton]
  exact ⟨fun ⟨hm, hu⟩ => hc.eq_of_under hl hm hu, fun h => by subst h; exact ⟨hl, CodedLeaf.under_self _⟩⟩

/-- Where no leaf's code ends, the children are live too. -/
theorem CompleteCode.live_child (hp : LivePrefix ls top code len) (hn : NotLeaf ls code len) {b : Nat} (hb : b < 2) :
    LivePrefix ls top (2 * code + b) (len + 1) := by
  obtain ⟨l, hl, hu⟩ := hc.exists_under hp
  have hlt := hn.lt_of_under hl hu
  have hcode := hp.code_lt
  refine ⟨hlt.trans_le (hc.len_le l hl), by rw [Nat.pow_succ]; omega, fun m hm hmlen => ?_⟩
  have hhalf : (2 * code + b) / 2 ^ (len + 1 - m.len) = code / 2 ^ (len - m.len) := by
    rw [show len + 1 - m.len = len - m.len + 1 by omega, Nat.pow_succ', ← Nat.div_div_eq_div_mul,
      show (2 * code + b) / 2 = code by omega]
  rw [hhalf]
  obtain heq | hlt := (Nat.lt_succ_iff.1 hmlen).eq_or_lt
  · rw [heq, Nat.sub_self, Nat.pow_zero, Nat.div_one]
    exact fun h => hn m hm ⟨heq, h.symm⟩
  · exact hp.not_past m hm hlt

theorem CompleteCode.length_leavesBelow_pos (hp : LivePrefix ls top code len) : 1 ≤ (leavesBelow ls code len).length := by
  obtain ⟨l, hl, hu⟩ := hc.exists_under hp
  exact List.length_pos_of_mem (List.mem_filter.2 ⟨hl, hu⟩)

theorem CompleteCode.under_root {l : CodedLeaf} (hl : l ∈ ls) : l.under 0 0 = true :=
  CodedLeaf.under_iff.2 ⟨Nat.zero_le _, Nat.div_eq_of_lt (hc.code_lt l hl)⟩

end

theorem live_root (ls : List CodedLeaf) (top : Nat) : LivePrefix ls top 0 0 :=
  ⟨Nat.zero_le _, Nat.one_pos, fun _ _ h => absurd h (Nat.not_lt_zero _)⟩

/-! ## The breadth-first arena -/

/-- The two children in the queue, bit 0 first (R341). -/
def childPrefixes (code len : Nat) : List (Nat × Nat) := [(2 * code, len + 1), (2 * code + 1, len + 1)]

/-- The nodes the queued prefixes and those below them will form. -/
def queueNodes (ls : List CodedLeaf) (queue : List (Nat × Nat)) : Nat :=
  (queue.map fun p => 2 * (leavesBelow ls p.1 p.2).length - 1).sum

/-- Taking live prefixes from the queue until it is empty (R341). -/
theorem breadthFirst_induction {top : Nat} {ls : List CodedLeaf} (hc : CompleteCode top ls)
    {P : List (Nat × Nat) → Nat → List Node → Prop} (nil : ∀ next, P [] next [])
    (leaf : ∀ l ∈ ls, ∀ queue next out, P queue next out → P ((l.code, l.len) :: queue) next (l.node :: out))
    (inner : ∀ code len queue next out, NotLeaf ls code len → P (queue ++ childPrefixes code len) (next + 2) out →
      P ((code, len) :: queue) next (innerNode (prefixFreq ls code len) next (next + 1) :: out))
    {fuel : Nat} {queue : List (Nat × Nat)} (next : Nat) (hlive : ∀ p ∈ queue, LivePrefix ls top p.1 p.2)
    (hfuel : queueNodes ls queue ≤ fuel) : P queue next (breadthFirst ls fuel queue next) := by
  induction fuel generalizing queue next with
  | zero =>
    cases queue with
    | nil => exact nil next
    | cons p queue =>
      have hpos := hc.length_leavesBelow_pos (hlive p List.mem_cons_self)
      rw [queueNodes, List.map_cons, List.sum_cons] at hfuel
      omega
  | succ fuel ih =>
    match queue with
    | [] => exact nil next
    | (code, len) :: queue =>
      obtain ⟨hp, hqueue⟩ := List.forall_mem_cons.1 hlive
      rw [queueNodes, List.map_cons, List.sum_cons, ← queueNodes] at hfuel
      dsimp only at hp hfuel
      have hpos := hc.length_leavesBelow_pos hp
      rw [breadthFirst]
      cases hfind : ls.find? fun l => l.len == len && l.code == code with
      | some l =>
        obtain ⟨rfl, rfl⟩ : l.len = len ∧ l.code = code := by simpa using List.find?_some hfind
        exact leaf l (List.mem_of_find?_eq_some hfind) _ _ _ (ih next hqueue (by omega))
      | none =>
        have hn : NotLeaf ls code len := by simpa [NotLeaf] using hfind
        have h0 := hc.live_child hp hn (b := 0) (by decide)
        have h1 := hc.live_child hp hn (b := 1) (by decide)
        refine inner code len _ _ _ hn (ih (next + 2) (List.forall_mem_append.2
          ⟨hqueue, List.forall_mem_cons.2 ⟨h0, List.forall_mem_singleton.2 h1⟩⟩) ?_)
        have hlen := hn.leavesBelow_perm.length_eq
        have hpos0 := hc.length_leavesBelow_pos h0
        have hpos1 := hc.length_leavesBelow_pos h1
        rw [List.length_append] at hlen
        rw [Nat.add_zero] at hpos0
        rw [queueNodes, List.map_append, List.sum_append, ← queueNodes]
        simp only [childPrefixes, List.map_cons, List.map_nil, List.sum_cons, List.sum_nil]
        omega

/-- The first bits of codes stand at node i of the arena: as a leaf, or as an internal node with its two children at neighbouring indexes (R341). -/
inductive PrefixAt (ls : List CodedLeaf) (arena : List Node) : Nat → Nat → Nat → Prop
  | leaf {code len i : Nat} {l : CodedLeaf} (hl : l ∈ ls) (hcode : l.code = code) (hlen : l.len = len)
    (hi : arena[i]? = some l.node) : PrefixAt ls arena code len i
  | inner {code len i k : Nat} (hn : NotLeaf ls code len)
    (hi : arena[i]? = some (innerNode (prefixFreq ls code len) k (k + 1)))
    (h0 : PrefixAt ls arena (2 * code) (len + 1) k) (h1 : PrefixAt ls arena (2 * code + 1) (len + 1) (k + 1)) :
    PrefixAt ls arena code len i

/-- What a queue forms, whatever stands before it in the arena (R341). -/
structure FormedBy (ls : List CodedLeaf) (queue : List (Nat × Nat)) (next : Nat) (out : List Node) : Prop where
  size : out.length = queue.length + 2 * (out.filter fun n => !n.leaf).length
  stands : ∀ done, done.length + queue.length = next → ∀ j p, queue[j]? = some p →
    PrefixAt ls (done ++ out) p.1 p.2 (done.length + j)
  inner : ∀ done, done.length + queue.length = next → ∀ j n, (out.filter fun n => !n.leaf)[j]? = some n →
    ∃ code len, NotLeaf ls code len ∧ n = innerNode (prefixFreq ls code len) (next + 2 * j) (next + 2 * j + 1) ∧
      PrefixAt ls (done ++ out) (2 * code) (len + 1) (next + 2 * j) ∧
      PrefixAt ls (done ++ out) (2 * code + 1) (len + 1) (next + 2 * j + 1)

theorem formedBy_nil (ls : List CodedLeaf) (next : Nat) : FormedBy ls [] next [] where
  size := rfl
  stands _ _ j p h := by simp at h
  inner _ _ j n h := by simp at h

theorem FormedBy.leaf {ls : List CodedLeaf} {l : CodedLeaf} (hl : l ∈ ls) (hleaf : l.node.leaf = true)
    {queue : List (Nat × Nat)} {next : Nat} {out : List Node} (h : FormedBy ls queue next out) :
    FormedBy ls ((l.code, l.len) :: queue) next (l.node :: out) := by
  have hfilter : (l.node :: out).filter (fun n => !n.leaf) = out.filter fun n => !n.leaf :=
    List.filter_cons_of_neg (by simp [hleaf])
  have hdone (done : List Node) : done ++ l.node :: out = done ++ [l.node] ++ out := by simp
  have hnext {done : List Node} (hd : done.length + ((l.code, l.len) :: queue).length = next) :
      (done ++ [l.node]).length + queue.length = next := by
    rw [List.length_append, List.length_singleton, Nat.add_assoc, Nat.add_comm 1]
    exact hd
  refine ⟨?_, fun done hd j p hj => ?_, fun done hd j n hj => ?_⟩
  · rw [hfilter, List.length_cons, List.length_cons, h.size]
    omega
  · cases j with
    | zero =>
      obtain rfl : (l.code, l.len) = p := by simpa using hj
      exact .leaf hl rfl rfl (by simp)
    | succ j =>
      have := h.stands (done ++ [l.node]) (hnext hd) j p hj
      rwa [← hdone, List.length_append, List.length_singleton, Nat.add_assoc, Nat.add_comm 1] at this
  · rw [hdone]
    exact h.inner (done ++ [l.node]) (hnext hd) j n (hfilter ▸ hj)

theorem FormedBy.node {ls : List CodedLeaf} {code len : Nat} (hn : NotLeaf ls code len)
    {queue : List (Nat × Nat)} {next : Nat} {out : List Node} (h : FormedBy ls (queue ++ childPrefixes code len) (next + 2) out) :
    FormedBy ls ((code, len) :: queue) next (innerNode (prefixFreq ls code len) next (next + 1) :: out) := by
  generalize hm : innerNode (prefixFreq ls code len) next (next + 1) = m
  have hinner : m.leaf = false := hm ▸ rfl
  have hfilter : (m :: out).filter (fun n => !n.leaf) = m :: out.filter fun n => !n.leaf :=
    List.filter_cons_of_pos (by simp [hinner])
  have hdone (done : List Node) : done ++ m :: out = done ++ [m] ++ out := by simp
  have hlen : (queue ++ childPrefixes code len).length = queue.length + 2 := List.length_append
  have hstands {done : List Node} (hd : done.length + ((code, len) :: queue).length = next) {j : Nat} {p : Nat × Nat}
      (hj : (queue ++ childPrefixes code len)[j]? = some p) : PrefixAt ls (done ++ m :: out) p.1 p.2 (done.length + 1 + j) := by
    rw [List.length_cons] at hd
    have := h.stands (done ++ [m]) (by rw [List.length_append, List.length_singleton]; omega) j p hj
    rwa [← hdone, List.length_append, List.length_singleton] at this
  have hchildren {done : List Node} (hd : done.length + ((code, len) :: queue).length = next) :
      PrefixAt ls (done ++ m :: out) (2 * code) (len + 1) next ∧
      PrefixAt ls (done ++ m :: out) (2 * code + 1) (len + 1) (next + 1) := by
    have h0 := hstands hd (j := queue.length) (p := (2 * code, len + 1)) (by simp [childPrefixes])
    have h1 := hstands hd (j := queue.length + 1) (p := (2 * code + 1, len + 1)) (by simp [childPrefixes])
    rw [List.length_cons] at hd
    rw [show next = done.length + 1 + queue.length by omega]
    exact ⟨h0, h1⟩
  refine ⟨?_, fun done hd j p hj => ?_, fun done hd j n hj => ?_⟩
  · rw [hfilter, List.length_cons, List.length_cons, List.length_cons, h.size, hlen]
    omega
  · cases j with
    | zero =>
      obtain rfl : (code, len) = p := by simpa using hj
      obtain ⟨h0, h1⟩ := hchildren hd
      exact .inner hn (by simp [hm]) h0 h1
    | succ j =>
      rw [show done.length + (j + 1) = done.length + 1 + j by omega]
      refine hstands hd ?_
      rw [List.getElem?_append_left (Nat.lt_of_succ_lt_succ (List.getElem?_eq_some_iff.1 hj).1)]
      exact hj
  · rw [hfilter] at hj
    cases j with
    | zero =>
      obtain rfl : m = n := by simpa using hj
      exact ⟨code, len, hn, hm.symm, hchildren hd⟩
    | succ j =>
      rw [List.length_cons] at hd
      have := h.inner (done ++ [m]) (by rw [List.length_append, List.length_singleton]; omega) j n hj
      rwa [← hdone, show next + 2 + 2 * j = next + 2 * (j + 1) by omega] at this

section
variable {top : Nat} {ls : List CodedLeaf} (hc : CompleteCode top ls)
include hc

/-- The arena of canonical codes is formed from the root (R341). -/
theorem CompleteCode.formedBy (hleaf : ∀ l ∈ ls, l.node.leaf = true) : FormedBy ls [(0, 0)] 1 (canonicalArena ls) := by
  refine breadthFirst_induction hc (formedBy_nil ls) (fun l hl _ _ _ h => h.leaf hl (hleaf l hl))
    (fun _ _ _ _ _ hn h => h.node hn) 1 (List.forall_mem_singleton.2 (live_root ls top)) ?_
  have hle : (leavesBelow ls 0 0).length ≤ ls.length := List.length_filter_le _ _
  simp only [queueNodes, List.map_cons, List.map_nil, List.sum_cons, List.sum_nil]
  omega

theorem CompleteCode.freqAt_eq {arena : List Node} {code len i : Nat} (h : PrefixAt ls arena code len i) :
    freqAt arena i = prefixFreq ls code len % 2 ^ 32 := by
  cases h with
  | leaf hl hcode hlen hi =>
    rw [freqAt_of_getElem? hi, prefixFreq_eq_sum, ← hcode, ← hlen, hc.leavesBelow_leaf hl, List.map_singleton,
      List.sum_singleton, Nat.mod_eq_of_lt (BitVec.isLt _)]
  | inner hn hi h0 h1 => exact freqAt_of_getElem? hi

/-- The arena of canonical codes is in breadth-first order (R341). -/
theorem CompleteCode.breadthFirstArena (hleaf : ∀ l ∈ ls, l.node.leaf = true) : BreadthFirstArena (canonicalArena ls) := by
  have h := hc.formedBy hleaf
  refine ⟨by rw [h.size, List.length_singleton, Nat.add_comm], fun j n hj => ?_⟩
  obtain ⟨code, len, hn, rfl, h0, h1⟩ := h.inner [] rfl j n hj
  rw [List.nil_append, Nat.add_comm 1] at h0 h1
  have hsum : prefixFreq ls code len = prefixFreq ls (2 * code) (len + 1) + prefixFreq ls (2 * code + 1) (len + 1) := by
    simp only [prefixFreq_eq_sum]
    rw [(hn.leavesBelow_perm.map _).sum_eq, List.map_append, List.sum_append]
  have hword : word (prefixFreq ls code len) =
      word (freqAt (canonicalArena ls) (2 * j + 1) + freqAt (canonicalArena ls) (2 * j + 1 + 1)) := by
    rw [hc.freqAt_eq h0, hc.freqAt_eq h1, hsum]
    exact BitVec.eq_of_toNat_eq (Nat.add_mod _ _ _)
  rw [innerNode, hword, Nat.add_comm 1]

/-- Following the rest of a code from where its first bits stand ends at the leaf (R352). -/
theorem CompleteCode.walk {arena : List Node} (hleaf : ∀ l ∈ ls, l.node.leaf = true) (hsize : arena.length ≤ 2 ^ 32)
    {code len i : Nat} (h : PrefixAt ls arena code len i) {l : CodedLeaf} (hl : l ∈ ls) (hu : l.under code len = true)
    (rest : List Bool) : walkBits arena i (valueBits .msbFirst (l.len - len) l.code ++ rest) = some (l.node, rest) := by
  induction h with
  | leaf hm hcode hlen hi =>
    subst hcode hlen
    rw [hc.eq_of_under hm hl hu, Nat.sub_self]
    exact walkBits_of_leaf hi (hleaf _ hm) rest
  | @inner code len i k hn hi h0 h1 ih0 ih1 =>
    have hlt := hn.lt_of_under hl hu
    have hword {k : Nat} {code len : Nat} (h : PrefixAt ls arena code len k) : (word k).toNat = k := by
      have hk : k < arena.length := by
        cases h with
        | leaf _ _ _ hi => exact (List.getElem?_eq_some_iff.1 hi).1
        | inner _ hi _ _ => exact (List.getElem?_eq_some_iff.1 hi).1
      exact Nat.mod_eq_of_lt (hk.trans_le hsize)
    have hbit : l.code.testBit (l.len - (len + 1)) = decide (l.code / 2 ^ (l.len - (len + 1)) % 2 = 1) :=
      Nat.testBit_eq_decide_div_mod_eq
    rw [show l.len - len = l.len - (len + 1) + 1 by omega, valueBits_msbFirst_succ, List.cons_append,
      walkBits_of_inner hi rfl, hbit]
    obtain hu0 | hu1 := (CodedLeaf.under_iff_child hlt).1.1 hu
    · rw [(CodedLeaf.under_iff.1 hu0).2, decide_eq_false (by omega), if_neg Bool.false_ne_true]
      exact (hword h0).symm ▸ ih0 hu0
    · rw [(CodedLeaf.under_iff.1 hu1).2, decide_eq_true (by omega), if_pos rfl]
      exact (hword h1).symm ▸ ih1 hu1

/-- Every code of the arena of canonical codes is read there (R352). -/
theorem CompleteCode.readIn (hleaf : ∀ l ∈ ls, l.node.leaf = true) (hlen : ∀ l ∈ ls, 1 ≤ l.len ∧ l.len ≤ 64)
    (hsize : (canonicalArena ls).length ≤ 2 ^ 32) {l : CodedLeaf} (hl : l ∈ ls) : l.ReadIn (canonicalArena ls) 0 where
  pos := (hlen l hl).1
  short := (hlen l hl).2
  code := hc.code_lt l hl
  walk := hc.walk hleaf hsize ((hc.formedBy hleaf).stands [] rfl 0 (0, 0) rfl) hl (hc.under_root hl)

end

end Sys2Proof.Machine
end

section
/-! What HF_BUILD and HF_LOAD leave held: every code is read back by the tree, and after HF_BUILD both are those of the rules (44_huffman.md R333 to R344, R356). -/

namespace Sys2Proof.Machine

/-! ## Complete lengths of the natural leaves -/

theorem nodup_sym_naturalLeaves {freqs : List Nat} (hlen : freqs.length ≤ 256) :
    ((naturalLeaves freqs).map fun n => n.sym.toNat).Nodup := by
  have hreal : ((realLeaves 0 freqs).map fun n => n.sym.toNat).Nodup :=
    (List.pairwise_map.2 (pairwise_realLeaves (by omega))).imp Nat.ne_of_lt
  obtain ⟨-, heq⟩ | ⟨l, -, heq⟩ := naturalLeaves_cases freqs
  · rwa [heq]
  · have hne : l.sym.toNat ≠ (siblingOf l).sym.toNat := by
      have hzero : l.sym = 0 ↔ l.sym.toNat = 0 := by
        rw [← BitVec.toNat_inj]
        rfl
      by_cases h0 : l.sym = 0
      · simp [siblingOf, leafNode, h0]
      · rw [siblingOf, if_neg h0]
        exact mt hzero.2 h0
    rw [heq]
    simpa using hne

/-- Code lengths for the natural leaves that are complete, from 1 to 64, and fewer than the leaves (R337, R338). -/
structure NaturalLengths (freqs : List Nat) (ls : List CodedLeaf) : Prop where
  nodes : ls.map CodedLeaf.node = naturalLeaves freqs
  bounds : ∀ l ∈ ls, 1 ≤ l.len ∧ l.len ≤ 64
  few : ∀ l ∈ ls, l.len < (naturalLeaves freqs).length
  complete : ∃ top, (∀ l ∈ ls, l.len ≤ top) ∧ kraftUnits top (ls.map CodedLeaf.len) = 2 ^ top

section
variable {freqs : List Nat} {t : CodeTree} (h : NaturalTree freqs t)
include h

theorem NaturalTree.readIn {l : CodedLeaf} (hl : l ∈ naturalCoded freqs) : l.ReadIn (naturalArena freqs) t.idx :=
  h.stands.readIn h.nodup h.depth_pos h.depth_le (h.naturalCoded_eq ▸ hl)

theorem NaturalTree.len_le_depth {l : CodedLeaf} (hl : l ∈ naturalCoded freqs) : l.len ≤ t.depth :=
  (foldl_max_len_le_iff.1 h.maxLen_naturalCoded.le).2 l hl

/-- The depths of the natural leaves are complete lengths (R337). -/
theorem NaturalTree.naturalLengths : NaturalLengths freqs (naturalCoded freqs) where
  nodes := h.map_node_naturalCoded
  bounds l hl := ⟨(h.readIn hl).pos, (h.readIn hl).short⟩
  few l hl := (h.len_le_depth hl).trans_lt h.depth_lt_length
  complete := by
    refine ⟨t.depth, fun l hl => h.len_le_depth hl, ?_⟩
    rw [kraftUnits_eq_sum, List.map_map, h.naturalCoded_eq]
    exact (h.stands.sum_pathCoded h.nodup fun _ n => 2 ^ (t.depth - n)).trans (CodeTree.kraft_paths le_rfl)

end

/-- The limited lengths are complete lengths (R338). -/
theorem Limits.naturalLengths {cfg : HfCfg} (limiter : Limiter) {freqs : List Nat} {t : CodeTree}
    (h : Limits cfg.cap.toNat freqs t) : NaturalLengths freqs (limitedCoded cfg limiter freqs) := by
  obtain ⟨⟨-, hbound⟩, hkraft, -⟩ := h.minimal (limiter := limiter)
  replace hbound (l : CodedLeaf) (hl : l ∈ limitedCoded cfg limiter freqs) := hbound l.len (List.mem_map_of_mem hl)
  have hcap := cfg.cap.isLt
  refine ⟨h.map_node, fun l hl => ⟨(hbound l hl).1, (hbound l hl).2.trans (by omega)⟩, fun l hl => ?_,
    _, fun l hl => (hbound l hl).2, hkraft⟩
  exact ((hbound l hl).2.trans_lt h.depth).trans h.natural.depth_lt_length

/-! ## Coded trees -/

/-- The leaves of a table, each read in the tree by its code. -/
structure CodedTree (freqs : List Nat) (tree : List Node) (root : Nat) (ls : List CodedLeaf) : Prop where
  nodes : (ls.map CodedLeaf.node).Perm (naturalLeaves freqs)
  read : ∀ l ∈ ls, l.ReadIn tree root
  few : ∀ l ∈ ls, l.len < (naturalLeaves freqs).length

theorem NaturalTree.codedTree {freqs : List Nat} {t : CodeTree} (h : NaturalTree freqs t) :
    CodedTree freqs (naturalArena freqs) ((naturalArena freqs).length - 1) (naturalCoded freqs) :=
  ⟨.of_eq h.map_node_naturalCoded, fun _ hl => h.root ▸ h.readIn hl, h.naturalLengths.few⟩

/-- What holds of every length holds of the assigned ones. -/
theorem forall_len_assignCanonical {ls : List CodedLeaf} (P : Nat → Prop) (hP : ∀ l ∈ ls, P l.len) :
    ∀ l ∈ assignCanonical ls, P l.len := by
  intro l hl
  obtain ⟨m, hm, heq⟩ := List.mem_map.1
    ((map_len_perm_of_shape (assignCanonical_perm ls)).mem_iff.1 (List.mem_map_of_mem hl))
  exact heq ▸ hP m hm

section
variable {freqs : List Nat} {ls : List CodedLeaf} (h : NaturalLengths freqs ls) (hlen : freqs.length ≤ 256)
include h

theorem NaturalLengths.assigned_perm : ((assignCanonical ls).map CodedLeaf.node).Perm (naturalLeaves freqs) :=
  (map_node_perm_of_shape (assignCanonical_perm ls)).trans (.of_eq h.nodes)

theorem NaturalLengths.leaf_assigned : ∀ l ∈ assignCanonical ls, l.node.leaf = true := fun _ hl =>
  leaf_of_mem_naturalLeaves (h.assigned_perm.mem_iff.1 (List.mem_map_of_mem hl))

include hlen

theorem NaturalLengths.nodup_sym : (ls.map fun l => l.node.sym.toNat).Nodup := by
  have hsyms := nodup_sym_naturalLeaves hlen
  rwa [← h.nodes, List.map_map] at hsyms

theorem NaturalLengths.completeCode : ∃ top, CompleteCode top (assignCanonical ls) := by
  obtain ⟨top, hle, hkraft⟩ := h.complete
  exact ⟨top, (tiles_assignCanonical (h.nodup_sym hlen) hle hkraft).completeCode⟩

theorem NaturalLengths.length_canonicalArena_le : (canonicalArena (assignCanonical ls)).length ≤ 2 ^ 32 := by
  have hle := length_breadthFirst_le (assignCanonical ls) (2 * (assignCanonical ls).length - 1) [(0, 0)] 1
  have hcount := h.assigned_perm.length_eq
  have hleaves := length_naturalLeaves_le freqs
  rw [List.length_map] at hcount
  rw [canonicalArena]
  omega

/-- Canonical codes on the breadth-first arena are read there (R339, R341). -/
theorem NaturalLengths.codedTree :
    CodedTree freqs (canonicalArena (assignCanonical ls)) 0 (assignCanonical ls) := by
  obtain ⟨top, hc⟩ := h.completeCode hlen
  exact ⟨h.assigned_perm, fun l hl => hc.readIn h.leaf_assigned
      (forall_len_assignCanonical (fun n => 1 ≤ n ∧ n ≤ 64) h.bounds) (h.length_canonicalArena_le hlen) hl,
    forall_len_assignCanonical (fun n => n < (naturalLeaves freqs).length) h.few⟩

/-- The arena, the order and the codes are those of the rules (R339, R341). -/
theorem NaturalLengths.canonical : BreadthFirstArena (canonicalArena (assignCanonical ls)) ∧
    ∃ ms : List CodedLeaf, (ms.map CodedLeaf.node).Perm (leavesOf freqs) ∧ CanonicalCodes ms ∧
      ∀ l ∈ ms, walkBits (canonicalArena (assignCanonical ls)) 0 (valueBits .msbFirst l.len l.code) = some (l.node, []) := by
  obtain ⟨top, hc⟩ := h.completeCode hlen
  refine ⟨hc.breadthFirstArena h.leaf_assigned, assignCanonical ls, naturalLeaves_eq_leavesOf hlen ▸ h.assigned_perm,
    canonicalCodes_assignCanonical (h.nodup_sym hlen), fun l hl => ?_⟩
  have hwalk := ((h.codedTree hlen).read l hl).walk []
  rwa [List.append_nil] at hwalk

end

/-! ## The held codebook -/

section
variable {freqs : List Nat} {ls : List CodedLeaf} {h : Huffman} (hct : CodedTree freqs h.tree h.root.toNat ls)
  (hlen : freqs.length ≤ 256) (hbook : h.book = codebook freqs.length ls)
include hct hlen hbook

/-- A symbol that occurs has a code that leads to its leaf. -/
theorem CodedTree.codes {sym f : Nat} (hf : freqs[sym]? = some f) (hf0 : f ≠ 0) : 1 ≤ (bookEntry h.book sym).len ∧
    walkBits h.tree h.root.toNat (bookEntry h.book sym).bits = some (leafOf sym f, []) ∧
    (bookEntry h.book sym).code.toNat < 2 ^ (bookEntry h.book sym).len := by
  obtain ⟨l, hl, hnode, heq⟩ := exists_bookEntry hct.nodes hlen hf hf0
  have hread := hct.read l hl
  have hwalk := hread.walk []
  rw [List.append_nil, hnode] at hwalk
  rw [hbook, heq, CodedLeaf.bits_toCode hread.short]
  refine ⟨hread.pos, hwalk, lt_of_le_of_lt ?_ hread.code⟩
  exact Nat.mod_le _ _

/-- MAX_LEN is the largest code length; a synthesized leaf's is also the lone symbol's (R335, R343). -/
theorem CodedTree.maxLen (hne : ls ≠ []) (hmax : h.state.maxLen.toNat = ls.foldl (fun m l => max m l.len) 0) :
    (∀ sym, (bookEntry h.book sym).len ≤ h.state.maxLen.toNat) ∧
      ∃ sym, (bookEntry h.book sym).len = h.state.maxLen.toNat := by
  have hle := (foldl_max_len_le_iff.1 hmax.ge).2
  constructor
  · intro sym
    rw [hbook]
    obtain hnone | ⟨l, hl, -, heq⟩ := bookEntry_codebook_cases freqs.length ls sym
    · rw [hnone]
      exact Nat.zero_le _
    · rw [heq]
      exact hle l hl
  · obtain ⟨l, hl, hlen'⟩ := exists_len_eq_foldl_max hne
    rw [← hmax] at hlen'
    cases hs : l.node.synth with
    | false =>
      refine ⟨l.node.sym.toNat, ?_⟩
      rw [hbook, bookEntry_of_names hct.nodes hlen hl ⟨hs, rfl⟩]
      exact hlen'
    | true =>
      obtain ⟨-, heq⟩ | ⟨m, hm, heq⟩ := naturalLeaves_cases freqs
      · have hmem := hct.nodes.mem_iff.1 (List.mem_map_of_mem hl)
        rw [heq, ← filter_real_naturalLeaves, List.mem_filter, hs] at hmem
        exact absurd hmem.2 Bool.false_ne_true
      · obtain ⟨sym, f, hf, hf0, -⟩ := mem_realLeaves_iff.1 (hm ▸ List.mem_singleton_self m)
        obtain ⟨k, hk, -, hentry⟩ := exists_bookEntry hct.nodes hlen hf hf0
        have hone {l : CodedLeaf} (hl : l ∈ ls) : l.len = 1 := by
          have hpos := (hct.read l hl).pos
          have hfew := hct.few l hl
          rw [heq, List.length_cons, List.length_singleton] at hfew
          omega
        refine ⟨sym, ?_⟩
        rw [hbook, hentry, ← hlen', hone hl]
        exact hone hk

/-- Codes as long as the natural leaves are deep (R337, R343). -/
theorem CodedTree.lengths {t : CodeTree} (ht : NaturalTree freqs t) (hsum : freqs.sum < 2 ^ 32)
    (hshape : (ls.map CodedLeaf.shape).Perm ((naturalCoded freqs).map CodedLeaf.shape)) :
    ∃ arena, NaturalArena freqs arena ∧ ∀ sym f, freqs[sym]? = some f → f ≠ 0 →
      ∃ path : List Bool, path.length = (bookEntry h.book sym).len ∧
        walkBits arena (arena.length - 1) path = some (leafOf sym f, []) := by
  refine ⟨naturalArena freqs, naturalArena_spec hlen hsum, fun sym f hf hf0 => ?_⟩
  obtain ⟨l, hl, hnode, heq⟩ := exists_bookEntry hct.nodes hlen hf hf0
  obtain ⟨m, hm, hlm⟩ := List.mem_map.1 (hshape.mem_iff.1 (List.mem_map_of_mem hl))
  obtain ⟨hmnode, hmlen⟩ := Prod.mk.inj hlm
  have hwalk := (ht.readIn hm).walk []
  rw [List.append_nil, ht.root, hmnode, hnode] at hwalk
  refine ⟨_, ?_, hwalk⟩
  rw [length_valueBits, hmlen, hbook, heq]
  rfl

end

/-! ## After HF_BUILD -/

theorem SymWidth.maxNodes_le (w : SymWidth) : w.maxNodes ≤ 511 := by cases w <;> decide

/-- The largest code length fits MAX_LEN (R343). -/
theorem CodedTree.toNat_maxLen {freqs : List Nat} {tree : List Node} {root : Nat} {ls : List CodedLeaf}
    (h : CodedTree freqs tree root ls) : (BitVec.ofNat 7 (ls.foldl (fun m l => max m l.len) 0)).toNat =
      ls.foldl (fun m l => max m l.len) 0 := by
  have hle : ls.foldl (fun m l => max m l.len) 0 ≤ 64 := foldl_max_len_le_iff.2 ⟨Nat.zero_le _, fun l hl => (h.read l hl).short⟩
  exact Nat.mod_eq_of_lt (by omega)

/-- What holds of the tree and codebook held after HF_BUILD (R343, R356). -/
structure State.HeldAsBuilt (s : State) (b : Built) : Prop where
  readsBack : (s.built b).hf.ReadsBack
  codes : ∀ sym f, s.frequencyWords[sym]? = some f → f ≠ 0 → 1 ≤ (bookEntry (s.built b).hf.book sym).len
  from_freqs : (s.built b).hf.BuiltFrom s.frequencyWords

theorem cap_ne_zero_iff {c : BitVec 6} : c ≠ 0 ↔ c.toNat ≠ 0 := by
  rw [Ne, ← BitVec.toNat_inj]
  rfl

/-- No symbol occurs (R336). -/
theorem heldAsBuilt_of_empty {s : State} (hsum : s.frequencyWords.sum < 2 ^ 32) (h : naturalArena s.frequencyWords = []) :
    s.HeldAsBuilt { tree := [], root := 0, book := [], limited := false, maxLen := 0 } := by
  have harena := naturalArena_spec s.length_frequencyWords_le hsum
  have hzero {sym f : Nat} (hf : s.frequencyWords[sym]? = some f) : f = 0 := by
    by_contra hf0
    have hmem := mem_realLeaves_iff.2 ⟨sym, f, hf, hf0, rfl⟩
    rw [← filter_real_naturalLeaves, naturalArena_eq_nil_iff.1 h] at hmem
    exact List.not_mem_nil hmem
  refine ⟨nofun, fun sym f hf hf0 => absurd (hzero hf) hf0, ?_⟩
  refine ⟨fun sym f hf hf0 => absurd (hzero hf) hf0, fun _ _ => rfl, fun _ _ => ⟨h ▸ harena, rfl⟩,
    fun _ hne => absurd rfl hne, fun _ => ⟨_, harena, fun sym f hf hf0 => absurd (hzero hf) hf0⟩, ?_,
    fun _ => Nat.zero_le _, fun hne => absurd rfl hne⟩
  rw [naturalDepth_of_empty h]
  exact ⟨fun hlim => absurd hlim Bool.false_ne_true, fun hcap => absurd hcap.2 (Nat.not_lt_zero _)⟩

/-- What a built tree has of R343, apart from its shape. -/
structure State.BuiltCodes (s : State) (b : Built) (ls : List CodedLeaf) : Prop where
  coded : CodedTree s.frequencyWords b.tree b.root ls
  book : b.book = codebook s.hf.cfg.width.alphabet ls
  root : (word b.root).toNat = b.root
  maxLen : b.maxLen = ls.foldl (fun m l => max m l.len) 0
  shape : b.limited = false → (ls.map CodedLeaf.shape).Perm ((naturalCoded s.frequencyWords).map CodedLeaf.shape)
  limited : b.limited = true ↔ s.hf.cfg.cap ≠ 0 ∧ s.hf.cfg.cap.toNat < naturalDepth s.frequencyWords

theorem State.BuiltCodes.heldAsBuilt {s : State} {b : Built} {ls : List CodedLeaf} (h : s.BuiltCodes b ls)
    (hsum : s.frequencyWords.sum < 2 ^ 32) {t : CodeTree} (ht : NaturalTree s.frequencyWords t)
    (hnatural : s.hf.cfg.canon = false → b.limited = false →
      NaturalArena s.frequencyWords b.tree ∧ b.root = b.tree.length - 1)
    (hcanonical : s.hf.cfg.canon = true ∨ b.limited = true → word b.root = 0 ∧ BreadthFirstArena b.tree ∧
      ∃ ms : List CodedLeaf, (ms.map CodedLeaf.node).Perm (leavesOf s.frequencyWords) ∧ CanonicalCodes ms ∧
        ∀ l ∈ ms, walkBits b.tree 0 (valueBits .msbFirst l.len l.code) = some (l.node, [])) : s.HeldAsBuilt b := by
  have hroot : (s.built b).hf.root.toNat = b.root := h.root
  have hct : CodedTree s.frequencyWords (s.built b).hf.tree (s.built b).hf.root.toNat ls := hroot.symm ▸ h.coded
  have hlen := s.length_frequencyWords_le
  have hbook : (s.built b).hf.book = codebook s.frequencyWords.length ls := s.length_frequencyWords ▸ h.book
  have hmax : (s.built b).hf.state.maxLen.toNat = ls.foldl (fun m l => max m l.len) 0 :=
    (congrArg (fun n => (BitVec.ofNat 7 n).toNat) h.maxLen).trans h.coded.toNat_maxLen
  have hne : ls ≠ [] := by
    rintro rfl
    have hcount := h.coded.nodes.length_eq
    have := ht.depth_lt_length
    rw [← hcount] at this
    exact Nat.not_lt_zero _ this
  have hmaxLen := hct.maxLen hlen hbook hne hmax
  exact {
    readsBack := Huffman.readsBack_of_codebook h.book hct.read
    codes := fun sym f hf hf0 => (hct.codes hlen hbook hf hf0).1
    from_freqs := {
      codes := fun sym f hf hf0 => (hct.codes hlen hbook hf hf0).2
      noCode := fun sym h0 => hbook ▸ bookEntry_of_not_occurs hct.nodes hlen h0
      natural := fun hcanon hlim => ⟨(hnatural hcanon hlim).1, hroot.trans (hnatural hcanon hlim).2⟩
      canonical := fun hflag _ => hcanonical hflag
      lengths := fun hlim => hct.lengths hlen hbook ht hsum (h.shape hlim)
      limited := h.limited
      maxLen := ⟨hmaxLen.1, fun _ => hmaxLen.2⟩ } }

/-- Canonical codes of complete lengths (R339, R341). -/
theorem NaturalLengths.heldAsBuilt {s : State} {ls : List CodedLeaf} (h : NaturalLengths s.frequencyWords ls)
    (hsum : s.frequencyWords.sum < 2 ^ 32) {t : CodeTree} (ht : NaturalTree s.frequencyWords t) {limited : Bool}
    (hflag : s.hf.cfg.canon = true ∨ limited = true) (hshape : limited = false → ls = naturalCoded s.frequencyWords)
    (hlimited : limited = true ↔ s.hf.cfg.cap ≠ 0 ∧ s.hf.cfg.cap.toNat < naturalDepth s.frequencyWords) :
    s.HeldAsBuilt (buildCanonical s.hf.cfg.width.alphabet limited ls) := by
  have hlen := s.length_frequencyWords_le
  have hcodes : s.BuiltCodes (buildCanonical s.hf.cfg.width.alphabet limited ls) (assignCanonical ls) :=
    ⟨h.codedTree hlen, rfl, rfl, rfl, fun hlim => hshape hlim ▸ assignCanonical_perm ls, hlimited⟩
  refine hcodes.heldAsBuilt hsum ht (fun hcanon hlim => ?_) fun _ => ⟨rfl, h.canonical hlen⟩
  obtain hc | hl := hflag
  · exact absurd (hcanon.symm.trans hc) Bool.false_ne_true
  · exact absurd (hlim.symm.trans hl) Bool.false_ne_true

/-- The tree and the codebook of each outcome are those of the rules, and the tree reads the codes back (R333 to R343, R356). -/
theorem heldAsBuilt_of_outcome {s : State} {b : Built} (hsum : s.frequencyWords.sum < 2 ^ 32)
    (h : BuildOutcome s.hf.cfg s.params.limiter s.frequencyWords b) : s.HeldAsBuilt b := by
  have hlen := s.length_frequencyWords_le
  have hunlimited {t : CodeTree} (ht : NaturalTree s.frequencyWords t)
      (hcap : s.hf.cfg.cap.toNat = 0 ∨ t.depth ≤ s.hf.cfg.cap.toNat) :
      false = true ↔ s.hf.cfg.cap ≠ 0 ∧ s.hf.cfg.cap.toNat < naturalDepth s.frequencyWords := by
    rw [cap_ne_zero_iff, ht.naturalDepth_eq]
    refine ⟨fun hf => absurd hf Bool.false_ne_true, fun ⟨hcap0, hlt⟩ => ?_⟩
    omega
  cases h with
  | empty h => exact heldAsBuilt_of_empty hsum h
  | natural ht hcap hcanon =>
    have hsize : (naturalArena s.frequencyWords).length ≤ 511 := by
      have := ht.size
      have := length_naturalLeaves_le s.frequencyWords
      omega
    have hcodes : s.BuiltCodes (buildNatural s.hf.cfg.width.alphabet (naturalArena s.frequencyWords))
        (naturalCoded s.frequencyWords) :=
      ⟨ht.codedTree, rfl, Nat.mod_eq_of_lt (show (naturalArena s.frequencyWords).length - 1 < 2 ^ 32 by omega), rfl,
        fun _ => .refl _, hunlimited ht hcap⟩
    refine hcodes.heldAsBuilt hsum ht (fun _ _ => ⟨naturalArena_spec hlen hsum, rfl⟩) fun hflag => ?_
    obtain hc | hl := hflag
    · exact absurd (hcanon.symm.trans hc) Bool.false_ne_true
    · exact absurd hl Bool.false_ne_true
  | canonical ht hcap hcanon =>
    exact ht.naturalLengths.heldAsBuilt hsum ht (.inl hcanon) (fun _ => rfl) (hunlimited ht hcap)
  | limited h =>
    refine (h.naturalLengths s.params.limiter).heldAsBuilt hsum h.natural (.inr rfl) (fun hf => absurd hf.symm Bool.false_ne_true) ?_
    rw [cap_ne_zero_iff, h.natural.naturalDepth_eq]
    exact ⟨fun _ => ⟨h.cap_pos, h.depth⟩, fun _ => rfl⟩

/-- Settles O51: the outcome of building, or the tree that was loaded. -/
theorem heldTreesReadBack : Obligations.HeldTreesReadBack := by
  unfold Obligations.HeldTreesReadBack
  rintro i s t (rfl | rfl) - hexec herr
  · obtain ⟨hsum, b, hb, rfl⟩ := exists_built hexec herr
    obtain ⟨hread, hcodes, hfrom⟩ := heldAsBuilt_of_outcome hsum (buildOutcome s.length_frequencyWords_le hsum hb)
    refine ⟨rfl, ?_, hread.prefixFree, hread, fun _ => ⟨hcodes, hfrom⟩⟩
    have hsize := length_tree_le_maxNodes hb
    have hmax := s.hf.cfg.width.maxNodes_le
    exact Nat.mod_eq_of_lt (show b.tree.length < 2 ^ 32 by omega)
  · obtain ⟨-, rfl, tree, hload⟩ := exists_loadable hexec herr
    have hread : s.loaded.hf.ReadsBack := Huffman.readsBack_of_codebook rfl fun _ hl => hload.readIn hl
    refine ⟨rfl, ?_, hread.prefixFree, hread, nofun⟩
    simp [State.loaded]

end Sys2Proof.Machine
end

section
/-! The expander's history: what appending and copying do to it, and where they write (45_expander.md R390, R392, R393). -/

namespace Sys2Proof.Machine

/-! ## The history at an output position -/

/-- The history when w output bytes are written (R390). -/
def Expander.historyAt (e : Expander) (w : Nat) (m : Memory) : List Byte :=
  match e.direction with
  | .forward => m.getBytes e.prebufBase.toNat e.prebufSize.toNat ++ m.getBytes e.outBase.toNat w
  | .backward => (m.getBytes (e.outBase.toNat + (e.outCap.toNat - w)) w).reverse

theorem Expander.history_eq_historyAt (e : Expander) (m : Memory) : e.history m = e.historyAt e.pos.toNat m := rfl

theorem Expander.length_historyAt (e : Expander) (w : Nat) (m : Memory) :
    (e.historyAt w m).length = w + if e.direction = .forward then e.prebufSize.toNat else 0 := by
  unfold historyAt
  cases e.direction <;> simp [Nat.add_comm]

theorem Memory.getBytes_succ_last (m : Memory) (a n : Nat) : m.getBytes a (n + 1) = m.getBytes a n ++ [m.get (a + n)] :=
  m.getBytes_add a n 1

/-- The source byte of a back-reference is the history's byte d before its end (R390, R393). -/
theorem Expander.getD_historyAt (e : Expander) (m : Memory) {w d : Nat} (hd : 1 ≤ d) (hw : w < e.outCap.toNat)
    (hreach : d ≤ (e.historyAt w m).length) :
    (e.historyAt w m).getD ((e.historyAt w m).length - d) 0 = m.get (e.srcAddr w d) := by
  rw [length_historyAt] at hreach ⊢
  unfold historyAt srcAddr
  cases hdir : e.direction with
  | forward =>
    simp only [hdir, if_true] at hreach ⊢
    by_cases hdw : d ≤ w
    · rw [if_pos hdw, List.getD_eq_getElem?_getD, List.getElem?_append_right (by simp; omega), Memory.getElem?_getBytes,
        Memory.length_getBytes, if_pos (by omega), Option.getD_some]
      congr 1
      omega
    · rw [if_neg hdw, List.getD_eq_getElem?_getD, List.getElem?_append_left (by simp; omega), Memory.getElem?_getBytes,
        if_pos (by omega), Option.getD_some]
      congr 1
      omega
  | backward =>
    simp only [hdir, reduceCtorEq, if_false, Nat.add_zero] at hreach ⊢
    rw [List.getD_eq_getElem?_getD, List.getElem?_reverse (by simp; omega), Memory.getElem?_getBytes,
      Memory.length_getBytes, if_pos (by omega), Option.getD_some]
    congr 1
    omega

/-! ## Appending and copying -/

section
variable {e : Expander} (hapart : e.outWindow.Apart e.preWindow)
include hapart

/-- The next output byte ends the history (R390). -/
theorem Expander.historyAt_set {m : Memory} (hm : m.wf = true) {w : Nat} (hw : w < e.outCap.toNat) (b : Byte) :
    e.historyAt (w + 1) (m.set (e.outAddr w) b) = e.historyAt w m ++ [b] := by
  simp only [Window.Apart, outWindow, preWindow] at hapart
  unfold historyAt outAddr
  cases e.direction with
  | forward =>
    dsimp only
    have hpre : (m.set (e.outBase.toNat + w) b).getBytes e.prebufBase.toNat e.prebufSize.toNat =
        m.getBytes e.prebufBase.toNat e.prebufSize.toNat :=
      Memory.getBytes_congr fun x _ _ => Memory.get_set_ne _ _ (by omega)
    have hout : (m.set (e.outBase.toNat + w) b).getBytes e.outBase.toNat w = m.getBytes e.outBase.toNat w :=
      Memory.getBytes_congr fun x _ _ => Memory.get_set_ne _ _ (by omega)
    rw [hpre, Memory.getBytes_succ_last, hout, Memory.get_set_self hm, List.append_assoc]
  | backward =>
    dsimp only
    have hout : (m.set (e.outBase.toNat + (e.outCap.toNat - 1 - w)) b).getBytes
        (e.outBase.toNat + (e.outCap.toNat - w)) w = m.getBytes (e.outBase.toNat + (e.outCap.toNat - w)) w :=
      Memory.getBytes_congr fun x _ _ => Memory.get_set_ne _ _ (by omega)
    rw [show e.outCap.toNat - (w + 1) = e.outCap.toNat - 1 - w by omega, Memory.getBytes_succ, Memory.get_set_self hm,
      show e.outBase.toNat + (e.outCap.toNat - 1 - w) + 1 = e.outBase.toNat + (e.outCap.toNat - w) by omega, hout,
      List.reverse_cons]

theorem Expander.historyAt_appendBytes {m : Memory} (hm : m.wf = true) {w : Nat} {bs : List Byte}
    (hroom : w + bs.length ≤ e.outCap.toNat) :
    e.historyAt (w + bs.length) (appendBytes e m w bs) = e.historyAt w m ++ bs := by
  induction bs generalizing m w with
  | nil => exact (List.append_nil _).symm
  | cons b bs ih =>
    rw [List.length_cons] at hroom ⊢
    have hnext := ih (Memory.wf_set hm (e.outAddr w) b) (w := w + 1) (by omega)
    rw [historyAt_set hapart hm (by omega), List.append_assoc, List.singleton_append] at hnext
    rw [show w + (bs.length + 1) = w + 1 + bs.length by omega]
    exact hnext

theorem Expander.historyAt_copyBytes {m : Memory} (hm : m.wf = true) {w d n : Nat} (hd : 1 ≤ d)
    (hreach : d ≤ (e.historyAt w m).length) (hroom : w + n ≤ e.outCap.toNat) :
    e.historyAt (w + n) (copyBytes e d n w m) = copyHistory d n (e.historyAt w m) := by
  induction n generalizing m w with
  | zero => rfl
  | succ n ih =>
    have hset := historyAt_set hapart hm (w := w) (by omega) (m.get (e.srcAddr w d))
    have hnext := ih (Memory.wf_set hm (e.outAddr w) (m.get (e.srcAddr w d))) (w := w + 1)
      (by rw [hset, List.length_append]; omega) (by omega)
    rw [hset, ← e.getD_historyAt m hd (by omega) hreach] at hnext
    rw [show w + (n + 1) = w + 1 + n by omega, copyHistory, ← hnext, e.getD_historyAt m hd (by omega) hreach, copyBytes]

end

/-! ## What a token does -/

/-- An output position within the capacity fits EX_POS. -/
theorem Expander.toNat_word_pos_add {e : Expander} {n : Nat} (h : e.pos.toNat + n ≤ e.outCap.toNat) :
    (word (e.pos.toNat + n)).toNat = e.pos.toNat + n :=
  Nat.mod_eq_of_lt (h.trans_lt e.outCap.isLt)

/-- From s to t the output grows by n bytes, in a canonical memory: EX_POS moves on, only those bytes change, and the history becomes what f makes of it (R390, R392, R393). -/
structure Expands (s t : State) (n : Nat) (f : List Byte → List Byte) : Prop where
  state : t = { s with mem := t.mem, ex := { s.ex with pos := word (s.ex.pos.toNat + n) } }
  wf : t.mem.wf = true
  room : s.ex.pos.toNat + n ≤ s.ex.outCap.toNat
  kept : ∀ a, (∀ j < n, a ≠ s.ex.outAddr (s.ex.pos.toNat + j)) → t.mem.get a = s.mem.get a
  history : t.ex.history t.mem = f (s.ex.history s.mem)

namespace Expands

variable {s t v : State} {n k : Nat} {f g : List Byte → List Byte}

theorem refl (hm : s.mem.wf = true) (hpos : s.ex.pos.toNat ≤ s.ex.outCap.toNat) : Expands s s 0 id :=
  ⟨by rw [Nat.add_zero, word_toNat], hm, hpos, fun _ _ => rfl, rfl⟩

theorem ex_eq (h : Expands s t n f) : t.ex = { s.ex with pos := word (s.ex.pos.toNat + n) } := by rw [h.state]

theorem trans (h : Expands s t n f) (h' : Expands t v k g) : Expands s v (n + k) (g ∘ f) := by
  have hex := h.ex_eq
  obtain ⟨hstate, -, hroom, hkept, hhist⟩ := h
  obtain ⟨hstate', hwf, hroom', hkept', hhist'⟩ := h'
  have hpos : t.ex.pos.toNat = s.ex.pos.toNat + n := by rw [hex]; exact Expander.toNat_word_pos_add hroom
  have haddr (j : Nat) : t.ex.outAddr j = s.ex.outAddr j := by rw [hex]; rfl
  rw [hpos] at hstate' hroom' hkept'
  refine ⟨?_, hwf, ?_, fun a ha => ?_, ?_⟩
  · rw [hstate', hstate, Nat.add_assoc]
  · rw [hex] at hroom'
    rwa [← Nat.add_assoc]
  · rw [hkept' a fun j hj => ?_, hkept a fun j hj => ha j (by omega)]
    rw [haddr, Nat.add_assoc]
    exact ha (n + j) (by omega)
  · rw [hhist', hhist]
    rfl

/-- The bytes written are the n lowest of the output still free forward, the n highest backward (R390). -/
theorem sameOutside (h : Expands s t n f) : s.mem.SameOutside t.mem (s.ex.lowAddr n) n := by
  intro a ha
  refine h.kept a fun j hj => ?_
  have hroom := h.room
  unfold Expander.lowAddr at ha
  unfold Expander.outAddr
  cases hd : s.ex.direction <;> simp only [hd] at ha ⊢ <;> omega

theorem appendLiteral {v : Word} (hm : s.mem.wf = true) (hapart : s.ex.outWindow.Apart s.ex.preWindow)
    (hroom : s.ex.pos.toNat + s.ex.unit.bytes ≤ s.ex.outCap.toNat) :
    Expands s (s.appendLiteral v) s.ex.unit.bytes (· ++ literalBytes s.ex.unit v) := by
  have hlen := length_literalBytes s.ex.unit v
  refine ⟨rfl, wf_appendBytes _ hm _ _, hroom, fun a ha => get_appendBytes_of_ne _ _ _ (by rwa [hlen]), ?_⟩
  have h := Expander.historyAt_appendBytes hapart hm (bs := literalBytes s.ex.unit v) (by rwa [hlen])
  rw [hlen, ← Expander.toNat_word_pos_add hroom] at h
  exact h

theorem appendMatch {d len : Nat} (hm : s.mem.wf = true) (hapart : s.ex.outWindow.Apart s.ex.preWindow)
    (hok : s.ex.MatchOk d len) (hroom : s.ex.pos.toNat + len ≤ s.ex.outCap.toNat) :
    Expands s (s.appendMatch d len) len (copyHistory d len) := by
  obtain ⟨hd, -, -, -, hreach⟩ := hok
  refine ⟨rfl, wf_copyBytes _ _ _ _ hm, hroom, fun a ha => get_copyBytes_of_ne _ _ _ _ _ ha, ?_⟩
  have h := Expander.historyAt_copyBytes hapart hm hd (by rwa [Expander.length_historyAt]) hroom
  rw [← Expander.toNat_word_pos_add hroom] at h
  exact h

end Expands

end Sys2Proof.Machine
end

section
/-! The expander's commands: the checks of a token, and what EX_LIT, EX_MATCH and EX_STREAM do (45_expander.md R392 to R394, R397, R398). -/

namespace Sys2Proof.Machine

/-! ## The checks of a token (R398) -/

theorem Expander.badMatch_eq_false_iff {e : Expander} {d len : Nat} : e.badMatch d len = false ↔ e.MatchOk d len := by
  unfold badMatch
  cases hd : e.direction <;>
    simp [hd, MatchOk, Nat.one_le_iff_ne_zero, and_assoc]

theorem Expander.badMatch_eq_true_iff {e : Expander} {d len : Nat} : e.badMatch d len = true ↔ ¬ e.MatchOk d len := by
  rw [← badMatch_eq_false_iff, Bool.not_eq_false]

theorem Expander.lacksRoom_eq_true_iff {e : Expander} {len : Nat} :
    e.lacksRoom len = true ↔ e.outCap.toNat < e.pos.toNat + len := by
  simp [lacksRoom]

theorem Expander.expectedPos_eq (e : Expander) (len : Nat) : e.expectedPos len =
    if e.direction = .forward then e.pos.toNat else e.outCap.toNat - e.pos.toNat - len := by
  unfold expectedPos
  cases e.direction <;> rfl

/-! ## EX_LIT and EX_MATCH -/

theorem literalBytes_eq_map (u : UnitSize) (v : Word) :
    literalBytes u v = (List.range u.bytes).map fun j => v.extractLsb' (8 * j) 8 := by
  cases u <;> rfl

theorem exec_exLit {s : State} (h : s.ExReady) :
    exec .exLit s = if s.ex.lacksRoom s.ex.unit.bytes then .next (s.failed .outOfRangeWrite 0)
      else .next (s.appendLiteral s.arg0).complete :=
  checked_of_none (expanderChecks_eq_none.2 h)

theorem exec_exMatch {s : State} (h : s.ExReady) :
    exec .exMatch s = if s.ex.badMatch s.arg0.toNat s.arg1.toNat then .next (s.failed .malformedToken 0)
      else if s.ex.lacksRoom s.arg1.toNat then .next (s.failed .outOfRangeWrite 0)
      else .next (s.appendMatch s.arg0.toNat s.arg1.toNat).complete :=
  checked_of_none (expanderChecks_eq_none.2 h)

/-- Settles O57: the capacity decides between the appended unit and the error. -/
theorem exLitAppends : Obligations.ExLitAppends := by
  unfold Obligations.ExLitAppends
  intro s hready
  have hexec := exec_exLit hready
  obtain ⟨-, -, -, hapart⟩ := hready
  refine ⟨fun hroom hm => ?_, fun hfull => ?_⟩
  · have happ := Expands.appendLiteral (v := s.arg0) hm hapart hroom
    refine ⟨_, ?_, happ.sameOutside, ?_⟩
    · rw [hexec, if_neg (by rw [Expander.lacksRoom_eq_true_iff]; omega)]
      rfl
    · rw [← literalBytes_eq_map]
      exact happ.history
  · rw [hexec, if_pos (Expander.lacksRoom_eq_true_iff.2 hfull)]

/-- Settles O58: the token checks, then the capacity, decide between the copy and the two errors. -/
theorem exMatchAppends : Obligations.ExMatchAppends := by
  unfold Obligations.ExMatchAppends
  intro s hready
  have hexec := exec_exMatch hready
  obtain ⟨-, -, -, hapart⟩ := hready
  refine ⟨fun hok hroom hm => ?_, fun hbad => ?_, fun hok hfull => ?_⟩
  · have happ := Expands.appendMatch hm hapart hok hroom
    refine ⟨_, ?_, happ.sameOutside, happ.history⟩
    rw [hexec, if_neg (by rwa [Expander.badMatch_eq_true_iff, not_not]),
      if_neg (by rw [Expander.lacksRoom_eq_true_iff]; omega)]
    rfl
  · rw [hexec, if_pos (Expander.badMatch_eq_true_iff.2 hbad)]
  · rw [hexec, if_neg (by rwa [Expander.badMatch_eq_true_iff, not_not]), if_pos (Expander.lacksRoom_eq_true_iff.2 hfull)]

/-! ## One token of EX_STREAM -/

/-- The effect of an accepted token (R394). -/
def State.appendToken (s : State) (t : TokenWords) : State :=
  if t.kind = 0 then s.appendLiteral t.value else s.appendMatch t.value.toNat t.length.toNat

theorem Expander.fieldsOk_of_kind_eq_zero {e : Expander} {t : TokenWords} (h : t.kind = 0) :
    e.FieldsOk t ↔ t.length.toNat = e.unit.bytes ∧ t.value.toNat < 2 ^ (8 * e.unit.bytes) := by
  simp [FieldsOk, h]

theorem Expander.fieldsOk_of_kind_eq_one {e : Expander} {t : TokenWords} (h : t.kind = 1) :
    e.FieldsOk t ↔ e.MatchOk t.value.toNat t.length.toNat := by
  simp [FieldsOk, h]

/-- A token's fields and source are checked first, then its capacity, then its position (R394, R398). -/
theorem State.expandToken_eq (s : State) (t : TokenWords) :
    s.expandToken t.kind t.position t.value t.length =
      if ¬ s.ex.FieldsOk t then .error .malformedToken
      else if ¬ s.ex.HasRoom t then .error .outOfRangeWrite
      else if ¬ s.ex.InPlace t then .error .malformedToken
      else .ok (s.appendToken t) := by
  unfold expandToken
  simp only [Expander.lacksRoom_eq_true_iff, Expander.expectedPos_eq]
  by_cases h0 : t.kind = 0
  · simp only [Expander.fieldsOk_of_kind_eq_zero h0, Expander.HasRoom, Expander.InPlace, TokenWords.size, appendToken, h0,
      if_true, not_and_or, Nat.not_lt, Nat.not_le, ne_eq]
    rfl
  · by_cases h1 : t.kind = 1
    · simp only [Expander.fieldsOk_of_kind_eq_one h1, ← Expander.badMatch_eq_true_iff, Expander.HasRoom,
        Expander.InPlace, TokenWords.size, appendToken, if_neg h0, Nat.not_le, ne_eq]
      rw [if_neg (by rw [h1]; decide)]
    · have hk0 : t.kind.toNat ≠ 0 := fun h => h0 (BitVec.eq_of_toNat_eq h)
      have hk1 : t.kind.toNat ≠ 1 := fun h => h1 (BitVec.eq_of_toNat_eq h)
      have hfields : ¬ s.ex.FieldsOk t := by
        rintro (⟨h, -⟩ | ⟨h, -⟩)
        · exact h0 h
        · exact h1 h
      rw [if_pos (by omega), if_pos hfields]

theorem State.expandToken_of_accepts {s : State} {t : TokenWords} (h : s.ex.Accepts t) :
    s.expandToken t.kind t.position t.value t.length = .ok (s.appendToken t) := by
  obtain ⟨hfields, hroom, hplace⟩ := h
  rw [expandToken_eq, if_neg (not_not.2 hfields), if_neg (not_not.2 hroom), if_neg (not_not.2 hplace)]

/-- A token that is not accepted lacks the room, or is malformed (R394, R398). -/
theorem State.expandToken_of_not_accepts {s : State} {t : TokenWords} (h : ¬ s.ex.Accepts t) :
    s.expandToken t.kind t.position t.value t.length =
      .error (if s.ex.FieldsOk t ∧ ¬ s.ex.HasRoom t then .outOfRangeWrite else .malformedToken) := by
  rw [expandToken_eq]
  by_cases hfields : s.ex.FieldsOk t
  · by_cases hroom : s.ex.HasRoom t
    · have hplace : ¬ s.ex.InPlace t := fun hp => h ⟨hfields, hroom, hp⟩
      simp [hfields, hroom, hplace]
    · simp [hfields, hroom]
  · simp [hfields]

section
variable {s : State} {t : TokenWords} (h : s.ex.Accepts t)
include h

theorem Expander.Accepts.size_eq : t.size s.ex = t.length.toNat := by
  obtain ⟨⟨h0, hlen, -⟩ | ⟨h1, -⟩, -⟩ := h
  · rw [TokenWords.size, if_pos h0, hlen]
  · rw [TokenWords.size, if_neg (by rw [h1]; decide)]

theorem Expander.Accepts.room : s.ex.pos.toNat + t.length.toNat ≤ s.ex.outCap.toNat := by
  obtain ⟨-, hroom, -⟩ := id h
  rwa [HasRoom, h.size_eq] at hroom

theorem State.ex_appendToken : (s.appendToken t).ex = s.ex.advance t := by
  obtain ⟨⟨h0, hlen, -⟩ | ⟨h1, -⟩, -⟩ := h
  · rw [appendToken, if_pos h0, Expander.advance, hlen]
    rfl
  · rw [appendToken, if_neg (by rw [h1]; decide)]
    rfl

theorem ExpandsInto.appendToken : ExpandsInto s (s.appendToken t) :=
  expandToken_expandsInto (State.expandToken_of_accepts h)

/-- An accepted token extends the history (R392, R393). -/
theorem Expands.appendToken (hm : s.mem.wf = true) (hapart : s.ex.outWindow.Apart s.ex.preWindow) :
    Expands s (s.appendToken t) t.length.toNat (t.extend s.ex.unit) := by
  have hroom := h.room
  obtain ⟨hfields, -⟩ := h
  by_cases h0 : t.kind = 0
  · obtain ⟨hlen, -⟩ := (Expander.fieldsOk_of_kind_eq_zero h0).1 hfields
    have hext : t.extend s.ex.unit = (· ++ literalBytes s.ex.unit t.value) := by
      funext hist
      rw [TokenWords.extend, if_pos h0]
    rw [hext, State.appendToken, if_pos h0, hlen]
    exact .appendLiteral hm hapart (hlen ▸ hroom)
  · have hok : s.ex.MatchOk t.value.toNat t.length.toNat := by
      obtain ⟨h0', -⟩ | ⟨-, hok⟩ := hfields
      · exact absurd h0' h0
      · exact hok
    have hext : t.extend s.ex.unit = copyHistory t.value.toNat t.length.toNat := by
      funext hist
      rw [TokenWords.extend, if_neg h0]
    rw [hext, State.appendToken, if_neg h0]
    exact .appendMatch hm hapart hok hroom

end

/-! ## The token list -/

/-- The descriptor i of the expander's token window (R394). -/
def State.tokenAt (s : State) (i : Nat) : TokenWords :=
  let a := s.ex.tokBase.toNat + 16 * i
  ⟨s.mem.getWord a, s.mem.getWord (a + 4), s.mem.getWord (a + 8), s.mem.getWord (a + 12)⟩

theorem State.tokenList_eq_map (s : State) : s.tokenList = (List.range s.ex.tokCount.toNat).map s.tokenAt := rfl

theorem State.length_tokenList (s : State) : s.tokenList.length = s.ex.tokCount.toNat := by simp [tokenList_eq_map]

theorem expandStream_succ_of_accepts {n i : Nat} {s : State} (h : s.ex.Accepts (s.tokenAt i)) :
    expandStream (n + 1) i s = expandStream n (i + 1) (s.appendToken (s.tokenAt i)) := by
  have htok := State.expandToken_of_accepts h
  rw [expandStream]
  simp only [State.tokenAt] at htok ⊢
  rw [htok]

theorem expandStream_succ_of_not_accepts {n i : Nat} {s : State} (h : ¬ s.ex.Accepts (s.tokenAt i)) :
    expandStream (n + 1) i s = .error
      (if s.ex.FieldsOk (s.tokenAt i) ∧ ¬ s.ex.HasRoom (s.tokenAt i) then .outOfRangeWrite else .malformedToken, word i) := by
  have htok := State.expandToken_of_not_accepts h
  rw [expandStream]
  simp only [State.tokenAt] at htok ⊢
  rw [htok]

/-- What the expander writes leaves the descriptors it has still to read alone (R397). -/
theorem ExpandsInto.tokenAt_eq {s u : State} (h : ExpandsInto s u) (hapart : s.ex.outWindow.Apart s.ex.tokWindow) {i : Nat}
    (hi : i < s.ex.tokCount.toNat) : u.tokenAt i = s.tokenAt i := by
  obtain ⟨m, p, rfl, -, hkept⟩ := h
  simp only [Window.Apart, Expander.outWindow, Expander.tokWindow, Window.Holds] at hapart hkept
  have hword (j : Nat) (hj : j + 4 ≤ 16) :
      m.getWord (s.ex.tokBase.toNat + 16 * i + j) = s.mem.getWord (s.ex.tokBase.toNat + 16 * i + j) :=
    congrArg (fun bs => word (bytesValue .le bs)) (Memory.getBytes_congr fun x _ _ => hkept x (by omega))
  simp only [State.tokenAt, TokenWords.mk.injEq]
  exact ⟨hword 0 (by decide), hword 4 (by decide), hword 8 (by decide), hword 12 (by decide)⟩

theorem ExpandsInto.ex_windows {s u : State} (h : ExpandsInto s u) : u.ex.outWindow = s.ex.outWindow ∧
    u.ex.tokWindow = s.ex.tokWindow ∧ u.ex.tokCount = s.ex.tokCount := by
  obtain ⟨m, p, rfl, -⟩ := h
  exact ⟨rfl, rfl, rfl⟩

/-- EX_STREAM runs through accepted descriptors, each where the ones before it leave the expander, and writes only into the output window (R394). -/
theorem expandStream_of_acceptsAll {ts : List TokenWords} {k i : Nat} {s : State} (hacc : s.ex.AcceptsAll ts)
    (hapart : s.ex.outWindow.Apart s.ex.tokWindow) (hcount : i + ts.length ≤ s.ex.tokCount.toNat)
    (htoks : ∀ j t, ts[j]? = some t → s.tokenAt (i + j) = t) :
    expandStream (ts.length + k) i s = expandStream k (i + ts.length) (ts.foldl State.appendToken s) ∧
      ExpandsInto s (ts.foldl State.appendToken s) ∧ (ts.foldl State.appendToken s).ex = ts.foldl Expander.advance s.ex := by
  induction ts generalizing i s with
  | nil => exact ⟨by rw [List.length_nil, Nat.zero_add]; rfl, .refl s, rfl⟩
  | cons t ts ih =>
    obtain ⟨ht, hrest⟩ := hacc
    rw [List.length_cons] at hcount ⊢
    obtain rfl : s.tokenAt i = t := htoks 0 t rfl
    have hinto := ExpandsInto.appendToken ht
    obtain ⟨hout, htok, hcnt⟩ := hinto.ex_windows
    obtain ⟨hrun, hall, hex⟩ := ih (i := i + 1) (s := s.appendToken (s.tokenAt i))
      (by rwa [State.ex_appendToken ht]) (by rwa [hout, htok]) (by rw [hcnt]; omega) fun j t hj => by
        have hlt : j < ts.length := (List.getElem?_eq_some_iff.1 hj).1
        rw [hinto.tokenAt_eq hapart (by omega), Nat.add_right_comm, Nat.add_assoc]
        exact htoks (j + 1) t hj
    refine ⟨?_, hinto.trans hall, by rw [List.foldl_cons, hex, State.ex_appendToken ht, List.foldl_cons]⟩
    rw [show ts.length + 1 + k = ts.length + k + 1 by omega, expandStream_succ_of_accepts ht, hrun, List.foldl_cons,
      show i + 1 + ts.length = i + (ts.length + 1) by omega]

/-- Accepted tokens extend the history in order (R394). -/
theorem Expands.foldl_appendToken {ts : List TokenWords} {s : State} (hacc : s.ex.AcceptsAll ts) (hm : s.mem.wf = true)
    (hapart : s.ex.outWindow.Apart s.ex.preWindow) (hpos : s.ex.pos.toNat ≤ s.ex.outCap.toNat) :
    Expands s (ts.foldl State.appendToken s) (ts.map fun t => t.length.toNat).sum
      (fun h => ts.foldl (fun h t => t.extend s.ex.unit h) h) := by
  induction ts generalizing s with
  | nil => exact .refl hm hpos
  | cons t ts ih =>
    obtain ⟨ht, hrest⟩ := hacc
    have hone := Expands.appendToken ht hm hapart
    have hex := State.ex_appendToken ht
    have hmore := ih (s := s.appendToken t) (by rwa [hex]) hone.wf (by rwa [hex]) (by
      rw [hex]
      exact (Expander.toNat_word_pos_add ht.room).trans_le ht.room)
    rw [hex] at hmore
    exact hone.trans hmore

/-! ## EX_STREAM -/

theorem exec_exStream {s : State} (h : s.ExStreamReady) :
    exec .exStream s =
      match expandStream s.ex.tokCount.toNat 0 s with
      | .error e => .next ((s.anyWindow s.ex.outWindow).anyExPos.nextAny.raise e)
      | .ok u => .next u.complete :=
  (checked_of_none (expanderStreamChecks_eq_none.2 h)).trans (by cases expandStream s.ex.tokCount.toNat 0 s <;> rfl)

theorem State.tokenAt_of_getElem?_tokenList {s : State} {i : Nat} {t : TokenWords} (h : s.tokenList[i]? = some t) :
    s.tokenAt i = t := by
  obtain ⟨hlt, rfl⟩ := List.getElem?_eq_some_iff.1 h
  simp [tokenList_eq_map]

/-- Settles O59: the accepted tokens one after another, and the check that refuses the first other one. -/
theorem exStreamExpands : Obligations.ExStreamExpands := by
  unfold Obligations.ExStreamExpands
  intro s hready
  have hexec := exec_exStream hready
  obtain ⟨⟨⟨-, -, hpos⟩, -, -, hpre⟩, -, htok⟩ := hready
  refine ⟨fun hacc hm => ?_, fun before t after hlist hacc hbad => ?_⟩
  · obtain ⟨hrun, -, -⟩ := expandStream_of_acceptsAll (k := 0) (i := 0) hacc htok
      (by rw [s.length_tokenList, Nat.zero_add]) fun j t hj => by
        rw [Nat.zero_add]
        exact State.tokenAt_of_getElem?_tokenList hj
    have hall := Expands.foldl_appendToken hacc hm hpre hpos
    refine ⟨_, ?_, hall.sameOutside, hall.ex_eq ▸ hall.history⟩
    rw [hexec, ← s.length_tokenList]
    rw [Nat.add_zero] at hrun
    rw [hrun]
    exact congrArg (fun u : State => Host.Outcome.next u.complete) hall.state
  · have hat {j : Nat} {t' : TokenWords} (h : (before ++ t :: after)[j]? = some t') : s.tokenAt j = t' :=
      State.tokenAt_of_getElem?_tokenList (hlist ▸ h)
    have hcount : s.ex.tokCount.toNat = before.length + (after.length + 1) := by
      rw [← s.length_tokenList, hlist, List.length_append, List.length_cons]
    obtain ⟨hrun, hinto, hex⟩ := expandStream_of_acceptsAll (k := after.length + 1) (i := 0) hacc htok (by omega)
      fun j t' hj => by
        rw [Nat.zero_add]
        exact hat (List.getElem?_append_left (List.getElem?_eq_some_iff.1 hj).1 ▸ hj)
    have hnext : (before.foldl State.appendToken s).tokenAt before.length = t := by
      rw [hinto.tokenAt_eq htok (by omega)]
      exact hat (by simp)
    rw [Nat.zero_add, expandStream_succ_of_not_accepts (by rwa [hnext, hex]), hnext, hex] at hrun
    rw [hexec, hcount, hrun]
    exact ⟨_, _, rfl, fun a ha => Memory.get_havoc_of_outside _ _ ha⟩

end Sys2Proof.Machine
end

section
/-! The round trip: the expander accepts what LZ_PARSE wrote and gives the input back (45_expander.md R395). -/

namespace Sys2Proof.Machine

/-! ## Tokens of a parse as descriptors -/

/-- The descriptor of a token (R150). -/
def TokenWords.ofToken (t : Token) : TokenWords := ⟨t.kind.toWord, t.position, t.value, t.length⟩

/-- A unit's value is a literal's VALUE: no bit above the unit, and its bytes are the unit's (R290, R392). -/
theorem literalBytes_unitValue {u : UnitSize} {bs : List Byte} (h : bs.length = u.bytes) :
    (unitValue bs).toNat < 2 ^ (8 * u.bytes) ∧ literalBytes u (unitValue bs) = bs := by
  cases u with
  | one =>
    obtain ⟨a, rfl⟩ := List.length_eq_one_iff.1 h
    have ha := a.isLt
    have hv : (unitValue [a]).toNat = a.toNat := Nat.mod_eq_of_lt (show a.toNat < 2 ^ 32 by omega)
    refine ⟨hv ▸ ha, congrArg (fun b => [b]) (BitVec.eq_of_toNat_eq ?_)⟩
    rw [BitVec.extractLsb'_toNat, hv]
    exact Nat.mod_eq_of_lt ha
  | two =>
    obtain ⟨a, b, rfl⟩ := List.length_eq_two.1 h
    have ha := a.isLt
    have hb := b.isLt
    have hv : (unitValue [a, b]).toNat = a.toNat + 256 * b.toNat :=
      Nat.mod_eq_of_lt (show a.toNat + 256 * b.toNat < 2 ^ 32 by omega)
    refine ⟨by rw [hv, UnitSize.bytes]; omega,
      congrArg₂ (fun b c => [b, c]) (BitVec.eq_of_toNat_eq ?_) (BitVec.eq_of_toNat_eq ?_)⟩
    all_goals
      rw [BitVec.extractLsb'_toNat, hv, Nat.shiftRight_eq_div_pow]
      omega

/-- Copying within a string that repeats itself at displacement d prolongs its beginning (R253, R393). -/
theorem copyHistory_take {bs : List Byte} {d q n : Nat} (hd : 1 ≤ d) (hdq : d ≤ q) (hn : q + n ≤ bs.length)
    (hrep : ∀ i < n, bs[q + i]? = bs[q - d + i]?) : copyHistory d n (bs.take q) = bs.take (q + n) := by
  induction n generalizing q with
  | zero => rfl
  | succ n ih =>
    have hlen : (bs.take q).length = q := List.length_take_of_le (by omega)
    have hbyte : (bs.take q).getD (q - d) 0 = bs[q]'(by omega) := by
      rw [List.getD_eq_getElem?_getD, List.getElem?_take_of_lt (by omega), ← Nat.add_zero (q - d), ← hrep 0 n.succ_pos]
      simp [show q < bs.length by omega]
    rw [copyHistory, hlen, hbyte, List.take_append_getElem, ih (by omega) (by omega) fun i hi => ?_,
      Nat.add_right_comm, Nat.add_assoc]
    rw [Nat.add_right_comm, Nat.add_assoc, hrep (i + 1) (by omega), Nat.sub_add_comm hdq, Nat.add_right_comm, Nat.add_assoc]

/-! ## An expander set up like a parse -/

/-- The expander has a parse's direction, unit and pre-buffer, and its input length as capacity (R395); backward a parse has 8-bit units and no pre-buffer (R256). -/
structure ParseInput.SetUp (x : ParseInput) (e : Expander) : Prop where
  direction : e.direction = x.direction
  unit : e.unit.bytes = x.scan.u
  outCap : e.outCap.toNat = x.scan.text.length
  prebufSize : e.prebufSize.toNat = x.scan.pre.length
  backward : x.direction = .backward → x.scan.u = 1 ∧ x.scan.pre = []

/-- At scan position p the expander accepts a token of `len` bytes, and it prolongs the beginning of the virtual string by so many (R251, R394). -/
structure ParseInput.Prolongs (x : ParseInput) (e : Expander) (p : Nat) (t : TokenWords) (len : Nat) : Prop where
  accepts : e.Accepts t
  room : p + len ≤ x.scan.text.length
  length_eq : t.length.toNat = len
  extend : t.extend e.unit (x.scan.virtual.take (x.scan.pre.length + p)) = x.scan.virtual.take (x.scan.pre.length + (p + len))

/-- From scan position p the expander accepts a token list, and it prolongs the beginning of the virtual string to its end (R395). -/
structure ParseInput.Restores (x : ParseInput) (e : Expander) (p : Nat) (ts : List TokenWords) : Prop where
  acceptsAll : e.AcceptsAll ts
  sum_eq : p + (ts.map fun t => t.length.toNat).sum = x.scan.text.length
  history : ts.foldl (fun hist t => t.extend e.unit hist) (x.scan.virtual.take (x.scan.pre.length + p)) = x.scan.virtual

namespace ParseInput.SetUp

variable {x : ParseInput} {e : Expander} (h : x.SetUp e)
include h

theorem advance (t : TokenWords) : x.SetUp (e.advance t) := { h with }

theorem toNat_word {n : Nat} (hn : n ≤ x.scan.text.length) : (word n).toNat = n :=
  Nat.mod_eq_of_lt ((h.outCap ▸ hn).trans_lt e.outCap.isLt)

theorem reach_eq : (if e.direction = .forward then e.prebufSize.toNat else 0) = x.scan.pre.length := by
  rw [h.direction, h.prebufSize]
  cases hd : x.direction with
  | forward => rfl
  | backward => rw [(h.backward hd).2]; rfl

theorem pos_advance {p len : Nat} {t : TokenWords} (hp : e.pos.toNat = p) (ht : x.Prolongs e p t len) :
    (e.advance t).pos.toNat = p + len := by
  rw [Expander.advance, ht.length_eq, hp, h.toNat_word ht.room]

/-- The literal of a unit prolongs the virtual string by it (R297, R392). -/
theorem prolongs_literal {p : Nat} (hp : e.pos.toNat = p) (hroom : p + x.scan.u ≤ x.scan.text.length) :
    x.Prolongs e p (.ofToken (x.literalToken p)) x.scan.u := by
  have hslice : ((x.scan.text.drop p).take x.scan.u).length = e.unit.bytes := by simp [h.unit]; omega
  obtain ⟨hvalue, hbytes⟩ := literalBytes_unitValue hslice
  have hlength : (TokenWords.ofToken (x.literalToken p)).length.toNat = x.scan.u := h.toNat_word (by omega)
  have hkind : (TokenWords.ofToken (x.literalToken p)).kind = 0 := rfl
  have hsize : (TokenWords.ofToken (x.literalToken p)).size e = x.scan.u := by rw [TokenWords.size, if_pos hkind, h.unit]
  refine ⟨⟨.inl ⟨hkind, hlength.trans h.unit.symm, hvalue⟩, ?_, ?_⟩, hroom, hlength, ?_⟩
  · rwa [Expander.HasRoom, hsize, hp, h.outCap]
  · rw [Expander.InPlace, hsize, hp, h.direction, h.outCap]
    cases hd : x.direction with
    | forward =>
      simp only [TokenWords.ofToken, literalToken, hd, if_true]
      exact h.toNat_word (by omega)
    | backward =>
      obtain ⟨hu, -⟩ := h.backward hd
      simp only [TokenWords.ofToken, literalToken, hd, reduceCtorEq, if_false, hu]
      rw [h.toNat_word (by omega)]
      omega
  · rw [TokenWords.extend, if_pos hkind, ← Nat.add_assoc, List.take_add (i := x.scan.pre.length + p)]
    refine congrArg _ (hbytes.trans ?_)
    rw [Scan.virtual, List.drop_length_add_append]

/-- A legal match prolongs the virtual string by its length (R253, R393). -/
theorem prolongs_match {p d len : Nat} (hp : e.pos.toNat = p) (hleg : x.scan.Legal p d len) :
    x.Prolongs e p (.ofToken (x.matchToken p d len)) len := by
  obtain ⟨hd, hlen, hdu, hlenu, hroom, hback, hbytes, k, -, -, -, -, hmax⟩ := hleg
  have hvalue : (TokenWords.ofToken (x.matchToken p d len)).value.toNat = d :=
    Nat.mod_eq_of_lt (hmax.trans_lt k.2.maxDisp.isLt)
  have hlength : (TokenWords.ofToken (x.matchToken p d len)).length.toNat = len := h.toNat_word (by omega)
  have hkind : (TokenWords.ofToken (x.matchToken p d len)).kind ≠ 0 := show (1 : Word) ≠ 0 by decide
  have hsize : (TokenWords.ofToken (x.matchToken p d len)).size e = len := by
    rw [TokenWords.size, if_neg hkind, hlength]
  refine ⟨⟨.inr ⟨rfl, ?_⟩, ?_, ?_⟩, hroom, hlength, ?_⟩
  · simp only [hvalue, hlength, h.reach_eq, h.unit, hp]
    exact ⟨hd, hlen, hdu, hlenu, hback⟩
  · rwa [Expander.HasRoom, hsize, hp, h.outCap]
  · rw [Expander.InPlace, hsize, hp, h.direction, h.outCap]
    cases hd : x.direction <;> simp only [TokenWords.ofToken, matchToken, hd, reduceCtorEq, if_true, if_false] <;>
      exact h.toNat_word (by omega)
  · rw [TokenWords.extend, if_neg hkind, hvalue, hlength, ← Nat.add_assoc]
    exact copyHistory_take hd (by omega) (by rw [Scan.virtual, List.length_append]; omega) hbytes

end ParseInput.SetUp

theorem ParseInput.Prolongs.restores_cons {x : ParseInput} {e : Expander} {p len : Nat} {t : TokenWords}
    {ts : List TokenWords} (ht : x.Prolongs e p t len) (hts : x.Restores (e.advance t) (p + len) ts) :
    x.Restores e p (t :: ts) := by
  obtain ⟨hacc, -, hlen, hext⟩ := ht
  obtain ⟨hall, hsum, hhist⟩ := hts
  refine ⟨⟨hacc, hall⟩, ?_, ?_⟩
  · rw [List.map_cons, List.sum_cons, hlen, ← Nat.add_assoc, hsum]
  · rw [List.foldl_cons, hext]
    exact hhist

/-- The expander accepts the tokens of a covering, and they prolong the virtual string to its end (R300, R395). -/
theorem ParseInput.Covers.restores {x : ParseInput} {p k : Nat} {cs : List Choice} (hcov : x.Covers p k cs) {e : Expander}
    (h : x.SetUp e) (hp : e.pos.toNat = p) : x.Restores e p ((x.tokensOf p cs).map .ofToken) := by
  induction cs generalizing p k e with
  | nil =>
    obtain rfl : p = x.scan.text.length := hcov
    exact ⟨trivial, rfl, List.take_of_length_le (by rw [Scan.virtual, List.length_append])⟩
  | cons c cs ih =>
    cases c with
    | lit =>
      obtain ⟨hroom, hrest⟩ := hcov
      have ht := h.prolongs_literal hp hroom
      exact ht.restores_cons (ih hrest (h.advance _) (h.pos_advance hp ht))
    | copy d len =>
      obtain ⟨-, hleg, hrest⟩ := hcov
      have ht := h.prolongs_match hp hleg
      exact ht.restores_cons (ih hrest (h.advance _) (h.pos_advance hp ht))

/-! ## What LZ_PARSE leaves -/

/-- The state after an LZ_PARSE whose tokens fit (R299). -/
def State.parsed (s : State) : State :=
  ({ s with
    mem := s.mem.setWords s.mf.tokBase.toNat (s.parseInput.parse.2.flatMap Token.words)
    mf := { s.mf with
      tokCount := word s.parseInput.parse.2.length
      costLo := word s.parseInput.parse.1
      costHi := word (s.parseInput.parse.1 / 2 ^ 32) } } : State).complete

/-- An LZ_PARSE that ends without an error has written its tokens (R299). -/
theorem parsed_of_lzParse {s t : State} (h : exec .lzParse s = .next t) (herr : t.status.err = false) :
    s.FinderReady s.mf.tokWindow ∧ s.parseInput.parse.2.length ≤ s.mf.tokCap.toNat ∧ t = s.parsed := by
  by_cases hready : s.FinderReady s.mf.tokWindow
  · rw [exec_lzParse hready] at h
    split at h
    · obtain rfl := Host.Outcome.next.inj h
      exact absurd herr Bool.noConfusion
    · next hroom => exact ⟨hready, Nat.not_lt.1 hroom, (Host.Outcome.next.inj h).symm⟩
  · obtain ⟨e, he⟩ := Option.ne_none_iff_exists'.1 (mt finderChecks_eq_none.1 hready)
    obtain rfl := Host.Outcome.next.inj ((checked_of_some he).symm.trans h)
    exact absurd herr Bool.noConfusion

theorem getElem?_flatMap_words (ts : List Token) (i : Nat) {j : Nat} (hj : j < 4) :
    (ts.flatMap Token.words)[4 * i + j]? = ts[i]?.bind fun t => (Token.words t)[j]? := by
  induction ts generalizing i with
  | nil => simp
  | cons t ts ih =>
    have hlen : (Token.words t).length = 4 := rfl
    rw [List.flatMap_cons]
    cases i with
    | zero => rw [List.getElem?_append_left (by omega), Nat.mul_zero, Nat.zero_add]; rfl
    | succ i =>
      rw [List.getElem?_append_right (by omega), hlen, show 4 * (i + 1) + j - 4 = 4 * i + j by omega, ih,
        List.getElem?_cons_succ]

section
variable {s : State} (hready : s.FinderReady s.mf.tokWindow)
  (hroom : s.parseInput.parse.2.length ≤ s.mf.tokCap.toNat)
include hroom

theorem State.tokCount_parsed : s.parsed.mf.tokCount.toNat = s.parseInput.parse.2.length :=
  Nat.mod_eq_of_lt (hroom.trans_lt s.mf.tokCap.isLt)

/-- LZ_PARSE writes nothing outside the token window (R299). -/
theorem State.get_parsed {a : Nat} (ha : ¬ s.mf.tokWindow.Holds a) : s.parsed.mem.get a = s.mem.get a := by
  simp only [Window.Holds, Finder.tokWindow] at ha
  refine Memory.get_setWords_of_outside _ _ ?_
  rw [Token.length_flatMap_words]
  omega

/-- The expander reads the descriptors LZ_PARSE wrote (R150, R395). -/
theorem State.tokenList_setUpExpander_parsed (hm : s.mem.wf = true) (outBase : Word) :
    (s.parsed.setUpExpander outBase).tokenList = s.parseInput.parse.2.map .ofToken := by
  have hlen : (s.parsed.setUpExpander outBase).ex.tokCount.toNat = s.parseInput.parse.2.length :=
    State.tokCount_parsed hroom
  have hholds : s.parsed.mem.HoldsWords s.mf.tokBase.toNat (s.parseInput.parse.2.flatMap Token.words) :=
    Memory.holdsWords_setWords hm _ _
  refine List.ext_getElem (by rw [State.length_tokenList, hlen, List.length_map]) fun i hi hi' => ?_
  rw [List.length_map] at hi'
  have hword (j : Nat) (hj : j < 4) :
      s.parsed.mem.getWord (s.mf.tokBase.toNat + 16 * i + 4 * j) = (Token.words s.parseInput.parse.2[i])[j]'hj := by
    rw [Nat.add_assoc, show 16 * i + 4 * j = 4 * (4 * i + j) by omega]
    refine hholds _ _ ?_
    rw [getElem?_flatMap_words _ _ hj, List.getElem?_eq_getElem hi', Option.bind_some]
    exact List.getElem?_eq_getElem _
  simp only [State.tokenList_eq_map, List.getElem_map, List.getElem_range, State.tokenAt, TokenWords.ofToken,
    TokenWords.mk.injEq]
  exact ⟨hword 0 (by decide), hword 1 (by decide), hword 2 (by decide), hword 3 (by decide)⟩

include hready

/-- EX_STREAM's start checks pass on LZ_PARSE's tokens (R395, R397). -/
theorem State.exStreamReady_setUpExpander_parsed {outBase : Word}
    (hin : (s.parsed.setUpExpander outBase).ex.outWindow.Inside s.params.memSize)
    (hpre : (s.parsed.setUpExpander outBase).ex.outWindow.Apart (s.parsed.setUpExpander outBase).ex.preWindow)
    (htok : (s.parsed.setUpExpander outBase).ex.outWindow.Apart (s.parsed.setUpExpander outBase).ex.tokWindow) :
    (s.parsed.setUpExpander outBase).ExStreamReady := by
  obtain ⟨⟨-, hback, hunit, -⟩, hprein, -, htokin, -⟩ := hready
  refine ⟨⟨⟨hback, hunit, Nat.zero_le _⟩, hin, hprein, hpre⟩, ?_, htok⟩
  have hcount := State.tokCount_parsed hroom
  change 16 * s.parsed.mf.tokCount.toNat = 0 ∨
    s.mf.tokBase.toNat + 16 * s.parsed.mf.tokCount.toNat ≤ s.params.memSize
  have hwin : 16 * s.mf.tokCap.toNat = 0 ∨ s.mf.tokBase.toNat + 16 * s.mf.tokCap.toNat ≤ s.params.memSize := htokin
  omega

end

/-! ## The round trip -/

theorem State.length_scan_text (s : State) : s.scan.text.length = s.mf.inLen.toNat := by
  unfold State.scan scanText
  cases s.mf.opt.direction <;> simp

theorem State.length_scan_pre (s : State) : s.scan.pre.length = s.mf.prebufSize.toNat := Memory.length_getBytes _ _ _

theorem State.FinderOptionsOk.pre_eq_nil {s : State} (h : s.FinderOptionsOk) (hd : s.mf.opt.direction = .backward) :
    s.scan.pre = [] := by
  obtain ⟨-, hback, -⟩ := h
  rw [← List.length_eq_zero_iff, s.length_scan_pre, (hback hd).2]
  rfl

theorem State.FinderOptionsOk.aligned_scan {s : State} (h : s.FinderOptionsOk) : s.scan.Aligned := by
  obtain ⟨-, -, hpre, htext⟩ := h
  refine ⟨?_, by rwa [s.length_scan_text], by rwa [s.length_scan_pre]⟩
  change s.mf.opt.unit.bytes = 1 ∨ s.mf.opt.unit.bytes = 2
  cases s.mf.opt.unit <;> simp [UnitSize.bytes]

theorem State.FinderOptionsOk.setUp {s : State} (h : s.FinderOptionsOk) (outBase : Word) :
    s.parseInput.SetUp (s.parsed.setUpExpander outBase).ex := by
  refine ⟨rfl, rfl, s.length_scan_text.symm, s.length_scan_pre.symm, fun hd => ⟨?_, h.pre_eq_nil hd⟩⟩
  obtain ⟨-, hback, -⟩ := h
  change s.mf.opt.unit.bytes = 1
  rw [(hback hd).1]
  rfl

/-- With nothing written yet the expander's history is the parse's pre-buffer (R251, R390). -/
theorem State.history_setUpExpander_parsed {s : State} (hready : s.FinderReady s.mf.tokWindow)
    (hroom : s.parseInput.parse.2.length ≤ s.mf.tokCap.toNat) (outBase : Word) :
    (s.parsed.setUpExpander outBase).ex.history s.parsed.mem = s.scan.pre := by
  obtain ⟨hopt, -, -, -, hpre, -⟩ := hready
  have hkept : s.parsed.mem.getBytes s.mf.prebufBase.toNat s.mf.prebufSize.toNat = s.scan.pre :=
    Memory.getBytes_congr fun x h1 h2 => State.get_parsed hroom (by
      simp only [Window.Apart, Window.Holds, Finder.tokWindow, Finder.preWindow] at hpre ⊢
      omega)
  unfold Expander.history
  cases hd : s.mf.opt.direction with
  | forward =>
    rw [show (s.parsed.setUpExpander outBase).ex.direction = .forward from hd]
    exact (List.append_nil _).trans hkept
  | backward =>
    rw [show (s.parsed.setUpExpander outBase).ex.direction = .backward from hd, hopt.pre_eq_nil hd]
    rfl

/-- A full output whose history is the virtual string holds the input (R251, R255, R390). -/
theorem State.output_eq_input {s : State} (h : s.FinderOptionsOk) {outBase : Word} {m : Memory}
    (hhist : ({ (s.parsed.setUpExpander outBase).ex with pos := s.mf.inLen } : Expander).history m = s.scan.virtual) :
    m.getBytes outBase.toNat s.mf.inLen.toNat = s.mem.getBytes s.mf.inBase.toNat s.mf.inLen.toNat := by
  unfold Expander.history at hhist
  have htext : s.scan.text = scanText s.mf.opt.direction (s.mem.getBytes s.mf.inBase.toNat s.mf.inLen.toNat) := rfl
  cases hd : s.mf.opt.direction with
  | forward =>
    rw [show (s.parsed.setUpExpander outBase).ex.direction = .forward from hd, Scan.virtual, htext, hd] at hhist
    exact (List.append_inj hhist (by rw [Memory.length_getBytes, s.length_scan_pre]; rfl)).2
  | backward =>
    rw [show (s.parsed.setUpExpander outBase).ex.direction = .backward from hd, Scan.virtual, h.pre_eq_nil hd, htext,
      hd, List.nil_append] at hhist
    have hbytes := List.reverse_injective hhist
    dsimp only [State.setUpExpander] at hbytes
    rwa [show s.parsed.mf.inLen = s.mf.inLen from rfl, Nat.sub_self, Nat.add_zero] at hbytes

/-- Settles O41: the parse is a covering (R300), whose tokens EX_STREAM expands to the virtual string. -/
theorem expanderRoundTrip : Obligations.ExpanderRoundTrip := by
  unfold Obligations.ExpanderRoundTrip
  intro s t outBase hm herr hparse hterr e hin hpre htok
  obtain ⟨hready, hroom, rfl⟩ := parsed_of_lzParse hparse hterr
  obtain ⟨hopt, -⟩ := id hready
  obtain ⟨cs, hcov, htoks, -⟩ := parseIsValid s.parseInput hopt.aligned_scan
  obtain ⟨hacc, hsum, hfold⟩ := hcov.restores (hopt.setUp outBase) rfl
  rw [← htoks, ← State.tokenList_setUpExpander_parsed hroom hm outBase] at hacc hsum hfold
  have hstream : e.complete.ExStreamReady := State.exStreamReady_setUpExpander_parsed hready hroom hin hpre htok
  have hwf : e.complete.mem.wf = true := Memory.wf_setWords hm _ _
  obtain ⟨hexpands, -⟩ := exStreamExpands e.complete hstream
  obtain ⟨m, hexec, -, hhist⟩ := hexpands hacc hwf
  have hpos : word (e.complete.ex.pos.toNat + (e.complete.tokenList.map fun t => t.length.toNat).sum) = s.mf.inLen :=
    (congrArg word (hsum.trans s.length_scan_text)).trans (word_toNat _)
  have hstart : e.complete.ex.history e.complete.mem = s.scan.virtual.take s.scan.pre.length :=
    (State.history_setUpExpander_parsed hready hroom outBase).trans List.take_left.symm
  rw [hpos, hstart] at hhist
  exact ⟨e.complete, _, rfl, hexec, herr, hpos, State.output_eq_input hopt (hhist.trans hfold)⟩

end Sys2Proof.Machine
end

section
/-! The errors of every command: which kinds it raises, and after which of them the state is as before but for STATUS and ERR_POS (60_exceptions.md R421 to R424). -/

namespace Sys2Proof.Machine

/-! ## Start checks -/

/-- A check that fails reports one of the kinds ks. -/
def Reports (ks : List ErrKind) (c : Option Err) : Prop := ∀ e, c = some e → e.1 ∈ ks

theorem reports_failIf {ks : List ErrKind} {bad : Bool} {k : ErrKind} {p : Word} :
    Reports ks (failIf bad k p) ↔ (bad = true → k ∈ ks) := by
  simp only [Reports, failIf_eq_some]
  exact ⟨fun h hbad => h _ ⟨hbad, rfl⟩, fun h _ ⟨hbad, he⟩ => he ▸ h hbad⟩

theorem reports_windowErr {ks : List ErrKind} (h : .invalidRange ∈ ks) (n : Nat) (w : Window) :
    Reports ks (windowErr n w) :=
  reports_failIf.2 fun _ => h

theorem reports_overlapErr {ks : List ErrKind} (h : .invalidRange ∈ ks) (a b : Window) : Reports ks (overlapErr a b) :=
  reports_failIf.2 fun _ => h

theorem reports_noTreeErr {ks : List ErrKind} (h : .illegalCommand ∈ ks) (s : State) (i : Instr) :
    Reports ks (s.noTreeErr i) :=
  reports_failIf.2 fun _ => h

theorem reports_finderChecks {ks : List ErrKind} (hu : .unsupportedOperation ∈ ks) (hr : .invalidRange ∈ ks)
    (s : State) (out : Window) : ∀ c ∈ s.finderChecks out, Reports ks c := by
  simp [State.finderChecks, reports_failIf, reports_windowErr hr, reports_overlapErr hr, hu, hr]

theorem reports_expanderChecks {ks : List ErrKind} (hr : .invalidRange ∈ ks) (s : State) (toks : List Window) :
    ∀ c ∈ s.expanderChecks toks, Reports ks c := by
  simp only [State.expanderChecks, List.mem_append, List.mem_cons, List.mem_map, List.not_mem_nil, or_false]
  rintro _ (((h | ⟨w, -, rfl⟩) | rfl) | ⟨w, -, rfl⟩)
  · obtain rfl | rfl | rfl | rfl | rfl := h
    all_goals exact reports_failIf.2 fun _ => hr
  · exact reports_windowErr hr _ w
  · exact reports_overlapErr hr _ _
  · exact reports_overlapErr hr _ w

/-! ## What a command's error leaves -/

/-- The error kinds after which a command has left bytes or registers of its own changed (R424); every other error leaves STATUS and ERR_POS alone changed. -/
def kindsAfterEffects : Instr → List ErrKind
  | .brRead _ | .brReadInt _ => [.truncatedInput]
  | .bwWrite _ | .bwFlush | .mfFind | .lzParse => [.outOfRangeWrite]
  | .hfEncode | .hfEncodeBuf | .exStream => [.malformedToken, .outOfRangeWrite]
  | .hfDecode => [.truncatedInput, .malformedToken]
  | .hfDecodeBuf => [.outOfRangeWrite, .truncatedInput, .malformedToken]
  | .nop | .brReset | .brAlign | .bwReset | .bwWriteInt _ | .hfCount | .hfBuild | .hfLoad
  | .exReset | .exLit | .exMatch => []

/-- An error that comes after effects is in the command's row of R421, and is none of the kinds that only the decoder and steps 1 to 4 of R422 raise. -/
theorem of_mem_kindsAfterEffects {i : Instr} : ∀ k ∈ kindsAfterEffects i, k ∈ mayRaise i ∧
    k.code ∉ [ErrKind.invalidRange.code, ErrKind.unsupportedOperation.code, ErrKind.illegalCommand.code] := by
  cases i <;> simp [kindsAfterEffects, mayRaise, ErrKind.code]

/-- How a command ends in its outcome o: without an error, with an error that leaves the state as it was, or with an error after effects. -/
inductive Ends (s : State) (i : Instr) (o : Host.Outcome State Fault Refusal) : Prop
  | completed (u : State) (hstatus : u.status = s.status) (ho : o = .next u.complete)
  | raised (e : Err) (he : e.1 ∈ mayRaise i) (ho : o = .next (s.raise e))
  | raisedAfter (u : State) (e : Err) (he : e.1 ∈ kindsAfterEffects i) (ho : o = .next (u.raise e))

namespace Ends

variable {s u : State} {i : Instr} {k : ErrKind} {p : Word}

theorem complete (h : u.status = s.status) : Ends s i (.next u.complete) := .completed u h rfl

theorem raise (h : k ∈ mayRaise i) : Ends s i (.next (s.raise (k, p))) := .raised _ h rfl

theorem raiseAfter (h : k ∈ kindsAfterEffects i) : Ends s i (.next (u.raise (k, p))) := .raisedAfter u _ h rfl

/-- A start check that fails leaves the state as it was (R423). -/
theorem checked {cs : List (Option Err)} {body : Host.Outcome State Fault Refusal}
    (hcs : ∀ c ∈ cs, Reports (mayRaise i) c) (hbody : Ends s i body) : Ends s i (s.checked cs body) := by
  obtain ⟨e, he, hc⟩ | ⟨-, hc⟩ := checked_cases s cs body
  · rw [hc]
    exact raise (hcs _ (mem_of_firstErr_eq_some he) e rfl)
  · rwa [hc]

end Ends

/-! ## STATUS while a command runs -/

theorem ReadsFrom.status_eq {s t : State} (h : ReadsFrom s t) : t.status = s.status := by
  obtain ⟨_, _, _, _, rfl⟩ := h
  rfl

theorem WritesInto.status_eq {s t : State} (h : WritesInto s t) : t.status = s.status := by
  obtain ⟨_, _, _, _, _, rfl, -⟩ := h
  rfl

theorem ExpandsInto.status_eq {s t : State} (h : ExpandsInto s t) : t.status = s.status := by
  obtain ⟨_, _, rfl, -⟩ := h
  rfl

theorem DecodesInto.status_eq {s t : State} (h : DecodesInto s t) : t.status = s.status := by
  obtain ⟨_, _, hread, -⟩ := h
  exact hread.status_eq

/-! ## Reader commands -/

theorem execBrRead_ends {n : BitVec 6} (hn : n.toNat ≤ 32) (s : State) : Ends s (.brRead n) (execBrRead n s) := by
  refine .checked ?_ ?_
  · simp [reports_failIf, reports_windowErr, mayRaise, hn]
  · split
    · exact .raiseAfter (List.mem_singleton_self _)
    · next bs t h => exact .complete ((readBits_readsFrom _ s).2 bs t h).status_eq

theorem execBrReadInt_ends (w : BitVec 2) (s : State) : Ends s (.brReadInt w) (execBrReadInt w s) := by
  refine .checked ?_ ?_
  · simp [reports_failIf, reports_windowErr, mayRaise]
  · split
    · exact .raiseAfter (List.mem_singleton_self _)
    · exact .complete rfl

/-! ## Writer commands -/

theorem execBwWrite_ends {n : BitVec 6} (hn : n.toNat ≤ 32) (s : State) : Ends s (.bwWrite n) (execBwWrite n s) := by
  refine .checked ?_ ?_
  · simp [reports_failIf, reports_windowErr, mayRaise, hn]
  · split
    · exact .raiseAfter (List.mem_singleton_self _)
    · next t h => exact .complete ((putBits_writesInto _ s).2 t h).status_eq

theorem execBwFlush_ends (s : State) : Ends s .bwFlush (execBwFlush s) := by
  refine .checked ?_ ?_
  · simp [reports_windowErr, mayRaise]
  · split
    · exact .complete rfl
    · obtain ⟨-, h⟩ | ⟨-, t, h, ht⟩ := emitUnit_cases s
      · rw [h]
        exact .raiseAfter (List.mem_singleton_self _)
      · rw [h]
        exact .complete ht.status_eq

theorem execBwWriteInt_ends (w : BitVec 2) (s : State) : Ends s (.bwWriteInt w) (execBwWriteInt w s) := by
  refine .checked ?_ ?_
  · simp [reports_failIf, reports_windowErr, mayRaise]
  · split
    · exact .raise (by simp [mayRaise])
    · exact .complete rfl

/-! ## Finder and parser -/

theorem execMfFind_ends (s : State) : Ends s .mfFind (execMfFind s) := by
  refine .checked ?_ ?_
  · rw [List.forall_mem_append, List.forall_mem_singleton]
    exact ⟨reports_finderChecks (by decide) (by decide) s _, reports_failIf.2 fun _ => by decide⟩
  · dsimp only
    split
    · exact .raiseAfter (List.mem_singleton_self _)
    · exact .complete rfl

theorem execLzParse_ends (s : State) : Ends s .lzParse (execLzParse s) := by
  refine .checked (reports_finderChecks (by decide) (by decide) s _) ?_
  dsimp only
  split
  · exact .raiseAfter (List.mem_singleton_self _)
  · exact .complete rfl

/-! ## Counting, building and loading -/

theorem execHfCount_ends (s : State) : Ends s .hfCount (execHfCount s) := by
  refine .checked ?_ (.complete rfl)
  simp [reports_failIf, reports_windowErr, reports_overlapErr, mayRaise]

theorem execHfBuild_ends (s : State) : Ends s .hfBuild (execHfBuild s) := by
  refine .checked ?_ ?_
  · simp [reports_failIf, reports_windowErr, reports_overlapErr, mayRaise]
  · split
    · exact .raise (by decide)
    · exact .complete rfl

theorem execHfLoad_ends (s : State) : Ends s .hfLoad (execHfLoad s) := by
  refine .checked ?_ ?_
  · simp [reports_failIf, reports_windowErr, mayRaise]
  · dsimp only
    split
    · exact .raise (by decide)
    · exact .complete rfl

/-! ## Encoding -/

theorem encodeSymbols_error_kind {s f : State} {j : Nat} {syms : List Nat} {e : Err}
    (h : encodeSymbols s j syms = .error (e, f)) : e.1 ∈ [ErrKind.malformedToken, .outOfRangeWrite] := by
  induction syms generalizing s j with
  | nil => cases h
  | cons sym syms ih =>
    rw [encodeSymbols] at h
    split at h
    · cases h
      simp
    · split at h
      · cases h
        simp
      · exact ih h

theorem execHfEncode_ends (s : State) : Ends s .hfEncode (execHfEncode s) := by
  refine .checked ?_ ?_
  · simp [reports_noTreeErr, reports_windowErr, mayRaise]
  · dsimp only
    split
    · exact .raiseAfter (by decide)
    · split
      · exact .raiseAfter (by decide)
      · next t h => exact .complete ((emitCode_writesInto s _).2 t h).status_eq

theorem execHfEncodeBuf_ends (s : State) : Ends s .hfEncodeBuf (execHfEncodeBuf s) := by
  refine .checked ?_ ?_
  · simp [reports_noTreeErr, reports_windowErr, reports_overlapErr, mayRaise]
  · split
    · next h => exact .raiseAfter (encodeSymbols_error_kind h)
    · next t h => exact .complete ((encodeSymbols_writesInto _ s 0).2 t h).status_eq

/-! ## Decoding -/

theorem walkTree_error_kind {k : Word} {fuel i : Nat} {s f : State} {e : Err}
    (h : walkTree k fuel i s = .error (e, f)) : e.1 ∈ [ErrKind.truncatedInput, .malformedToken] := by
  induction fuel generalizing i s with
  | zero =>
    cases h
    simp
  | succ fuel ih =>
    rw [walkTree] at h
    split at h
    · cases h
      simp
    · split at h
      · cases h
      · split at h
        · cases h
          simp
        · exact ih h

theorem decodeSymbol_error_kind {k : Word} {s f : State} {e : Err} (h : decodeSymbol k s = .error (e, f)) :
    e.1 ∈ [ErrKind.truncatedInput, .malformedToken] := by
  unfold decodeSymbol at h
  split at h
  · cases h
    simp
  · split at h
    · next hw =>
      cases h
      exact walkTree_error_kind hw
    · split at h
      · cases h
        simp
      · cases h

theorem decodeSymbols_error_kind {count k : Nat} {s f : State} {e : Err} (h : decodeSymbols count k s = .error (e, f)) :
    e.1 ∈ [ErrKind.outOfRangeWrite, .truncatedInput, .malformedToken] := by
  induction count generalizing k s with
  | zero => cases h
  | succ count ih =>
    rw [decodeSymbols] at h
    dsimp only at h
    split at h
    · cases h
      simp
    · split at h
      · next hd =>
        cases h
        exact List.mem_cons_of_mem _ (decodeSymbol_error_kind hd)
      · exact ih h

theorem execHfDecode_ends (s : State) : Ends s .hfDecode (execHfDecode s) := by
  refine .checked ?_ ?_
  · simp [reports_noTreeErr, reports_windowErr, mayRaise]
  · split
    · next h => exact .raiseAfter (decodeSymbol_error_kind h)
    · next sym t h => exact .complete (decodeSymbol_readsFrom _ h).status_eq

theorem execHfDecodeBuf_ends (s : State) : Ends s .hfDecodeBuf (execHfDecodeBuf s) := by
  refine .checked ?_ ?_
  · simp [reports_noTreeErr, reports_windowErr, reports_overlapErr, mayRaise]
  · split
    · next h => exact .raiseAfter (decodeSymbols_error_kind h)
    · next t h => exact .complete ((DecodesInto.setDstPos s 0).trans (decodeSymbols_decodesInto _ _ h)).status_eq

/-! ## The expander -/

theorem expandToken_error_kind {s : State} {k pos x len : Word} {e : ErrKind}
    (h : s.expandToken k pos x len = .error e) : e ∈ [ErrKind.malformedToken, .outOfRangeWrite] := by
  unfold State.expandToken at h
  dsimp only at h
  repeat' split at h
  all_goals cases h <;> simp

theorem expandStream_error_kind {n i : Nat} {s : State} {e : Err} (h : expandStream n i s = .error e) :
    e.1 ∈ [ErrKind.malformedToken, .outOfRangeWrite] := by
  induction n generalizing i s with
  | zero => cases h
  | succ n ih =>
    rw [expandStream] at h
    split at h
    · next he =>
      cases h
      exact expandToken_error_kind he
    · exact ih h

theorem execExLit_ends (s : State) : Ends s .exLit (execExLit s) := by
  refine .checked (reports_expanderChecks (by decide) s _) ?_
  split
  · exact .raise (by decide)
  · exact .complete rfl

theorem execExMatch_ends (s : State) : Ends s .exMatch (execExMatch s) := by
  refine .checked (reports_expanderChecks (by decide) s _) ?_
  split
  · exact .raise (by decide)
  · split
    · exact .raise (by decide)
    · exact .complete rfl

theorem execExStream_ends (s : State) : Ends s .exStream (execExStream s) := by
  refine .checked (reports_expanderChecks (by decide) s _) ?_
  split
  · next h => exact .raiseAfter (expandStream_error_kind h)
  · next t h => exact .complete (expandStream_expandsInto _ _ h).status_eq

/-! ## Every command -/

/-- Every well-formed command ends in one of the three ways. -/
theorem exec_ends {i : Instr} (hwf : i.wf = true) (s : State) : Ends s i (exec i s) :=
  match i with
  | .nop | .brReset | .brAlign | .bwReset | .exReset => .complete rfl
  | .brRead _ => execBrRead_ends (of_decide_eq_true hwf) s
  | .brReadInt w => execBrReadInt_ends w s
  | .bwWrite _ => execBwWrite_ends (of_decide_eq_true hwf) s
  | .bwFlush => execBwFlush_ends s
  | .bwWriteInt w => execBwWriteInt_ends w s
  | .mfFind => execMfFind_ends s
  | .lzParse => execLzParse_ends s
  | .hfCount => execHfCount_ends s
  | .hfBuild => execHfBuild_ends s
  | .hfLoad => execHfLoad_ends s
  | .hfEncode => execHfEncode_ends s
  | .hfEncodeBuf => execHfEncodeBuf_ends s
  | .hfDecode => execHfDecode_ends s
  | .hfDecodeBuf => execHfDecodeBuf_ends s
  | .exLit => execExLit_ends s
  | .exMatch => execExMatch_ends s
  | .exStream => execExStream_ends s

/-- An error of a well-formed command leaves the state as it was, or it is a kind that comes after effects. -/
theorem exec_error {i : Instr} {s t : State} (hwf : i.wf = true) (hs : s.status.err = false) (h : exec i s = .next t)
    (herr : t.status.err = true) :
    (∃ e, e.1 ∈ mayRaise i ∧ t = s.raise e) ∨ ∃ k ∈ kindsAfterEffects i, t.status.errCode = k.code := by
  obtain ⟨u, hstatus, ho⟩ | ⟨e, he, ho⟩ | ⟨u, e, he, ho⟩ := exec_ends hwf s
  · obtain rfl : t = u.complete := Host.Outcome.next.inj (h.symm.trans ho)
    have hu : u.status.err = true := herr
    rw [hstatus, hs] at hu
    exact absurd hu Bool.false_ne_true
  · exact .inl ⟨e, he, Host.Outcome.next.inj (h.symm.trans ho)⟩
  · obtain rfl : t = u.raise e := Host.Outcome.next.inj (h.symm.trans ho)
    exact .inr ⟨e.1, he, rfl⟩

/-- Settles O6: the kinds of the start checks, and the kinds that come after effects. -/
theorem errorKindsOfEachCommand : Obligations.ErrorKindsOfEachCommand := by
  unfold Obligations.ErrorKindsOfEachCommand
  intro i s t hwf hs h herr
  obtain ⟨e, he, rfl⟩ | ⟨k, hk, hcode⟩ := exec_error hwf hs h herr
  · exact ⟨e.1, he, rfl⟩
  · exact ⟨k, (of_mem_kindsAfterEffects k hk).1, hcode⟩

/-- An accepted word whose error is of a kind that only the decoder and steps 1 to 4 of R422 raise, or whose command is HF_COUNT, HF_BUILD or HF_LOAD, has raised that error and done nothing else. -/
theorem exists_raise_of_issue {s t : State} {c : Word} (hacc : s.status.accepts = true) (h : s.issue c = .next t)
    (herr : t.status.err = true)
    (hearly : t.status.errCode ∈
        [ErrKind.invalidRange.code, ErrKind.unsupportedOperation.code, ErrKind.illegalCommand.code] ∨
      decode c = .ok .hfCount ∨ decode c = .ok .hfBuild ∨ decode c = .ok .hfLoad) : ∃ e, t = s.accept.raise e := by
  cases hc : decode c with
  | error r =>
    rw [State.issue, if_pos hacc, hc] at h
    exact ⟨(.illegalCommand, c), (Host.Outcome.next.inj h).symm⟩
  | ok i =>
    rw [issue_of_decode hacc hc] at h
    obtain ⟨hwf, -⟩ := wf_and_encode_of_decode hc
    obtain ⟨-, hs⟩ := Status.accepts_eq_true_iff.1 hacc
    obtain ⟨e, -, ht⟩ | ⟨k, hk, hcode⟩ := exec_error (s := s.accept) hwf hs h herr
    · exact ⟨e, ht⟩
    · obtain hcodes | hi := hearly
      · exact absurd (hcode ▸ hcodes) (of_mem_kindsAfterEffects k hk).2
      · simp only [hc, Except.ok.injEq] at hi
        obtain rfl | rfl | rfl := hi
        all_goals exact absurd hk List.not_mem_nil

/-- Settles O18: the error is all that the accepted word has done, and `State.raise` sets STATUS and ERR_POS. -/
theorem earlyErrorsChangeNothing : Obligations.EarlyErrorsChangeNothing := by
  unfold Obligations.EarlyErrorsChangeNothing
  intro s t rest c hhost hbusy hs hstep herr hearly
  rw [step_cmdWrite hhost] at hstep
  have hacc : ({ s with host := rest } : State).status.accepts = true := Status.accepts_eq_true_iff.2 ⟨hbusy, hs⟩
  obtain ⟨e, rfl⟩ := exists_raise_of_issue hacc hstep herr hearly
  rfl

/-! ## The interrupt line -/

/-- A command ends with DONE = 1 and the interrupt enables as they were (R182, R36). -/
theorem exec_done_and_ctrl {i : Instr} {s t : State} (h : exec i s = .next t) :
    t.status.done = true ∧ t.ctrl = s.ctrl := by
  obtain ⟨u, ⟨hregs, -⟩, rfl | ⟨e, rfl⟩⟩ := (exec_endsIn i s).cases h
  · exact ⟨rfl, hregs.sameConfig.ctrl⟩
  · exact ⟨rfl, hregs.sameConfig.ctrl⟩

theorem irq_drop (s : State) : s.drop.irq = s.irq := rfl

theorem irq_writeStatus (s : State) (v : Word) : (s.writeStatus v).irq =
    ((s.status.done && !v.getLsbD 1 && s.ctrl.irqEnDone) || (s.status.err && !v.getLsbD 2 && s.ctrl.irqEnErr)) := rfl

theorem irq_writeCtrl {s : State} {v : Word} (h : v.getLsbD 31 = false) : (s.writeCtrl v).irq =
    ((s.status.done && v.getLsbD 0) || (s.status.err && v.getLsbD 1)) := by
  rw [State.writeCtrl, if_neg (ne_true_of_eq_false h)]
  rfl

/-- Settles O11: the line is a function of DONE, ERR and the two enables, which each of the four steps sets or keeps. -/
theorem interruptLine : Obligations.InterruptLine := by
  unfold Obligations.InterruptLine
  constructor
  · intro i s t _ h
    obtain ⟨hdone, hctrl⟩ := exec_done_and_ctrl h
    rw [State.irq, hdone, hctrl, Bool.true_and]
  · intro s t rest v hstep
    refine ⟨fun hhost => ?_, fun hhost hkeep => ?_, fun hhost herr => ?_⟩
    · rw [step_regWrite hhost (by decide) (by decide) (by decide)] at hstep
      obtain rfl := Host.Outcome.next.inj hstep
      exact irq_writeStatus _ v
    · rw [step_regWrite hhost (by decide) (by decide) (by decide)] at hstep
      obtain rfl := Host.Outcome.next.inj hstep
      exact irq_writeCtrl hkeep
    · have hacc : ¬ s.status.accepts = true := by simp [Status.accepts, herr]
      rw [step_cmdWrite_of_not_accepts hhost hacc] at hstep
      obtain rfl := Host.Outcome.next.inj hstep
      exact irq_drop _

end Sys2Proof.Machine
end

section
/-! The state after reset, the reset input and the soft reset (70_reset_and_hazards.md R460 to R462). -/

namespace Sys2Proof.Machine

/-! ## Reset values -/

/-- No register keeps anything of the state before the reset. -/
theorem readReg_resetBlock (s : State) (off : Nat) : s.resetBlock.readReg off = State.reset.readReg off := rfl

/-- Every register but ID and VERSION resets to 0, and so does every offset no row names (R462, R30). -/
theorem readReg_reset {off : Nat} (hid : off ≠ 0x000) (hversion : off ≠ 0x004) : State.reset.readReg off = 0 := by
  unfold State.readReg
  split
  · exact absurd rfl hid
  · exact absurd rfl hversion
  all_goals rfl

theorem resetBlock_cleared (s : State) : s.resetBlock.Cleared := by
  refine ⟨fun k _ => ?_, rfl, fun _ => rfl, rfl⟩
  rw [readReg_resetBlock]
  split_ifs with hid hversion
  · rw [hid]
    rfl
  · rw [hversion]
    rfl
  · exact readReg_reset (by omega) (by omega)

/-! ## Reset steps -/

theorem step_resetInput {s : State} {rest : List HostOp} (h : s.host = .resetInput :: rest) :
    step s = .next ({ s with host := rest } : State).resetBlock :=
  step_of_host h

/-- A CTRL write with bit 31 = 1 has the effect of the reset input (R461). -/
theorem step_softReset {s : State} {rest : List HostOp} {v : Word} (h : s.host = .regWrite 0x008 4 v :: rest)
    (hreset : v.getLsbD 31 = true) : step s = .next ({ s with host := rest } : State).resetBlock :=
  (ctrlWrite s rest v h).1 hreset

/-- Settles O10: the reset state is what `resetBlock` leaves of itself, and both resets are steps to `resetBlock`. -/
theorem resetValues : Obligations.ResetValues := by
  unfold Obligations.ResetValues
  refine ⟨resetBlock_cleared State.reset, fun s rest v h => ⟨_, ?_, resetBlock_cleared { s with host := rest }, rfl⟩⟩
  obtain hinput | ⟨hwrite, hreset⟩ := h
  · exact step_resetInput hinput
  · exact step_softReset hwrite hreset

/-! ## The invariant -/

/-- Settles O20: MEM_SIZE is the largest R6 admits, memory lists no byte, and STATUS, ERR_POS and RESULT_HI are 0. -/
theorem resetMeetsInv : Obligations.ResetMeetsInv := by
  unfold Obligations.ResetMeetsInv
  exact {
    params := ⟨by decide, Nat.le_refl _⟩
    memWf := rfl
    memBelow := rfl
    idle := rfl
    noErr := fun _ => ⟨rfl, rfl⟩
    errCode := fun herr => absurd herr Bool.false_ne_true
    resultHi := rfl }

end Sys2Proof.Machine
end
